-- ==== Sys2Proof/Word.lean ====
section
/-! DEFINITION. The word types of the Alvegar 740's link and registers (spec chapter 11: fields of 1, 2, 4 and 8 bytes). -/

namespace Sys2Proof

/-- One byte of a frame. -/
abbrev Byte := BitVec 8
/-- A two-byte field. -/
abbrev Half := BitVec 16
/-- A four-byte field, a 32-bit counter, a time stamp or a chainage. -/
abbrev Word := BitVec 32
/-- The odometer and the mark targets (R37, R145). -/
abbrev DWord := BitVec 64

end Sys2Proof
end

