-- ==== Sys2Proof/Syntax.lean ====
section
/-! DEFINITION. The commands of the Alvegar 740: one constructor per row of spec/opcode_table.json. -/

namespace Sys2Proof

/-- The two ports of the survey link (chapter 1). -/
inductive Port where
  | A
  | B
  deriving DecidableEq, Repr

/-- The car's own sides: MARK_L and MARK_R (R147). -/
inductive Side where
  | left
  | right
  deriving DecidableEq, Repr

/-- A command: an event that reaches the 740 from outside, or one of its own steps (spec/95_what_each_step_holds.md).

`wait` is the time in µs that passes before an event from outside (log entry 2). A timer's expiry needs none:
its moment is when that timer runs out. A request command handles the request at the head of the intake (R169),
whose frame holds the request's fields. -/
inductive Instr where
  /-- RESET_N asserted, or power-on, with the levels on ADDR[2:0] (R4) and on ENC_A, ENC_B (R35). -/
  | hardwareReset (straps : BitVec 3) (encA encB : Bool)
  /-- A port's receiver gains symbol lock (R1). -/
  | portUp (wait : Nat) (port : Port)
  /-- A port's receiver loses symbol lock, with or without a frame partly received (R1). -/
  | portDown (wait : Nat) (port : Port) (partlyReceived : Bool)
  /-- A delimited frame ends at port A: the bytes between its delimiters (R2, R6). -/
  | portAReceive (wait : Nat) (bytes : List Byte)
  /-- A delimited frame ends at port B (R2, R8). -/
  | portBReceive (wait : Nat) (bytes : List Byte)
  /-- The last byte of the frame in progress on port A is sent (R11). -/
  | portATransmitEnd (wait : Nat)
  /-- The last byte of the frame in progress on port B is sent (R14). -/
  | portBTransmitEnd (wait : Nat)
  /-- The pause timer runs out (R15). -/
  | pauseExpiry
  /-- The levels on the encoder inputs become `encA`, `encB` (R33). -/
  | encoderChange (wait : Nat) (encA encB : Bool)
  /-- The time base stands 2^31 µs beyond the previous stamp (R47). -/
  | stampValidTimeout
  /-- The time base reaches the deadline of the OPEN entry of `station` (R61). -/
  | deadlineExpiry (station : Nat)
  /-- The pulse of a marking output runs out (R151). -/
  | markPulseExpiry (side : Side)
  /-- The flush timer runs out (R158). -/
  | flushTimerExpiry
  /-- The drain completes (R27). -/
  | drainComplete
  | queryStatus
  | clearStatus
  | setParam
  | getParam
  | tableOpen
  | tableLine
  | tableApply
  | tableAbort
  | readEntry
  | runStart
  | runStop
  | setChainage
  | readCounters
  | softReset
  | unknownRequest
  deriving DecidableEq, Repr

end Sys2Proof
end

