-- ==== Sys2Proof/Config.lean ====
section
/-! DEFINITION. What the part fixes (the capacities of chapter 00, "Capacities and ranges"; the silicon revision of R171) and the one free value. -/

namespace Sys2Proof.Config

/-- Frames in each forward queue (R10). -/
abbrev forwardCapacity : Nat := 8
/-- FIRE frames at the port A transmitter (R11). -/
abbrev fireCapacity : Nat := 8
/-- Stations in the pending station table (R60). -/
abbrev pendingCapacity : Nat := 8
/-- Requests in the request intake (R9). -/
abbrev intakeCapacity : Nat := 4
/-- Responses in the response queue, a reserved place included (R169). -/
abbrev responseCapacity : Nat := 4
/-- Notes in the event queue (R164). -/
abbrev eventCapacity : Nat := 16
/-- Records in the exception queue (R139). -/
abbrev exceptionCapacity : Nat := 64
/-- GEOMETRY frames in the geometry queue (R161). -/
abbrev geometryCapacity : Nat := 8
/-- Entries of a batch (R155). -/
abbrev batchCapacity : Nat := 16
/-- Stations a void run covers at most (R155). -/
abbrev voidRunLimit : Nat := 127
/-- Entries of the mark queue (R148). -/
abbrev markCapacity : Nat := 16
/-- Stations the ring holds at most (R20, R80). -/
abbrev ringCapacity : Nat := 512
/-- The silicon revision that the manual describes and QUERY_STATUS reports (R171). -/
abbrev partRevision : Nat := 1

/-- FREE VALUE (log entry 4): which of several events that come due together inside the 740 is taken first.
The spec gives the outcome of either order and names no order (R15, R64, R151, R158, R169). -/
opaque freeOrder : Nat → Nat

end Sys2Proof.Config
end

