-- ==== Sys2Proof/Machine/State.lean ====
section
/-! DEFINITION. The state of the Alvegar 740, unit by unit, and its value after hardware reset. A default value
stands for the value after hardware reset (R17, R18, R52, R76, R104, R124, R144, R152, R167, R182). -/

namespace Sys2Proof.Machine

/-! ### Frames (Table 1-1) -/

/-- A good frame. Its length field and its check are functions of these fields (R2, R3). -/
structure Frame where
  dst : Byte
  src : Byte
  kind : Byte
  payload : List Byte
  deriving DecidableEq, Repr

/-! ### The survey link (chapter 1) -/

/-- The link counters of port A (R16). -/
structure PortACounters where
  received : Word := 0
  errors : Word := 0
  unknownSource : Word := 0
  forwarded : Word := 0
  forwardDrops : Word := 0
  deriving DecidableEq, Repr

/-- The link counters of port B (R16). -/
structure PortBCounters where
  received : Word := 0
  errors : Word := 0
  wrongKind : Word := 0
  forwarded : Word := 0
  forwardDrops : Word := 0
  intakeDrops : Word := 0
  deriving DecidableEq, Repr

/-- The link interface (R17). -/
structure Link where
  /-- Own address, 0x10 plus the straps (R4). -/
  ownAddr : Byte := 0x10
  /-- Port states (R1). -/
  upA : Bool := false
  upB : Bool := false
  /-- The frame in progress on each port's line, none when the line is free (R11, R13). -/
  lineA : Option Frame := none
  lineB : Option Frame := none
  /-- The FIRE queue (R11). -/
  fires : List Frame := []
  /-- The A→B and B→A forward queues (R10). -/
  forwardAB : List Frame := []
  forwardBA : List Frame := []
  /-- The pause timer: off, or its remaining time in µs (R15). -/
  pause : Option Nat := none
  countersA : PortACounters := {}
  countersB : PortBCounters := {}
  deriving DecidableEq, Repr

/-! ### The run (chapter 2) -/

inductive RunState where
  | idle
  | running
  | suspended
  | draining
  deriving DecidableEq, Repr

inductive Direction where
  | increasing
  | decreasing
  deriving DecidableEq, Repr

/-- The run tallies (R28). -/
structure Tallies where
  stations : Word := 0
  voidStations : Word := 0
  emittedNotice : Word := 0
  emittedAction : Word := 0
  emittedUrgent : Word := 0
  discardedShort : Word := 0
  lostNotice : Word := 0
  lostAction : Word := 0
  lostUrgent : Word := 0
  marksScheduled : Word := 0
  marksDropped : Word := 0
  deriving DecidableEq, Repr

/-- The run state and the run record (R18). Distances are in µm. -/
structure Run where
  state : RunState := .idle
  id : Half := 0
  direction : Direction := .increasing
  startChainage : Word := 0
  origin : DWord := 0
  highWater : Int := 0
  distanceAtStop : Int := 0
  tallies : Tallies := {}
  deriving DecidableEq, Repr

/-! ### Parameters (Table 10-2) -/

/-- The parameter store, each at its default (R172). -/
structure Params where
  recorderAddr : Nat := 0x80
  prioResponse : Nat := 6
  prioNote : Nat := 5
  prioException : Nat := 4
  prioGeometry : Nat := 2
  prioForward : Nat := 3
  encCpr : Nat := 8192
  wheelCirc : Nat := 2890000
  spacing : Nat := 250000
  assemblyTimeout : Nat := 3000
  degradeCount : Nat := 16
  recoverCount : Nat := 8
  gaugeDepth : Nat := 1400
  gaugeWindow : Nat := 300
  shortChord : Nat := 10000
  longChord : Nat := 30000
  twistBase : Nat := 3000
  nominalGauge : Nat := 143500
  railSpacing : Nat := 150000
  headHeight : Nat := 45000
  vMin : Nat := 1000
  tagOffset : Int := 0
  captureWindow : Nat := 20000
  defaultClass : Nat := 1
  voidClose : Nat := 8
  markSeverity : Nat := 3
  sprayOffset : Nat := 12000
  markLatency : Nat := 30000
  markSpacing : Nat := 3000
  markPulse : Nat := 60
  flushTime : Nat := 100
  deriving DecidableEq, Repr

/-! ### The distance unit (chapter 3) -/

/-- The distance unit (R52); the time base stands on its own in `State`. -/
structure Distance where
  /-- The levels of ENC_A and ENC_B the decoder holds (R33). -/
  heldA : Bool := false
  heldB : Bool := false
  /-- Lq in µm×65536 (R36). -/
  countLength : Nat := 23120000
  /-- The odometer in µm×65536 (R37). -/
  odometer : DWord := 0
  /-- N (R41). -/
  next : Nat := 0
  prevStamp : Word := 0
  stampValid : Bool := false
  lastSpeed : Nat := 0
  lastUnknown : Bool := true
  /-- The counters of R51. -/
  encoderErrors : Word := 0
  fired : Word := 0
  skipped : Word := 0
  deriving DecidableEq, Repr

/-! ### Heads and station assembly (chapter 4) -/

inductive Role where
  | leftProfile
  | rightProfile
  | bodyMotion
  | tagReader
  deriving DecidableEq, Repr

inductive Phase where
  | even
  | odd
  | both
  deriving DecidableEq, Repr

/-- A roster entry (Table 4-1). A TAG_READER's phase is held as 0, which is EVEN's code, and is never read. -/
structure RosterEntry where
  addr : Byte
  role : Role
  phase : Phase
  maxRate : Nat
  maxReturns : Nat
  minStrength : Nat
  lateralOffset : Int
  verticalOffset : Int
  rollOffset : Int
  deriving DecidableEq, Repr

/-- A roster entry with its runtime record (R55). -/
structure Head where
  cfg : RosterEntry
  /-- ACTIVE when set, DEGRADED when clear. -/
  active : Bool := true
  misses : Nat := 0
  recovery : Nat := 0
  accepted : Word := 0
  late : Word := 0
  duplicate : Word := 0
  unasked : Word := 0
  malformed : Word := 0
  missed : Word := 0
  deriving DecidableEq, Repr

/-- The part a head plays in a station's answer set (R60). -/
inductive Part where
  /-- The regular head of a rail of the car. -/
  | regular (rail : Side)
  /-- The taker of a rail (R57). -/
  | taker (rail : Side)
  | body
  deriving DecidableEq, Repr

inductive SampleStatus where
  | ok
  | noReturn
  | overrange
  | fault
  deriving DecidableEq, Repr

/-- An accepted sample in converted form (R63); a void reading is `none`. -/
inductive Sample where
  | profile (status : SampleStatus) (lateral top : Option Int)
  | body (status : SampleStatus) (yb zb r : Option Int)
  deriving DecidableEq, Repr

/-- A head of an answer set, with the sample the entry holds from it. -/
structure Member where
  addr : Byte
  part : Part
  sample : Option Sample := none
  deriving DecidableEq, Repr

/-- The seven car-frame inputs of a station (R75); void is `none`. Lateral, top and body values in gu, roll in µrad. -/
structure Inputs where
  aL : Option Int := none
  aR : Option Int := none
  hL : Option Int := none
  hR : Option Int := none
  yb : Option Int := none
  zb : Option Int := none
  r : Option Int := none
  deriving DecidableEq, Repr

/-- An entry of the pending station table (R60). `closed` is none while the entry is OPEN; once it is CLOSED it
holds the inputs taken at the close (R73). -/
structure PendingStation where
  number : Nat
  nominal : Nat
  stamp : Word
  speed : Nat
  speedUnknown : Bool
  deadline : Word
  members : List Member
  skips : Nat := 0
  closed : Option Inputs := none
  deriving DecidableEq, Repr

/-! ### The station ring (chapter 5) -/

/-- The values derived at ring entry (R82 to R84), in gu. -/
structure Derived where
  g : Option Int := none
  x : Option Int := none
  zl : Option Int := none
  zr : Option Int := none
  yl : Option Int := none
  yr : Option Int := none
  yc : Option Int := none
  deriving DecidableEq, Repr

/-- A station record (Table 5-1). -/
structure StationRecord where
  number : Nat
  nominal : Nat
  chainage : Word
  epoch : Byte
  speed : Nat
  speedUnknown : Bool
  skipped : Bool
  doubtful : Bool
  inputs : Inputs
  derived : Derived
  deriving DecidableEq, Repr

/-- The ring with E and the numbers fixed for the run (R81). kmax is `long` and R is `max long twist` (R81, k ≤ K by R20). -/
structure Ring where
  stations : List StationRecord := []
  next : Nat := 0
  short : Nat := 20
  long : Nat := 60
  twist : Nat := 12
  deriving DecidableEq, Repr

/-- The eight channels, in the order of their numbers (Table 5-4). -/
inductive Channel where
  | gauge
  | xlevel
  | twist
  | topL
  | topR
  | alignL
  | alignR
  | curv
  deriving DecidableEq, Repr

/-- One thing for each channel. -/
structure PerChannel (α : Type) where
  gauge : α
  xlevel : α
  twist : α
  topL : α
  topR : α
  alignL : α
  alignR : α
  curv : α
  deriving DecidableEq, Repr

/-- The station flags (Table 5-6). -/
structure StationFlags where
  speedUnknown : Bool := false
  skipped : Bool := false
  doubtful : Bool := false
  startOfRun : Bool := false
  endOfRun : Bool := false
  lowSpeed : Bool := false
  clipped : Bool := false
  deriving DecidableEq, Repr

/-- An evaluated station (R102). -/
structure EvaluatedStation where
  number : Nat
  nominal : Nat
  chainage : Word
  epoch : Byte
  speed : Nat
  flags : StationFlags
  speedClass : Nat
  suppressGauge : Bool
  suppressAll : Bool
  lineCode : Option Half
  values : PerChannel (Option Int)
  deriving DecidableEq, Repr

/-! ### Location (chapter 6) -/

inductive LocationStatus where
  | none
  | set
  | confirmed
  | doubtful
  deriving DecidableEq, Repr

/-- An entry of the marker tag table (R118). -/
structure TagEntry where
  id : Word
  chainage : Word
  deriving DecidableEq, Repr

/-- A segment of the route table (R119). -/
structure Segment where
  start : Int
  length : Nat
  cantStart : Int
  cantEnd : Int
  curvStart : Int
  curvEnd : Int
  speedClass : Nat
  suppressGauge : Bool
  suppressAll : Bool
  lineCode : Half
  deriving DecidableEq, Repr

/-- The previous tag: its position p in µm and its surveyed chainage (R105). -/
structure PreviousTag where
  position : Int
  chainage : Word
  deriving DecidableEq, Repr

/-- The counters of the tag intake (R123). -/
structure TagCounters where
  accepted : Word := 0
  rejected : Word := 0
  stale : Word := 0
  unknown : Word := 0
  ignored : Word := 0
  malformed : Word := 0
  deriving DecidableEq, Repr

/-- The location unit (R105, R124). -/
structure Location where
  /-- The accumulated correction A in mm. -/
  correction : Word := 0
  epoch : Byte := 0
  status : LocationStatus := .none
  entryNumber : Nat := 0
  previousTag : Option PreviousTag := .none
  tags : List TagEntry := []
  route : List Segment := []
  counters : TagCounters := {}
  deriving DecidableEq, Repr

/-! ### Exception detection (chapter 7) -/

/-- One level of a threshold entry (R125). -/
structure Level where
  used : Bool
  lower : Int
  upper : Int
  deriving DecidableEq, Repr

/-- An entry of the threshold table (R125). -/
structure Threshold where
  speedClass : Nat
  channel : Nat
  enabled : Bool
  level1 : Level
  level2 : Level
  level3 : Level
  hysteresis : Int
  minLength : Nat
  deriving DecidableEq, Repr

/-- A station of an exception: number, chainage, speed class (R131). -/
structure Place where
  number : Nat
  chainage : Word
  speedClass : Nat
  deriving DecidableEq, Repr

/-- The peak of an exception (R131). -/
structure Peak where
  number : Nat
  chainage : Word
  value : Int
  speed : Nat
  lineCode : Option Half
  excess : Int
  deriving DecidableEq, Repr

/-- An open exception (R131); its channel is its slot in the list, its class at start is that of `start`. -/
structure OpenException where
  runId : Half
  epoch : Byte
  start : Place
  severity : Nat
  peak : Peak
  lastIncluded : Place
  lastNonVoid : Place
  voidCount : Nat
  doubtful : Bool
  markAsked : Bool
  deriving DecidableEq, Repr

/-- The previous evaluated station (R128). -/
structure PreviousStation where
  number : Nat
  chainage : Word
  epoch : Byte
  deriving DecidableEq, Repr

/-- The overflow summary (R140). -/
structure Overflow where
  notice : Nat := 0
  action : Nat := 0
  urgent : Nat := 0
  firstRun : Half := 0
  firstStation : Nat := 0
  lastRun : Half := 0
  lastStation : Nat := 0
  deriving DecidableEq, Repr

/-- The exception detector (R144). -/
structure Detector where
  thresholds : List Threshold := []
  opened : PerChannel (Option OpenException) := ⟨none, none, none, none, none, none, none, none⟩
  previous : Option PreviousStation := none
  queue : List Frame := []
  overflow : Overflow := {}
  deriving DecidableEq, Repr

/-! ### Track marking (chapter 8) -/

/-- A side set of the marking outputs (R147). -/
structure Sides where
  left : Bool
  right : Bool
  deriving DecidableEq, Repr

/-- An entry of the mark queue: target in µm of odometer position, and side set (R148). -/
structure Mark where
  target : DWord
  sides : Sides
  deriving DecidableEq, Repr

/-- The marking unit (R152, R154). A pulse generator is LOW (`none`) or HIGH with its remaining time in µs (R151). -/
structure Marking where
  queue : List Mark := []
  pulseL : Option Nat := none
  pulseR : Option Nat := none
  reached : Word := 0
  dropped : Word := 0
  deriving DecidableEq, Repr

/-! ### The output stream (chapter 9) -/

/-- An entry of a batch (R155). -/
inductive BatchEntry where
  | station (chainage : Word) (speed speedClass : Nat) (flags : StationFlags) (lineCode : Option Half)
      (values : PerChannel (Option Int))
  | voidRun (count : Nat)
  deriving DecidableEq, Repr

/-- A batch under construction that is not empty (R155). -/
structure Batch where
  runId : Half
  epoch : Byte
  first : Nat
  entries : List BatchEntry
  deriving DecidableEq, Repr

/-- A pending gap that is not empty (R162). -/
structure Gap where
  firstRun : Half
  firstStation : Nat
  lastRun : Half
  lastStation : Nat
  count : Word
  deriving DecidableEq, Repr

/-- The output composer (R167). -/
structure Composer where
  batch : Option Batch := none
  /-- The flush timer: off, or its remaining time in µs (R157). -/
  flush : Option Nat := none
  gap : Option Gap := none
  geometry : List Frame := []
  events : List Frame := []
  deriving DecidableEq, Repr

/-! ### Management (chapter 10) -/

/-- The sticky status bits, bit 0 first in the order of Table 11-1, and the generation (R173). -/
structure Status where
  bits : BitVec 11 := 0
  generation : Word := 0
  deriving DecidableEq, Repr

/-- The four tables (R176). -/
inductive Table where
  | roster
  | markerTags
  | route
  | thresholds
  deriving DecidableEq, Repr

/-- The staging buffer (R176). The entries are held as the bytes the lines gave, one list an entry: no field is
judged before the apply (R177). A pending apply keeps the address and tag its APPLIED response needs (R170, R179). -/
inductive Staging where
  | closed
  | opened (table : Table) (lines : Nat) (entries : List (List Byte))
  | pending (table : Table) (entries : List (List Byte)) (requester : Byte) (tag : Half)
  deriving DecidableEq, Repr

/-- The request intake, the response queue and staging (R182). -/
structure Requests where
  intake : List Frame := []
  responses : List Frame := []
  staging : Staging := .closed
  deriving DecidableEq, Repr

/-! ### The whole part -/

/-- Everything the spec gives the 740, the queue of waiting commands, and the model's counter of free choices. -/
structure State where
  /-- The time base in µs (R39). -/
  time : Word := 0
  link : Link := {}
  run : Run := {}
  params : Params := {}
  dist : Distance := {}
  /-- The active roster in address order, each entry with its runtime record (R53, R55). -/
  heads : List Head := []
  /-- The pending station table, oldest first (R60). -/
  table : List PendingStation := []
  ring : Ring := {}
  loc : Location := {}
  det : Detector := {}
  mark : Marking := {}
  out : Composer := {}
  status : Status := {}
  req : Requests := {}
  /-- The commands that wait, first in, first out. -/
  pending : List Instr := []
  /-- The model's own: how many free choices have been drawn (log entry 4). -/
  draws : Nat := 0
  deriving DecidableEq, Repr

/-- Nothing stops the 740: the spec gives every event an effect in every state. So there is no fault. -/
inductive Fault where
  deriving DecidableEq, Repr

/-- Why a command has no meaning. -/
inductive Refusal where
  /-- Raised by `exec` for a command the model does not give a meaning yet. Safe. -/
  | notModelled (mnemonic : String)
  deriving DecidableEq, Repr

/-- The 740 right after hardware reset (R32), with ADDR[2:0] and both encoder inputs low (log entry 5). -/
def State.reset : State := {}

end Sys2Proof.Machine
end

