-- ==== Sys2Proof/Machine/Operands.lean ====
section
/-! DEFINITION. Reading and building fields: rounding, void arithmetic, byte order (R183), the check (R3), the frame
outline (R2), and the codes of Table 11-1. -/

namespace Sys2Proof.Machine

/-! ### Arithmetic conventions (chapter 00) -/

/-- Division rounded to nearest, ties away from zero. -/
def roundDiv (a : Int) (b : Nat) : Int :=
  if 0 ≤ a then (2 * a + b) / (2 * b) else -((2 * -a + b) / (2 * b))

/-- A value of two values, void when either is void. -/
def void2 (f : Int → Int → Int) : Option Int → Option Int → Option Int
  | some a, some b => some (f a b)
  | _, _ => none

/-- A value of three values, void when any is void. -/
def void3 (f : Int → Int → Int → Int) : Option Int → Option Int → Option Int → Option Int
  | some a, some b, some c => some (f a b c)
  | _, _, _ => none

/-- A value kept when it lies in a range, else void. -/
def inRange (lo hi v : Int) : Option Int := if lo ≤ v ∧ v ≤ hi then some v else none

/-! ### Bytes, most significant first (R183) -/

def byteAt (p : List Byte) (i : Nat) : Byte := p.getD i 0

def halfAt (p : List Byte) (i : Nat) : Half := byteAt p i ++ byteAt p (i + 1)

def wordAt (p : List Byte) (i : Nat) : Word := halfAt p i ++ halfAt p (i + 2)

def halfBytes (h : Half) : List Byte := [h.extractLsb' 8 8, h.extractLsb' 0 8]

def wordBytes (w : Word) : List Byte := halfBytes (w.extractLsb' 16 16) ++ halfBytes (w.extractLsb' 0 16)

def dwordBytes (d : DWord) : List Byte := wordBytes (d.extractLsb' 32 32) ++ wordBytes (d.extractLsb' 0 32)

/-- A number as one byte, as two, as four; a signed number as two, four, eight. -/
def nat8 (n : Nat) : List Byte := [BitVec.ofNat 8 n]
def nat16 (n : Nat) : List Byte := halfBytes (BitVec.ofNat 16 n)
def nat32 (n : Nat) : List Byte := wordBytes (BitVec.ofNat 32 n)
def int16 (v : Int) : List Byte := halfBytes (BitVec.ofInt 16 v)
def int32 (v : Int) : List Byte := wordBytes (BitVec.ofInt 32 v)
def int64 (v : Int) : List Byte := dwordBytes (BitVec.ofInt 64 v)

/-- A byte whose bit i is the i-th flag of the list (Table 11-7 and others); unassigned bits are zero (R183). -/
def flagByte (bits : List Bool) : Byte :=
  BitVec.ofNat 8 (bits.foldr (fun b n => b.toNat + 2 * n) 0)

/-- A list cut into pieces of `size`, `count` of them. -/
def chunks (size : Nat) : Nat → List Byte → List (List Byte)
  | 0, _ => []
  | count + 1, p => p.take size :: chunks size count (p.drop size)

/-! ### The check (R3) -/

/-- Steps 3 and 4 of R3 for one incoming bit. -/
def crcBit (r : Half) (b : Bool) : Half :=
  if xor r.msb b then (r <<< 1) ^^^ 0x1021 else r <<< 1

/-- The register after one byte, most significant bit first. -/
def crcByte (r : Half) (b : Byte) : Half :=
  [7, 6, 5, 4, 3, 2, 1, 0].foldl (fun r i => crcBit r (b.getLsbD i)) r

/-- The check of a string of bytes. -/
def crc (bytes : List Byte) : Half := bytes.foldl crcByte 0xFFFF

/-! ### The frame outline (Table 11-2) -/

/-- The bytes under the check: destination, source, kind, length, payload. -/
def Frame.body (f : Frame) : List Byte :=
  [f.dst, f.src, f.kind, BitVec.ofNat 8 f.payload.length] ++ f.payload

/-- The bytes of a frame as it is sent. -/
def Frame.bytes (f : Frame) : List Byte := f.body ++ halfBytes (crc f.body)

/-- The receiver's judgement of a delimited frame: the good frame, or none for a bad length or a wrong check (R2, R3). -/
def judgeFrame : List Byte → Option Frame
  | dst :: src :: kind :: len :: rest =>
    if len.toNat > 250 ∨ rest.length ≠ len.toNat + 2 then none
    else
      let payload := rest.take len.toNat
      if rest.drop len.toNat = halfBytes (crc (dst :: src :: kind :: len :: payload)) then
        some { dst := dst, src := src, kind := kind, payload := payload }
      else none
  | _ => none

/-! ### Codes (Tables 1-3, 11-1, 11-4, 11-5) -/

abbrev kindFire : Byte := 0x01
abbrev kindSample : Byte := 0x02
abbrev kindTag : Byte := 0x03
abbrev kindRequest : Byte := 0x10
abbrev kindResponse : Byte := 0x11
abbrev kindGeometry : Byte := 0x20
abbrev kindException : Byte := 0x21
abbrev kindNote : Byte := 0x22
abbrev kindPause : Byte := 0x30
abbrev broadcast : Byte := 0xFF

def RunState.code : RunState → Nat
  | .idle => 0
  | .running => 1
  | .suspended => 2
  | .draining => 3

def Direction.code : Direction → Nat
  | .increasing => 0
  | .decreasing => 1

/-- The direction field of RUN_START; any other code is neither direction (R19). -/
def Direction.ofCode (b : Byte) : Option Direction :=
  if b = 0 then some .increasing else if b = 1 then some .decreasing else none

def LocationStatus.code : LocationStatus → Nat
  | .none => 0
  | .set => 1
  | .confirmed => 2
  | .doubtful => 3

def Role.code : Role → Nat
  | .leftProfile => 1
  | .rightProfile => 2
  | .bodyMotion => 3
  | .tagReader => 4

def Role.ofCode (b : Byte) : Option Role :=
  if b = 1 then some .leftProfile else if b = 2 then some .rightProfile
  else if b = 3 then some .bodyMotion else if b = 4 then some .tagReader else none

def Phase.code : Phase → Nat
  | .even => 0
  | .odd => 1
  | .both => 2

def Phase.ofCode (b : Byte) : Option Phase :=
  if b = 0 then some .even else if b = 1 then some .odd else if b = 2 then some .both else none

def Table.code : Table → Nat
  | .roster => 1
  | .markerTags => 2
  | .route => 3
  | .thresholds => 4

def Table.ofCode (b : Byte) : Option Table :=
  if b = 1 then some .roster else if b = 2 then some .markerTags
  else if b = 3 then some .route else if b = 4 then some .thresholds else none

def SampleStatus.ofCode (b : Byte) : Option SampleStatus :=
  if b = 0 then some .ok else if b = 1 then some .noReturn
  else if b = 2 then some .overrange else if b = 3 then some .fault else none

def Channel.code : Channel → Nat
  | .gauge => 0
  | .xlevel => 1
  | .twist => 2
  | .topL => 3
  | .topR => 4
  | .alignL => 5
  | .alignR => 6
  | .curv => 7

/-- The channels in channel order (R128). -/
abbrev Channel.all : List Channel := [.gauge, .xlevel, .twist, .topL, .topR, .alignL, .alignR, .curv]

def PerChannel.get {α : Type} (c : PerChannel α) : Channel → α
  | .gauge => c.gauge
  | .xlevel => c.xlevel
  | .twist => c.twist
  | .topL => c.topL
  | .topR => c.topR
  | .alignL => c.alignL
  | .alignR => c.alignR
  | .curv => c.curv

def PerChannel.set {α : Type} (c : PerChannel α) (ch : Channel) (a : α) : PerChannel α :=
  match ch with
  | .gauge => { c with gauge := a }
  | .xlevel => { c with xlevel := a }
  | .twist => { c with twist := a }
  | .topL => { c with topL := a }
  | .topR => { c with topR := a }
  | .alignL => { c with alignL := a }
  | .alignR => { c with alignR := a }
  | .curv => { c with curv := a }

/-- The values in channel order. -/
def PerChannel.toList {α : Type} (c : PerChannel α) : List α := Channel.all.map c.get

/-- The kinds of request (Table 11-4); a payload too short or a kind not in the table is `unknown` (R170). -/
inductive RequestKind where
  | queryStatus
  | clearStatus
  | setParam
  | getParam
  | tableOpen
  | tableLine
  | tableApply
  | tableAbort
  | readEntry
  | runStart
  | runStop
  | setChainage
  | readCounters
  | softReset
  | unknown
  deriving DecidableEq, Repr

def requestKind (payload : List Byte) : RequestKind :=
  if payload.length < 3 then .unknown
  else match (byteAt payload 2).toNat with
    | 0x01 => .queryStatus
    | 0x02 => .clearStatus
    | 0x03 => .setParam
    | 0x04 => .getParam
    | 0x05 => .tableOpen
    | 0x06 => .tableLine
    | 0x07 => .tableApply
    | 0x08 => .tableAbort
    | 0x09 => .readEntry
    | 0x0A => .runStart
    | 0x0B => .runStop
    | 0x0C => .setChainage
    | 0x0D => .readCounters
    | 0x0E => .softReset
    | _ => .unknown

/-- Whether the payload of a recognised request is consistent with the form of its kind (R185, Table 11-4). -/
def requestConsistent (kind : RequestKind) (payload : List Byte) : Bool :=
  match kind with
  | .queryStatus => payload.length == 3
  | .clearStatus => payload.length == 9
  | .setParam => payload.length == 8
  | .getParam => payload.length == 4
  | .tableOpen => payload.length == 4
  | .tableLine => decide (6 ≤ payload.length)
  | .tableApply => payload.length == 5
  | .tableAbort => payload.length == 3
  | .readEntry => payload.length == 6
  | .runStart => payload.length == 10
  | .runStop => payload.length == 3
  | .setChainage => payload.length == 7
  | .readCounters => payload.length == 5
  | .softReset => payload.length == 3
  | .unknown => true

/-- The result codes (Table 11-5). -/
inductive ResultCode where
  | done
  | busy
  | notRunning
  | badParam
  | badConfig
  | unknownRequest
  | noLoad
  | lineOrder
  | stagingFull
  | stale
  | applied
  | empty
  | countError
  | orderError
  | rangeError
  | refusedRunning
  deriving DecidableEq, Repr

def ResultCode.code : ResultCode → Nat
  | .done => 0x00
  | .busy => 0x01
  | .notRunning => 0x02
  | .badParam => 0x03
  | .badConfig => 0x04
  | .unknownRequest => 0x05
  | .noLoad => 0x06
  | .lineOrder => 0x07
  | .stagingFull => 0x08
  | .stale => 0x09
  | .applied => 0x0A
  | .empty => 0x0B
  | .countError => 0x0C
  | .orderError => 0x0D
  | .rangeError => 0x0E
  | .refusedRunning => 0x0F

/-! ### Parameters (Table 10-2) -/

inductive ParamId where
  | recorderAddr
  | prioResponse
  | prioNote
  | prioException
  | prioGeometry
  | prioForward
  | encCpr
  | wheelCirc
  | spacing
  | assemblyTimeout
  | degradeCount
  | recoverCount
  | gaugeDepth
  | gaugeWindow
  | shortChord
  | longChord
  | twistBase
  | nominalGauge
  | railSpacing
  | headHeight
  | vMin
  | tagOffset
  | captureWindow
  | defaultClass
  | voidClose
  | markSeverity
  | sprayOffset
  | markLatency
  | markSpacing
  | markPulse
  | flushTime
  deriving DecidableEq, Repr

def ParamId.ofCode (b : Byte) : Option ParamId :=
  match b.toNat with
  | 1 => some .recorderAddr
  | 2 => some .prioResponse
  | 3 => some .prioNote
  | 4 => some .prioException
  | 5 => some .prioGeometry
  | 6 => some .prioForward
  | 10 => some .encCpr
  | 11 => some .wheelCirc
  | 12 => some .spacing
  | 20 => some .assemblyTimeout
  | 21 => some .degradeCount
  | 22 => some .recoverCount
  | 23 => some .gaugeDepth
  | 24 => some .gaugeWindow
  | 30 => some .shortChord
  | 31 => some .longChord
  | 32 => some .twistBase
  | 33 => some .nominalGauge
  | 34 => some .railSpacing
  | 35 => some .headHeight
  | 36 => some .vMin
  | 40 => some .tagOffset
  | 41 => some .captureWindow
  | 42 => some .defaultClass
  | 50 => some .voidClose
  | 51 => some .markSeverity
  | 60 => some .sprayOffset
  | 61 => some .markLatency
  | 62 => some .markSpacing
  | 63 => some .markPulse
  | 70 => some .flushTime
  | _ => none

/-- The parameter's range; SPACING's three values are judged by `ParamId.accepts`. -/
def ParamId.range : ParamId → Int × Int
  | .recorderAddr => (0x00, 0xFE)
  | .prioResponse => (1, 7)
  | .prioNote => (1, 7)
  | .prioException => (1, 7)
  | .prioGeometry => (1, 7)
  | .prioForward => (1, 7)
  | .encCpr => (400, 16384)
  | .wheelCirc => (2400000, 3600000)
  | .spacing => (125000, 500000)
  | .assemblyTimeout => (200, 20000)
  | .degradeCount => (1, 255)
  | .recoverCount => (1, 255)
  | .gaugeDepth => (0, 5000)
  | .gaugeWindow => (0, 2000)
  | .shortChord => (250, 127000)
  | .longChord => (250, 255000)
  | .twistBase => (125, 127500)
  | .nominalGauge => (100000, 200000)
  | .railSpacing => (140000, 160000)
  | .headHeight => (0, 100000)
  | .vMin => (0, 5000)
  | .tagOffset => (-20000, 20000)
  | .captureWindow => (0, 100000)
  | .defaultClass => (1, 6)
  | .voidClose => (1, 64)
  | .markSeverity => (0, 3)
  | .sprayOffset => (0, 50000)
  | .markLatency => (0, 200000)
  | .markSpacing => (500, 20000)
  | .markPulse => (10, 500)
  | .flushTime => (10, 1000)

/-- Step 3 of R172. -/
def ParamId.accepts (id : ParamId) (v : Int) : Bool :=
  decide (id.range.1 ≤ v ∧ v ≤ id.range.2) &&
    (decide (id ≠ .spacing) || decide (v = 125000 ∨ v = 250000 ∨ v = 500000))

def ParamId.runLocked : ParamId → Bool
  | .encCpr | .wheelCirc | .spacing | .gaugeDepth | .gaugeWindow | .shortChord | .longChord | .twistBase
  | .nominalGauge | .railSpacing | .headHeight | .tagOffset => true
  | _ => false

def Params.get (p : Params) : ParamId → Int
  | .recorderAddr => p.recorderAddr
  | .prioResponse => p.prioResponse
  | .prioNote => p.prioNote
  | .prioException => p.prioException
  | .prioGeometry => p.prioGeometry
  | .prioForward => p.prioForward
  | .encCpr => p.encCpr
  | .wheelCirc => p.wheelCirc
  | .spacing => p.spacing
  | .assemblyTimeout => p.assemblyTimeout
  | .degradeCount => p.degradeCount
  | .recoverCount => p.recoverCount
  | .gaugeDepth => p.gaugeDepth
  | .gaugeWindow => p.gaugeWindow
  | .shortChord => p.shortChord
  | .longChord => p.longChord
  | .twistBase => p.twistBase
  | .nominalGauge => p.nominalGauge
  | .railSpacing => p.railSpacing
  | .headHeight => p.headHeight
  | .vMin => p.vMin
  | .tagOffset => p.tagOffset
  | .captureWindow => p.captureWindow
  | .defaultClass => p.defaultClass
  | .voidClose => p.voidClose
  | .markSeverity => p.markSeverity
  | .sprayOffset => p.sprayOffset
  | .markLatency => p.markLatency
  | .markSpacing => p.markSpacing
  | .markPulse => p.markPulse
  | .flushTime => p.flushTime

/-- The store with one parameter at an accepted value. Every parameter but TAG_OFFSET takes no negative value. -/
def Params.set (p : Params) (id : ParamId) (v : Int) : Params :=
  match id with
  | .recorderAddr => { p with recorderAddr := v.toNat }
  | .prioResponse => { p with prioResponse := v.toNat }
  | .prioNote => { p with prioNote := v.toNat }
  | .prioException => { p with prioException := v.toNat }
  | .prioGeometry => { p with prioGeometry := v.toNat }
  | .prioForward => { p with prioForward := v.toNat }
  | .encCpr => { p with encCpr := v.toNat }
  | .wheelCirc => { p with wheelCirc := v.toNat }
  | .spacing => { p with spacing := v.toNat }
  | .assemblyTimeout => { p with assemblyTimeout := v.toNat }
  | .degradeCount => { p with degradeCount := v.toNat }
  | .recoverCount => { p with recoverCount := v.toNat }
  | .gaugeDepth => { p with gaugeDepth := v.toNat }
  | .gaugeWindow => { p with gaugeWindow := v.toNat }
  | .shortChord => { p with shortChord := v.toNat }
  | .longChord => { p with longChord := v.toNat }
  | .twistBase => { p with twistBase := v.toNat }
  | .nominalGauge => { p with nominalGauge := v.toNat }
  | .railSpacing => { p with railSpacing := v.toNat }
  | .headHeight => { p with headHeight := v.toNat }
  | .vMin => { p with vMin := v.toNat }
  | .tagOffset => { p with tagOffset := v }
  | .captureWindow => { p with captureWindow := v.toNat }
  | .defaultClass => { p with defaultClass := v.toNat }
  | .voidClose => { p with voidClose := v.toNat }
  | .markSeverity => { p with markSeverity := v.toNat }
  | .sprayOffset => { p with sprayOffset := v.toNat }
  | .markLatency => { p with markLatency := v.toNat }
  | .markSpacing => { p with markSpacing := v.toNat }
  | .markPulse => { p with markPulse := v.toNat }
  | .flushTime => { p with flushTime := v.toNat }

/-- The spacing in mm (R49). -/
def Params.spacingMm (p : Params) : Nat := p.spacing / 1000

/-- RECORDER_ADDR as an address (R4). -/
def Params.recorder (p : Params) : Byte := BitVec.ofNat 8 p.recorderAddr

end Sys2Proof.Machine
end

