-- ==== Sys2Proof/Machine/Flags.lean ====
section
/-! DEFINITION. The sticky status bits (R173) and the flags bytes of the records (Tables 11-7 to 11-10). -/

namespace Sys2Proof.Machine

inductive StickyBit where
  | linkAErrors
  | linkBErrors
  | headDegraded
  | rateExceeded
  | tagUnknown
  | locationRejected
  | exceptionOverflow
  | geometryGap
  | markDropped
  | noteLost
  | requestDropped
  deriving DecidableEq, Repr

/-- The bit's number (Table 11-1). -/
def StickyBit.index : StickyBit → Nat
  | .linkAErrors => 0
  | .linkBErrors => 1
  | .headDegraded => 2
  | .rateExceeded => 3
  | .tagUnknown => 4
  | .locationRejected => 5
  | .exceptionOverflow => 6
  | .geometryGap => 7
  | .markDropped => 8
  | .noteLost => 9
  | .requestDropped => 10

/-- Whether a sticky bit is set. -/
def Status.has (t : Status) (b : StickyBit) : Bool := t.bits.getLsbD b.index

/-- One set event: the bit set and the generation advanced, whether or not it was set before (R173). -/
def Status.raise (t : Status) (b : StickyBit) : Status :=
  { bits := t.bits ||| (1#11 <<< b.index), generation := t.generation + 1 }

/-- The bits of a 16-bit mask cleared; mask bits 11 to 15 name no bit (R174). -/
def Status.clear (t : Status) (mask : Half) : Status :=
  { t with bits := t.bits &&& ~~~(mask.extractLsb' 0 11) }

/-- The sticky bits as the 16-bit field of Table 11-1. -/
def Status.field (t : Status) : List Byte := halfBytes (t.bits.setWidth 16)

/-- The flags byte of a station entry (Table 11-7). -/
def StationFlags.byte (f : StationFlags) : Byte :=
  flagByte [f.speedUnknown, f.skipped, f.doubtful, f.startOfRun, f.endOfRun, f.lowSpeed, f.clipped]

/-- Why an exception closed: by the closing band, or the cause its flag names (R138). -/
inductive CloseCause where
  | closingBand
  | voidEnd
  | locationStep
  | runEnd
  | suppressedEnd
  deriving DecidableEq, Repr

/-- The flags byte of an exception record (Table 11-8). -/
def exceptionFlags (cause : CloseCause) (doubtful lineCode : Bool) : Byte :=
  flagByte [cause == .voidEnd, cause == .locationStep, cause == .runEnd, cause == .suppressedEnd, doubtful, lineCode]

end Sys2Proof.Machine
end

