-- ==== Sys2Proof/Machine/Records.lean ====
section
/-! DEFINITION. The payloads the 740 builds (chapter 11): FIRE, responses, notes, exception records, GEOMETRY, and the
table entries of READ_ENTRY. An absent optional field is sent as zero with its presence bit clear (R184). -/

namespace Sys2Proof.Machine

/-- FIRE (Table 11-3). -/
def firePayload (station : Nat) (addrs : List Byte) : List Byte :=
  nat32 station ++ nat8 addrs.length ++ addrs

/-- The cause of a LOCATION note (R114). -/
inductive LocationCause where
  | accepted (tag : Word)
  | rejected (tag : Word)
  | byRequest
  deriving DecidableEq, Repr

/-- A note of the event queue (R164). -/
inductive Note where
  | runStart (runId : Half) (direction : Direction) (startChainage : Word) (spacing short long twist : Nat)
  | runEnd (runId : Half) (distanceAtStop : Int) (tallies : Tallies)
  | location (runId : Half) (cause : LocationCause) (delta : Word) (first : Option Nat) (epoch : Byte)
      (status : LocationStatus) (ratio : Option Int)
  | headDegraded (runId : Half) (addr : Byte) (role : Role) (phase : Phase) (station : Nat)
  | headRecovered (runId : Half) (addr : Byte) (role : Role) (phase : Phase) (station : Nat)
  | status (bit : StickyBit) (after : Status)
  | gap (g : Gap)
  deriving DecidableEq, Repr

/-- NOTE payloads (Table 11-9). -/
def Note.payload : Note → List Byte
  | .runStart runId dir c0 spacing short long twist =>
    nat8 1 ++ halfBytes runId ++ nat8 dir.code ++ wordBytes c0 ++ nat32 spacing ++ nat8 short ++ nat8 long ++ nat8 twist
  | .runEnd runId distance t =>
    nat8 2 ++ halfBytes runId ++ wordBytes t.stations ++ wordBytes t.voidStations ++ int64 distance
      ++ wordBytes t.emittedNotice ++ wordBytes t.emittedAction ++ wordBytes t.emittedUrgent
      ++ wordBytes t.discardedShort ++ wordBytes t.lostNotice ++ wordBytes t.lostAction ++ wordBytes t.lostUrgent
      ++ wordBytes t.marksScheduled ++ wordBytes t.marksDropped
  | .location runId cause delta first epoch st ratio =>
    nat8 3 ++ halfBytes runId
      ++ [match cause with
          | .accepted _ => flagByte [false, false, true, first.isSome, ratio.isSome]
          | .rejected _ => flagByte [true, false, true, first.isSome, ratio.isSome]
          | .byRequest => flagByte [false, true, false, first.isSome, ratio.isSome]]
      ++ wordBytes (match cause with
          | .accepted tag => tag
          | .rejected tag => tag
          | .byRequest => 0)
      ++ wordBytes delta ++ nat32 (first.getD 0) ++ [epoch] ++ nat8 st.code ++ int32 (ratio.getD 0)
  | .headDegraded runId addr role phase station =>
    nat8 4 ++ halfBytes runId ++ [addr] ++ nat8 role.code ++ nat8 phase.code ++ nat32 station
  | .headRecovered runId addr role phase station =>
    nat8 5 ++ halfBytes runId ++ [addr] ++ nat8 role.code ++ nat8 phase.code ++ nat32 station
  | .status bit after =>
    nat8 6 ++ nat8 bit.index ++ after.field ++ wordBytes after.generation
  | .gap g =>
    nat8 7 ++ halfBytes g.firstRun ++ nat32 g.firstStation ++ halfBytes g.lastRun ++ nat32 g.lastStation
      ++ wordBytes g.count

/-- A channel value as its 16-bit field; void is −32768 (R183). -/
def channelField : Option Int → List Byte
  | some v => int16 v
  | none => int16 (-32768)

/-- The length of a closed exception: end − start + 1 stations (R137). -/
def OpenException.lengthTo (x : OpenException) (last : Place) : Nat := last.number - x.start.number + 1

/-- The record of a closed exception (R138, Table 11-8). -/
def exceptionPayload (ch : Channel) (x : OpenException) (cause : CloseCause) (last : Place) : List Byte :=
  nat8 1 ++ halfBytes x.runId ++ nat8 ch.code ++ nat8 x.severity ++ [x.epoch]
    ++ [exceptionFlags cause x.doubtful x.peak.lineCode.isSome]
    ++ nat32 x.start.number ++ wordBytes x.start.chainage ++ nat32 last.number ++ wordBytes last.chainage
    ++ nat32 (x.lengthTo last) ++ int16 x.peak.value ++ nat32 x.peak.number ++ wordBytes x.peak.chainage
    ++ nat16 x.peak.speed ++ nat8 x.start.speedClass ++ halfBytes (x.peak.lineCode.getD 0)

/-- An OVERFLOW record (R141, Table 11-8). -/
def overflowPayload (o : Overflow) : List Byte :=
  nat8 2 ++ nat16 o.notice ++ nat16 o.action ++ nat16 o.urgent ++ halfBytes o.firstRun ++ nat32 o.firstStation
    ++ halfBytes o.lastRun ++ nat32 o.lastStation

/-- An entry of a GEOMETRY frame (Table 11-7). -/
def BatchEntry.bytes : BatchEntry → List Byte
  | .station chainage speed speedClass flags lineCode values =>
    [flagByte [lineCode.isSome]] ++ wordBytes chainage ++ nat16 speed ++ nat8 speedClass ++ [flags.byte]
      ++ halfBytes (lineCode.getD 0) ++ values.toList.flatMap channelField
  | .voidRun count => nat8 (128 + count)

/-- The stations an entry covers (R155). -/
def BatchEntry.covers : BatchEntry → Nat
  | .station .. => 1
  | .voidRun count => count

/-- The stations a list of entries covers. -/
def covered (entries : List BatchEntry) : Nat := (entries.map BatchEntry.covers).sum

/-- A GEOMETRY payload (Table 11-7). -/
def geometryPayload (runId : Half) (epoch : Byte) (first part parts : Nat) (entries : List BatchEntry) : List Byte :=
  halfBytes runId ++ [epoch] ++ nat32 first ++ nat8 part ++ nat8 parts ++ nat8 entries.length
    ++ entries.flatMap BatchEntry.bytes

/-- The payloads of a flushed batch: one frame for 1 to 8 entries, two for 9 to 16 (R160). -/
def Batch.payloads (b : Batch) : List (List Byte) :=
  if b.entries.length ≤ 8 then [geometryPayload b.runId b.epoch b.first 1 1 b.entries]
  else
    [geometryPayload b.runId b.epoch b.first 1 2 (b.entries.take 8),
     geometryPayload b.runId b.epoch (b.first + covered (b.entries.take 8)) 2 2 (b.entries.drop 8)]

/-- A RESPONSE payload: the request's tag and kind, missing bytes taken as 0, the result code, the result's fields (R170). -/
def responsePayload (request : List Byte) (code : ResultCode) (fields : List Byte) : List Byte :=
  [byteAt request 0, byteAt request 1, byteAt request 2] ++ nat8 code.code ++ fields

/-! ### Table entries (Table 11-10) -/

def RosterEntry.bytes (e : RosterEntry) : List Byte :=
  [e.addr] ++ nat8 e.role.code ++ nat8 e.phase.code ++ nat16 e.maxRate ++ nat8 e.maxReturns ++ nat8 e.minStrength
    ++ int32 e.lateralOffset ++ int32 e.verticalOffset ++ int32 e.rollOffset

def TagEntry.bytes (e : TagEntry) : List Byte := wordBytes e.id ++ wordBytes e.chainage

def Segment.bytes (e : Segment) : List Byte :=
  int32 e.start ++ nat32 e.length ++ int16 e.cantStart ++ int16 e.cantEnd ++ int16 e.curvStart ++ int16 e.curvEnd
    ++ nat8 e.speedClass ++ [flagByte [e.suppressGauge, e.suppressAll]] ++ halfBytes e.lineCode

def Threshold.bytes (e : Threshold) : List Byte :=
  nat8 e.speedClass ++ nat8 e.channel ++ [flagByte [e.enabled, e.level1.used, e.level2.used, e.level3.used]]
    ++ int16 e.level1.lower ++ int16 e.level1.upper ++ int16 e.level2.lower ++ int16 e.level2.upper
    ++ int16 e.level3.lower ++ int16 e.level3.upper ++ int16 e.hysteresis ++ nat8 e.minLength

/-- The size of an entry (Table 11-10). -/
def Table.entrySize : Table → Nat
  | .roster => 19
  | .markerTags => 8
  | .route => 20
  | .thresholds => 18

/-- The capacity of a table (R176). -/
def Table.capacity : Table → Nat
  | .roster => 6
  | .markerTags => 512
  | .route => 1024
  | .thresholds => 48

end Sys2Proof.Machine
end

