-- ==== Sys2Proof/Machine/Ops.lean ====
section
/-! DEFINITION. The shared operations of every meaning: the updates of the state's units, set events and notes
(R164, R165, R173), responses (R170), the forward queues (R10), the two transmitters (R11 to R14), and the passing of time (R39). -/

namespace Sys2Proof.Machine

/-! ### Updates of one unit -/

def State.withTime (s : State) (x : Word) : State := { s with time := x }
def State.withLink (s : State) (x : Link) : State := { s with link := x }
def State.withRun (s : State) (x : Run) : State := { s with run := x }
def State.withParams (s : State) (x : Params) : State := { s with params := x }
def State.withDist (s : State) (x : Distance) : State := { s with dist := x }
def State.withHeads (s : State) (x : List Head) : State := { s with heads := x }
def State.withTable (s : State) (x : List PendingStation) : State := { s with table := x }
def State.withRing (s : State) (x : Ring) : State := { s with ring := x }
def State.withLoc (s : State) (x : Location) : State := { s with loc := x }
def State.withDet (s : State) (x : Detector) : State := { s with det := x }
def State.withMark (s : State) (x : Marking) : State := { s with mark := x }
def State.withOut (s : State) (x : Composer) : State := { s with out := x }
def State.withStatus (s : State) (x : Status) : State := { s with status := x }
def State.withReq (s : State) (x : Requests) : State := { s with req := x }
def State.withPending (s : State) (x : List Instr) : State := { s with pending := x }
def State.withDraws (s : State) (x : Nat) : State := { s with draws := x }

/-- The state with the run state changed (R18). -/
def State.withRunState (s : State) (r : RunState) : State := s.withRun { s.run with state := r }

/-- The state with the run tallies changed (R28). -/
def State.withTallies (s : State) (t : Tallies) : State := s.withRun { s.run with tallies := t }

/-- A frame the 740 originates: its own address is the source (R4). -/
def State.frame (s : State) (dst kind : Byte) (payload : List Byte) : Frame :=
  { dst := dst, src := s.link.ownAddr, kind := kind, payload := payload }

/-! ### Notes and set events -/

/-- A note offered to the event queue: built into a NOTE frame to RECORDER_ADDR, or lost at a full queue with
NOTE_LOST set, which offers no note (R164). -/
def offerNote (s : State) (n : Note) : State :=
  if s.out.events.length < Config.eventCapacity then
    s.withOut { s.out with events := s.out.events ++ [s.frame s.params.recorder kindNote n.payload] }
  else s.withStatus (s.status.raise .noteLost)

/-- A set event: the bit is set and the generation advances (R173); a bit other than NOTE_LOST that turns from clear
to set offers a STATUS note (R165). -/
def setEvent (s : State) (b : StickyBit) : State :=
  let s' := s.withStatus (s.status.raise b)
  if b = .noteLost ∨ s.status.has b then s' else offerNote s' (.status b s'.status)

/-! ### Responses -/

/-- Whether staging holds a pending apply (R179). -/
def Staging.isPending : Staging → Bool
  | .pending .. => true
  | _ => false

/-- The places of the response queue in use, a reserved one included (R169). -/
def Requests.placesTaken (r : Requests) : Nat := r.responses.length + r.staging.isPending.toNat

/-- A response joins the tail of the response queue, addressed to the source of its request (R170). -/
def respond (s : State) (request : Frame) (code : ResultCode) (fields : List Byte) : State :=
  s.withReq { s.req with
    responses := s.req.responses ++ [s.frame request.src kindResponse (responsePayload request.payload code fields)] }

/-! ### Forward queues (R10) -/

/-- A good frame received at port A offered to the A→B forward queue. -/
def offerForwardAB (s : State) (f : Frame) : State :=
  if s.link.forwardAB.length < Config.forwardCapacity then
    s.withLink { s.link with
      forwardAB := s.link.forwardAB ++ [f]
      countersA := { s.link.countersA with forwarded := s.link.countersA.forwarded + 1 } }
  else
    s.withLink { s.link with countersA := { s.link.countersA with forwardDrops := s.link.countersA.forwardDrops + 1 } }

/-- A good frame received at port B offered to the B→A forward queue. -/
def offerForwardBA (s : State) (f : Frame) : State :=
  if s.link.forwardBA.length < Config.forwardCapacity then
    s.withLink { s.link with
      forwardBA := s.link.forwardBA ++ [f]
      countersB := { s.link.countersB with forwarded := s.link.countersB.forwarded + 1 } }
  else
    s.withLink { s.link with countersB := { s.link.countersB with forwardDrops := s.link.countersB.forwardDrops + 1 } }

/-! ### The port A transmitter (R11, R12) -/

/-- A FIRE reaches the port A transmitter: discarded while port A is DOWN (R12), else it joins the FIRE queue (R11). -/
def issueFire (s : State) (f : Frame) : State :=
  if s.link.upA && decide (s.link.fires.length < Config.fireCapacity) then
    s.withLink { s.link with fires := s.link.fires ++ [f] }
  else s

/-- The port A transmitter's choice: with the line free and the port UP, the oldest FIRE, else the oldest forwarded frame (R11). -/
def chooseA (s : State) : State :=
  if s.link.upA && s.link.lineA.isNone then
    match s.link.fires, s.link.forwardBA with
    | f :: rest, _ => s.withLink { s.link with lineA := some f, fires := rest }
    | [], f :: rest => s.withLink { s.link with lineA := some f, forwardBA := rest }
    | [], [] => s
  else s

/-! ### The port B transmitter (R13, R14) -/

/-- The queues of port B, in the fixed order of R13. -/
inductive QueueB where
  | response
  | note
  | exception
  | geometry
  | forward
  deriving DecidableEq, Repr

def State.queueB (s : State) : QueueB → List Frame
  | .response => s.req.responses
  | .note => s.out.events
  | .exception => s.det.queue
  | .geometry => s.out.geometry
  | .forward => s.link.forwardAB

def State.priorityB (s : State) : QueueB → Nat
  | .response => s.params.prioResponse
  | .note => s.params.prioNote
  | .exception => s.params.prioException
  | .geometry => s.params.prioGeometry
  | .forward => s.params.prioForward

/-- The winner among the non-empty queues: the highest priority, the first in the fixed order among equals (R13). -/
def State.winnerB (s : State) : Option QueueB :=
  [QueueB.response, .note, .exception, .geometry, .forward].foldl
    (fun best q =>
      if (s.queueB q).isEmpty then best
      else match best with
        | none => some q
        | some b => if s.priorityB b < s.priorityB q then some q else best)
    none

/-- A place of the exception queue has come free: a summary that holds counts joins as an OVERFLOW record (R141). -/
def reportOverflow (s : State) : State :=
  if s.det.overflow.notice + s.det.overflow.action + s.det.overflow.urgent = 0 then s
  else
    s.withDet { s.det with
      queue := s.det.queue ++ [s.frame s.params.recorder kindException (overflowPayload s.det.overflow)]
      overflow := {} }

/-- A place of the geometry queue has come free: a pending gap is built into a GAP note and becomes empty (R162). -/
def reportGap (s : State) : State :=
  match s.out.gap with
  | none => s
  | some g => offerNote (s.withOut { s.out with gap := none }) (.gap g)

/-- The oldest frame of a queue starts on port B: it leaves its queue, and the owner acts on the free place (R14). -/
def startB (s : State) (q : QueueB) : State :=
  match s.queueB q with
  | [] => s
  | f :: rest =>
    let s := s.withLink { s.link with lineB := some f }
    match q with
    | .response => s.withReq { s.req with responses := rest }
    | .note => s.withOut { s.out with events := rest }
    | .exception => reportOverflow (s.withDet { s.det with queue := rest })
    | .geometry => reportGap (s.withOut { s.out with geometry := rest })
    | .forward => s.withLink { s.link with forwardAB := rest }

/-- The arbiter's choice: with the line free, port B UP and no pause in force, the winner's oldest frame starts (R13). -/
def chooseB (s : State) : State :=
  if s.link.upB && s.link.lineB.isNone && s.link.pause.isNone then
    match s.winnerB with
    | some q => startB s q
    | none => s
  else s

/-- The end of an event: both transmitters choose on what the event has queued (log entry 6). -/
def settle (s : State) : State := chooseB (chooseA s)

/-! ### Time (R39) -/

/-- A running timer after some µs; at 0 its expiry is due (log entry 3). -/
def countDown (n : Nat) (t : Option Nat) : Option Nat := t.map (· - n)

/-- Some µs pass: the time base advances and every timer runs down. -/
def elapse (n : Nat) (s : State) : State :=
  { s with
    time := s.time + BitVec.ofNat 32 n
    link := { s.link with pause := countDown n s.link.pause }
    mark := { s.mark with pulseL := countDown n s.mark.pulseL, pulseR := countDown n s.mark.pulseR }
    out := { s.out with flush := countDown n s.out.flush } }

/-- The µs until the time base reaches a moment: 0 once it has been reached, an interval below 2^31 being past. -/
def timeUntil (now moment : Word) : Nat :=
  if (now - moment).toNat < 2 ^ 31 then 0 else (moment - now).toNat

/-! ### Distances (R37, R38) -/

/-- A distance times 65536 as whole µm, rounded toward minus infinity. -/
def microns (q : DWord) : Int := q.toInt / 65536

/-- Run distance in µm: the odometer less the origin, modulo 2^64 and signed (R38). -/
def State.runDistance (s : State) : Int := microns (s.dist.odometer - s.run.origin)

/-- The odometer position in µm (R38). -/
def State.odometerPosition (s : State) : DWord := BitVec.ofInt 64 (microns s.dist.odometer)

/-- What every meaning answers: a next state. -/
abbrev Result := Host.Outcome State Fault Refusal

end Sys2Proof.Machine
end

