-- ==== Sys2Proof/Machine/Tables.lean ====
section
/-! DEFINITION. The four tables: reading a staged entry (Table 11-10), the order and range judgements (R54, R118,
R119, R126), the swap (R178), and an entry of an active table (R181). -/

namespace Sys2Proof.Machine

/-! ### Reading a staged entry -/

/-- A roster entry; a role or phase code that is not named gives none. A field the role does not use is 0 (R53). -/
def RosterEntry.read (b : List Byte) : Option RosterEntry :=
  let lateral := (wordAt b 7).toInt
  let vertical := (wordAt b 11).toInt
  match Role.ofCode (byteAt b 1), Phase.ofCode (byteAt b 2) with
  | some .tagReader, _ =>
    some { addr := byteAt b 0, role := .tagReader, phase := .even, maxRate := 0, maxReturns := 0, minStrength := 0,
           lateralOffset := 0, verticalOffset := 0, rollOffset := 0 }
  | some .bodyMotion, some phase =>
    some { addr := byteAt b 0, role := .bodyMotion, phase := phase, maxRate := (halfAt b 3).toNat,
           maxReturns := 0, minStrength := 0, lateralOffset := lateral, verticalOffset := vertical,
           rollOffset := (wordAt b 15).toInt }
  | some role, some phase =>
    some { addr := byteAt b 0, role := role, phase := phase, maxRate := (halfAt b 3).toNat,
           maxReturns := (byteAt b 5).toNat, minStrength := (byteAt b 6).toNat, lateralOffset := lateral,
           verticalOffset := vertical, rollOffset := 0 }
  | _, _ => none

def TagEntry.read (b : List Byte) : TagEntry := { id := wordAt b 0, chainage := wordAt b 4 }

def Segment.read (b : List Byte) : Segment :=
  { start := (wordAt b 0).toInt, length := (wordAt b 4).toNat,
    cantStart := (halfAt b 8).toInt, cantEnd := (halfAt b 10).toInt,
    curvStart := (halfAt b 12).toInt, curvEnd := (halfAt b 14).toInt,
    speedClass := (byteAt b 16).toNat,
    suppressGauge := (byteAt b 17).getLsbD 0, suppressAll := (byteAt b 17).getLsbD 1,
    lineCode := halfAt b 18 }

def Threshold.read (b : List Byte) : Threshold :=
  let flags := byteAt b 2
  { speedClass := (byteAt b 0).toNat, channel := (byteAt b 1).toNat, enabled := flags.getLsbD 0,
    level1 := { used := flags.getLsbD 1, lower := (halfAt b 3).toInt, upper := (halfAt b 5).toInt },
    level2 := { used := flags.getLsbD 2, lower := (halfAt b 7).toInt, upper := (halfAt b 9).toInt },
    level3 := { used := flags.getLsbD 3, lower := (halfAt b 11).toInt, upper := (halfAt b 13).toInt },
    hysteresis := (halfAt b 15).toNat, minLength := (byteAt b 17).toNat }

/-! ### Order judgements -/

/-- Whether each two neighbours of a list stand in a relation. -/
def neighbours {α : Type} (r : α → α → Bool) : List α → Bool
  | a :: b :: rest => r a b && neighbours r (b :: rest)
  | _ => true

/-- The order judgement of each table on the staged entries. -/
def orderJudged (t : Table) (entries : List (List Byte)) : Bool :=
  match t with
  | .roster => neighbours (fun a b => decide ((byteAt a 0).toNat < (byteAt b 0).toNat)) entries
  | .markerTags => neighbours (fun a b => decide ((wordAt a 0).toNat < (wordAt b 0).toNat)) entries
  | .route =>
    neighbours (fun (a b : Segment) => decide (a.start < b.start ∧ a.start + a.length ≤ b.start)) (entries.map Segment.read)
  | .thresholds => neighbours (fun a b => decide ((halfAt a 0).toNat < (halfAt b 0).toNat)) entries

/-! ### Range judgements -/

/-- The fields of Table 4-1 that the role uses lie within their values (R54). -/
def RosterEntry.rangeOk (e : RosterEntry) : Bool :=
  decide (0x20 ≤ e.addr.toNat ∧ e.addr.toNat ≤ 0x7F) &&
    match e.role with
    | .tagReader => true
    | .bodyMotion =>
      decide (50 ≤ e.maxRate ∧ e.maxRate ≤ 2000 ∧ e.lateralOffset.natAbs ≤ 50000 ∧ e.verticalOffset.natAbs ≤ 50000
        ∧ e.rollOffset.natAbs ≤ 50000)
    | .leftProfile | .rightProfile =>
      decide (50 ≤ e.maxRate ∧ e.maxRate ≤ 2000 ∧ 1 ≤ e.maxReturns ∧ e.maxReturns ≤ 8 ∧ e.minStrength ≤ 255
        ∧ e.lateralOffset.natAbs ≤ 50000 ∧ e.verticalOffset.natAbs ≤ 50000)

/-- The phases of the entries of one role. -/
def phasesOf (role : Role) (entries : List RosterEntry) : List Phase :=
  (entries.filter (·.role == role)).map (·.phase)

/-- The composition conditions for one rail (R54). -/
def railOk : List Phase → Bool
  | [] => true
  | [p] => p == .both
  | [p, q] => (p == .even && q == .odd) || (p == .odd && q == .even)
  | _ => false

/-- The composition conditions of R54. -/
def compositionOk (entries : List RosterEntry) : Bool :=
  railOk (phasesOf .leftProfile entries) && railOk (phasesOf .rightProfile entries)
    && (match phasesOf .bodyMotion entries with
        | [] => true
        | [p] => p == .both
        | _ => false)
    && decide ((phasesOf .tagReader entries).length ≤ 1)

/-- The fields of a segment within their ranges (R119). -/
def Segment.rangeOk (e : Segment) : Bool :=
  decide (1 ≤ e.length ∧ e.length ≤ 10000000 ∧ e.cantStart.natAbs ≤ 20000 ∧ e.cantEnd.natAbs ≤ 20000
    ∧ e.curvStart.natAbs ≤ 20000 ∧ e.curvEnd.natAbs ≤ 20000 ∧ 1 ≤ e.speedClass ∧ e.speedClass ≤ 6
    ∧ e.start + e.length ≤ 2147483648)

/-- The range judgement of one staged route segment (R119): its fields, and no flag beyond the two it names. -/
def segmentRangeOk (b : List Byte) : Bool := (Segment.read b).rangeOk && decide ((byteAt b 17).toNat ≤ 3)

/-- A level's limits lie within −32767 to +32767, used or not (R126). -/
def Level.rangeOk (l : Level) : Bool := decide (l.lower.natAbs ≤ 32767 ∧ l.upper.natAbs ≤ 32767)

/-- The band conditions of an enabled entry (R126). -/
def Threshold.bandsOk (e : Threshold) : Bool :=
  e.level1.used && (!e.level3.used || e.level2.used)
    && decide (e.level1.lower < e.level1.upper)
    && (!e.level2.used || decide (e.level2.lower ≤ e.level1.lower ∧ e.level1.upper ≤ e.level2.upper))
    && (!e.level3.used || decide (e.level3.lower ≤ e.level2.lower ∧ e.level2.upper ≤ e.level3.upper))
    && decide (2 * e.hysteresis < e.level1.upper - e.level1.lower)

/-- The range judgement of one staged threshold entry (R126). -/
def Threshold.rangeOk (e : Threshold) : Bool :=
  decide (1 ≤ e.speedClass ∧ e.speedClass ≤ 6 ∧ e.channel ≤ 7 ∧ 0 ≤ e.hysteresis ∧ e.hysteresis ≤ 32767 ∧ e.minLength ≤ 255)
    && e.level1.rangeOk && e.level2.rangeOk && e.level3.rangeOk && (!e.enabled || e.bandsOk)

/-- The range judgement of each table on the staged entries. -/
def rangeJudged (t : Table) (entries : List (List Byte)) : Bool :=
  match t with
  | .roster =>
    entries.all (fun b => match RosterEntry.read b with
      | some e => e.rangeOk
      | none => false) && compositionOk (entries.filterMap RosterEntry.read)
  | .markerTags => true
  | .route => entries.all segmentRangeOk
  | .thresholds => entries.all (fun b => (Threshold.read b).rangeOk)

/-! ### The swap (R178) -/

/-- The entry held for a pair of class and channel that no staged entry gives (R125). -/
def Threshold.disabled (speedClass channel : Nat) : Threshold :=
  let l : Level := { used := false, lower := 0, upper := 0 }
  { speedClass := speedClass, channel := channel, enabled := false, level1 := l, level2 := l, level3 := l,
    hysteresis := 0, minLength := 0 }

/-- The active threshold table after a swap: 48 entries, or none after an empty load (R125). -/
def thresholdTable (staged : List Threshold) : List Threshold :=
  if staged.isEmpty then []
  else (List.range 48).map fun i =>
    (staged.find? (fun e => e.speedClass == i / 8 + 1 && e.channel == i % 8)).getD (Threshold.disabled (i / 8 + 1) (i % 8))

/-- The staged entries replace the active table whole and staging closes; a roster's heads start afresh (R54, R178). -/
def swapTable (s : State) (t : Table) (entries : List (List Byte)) : State :=
  let s := s.withReq { s.req with staging := .closed }
  match t with
  | .roster => s.withHeads ((entries.filterMap RosterEntry.read).map fun e => { cfg := e })
  | .markerTags => s.withLoc { s.loc with tags := entries.map TagEntry.read }
  | .route => s.withLoc { s.loc with route := entries.map Segment.read }
  | .thresholds => s.withDet { s.det with thresholds := thresholdTable (entries.map Threshold.read) }

/-- The number of entries an active table holds. -/
def State.activeCount (s : State) : Table → Nat
  | .roster => s.heads.length
  | .markerTags => s.loc.tags.length
  | .route => s.loc.route.length
  | .thresholds => s.det.thresholds.length

/-- An entry of an active table in the form of a TABLE_LINE; none where the index gives BAD_PARAM (R181). -/
def State.activeEntry (s : State) (t : Table) (i : Nat) : Option (List Byte) :=
  match t with
  | .roster => s.heads[i]?.map (·.cfg.bytes)
  | .markerTags => s.loc.tags[i]?.map TagEntry.bytes
  | .route => s.loc.route[i]?.map Segment.bytes
  | .thresholds =>
    if i ≤ 47 then some ((s.det.thresholds[i]?).getD (Threshold.disabled (i / 8 + 1) (i % 8))).bytes else none

end Sys2Proof.Machine
end

