-- ==== Sys2Proof/Machine/Geometry.lean ====
section
/-! DEFINITION. The geometry arithmetic (chapter 5, R82 to R101) and the route lookup (R120, R121). -/

namespace Sys2Proof.Machine

/-! ### Rail positions in the car frame -/

/-- The seven derived values of a station, each void when a value it needs is void (R82 to R85). -/
def derive (p : Params) (i : Inputs) : Derived :=
  let b : Int := p.railSpacing
  let yl := void3 (fun yb aL r => yb + aL - roundDiv (p.headHeight * r) 1000000) i.yb i.aL i.r
  let yr := void3 (fun yb aR r => yb + aR - roundDiv (p.headHeight * r) 1000000) i.yb i.aR i.r
  { g := void2 (fun aL aR => aR - aL) i.aL i.aR
    x := void3 (fun hL hR r => (hL - hR) + roundDiv (b * r) 1000000) i.hL i.hR i.r
    zl := void3 (fun zb hL r => zb + hL + roundDiv (b / 2 * r) 1000000) i.zb i.hL i.r
    zr := void3 (fun zb hR r => zb + hR - roundDiv (b / 2 * r) 1000000) i.zb i.hR i.r
    yl := yl
    yr := yr
    yc := void2 (fun l r => roundDiv (l + r) 2) yl yr }

/-! ### Route lookup -/

/-- What the lookup gives for a chainage (R120). -/
structure Design where
  cant : Int
  curvature : Int
  speedClass : Nat
  suppressGauge : Bool
  suppressAll : Bool
  lineCode : Option Half
  deriving DecidableEq, Repr

/-- Linear interpolation over a segment, the rounding applied to the increment (R121). -/
def interpolate (v0 v1 : Int) (offset : Int) (length : Nat) : Int :=
  v0 + roundDiv ((v1 - v0) * offset) length

/-- The segment that covers a chainage: start ≤ c < start + length (R119). -/
def findSegment (route : List Segment) (c : Int) : Option Segment :=
  route.find? fun g => decide (g.start ≤ c ∧ c < g.start + g.length)

/-- The route lookup (R120). -/
def lookup (route : List Segment) (defaultClass : Nat) (chainage : Word) : Design :=
  let c := chainage.toInt
  match findSegment route c with
  | some g =>
    { cant := interpolate g.cantStart g.cantEnd (c - g.start) g.length
      curvature := interpolate g.curvStart g.curvEnd (c - g.start) g.length
      speedClass := g.speedClass, suppressGauge := g.suppressGauge, suppressAll := g.suppressAll
      lineCode := some g.lineCode }
  | none =>
    { cant := 0, curvature := 0, speedClass := defaultClass, suppressGauge := false, suppressAll := false
      lineCode := none }

/-! ### The eight channels -/

/-- A channel as it is formed: its value or void, and the causes that set a station flag (R95, R96). -/
structure Formed where
  value : Option Int
  startOfRun : Bool := false
  endOfRun : Bool := false
  lowSpeed : Bool := false
  deriving DecidableEq, Repr

/-- The tests of a channel in their order: window (R95), speed (R96), inputs (R97, which `value` already tells).
`last` is L, the last station to enter the ring. -/
def formChannel (m back forward : Nat) (last : Int) (slow : Bool) (value : Option Int) : Formed :=
  let before := decide (m < back)
  let beyond := decide (0 < forward ∧ last < m + forward)
  if before || beyond then { value := none, startOfRun := before, endOfRun := beyond }
  else if slow then { value := none, lowSpeed := true }
  else { value := value }

/-- The versine of the middle of three values, halved to nearest (R92, R93, R94). -/
def versine : Option Int → Option Int → Option Int → Option Int :=
  void3 fun before after middle => roundDiv (before + after - 2 * middle) 2

/-- A derived value of the station with a number, void when the ring does not hold it. -/
def Ring.value (g : Ring) (n : Nat) (f : Derived → Option Int) : Option Int :=
  (g.stations.find? (·.number == n)).bind fun r => f r.derived

/-- The car-frame channels of a station (R90 to R97). -/
def formChannels (p : Params) (g : Ring) (last : Int) (rec : StationRecord) : PerChannel Formed :=
  let m := rec.number
  let slow := rec.speedUnknown || decide (rec.speed < p.vMin)
  let chord (c : Nat) (f : Derived → Option Int) :=
    formChannel m c c last slow (versine (g.value (m - c) f) (g.value (m + c) f) (f rec.derived))
  { gauge := { value := rec.derived.g.map (· - p.nominalGauge) }
    xlevel := { value := rec.derived.x }
    twist := formChannel m g.twist 0 last false (void2 (· - ·) rec.derived.x (g.value (m - g.twist) (·.x)))
    topL := chord g.short (·.zl)
    topR := chord g.short (·.zr)
    alignL := chord g.short (·.yl)
    alignR := chord g.short (·.yr)
    curv := chord g.long (·.yc) }

/-- The line frame (R98). -/
def toLineFrame (d : Direction) (c : PerChannel (Option Int)) : PerChannel (Option Int) :=
  match d with
  | .increasing => c
  | .decreasing =>
    { gauge := c.gauge
      xlevel := c.xlevel.map (- ·)
      twist := c.twist
      topL := c.topR
      topR := c.topL
      alignL := c.alignR.map (- ·)
      alignR := c.alignL.map (- ·)
      curv := c.curv.map (- ·) }

/-- The design versine (R100), with the long chord 2 × K × S_mm. -/
def designVersine (curvature : Int) (long spacingMm : Nat) : Int :=
  let c : Int := 2 * long * spacingMm
  roundDiv (curvature * c * c) 80000000

/-- The design values subtracted from XLEVEL and CURV (R99). -/
def subtractDesign (cant versine : Int) (c : PerChannel (Option Int)) : PerChannel (Option Int) :=
  { c with xlevel := c.xlevel.map (· - cant), curv := c.curv.map (· - versine) }

/-- A value clipped to ±32767 (R101). -/
def clip (v : Int) : Int := max (-32767) (min 32767 v)

def clipChannels (c : PerChannel (Option Int)) : PerChannel (Option Int) :=
  { gauge := c.gauge.map clip, xlevel := c.xlevel.map clip, twist := c.twist.map clip, topL := c.topL.map clip,
    topR := c.topR.map clip, alignL := c.alignL.map clip, alignR := c.alignR.map clip, curv := c.curv.map clip }

/-- The formed values without their causes. -/
def formedValues (c : PerChannel Formed) : PerChannel (Option Int) :=
  { gauge := c.gauge.value, xlevel := c.xlevel.value, twist := c.twist.value, topL := c.topL.value,
    topR := c.topR.value, alignL := c.alignL.value, alignR := c.alignR.value, curv := c.curv.value }

/-- The evaluated station of a record: stages 2 to 7 of R89, and R102. -/
def evaluate (p : Params) (d : Direction) (route : List Segment) (g : Ring) (last : Int) (rec : StationRecord) :
    EvaluatedStation :=
  let design := lookup route p.defaultClass rec.chainage
  let formed := formChannels p g last rec
  let exact := subtractDesign design.cant (designVersine design.curvature g.long p.spacingMm)
    (toLineFrame d (formedValues formed))
  let clipped := clipChannels exact
  { number := rec.number, nominal := rec.nominal, chainage := rec.chainage, epoch := rec.epoch
    speed := if rec.speedUnknown then 0 else rec.speed
    flags :=
      { speedUnknown := rec.speedUnknown, skipped := rec.skipped, doubtful := rec.doubtful
        startOfRun := formed.toList.any (·.startOfRun)
        endOfRun := formed.toList.any (·.endOfRun)
        lowSpeed := formed.toList.any (·.lowSpeed)
        clipped := decide (clipped ≠ exact) }
    speedClass := design.speedClass, suppressGauge := design.suppressGauge, suppressAll := design.suppressAll
    lineCode := design.lineCode
    values := clipped }

/-- Whether all eight channel values of an evaluated station are void (R28, R156). -/
def EvaluatedStation.allVoid (e : EvaluatedStation) : Bool := e.values.toList.all (·.isNone)

end Sys2Proof.Machine
end

