-- ==== Sys2Proof/Machine/Location.lean ====
section
/-! DEFINITION. The location unit (chapter 6): chainage at ring entry, tag intake and correction, SET_CHAINAGE. All
chainage arithmetic is modulo 2^32 (R105). -/

namespace Sys2Proof.Machine

/-- A distance signed by the run's direction: dir × v (R106). -/
def Direction.sign (d : Direction) (v : Int) : Int :=
  match d with
  | .increasing => v
  | .decreasing => -v

/-- The chainage of a place a run distance in mm from the start: C0 + dir × mm + A (R106, R109, R112). -/
def State.chainageAt (s : State) (mm : Int) : Word :=
  s.run.startChainage + BitVec.ofInt 32 (s.run.direction.sign mm) + s.loc.correction

/-- The chainage a station takes as it enters the ring (R106). -/
def State.stationChainage (s : State) (n : Nat) : Word := s.chainageAt (n * s.params.spacingMm)

/-- The current chainage of QUERY_STATUS (R109). -/
def State.currentChainage (s : State) : Word := s.chainageAt (roundDiv s.runDistance 1000)

/-- A TAG payload consistent with its form (R185): tag id, age, status code. -/
def readTag (payload : List Byte) : Option (Word × Nat × Nat) :=
  if payload.length = 9 ∧ (byteAt payload 8).toNat ≤ 2 then
    some (wordAt payload 0, (wordAt payload 4).toNat, (byteAt payload 8).toNat)
  else none

/-- The tag position p in µm (R111). -/
def State.tagPosition (s : State) (age : Nat) : Int :=
  let v := if s.dist.lastUnknown then 0 else s.dist.lastSpeed
  s.runDistance - roundDiv (v * age) 360 + s.params.tagOffset * 1000

/-- The distance ratio against the previous tag in parts per million, where there is one (R115). -/
def distanceRatio (previous : Option PreviousTag) (position : Int) (surveyed : Word) : Option Int :=
  previous.bind fun q =>
    let measured := roundDiv (position - q.position) 1000
    if 100000 ≤ measured then
      let apart : Int := (surveyed.toInt - q.chainage.toInt).natAbs
      some (min 2147483647 (roundDiv ((apart - measured) * 1000000) measured.toNat))
    else none

/-- A tag accepted (R112). -/
def acceptTag (s : State) (id surveyed : Word) (position : Int) (delta : Word) : State :=
  let ratio := distanceRatio s.loc.previousTag position surveyed
  let s := s.withLoc { s.loc with
    correction := s.loc.correction + delta
    epoch := s.loc.epoch + 1
    status := .confirmed
    previousTag := some { position := position, chainage := surveyed }
    counters := { s.loc.counters with accepted := s.loc.counters.accepted + 1 } }
  offerNote s (.location s.run.id (.accepted id) delta (some s.loc.entryNumber) s.loc.epoch .confirmed ratio)

/-- A tag rejected (R113). -/
def rejectTag (s : State) (id delta : Word) : State :=
  let s := s.withLoc { s.loc with
    status := .doubtful
    counters := { s.loc.counters with rejected := s.loc.counters.rejected + 1 } }
  let s := setEvent s .locationRejected
  offerNote s (.location s.run.id (.rejected id) delta none s.loc.epoch .doubtful none)

/-- A known tag compared with its prediction (R111, R112, R113). -/
def judgeTag (s : State) (id : Word) (age : Nat) (surveyed : Word) : State :=
  let position := s.tagPosition age
  let delta := surveyed - s.chainageAt (roundDiv position 1000)
  if delta.toInt.natAbs ≤ s.params.captureWindow then acceptTag s id surveyed position delta
  else rejectTag s id delta

def State.withTagCounters (s : State) (c : TagCounters) : State := s.withLoc { s.loc with counters := c }

/-- The tag intake (R110). -/
def tagIntake (s : State) (payload : List Byte) : State :=
  let c := s.loc.counters
  match readTag payload with
  | none => s.withTagCounters { c with malformed := c.malformed + 1 }
  | some (id, age, status) =>
    if s.run.state = .idle then s.withTagCounters { c with ignored := c.ignored + 1 }
    else if status ≠ 0 ∨ 100000 < age then s.withTagCounters { c with stale := c.stale + 1 }
    else match s.loc.tags.find? (·.id == id) with
      | none => setEvent (s.withTagCounters { c with unknown := c.unknown + 1 }) .tagUnknown
      | some t => judgeTag s id age t.chainage

/-- SET_CHAINAGE taken in a run (R117). -/
def placeChainage (s : State) (c : Word) : State :=
  let correction := c - (s.stationChainage s.loc.entryNumber - s.loc.correction)
  let delta := correction - s.loc.correction
  let s := s.withLoc { s.loc with correction := correction, epoch := s.loc.epoch + 1, status := .set }
  offerNote s (.location s.run.id .byRequest delta (some s.loc.entryNumber) s.loc.epoch .set none)

end Sys2Proof.Machine
end

