-- ==== Sys2Proof/Machine/Marking.lean ====
section
/-! DEFINITION. The marking unit (chapter 8): targets, sides, admission, marks reached, pulses, flush. -/

namespace Sys2Proof.Machine

/-- A mark request of the exception detector (R142). The marking unit computes with all of it but the station number (R145, R147). -/
structure MarkRequest where
  number : Nat
  nominal : Nat
  speed : Nat
  channel : Channel
  deriving DecidableEq, Repr

/-- The target of a request in µm of odometer position (R145). -/
def State.markTarget (s : State) (nominal speed : Nat) : DWord :=
  BitVec.ofInt 64 (microns s.run.origin + nominal + s.params.sprayOffset * 1000
    - roundDiv (speed * s.params.markLatency) 360)

/-- How far one position lies ahead of another, modulo 2^64 and signed (R145). -/
def ahead (a b : DWord) : Int := (a - b).toInt

/-- The side set of a request (R147). -/
def sidesFor (ch : Channel) (d : Direction) : Sides :=
  match ch, d with
  | .topL, .increasing | .alignL, .increasing | .topR, .decreasing | .alignR, .decreasing => { left := true, right := false }
  | .topR, .increasing | .alignR, .increasing | .topL, .decreasing | .alignL, .decreasing => { left := false, right := true }
  | .gauge, _ | .xlevel, _ | .twist, _ | .curv, _ => { left := true, right := true }

def Sides.union (a b : Sides) : Sides := { left := a.left || b.left, right := a.right || b.right }

/-- The target of the nearest entry within a distance of a target, the lower of two equally near (R149 step 1). -/
def nearestMark (limit : Int) (target : DWord) (queue : List Mark) : Option DWord :=
  queue.foldl
    (fun best m =>
      if limit < (ahead m.target target).natAbs then best
      else match best with
        | none => some m.target
        | some b => if (ahead m.target target).natAbs < (ahead b target).natAbs then some m.target else best)
    none

/-- A mark in its place in target order (R149 step 3). -/
def insertMark (m : Mark) : List Mark → List Mark
  | [] => [m]
  | h :: rest => if 0 < ahead h.target m.target then m :: h :: rest else h :: insertMark m rest

/-- A request dropped: counted, tallied, MARK_DROPPED set (R146, R149). -/
def dropMark (s : State) : State :=
  let s := s.withTallies { s.run.tallies with marksDropped := s.run.tallies.marksDropped + 1 }
  setEvent (s.withMark { s.mark with dropped := s.mark.dropped + 1 }) .markDropped

/-- A request scheduled with the mark queue it leaves (R149). -/
def scheduleMark (s : State) (queue : List Mark) : State :=
  let s := s.withTallies { s.run.tallies with marksScheduled := s.run.tallies.marksScheduled + 1 }
  s.withMark { s.mark with queue := queue }

/-- A mark request taken (R145, R146, R149). -/
def requestMark (s : State) (q : MarkRequest) : State :=
  let target := s.markTarget q.nominal q.speed
  let sides := sidesFor q.channel s.run.direction
  if ahead target s.odometerPosition ≤ 0 then dropMark s
  else match nearestMark (s.params.markSpacing * 1000) target s.mark.queue with
    | some t =>
      scheduleMark s (s.mark.queue.map fun m => if m.target = t then { m with sides := m.sides.union sides } else m)
    | none =>
      if Config.markCapacity ≤ s.mark.queue.length then dropMark s
      else scheduleMark s (insertMark { target := target, sides := sides } s.mark.queue)

/-- The entries at the head of the queue that a position has reached (R150). -/
def reachedMarks (position : DWord) (queue : List Mark) : List Mark :=
  queue.takeWhile fun m => decide (ahead m.target position ≤ 0)

/-- The marks a forward count reaches: removed, counted, and their outputs driven HIGH for MARK_PULSE (R150, R151). -/
def reachMarks (s : State) : State :=
  let hit := reachedMarks s.odometerPosition s.mark.queue
  let pulse := some (s.params.markPulse * 1000)
  s.withMark { s.mark with
    queue := s.mark.queue.drop hit.length
    pulseL := if hit.any (·.sides.left) then pulse else s.mark.pulseL
    pulseR := if hit.any (·.sides.right) then pulse else s.mark.pulseR
    reached := s.mark.reached + BitVec.ofNat 32 hit.length }

/-- A flush: the queue empty, both outputs LOW (R153). -/
def flushMarks (s : State) : State := s.withMark { s.mark with queue := [], pulseL := none, pulseR := none }

end Sys2Proof.Machine
end

