-- ==== Sys2Proof/Machine/Detector.lean ====
section
/-! DEFINITION. The exception detector (chapter 7): judging a station, opening, extending and closing exceptions, the
exception queue with its overflow summary, the marking trigger. -/

namespace Sys2Proof.Machine

/-! ### Thresholds -/

/-- The active entry of a class and a channel; none in an empty table (R125). -/
def State.threshold (s : State) (speedClass : Nat) (ch : Channel) : Option Threshold :=
  s.det.thresholds.find? fun e => e.speedClass == speedClass && e.channel == ch.code

/-- A value lies outside a used level (R125). -/
def Level.outside (l : Level) (v : Int) : Bool := l.used && decide (v < l.lower ∨ l.upper < v)

/-- The highest used level a value outside level 1 lies outside (R132). -/
def Threshold.severity (e : Threshold) (v : Int) : Nat :=
  if e.level3.outside v then 3 else if e.level2.outside v then 2 else 1

/-- How far a value lies beyond the level-1 band (R132). -/
def Threshold.excess (e : Threshold) (v : Int) : Int :=
  if e.level1.upper < v then v - e.level1.upper else e.level1.lower - v

/-- A value lies in the closing band (R135). -/
def Threshold.inClosingBand (e : Threshold) (v : Int) : Bool :=
  decide (e.level1.lower + e.hysteresis ≤ v ∧ v ≤ e.level1.upper - e.hysteresis)

/-- The entry a channel of a station is judged by; none when the channel is inactive (R129). -/
def State.activeThreshold (s : State) (e : EvaluatedStation) (ch : Channel) : Option Threshold :=
  if e.suppressAll || (e.suppressGauge && ch == .gauge) then none
  else (s.threshold e.speedClass ch).bind fun t => if t.enabled then some t else none

/-! ### Records -/

/-- The run tallies with an emitted record of a severity counted (R28). -/
def Tallies.emit (t : Tallies) (severity : Nat) : Tallies :=
  if severity = 3 then { t with emittedUrgent := t.emittedUrgent + 1 }
  else if severity = 2 then { t with emittedAction := t.emittedAction + 1 }
  else { t with emittedNotice := t.emittedNotice + 1 }

/-- The run tallies with a lost record of a severity counted (R28). -/
def Tallies.lose (t : Tallies) (severity : Nat) : Tallies :=
  if severity = 3 then { t with lostUrgent := t.lostUrgent + 1 }
  else if severity = 2 then { t with lostAction := t.lostAction + 1 }
  else { t with lostNotice := t.lostNotice + 1 }

/-- Records counted in the summary; it is empty when there are none (R140). -/
def Overflow.counts (o : Overflow) : Nat := o.notice + o.action + o.urgent

/-- The summary after a refusal (R140). -/
def Overflow.refuse (o : Overflow) (severity : Nat) (runId : Half) (start last : Nat) : Overflow :=
  let o := if o.counts = 0 then { o with firstRun := runId, firstStation := start } else o
  let o := { o with lastRun := runId, lastStation := last }
  if severity = 3 then { o with urgent := min 65535 (o.urgent + 1) }
  else if severity = 2 then { o with action := min 65535 (o.action + 1) }
  else { o with notice := min 65535 (o.notice + 1) }

/-- A record offered to the exception queue: it joins (R139), or is refused into the summary (R140). -/
def offerException (s : State) (ch : Channel) (x : OpenException) (cause : CloseCause) (last : Place) : State :=
  if s.det.queue.length < Config.exceptionCapacity ∧ s.det.overflow.counts = 0 then
    let frame := s.frame s.params.recorder kindException (exceptionPayload ch x cause last)
    let s := s.withDet { s.det with queue := s.det.queue ++ [frame] }
    s.withTallies (s.run.tallies.emit x.severity)
  else
    let s := s.withDet { s.det with
      overflow := s.det.overflow.refuse x.severity x.runId x.start.number last.number }
    let s := s.withTallies (s.run.tallies.lose x.severity)
    setEvent s .exceptionOverflow

/-- The minimum length that decides a close: that of the entry for the class of the end station, 0 where it is
disabled or the table is empty (R137). -/
def State.minLength (s : State) (ch : Channel) (last : Place) : Nat :=
  match s.threshold last.speedClass ch with
  | some e => if e.enabled then e.minLength else 0
  | none => 0

/-- The open exception list with a channel's slot changed (R131). -/
def State.withOpened (s : State) (ch : Channel) (x : Option OpenException) : State :=
  s.withDet { s.det with opened := s.det.opened.set ch x }

/-- An exception closes: it leaves the list, and is settled by severity and length (R137). -/
def closeException (s : State) (ch : Channel) (x : OpenException) (cause : CloseCause) (last : Place) : State :=
  let s := s.withOpened ch none
  if x.severity = 3 ∨ s.minLength ch last ≤ x.lengthTo last then offerException s ch x cause last
  else s.withTallies { s.run.tallies with discardedShort := s.run.tallies.discardedShort + 1 }

/-- A channel's exception, where one is open, closed at the last station judged into it (R129, R130, R136). -/
def closeOpened (s : State) (cause : CloseCause) (ch : Channel) : State :=
  match s.det.opened.get ch with
  | some x => closeException s ch x cause x.lastIncluded
  | none => s

/-- Every open exception closed, in channel order (R130, R136). -/
def closeAll (s : State) (cause : CloseCause) : State := Channel.all.foldl (fun s ch => closeOpened s cause ch) s

/-! ### Judging a channel -/

def EvaluatedStation.place (e : EvaluatedStation) : Place :=
  { number := e.number, chainage := e.chainage, speedClass := e.speedClass }

/-- A station as a peak (R131, R132). -/
def EvaluatedStation.peak (e : EvaluatedStation) (value excess : Int) : Peak :=
  { number := e.number, chainage := e.chainage, value := value, speed := e.speed, lineCode := e.lineCode, excess := excess }

/-- The exception a station opens (R132). -/
def openException (s : State) (e : EvaluatedStation) (t : Threshold) (v : Int) : OpenException :=
  { runId := s.run.id, epoch := e.epoch, start := e.place, severity := t.severity v
    peak := e.peak v (t.excess v), lastIncluded := e.place, lastNonVoid := e.place
    voidCount := 0, doubtful := e.flags.doubtful, markAsked := false }

/-- An exception extended by a station with a value (R133 step 1 and 4, R134). -/
def OpenException.extend (x : OpenException) (e : EvaluatedStation) : OpenException :=
  { x with lastIncluded := e.place, lastNonVoid := e.place, voidCount := 0, doubtful := x.doubtful || e.flags.doubtful }

/-- An exception extended by a value outside level 1 (R133). -/
def OpenException.exceed (x : OpenException) (e : EvaluatedStation) (t : Threshold) (v : Int) : OpenException :=
  { x.extend e with
    severity := max x.severity (t.severity v)
    peak := if x.peak.excess < t.excess v then e.peak v (t.excess v) else x.peak }

/-- An exception extended by a void (R134). -/
def OpenException.extendVoid (x : OpenException) (e : EvaluatedStation) : OpenException :=
  { x with lastIncluded := e.place, voidCount := x.voidCount + 1, doubtful := x.doubtful || e.flags.doubtful }

/-- One channel of a station judged (R129, R132 to R135). -/
def judgeChannel (e : EvaluatedStation) (s : State) (ch : Channel) : State :=
  match s.activeThreshold e ch, s.det.opened.get ch, e.values.get ch with
  | none, _, _ => closeOpened s .suppressedEnd ch
  | some _, none, none => s
  | some t, none, some v => if t.level1.outside v then s.withOpened ch (some (openException s e t v)) else s
  | some _, some x, none =>
    let x := x.extendVoid e
    if s.params.voidClose ≤ x.voidCount then closeException s ch x .voidEnd x.lastNonVoid
    else s.withOpened ch (some x)
  | some t, some x, some v =>
    if t.level1.outside v then s.withOpened ch (some (x.exceed e t v))
    else if t.inClosingBand v then closeException s ch x .closingBand x.lastIncluded
    else s.withOpened ch (some (x.extend e))

/-- The marking trigger for one channel (R142). -/
def triggerMark (e : EvaluatedStation) (s : State) (ch : Channel) : State :=
  match s.det.opened.get ch with
  | none => s
  | some x =>
    if s.params.markSeverity ≠ 0 ∧ x.markAsked = false ∧ s.params.markSeverity ≤ x.severity then
      requestMark (s.withOpened ch (some { x with markAsked := true }))
        { number := e.number, nominal := e.nominal, speed := e.speed, channel := ch }
    else s

/-- An evaluated station judged (R128). -/
def judgeStation (s : State) (e : EvaluatedStation) : State :=
  let s := match s.det.previous with
    | some q => if q.epoch ≠ e.epoch then closeAll s .locationStep else s
    | none => s
  let s := Channel.all.foldl (judgeChannel e) s
  let s := Channel.all.foldl (triggerMark e) s
  s.withDet { s.det with previous := some { number := e.number, chainage := e.chainage, epoch := e.epoch } }

end Sys2Proof.Machine
end

