-- ==== Sys2Proof/Machine/Composer.lean ====
section
/-! DEFINITION. The output composer (chapter 9): the batch, the flush timer, the geometry queue and the gap, and
the completion of a pending apply that the timer serves (R179). -/

namespace Sys2Proof.Machine

/-- The flush timer started at FLUSH_TIME when it is off (R157). -/
def startFlushTimer (s : State) : State :=
  match s.out.flush with
  | none => s.withOut { s.out with flush := some (s.params.flushTime * 1000) }
  | some _ => s

/-- The flush timer turned off when the batch is empty and no apply is pending (R157). -/
def stopIdleTimer (s : State) : State :=
  if s.out.batch.isNone && !s.req.staging.isPending then s.withOut { s.out with flush := none } else s

/-- The gap after a refused batch (R162). -/
def gapAfter (g : Option Gap) (b : Batch) : Gap :=
  let last := b.first + covered b.entries - 1
  match g with
  | none =>
    { firstRun := b.runId, firstStation := b.first, lastRun := b.runId, lastStation := last
      count := BitVec.ofNat 32 (covered b.entries) }
  | some g => { g with lastRun := b.runId, lastStation := last, count := g.count + BitVec.ofNat 32 (covered b.entries) }

/-- A flushed batch offered to the geometry queue: it joins whole, or is refused whole into the gap (R161). -/
def offerBatch (s : State) (b : Batch) : State :=
  let frames := b.payloads.map (s.frame s.params.recorder kindGeometry)
  if s.out.geometry.length + frames.length ≤ Config.geometryCapacity ∧ s.out.gap.isNone then
    s.withOut { s.out with geometry := s.out.geometry ++ frames }
  else setEvent (s.withOut { s.out with gap := some (gapAfter s.out.gap b) }) .geometryGap

/-- A flush of the batch under construction (R159, R157). -/
def flushBatch (s : State) : State :=
  match s.out.batch with
  | none => s
  | some b => stopIdleTimer (offerBatch (s.withOut { s.out with batch := none }) b)

/-- The entry a station makes (R156 step 2). -/
def EvaluatedStation.entry (e : EvaluatedStation) : BatchEntry :=
  if e.allVoid then .voidRun 1
  else .station e.chainage e.speed e.speedClass e.flags e.lineCode e.values

/-- The entries with a station added where step 3 of R156 can add it: an all-void station extends a last void run below
127; otherwise a new entry joins while there are fewer than 16. -/
def addEntry (entries : List BatchEntry) (e : EvaluatedStation) : Option (List BatchEntry) :=
  let joined := if entries.length < Config.batchCapacity then some (entries ++ [e.entry]) else none
  match entries.getLast? with
  | some (.voidRun n) =>
    if e.allVoid && decide (n < Config.voidRunLimit) then some (entries.dropLast ++ [.voidRun (n + 1)]) else joined
  | _ => joined

/-- Whether an entry is complete: a station entry, or a void run of 127 (R156 step 4). -/
def BatchEntry.complete : BatchEntry → Bool
  | .station .. => true
  | .voidRun n => decide (Config.voidRunLimit ≤ n)

/-- Whether step 4 of R156 flushes: 16 entries, the last complete. -/
def batchFull (entries : List BatchEntry) : Bool :=
  decide (entries.length = Config.batchCapacity) && (entries.getLast?.map BatchEntry.complete).getD false

/-- A new batch opened by a station, and the timer started if it is off (R156 step 3, R157). -/
def openBatch (s : State) (e : EvaluatedStation) : State :=
  startFlushTimer (s.withOut { s.out with
    batch := some { runId := s.run.id, epoch := e.epoch, first := e.number, entries := [e.entry] } })

/-- A station added to the batch; a full batch that cannot take it is flushed first (R156 step 3 and the text after step 4). -/
def addStation (s : State) (e : EvaluatedStation) : State :=
  match s.out.batch with
  | none => openBatch s e
  | some b =>
    match addEntry b.entries e with
    | some entries => s.withOut { s.out with batch := some { b with entries := entries } }
    | none => openBatch (flushBatch s) e

/-- An evaluated station taken by the composer (R156). -/
def composeStation (s : State) (e : EvaluatedStation) : State :=
  let s := match s.out.batch with
    | some b => if b.epoch ≠ e.epoch then flushBatch s else s
    | none => s
  let s := addStation s e
  match s.out.batch with
  | some b => if batchFull b.entries then flushBatch s else s
  | none => s

/-- A pending apply completes: the judged table is swapped in and APPLIED takes the reserved place (R179). -/
def completeApply (s : State) : State :=
  match s.req.staging with
  | .pending t entries requester tag =>
    let s := swapTable s t entries
    let request : Frame := { dst := s.link.ownAddr, src := requester, kind := kindRequest, payload := halfBytes tag ++ nat8 0x07 }
    stopIdleTimer (respond s request .applied (nat8 t.code ++ nat16 (s.activeCount t)))
  | _ => s

end Sys2Proof.Machine
end

