-- ==== Sys2Proof/Machine/Evaluation.lean ====
section
/-! DEFINITION. Ring entry and evaluation (R79, R80, R86, R88, R89). -/

namespace Sys2Proof.Machine

/-- The backward reach R, max(K, t) (R80, R81). -/
def Ring.reach (g : Ring) : Nat := max g.long g.twist

/-- E advanced past an evaluated station, and the station the advance frees out of the ring (R80, R86). -/
def Ring.advance (g : Ring) : Ring :=
  { g with next := g.next + 1, stations := g.stations.filter fun r => decide (g.next + 1 ≤ r.number + g.reach) }

/-- L, the number of the last station to enter the ring; −1 before station 0 (R95, R105). -/
def State.lastEntered (s : State) : Int := (s.loc.entryNumber : Int) - 1

/-- An evaluated station handed on: the void stations tally (R28), the exception detector, then the output composer
(R102; the order is that of the data path of chapter 00, log entry 7). -/
def handOn (s : State) (e : EvaluatedStation) : State :=
  let s := if e.allVoid then s.withTallies { s.run.tallies with voidStations := s.run.tallies.voidStations + 1 } else s
  composeStation (judgeStation s e) e

/-- The evaluation of station E: a pending apply completes first (R89 stage 1), the station is evaluated and handed on,
E advances and the ring frees a place (R80, R86). -/
def evaluateNext (s : State) : State :=
  match s.ring.stations.find? (·.number == s.ring.next) with
  | none => s.withRing s.ring.advance
  | some rec =>
    let s := completeApply s
    let s := handOn s (evaluate s.params s.run.direction s.loc.route s.ring s.lastEntered rec)
    s.withRing s.ring.advance

/-- What the assembly unit hands to the ring (R75). -/
structure Entering where
  number : Nat
  nominal : Nat
  speed : Nat
  speedUnknown : Bool
  skipped : Bool
  inputs : Inputs
  deriving DecidableEq, Repr

/-- The record written at entry: chainage, epoch and LOCATION_DOUBTFUL from the location unit (R106), the derived
values from the inputs (R79). -/
def State.recordOf (s : State) (e : Entering) : StationRecord :=
  { number := e.number, nominal := e.nominal, chainage := s.stationChainage e.number, epoch := s.loc.epoch
    speed := e.speed, speedUnknown := e.speedUnknown, skipped := e.skipped
    doubtful := decide (s.loc.status = .doubtful), inputs := e.inputs, derived := derive s.params e.inputs }

/-- A station enters the ring (R79, R105), is tallied (R28), and brings about an evaluation when its number is E + kmax (R86). -/
def enterRing (s : State) (e : Entering) : State :=
  let rec' := s.recordOf e
  let s := s.withRing { s.ring with stations := s.ring.stations ++ [rec'] }
  let s := s.withLoc { s.loc with entryNumber := s.loc.entryNumber + 1 }
  let s := s.withTallies { s.run.tallies with stations := s.run.tallies.stations + 1 }
  if e.number = s.ring.next + s.ring.long then evaluateNext s else s

/-- Skipped stations from a number on enter as void stations (R44, R74). -/
def enterSkipped (s : State) (number : Nat) : Nat → State
  | 0 => s
  | count + 1 =>
    enterSkipped
      (enterRing s { number := number, nominal := number * s.params.spacing, speed := 0, speedUnknown := true,
                     skipped := true, inputs := {} })
      (number + 1) count

/-- A pending entry's station enters the ring, followed by the stations skipped after it (R74). -/
def enterPending (s : State) (p : PendingStation) (inputs : Inputs) : State :=
  enterSkipped
    (enterRing s { number := p.number, nominal := p.nominal, speed := p.speed, speedUnknown := p.speedUnknown,
                   skipped := false, inputs := inputs })
    (p.number + 1) p.skips

/-- The oldest entries enter the ring while they are CLOSED (R74), at most `fuel` of them: the table's length. -/
def enterClosed (s : State) : Nat → State
  | 0 => s
  | fuel + 1 =>
    match s.table with
    | [] => s
    | p :: rest =>
      match p.closed with
      | none => s
      | some inputs => enterClosed (enterPending (s.withTable rest) p inputs) fuel

/-- The stations not yet evaluated, evaluated in order (R88). -/
def evaluateRest (s : State) : Nat → State
  | 0 => s
  | count + 1 => evaluateRest (evaluateNext s) count

end Sys2Proof.Machine
end

