-- ==== Sys2Proof/Machine/Assembly.lean ====
section
/-! DEFINITION. The assembly unit (chapter 4): answer sets, firing, sample intake, gauge points, closing, degradation and recovery. -/

namespace Sys2Proof.Machine

/-! ### Heads -/

/-- The rail a role looks at. -/
def Role.rail : Role → Option Side
  | .leftProfile => some .left
  | .rightProfile => some .right
  | .bodyMotion | .tagReader => none

def Phase.opposite : Phase → Option Phase
  | .even => some .odd
  | .odd => some .even
  | .both => none

/-- Whether a phase matches a station number (R56). -/
def Phase.covers (p : Phase) (n : Nat) : Bool :=
  match p with
  | .both => true
  | .even => n % 2 == 0
  | .odd => n % 2 == 1

/-- The partner of a profile head: the same role, the opposite phase (R53). -/
def partner (heads : List Head) (h : Head) : Option Head :=
  match h.cfg.role.rail, h.cfg.phase.opposite with
  | some _, some phase => heads.find? fun g => g.cfg.role == h.cfg.role && g.cfg.phase == phase
  | _, _ => none

/-- Whether a head's partner is DEGRADED. -/
def partnerDegraded (heads : List Head) (h : Head) : Bool :=
  match partner heads h with
  | some g => !g.active
  | none => false

/-- The part of a head in the answer set of a station, if it has one: its place in the regular set (R56), or a
takeover (R57). -/
def partIn (heads : List Head) (n rate : Nat) (h : Head) : Option Part :=
  match h.cfg.role with
  | .tagReader => none
  | .bodyMotion => if h.cfg.phase.covers n then some .body else none
  | .leftProfile =>
    if h.cfg.phase.covers n then some (.regular .left)
    else if partnerDegraded heads h && h.active && decide (rate ≤ h.cfg.maxRate) then some (.taker .left) else none
  | .rightProfile =>
    if h.cfg.phase.covers n then some (.regular .right)
    else if partnerDegraded heads h && h.active && decide (rate ≤ h.cfg.maxRate) then some (.taker .right) else none

/-- The answer set of a station, in address order (R56, R57, R59). -/
def answerSet (heads : List Head) (n rate : Nat) : List Member :=
  heads.filterMap fun h => (partIn heads n rate h).map fun part => { addr := h.cfg.addr, part := part }

/-- The demand on a head of an answer set (R50). -/
def demand (heads : List Head) (rate : Nat) (h : Head) : Nat :=
  if h.cfg.phase == .both || (h.active && partnerDegraded heads h) then rate else (rate + 1) / 2

/-- Whether the demand on any head of a set exceeds its max rate (R50). -/
def rateShortfall (heads : List Head) (rate : Nat) (set : List Member) : Bool :=
  heads.any fun h => set.any (·.addr == h.cfg.addr) && decide (h.cfg.maxRate < demand heads rate h)

def State.findHead (s : State) (addr : Byte) : Option Head := s.heads.find? (·.cfg.addr == addr)

/-- The heads with one head's runtime record changed. -/
def State.updateHead (s : State) (addr : Byte) (f : Head → Head) : State :=
  s.withHeads (s.heads.map fun h => if h.cfg.addr = addr then f h else h)

/-! ### Firing (R43, R58, R59) -/

/-- A due record (R43). -/
structure Due where
  number : Nat
  nominal : Nat
  stamp : Word
  speed : Nat
  speedUnknown : Bool
  rate : Nat
  deriving DecidableEq, Repr

/-- The pending entry opened for a fired station (R60, R61). -/
def State.pendingEntry (s : State) (d : Due) : PendingStation :=
  { number := d.number, nominal := d.nominal, stamp := d.stamp, speed := d.speed, speedUnknown := d.speedUnknown
    deadline := d.stamp + BitVec.ofNat 32 s.params.assemblyTimeout
    members := answerSet s.heads d.number d.rate }

/-- A station fired, in the order of R58: the set, the rate check, the entry, the FIRE. -/
def fireStation (s : State) (d : Due) : State :=
  let set := answerSet s.heads d.number d.rate
  let s := if rateShortfall s.heads d.rate set then setEvent s .rateExceeded else s
  let s := s.withTable (s.table ++ [s.pendingEntry d])
  let s := s.withDist { s.dist with fired := s.dist.fired + 1 }
  issueFire s (s.frame broadcast kindFire (firePayload d.number (set.map (·.addr))))

/-- The newest entry of the table with one more skipped station after it (R44). -/
def skipNewest : List PendingStation → List PendingStation
  | [] => []
  | [p] => [{ p with skips := p.skips + 1 }]
  | p :: q :: rest => p :: skipNewest (q :: rest)

/-- A station skipped (R44). -/
def skipStation (s : State) : State :=
  (s.withTable (skipNewest s.table)).withDist { s.dist with skipped := s.dist.skipped + 1 }

/-- The assembly unit takes a due record (R44, R58). -/
def takeDue (s : State) (d : Due) : State :=
  if Config.pendingCapacity ≤ s.table.length then skipStation s else fireStation s d

/-! ### Conversion and gauge point (R65 to R68) -/

/-- A 32-bit reading: void by the no-value code, its offset added, void outside its range (R65). -/
def convert (w : Word) (offset lo hi : Int) : Option Int :=
  if w = 0x7FFFFFFF then none else inRange lo hi (w.toInt + offset)

/-- A converted return of a profile sample (R66). -/
structure Return where
  lateral : Option Int
  depth : Option Int
  strength : Nat
  deriving DecidableEq, Repr

/-- The returns of a profile payload, converted (R66). -/
def readReturns (e : RosterEntry) (payload : List Byte) : List Return :=
  (chunks 9 (byteAt payload 10).toNat (payload.drop 11)).map fun b =>
    { lateral := convert (wordAt b 0) e.lateralOffset (-100000) 100000
      depth := if wordAt b 4 = 0x7FFFFFFF then none else some (wordAt b 4).toInt
      strength := (byteAt b 8).toNat }

/-- A candidate of step 2 of R68: its lateral, and how far its depth differs from GAUGE_DEPTH. -/
def candidate (p : Params) (minStrength : Nat) (r : Return) : Option (Int × Nat) :=
  match r.lateral, r.depth with
  | some lateral, some depth =>
    if minStrength ≤ r.strength ∧ (depth - p.gaugeDepth).natAbs ≤ p.gaugeWindow then
      some (lateral, (depth - p.gaugeDepth).natAbs)
    else none
  | _, _ => none

/-- Whether a candidate is to be chosen over another: nearer the gauge depth, or as near and nearer the track centre (R68 step 4). -/
def betterCandidate (rail : Side) (a b : Int × Nat) : Bool :=
  decide (a.2 < b.2) || (decide (a.2 = b.2) &&
    match rail with
    | .left => decide (b.1 < a.1)
    | .right => decide (a.1 < b.1))

/-- The lateral of the gauge point (R68 steps 2 to 5). -/
def gaugePoint (p : Params) (rail : Side) (minStrength : Nat) (returns : List Return) : Option Int :=
  ((returns.filterMap (candidate p minStrength)).foldl
    (fun best c => match best with
      | none => some c
      | some b => if betterCandidate rail c b then some c else best)
    none).map (·.1)

/-- A profile sample converted, its gauge point selected (R63, R65, R66, R68). -/
def convertProfile (p : Params) (e : RosterEntry) (rail : Side) (status : SampleStatus) (payload : List Byte) : Sample :=
  if status = .ok then
    let top := if (byteAt payload 5).getLsbD 0 then convert (wordAt payload 6) e.verticalOffset (-150000) 0 else none
    let lateral := if top.isSome then gaugePoint p rail e.minStrength (readReturns e payload) else none
    .profile status lateral top
  else .profile status none none

/-- A body sample converted (R63, R65, R67). -/
def convertBody (e : RosterEntry) (status : SampleStatus) (payload : List Byte) : Sample :=
  if status = .ok then
    .body status (convert (wordAt payload 5) e.lateralOffset (-50000) 50000)
      (convert (wordAt payload 9) e.verticalOffset (-50000) 50000)
      (convert (wordAt payload 13) e.rollOffset (-150000) 150000)
  else .body status none none none

def convertSample (p : Params) (e : RosterEntry) (status : SampleStatus) (payload : List Byte) : Sample :=
  match e.role.rail with
  | some rail => convertProfile p e rail status payload
  | none => convertBody e status payload

/-- Step 7 of R62: the payload fits the form of the head's role, with no more returns than its max returns (R185). -/
def wellFormedFor (e : RosterEntry) (payload : List Byte) : Bool :=
  match e.role.rail with
  | some _ =>
    let count := (byteAt payload 10).toNat
    decide (11 ≤ payload.length ∧ count ≤ 8 ∧ payload.length = 11 + 9 * count ∧ count ≤ e.maxReturns)
  | none => decide (payload.length = 17)

/-! ### Closing (R69 to R73) -/

/-- The status of a sample. -/
def Sample.status : Sample → SampleStatus
  | .profile st _ _ => st
  | .body st _ _ _ => st

/-- Whether a head is ACTIVE in the roster. -/
def State.isActive (s : State) (addr : Byte) : Bool := (s.findHead addr).elim false (·.active)

/-- Conditions (a) and (b) of R69 for an entry. -/
def State.answered (s : State) (p : PendingStation) : Bool :=
  p.members.all (·.sample.isSome)
    || (p.members.any (fun m => s.isActive m.addr)
        && p.members.all fun m => !s.isActive m.addr || m.sample.isSome)

/-- The judgement of one head of the set at the close of station `n` (R70, R71). At a degradation the HEAD_DEGRADED note is
offered before the set of the sticky bit with its STATUS note: the model's choice, log entry 29. -/
def judgeHead (n : Nat) (s : State) (m : Member) : State :=
  match s.findHead m.addr with
  | none => s
  | some h =>
    if m.sample.isSome then s.updateHead m.addr fun h => { h with misses := 0 }
    else
      let misses := min 255 (h.misses + 1)
      let s := s.updateHead m.addr fun h => { h with missed := h.missed + 1, misses := misses }
      if !h.active then s.updateHead m.addr fun h => { h with recovery := 0 }
      else if s.params.degradeCount ≤ misses then
        let s := s.updateHead m.addr fun h => { h with active := false, recovery := 0 }
        let s := offerNote s (.headDegraded s.run.id m.addr h.cfg.role h.cfg.phase n)
        setEvent s .headDegraded
      else s

/-- The sample of an entry by the head that plays a part. -/
def sampleOf (members : List Member) (part : Part) : Option (Byte × Sample) :=
  (members.find? fun m => m.part == part && m.sample.isSome).bind fun m => m.sample.map fun x => (m.addr, x)

/-- The sample used for a rail (R73). Two samples of different statuses, neither OK, hold only voids, so either serves. -/
def State.railSample (s : State) (members : List Member) (rail : Side) : Option Sample :=
  match sampleOf members (.regular rail), sampleOf members (.taker rail) with
  | none, none => none
  | some (_, x), none => some x
  | none, some (_, y) => some y
  | some (a, x), some (b, y) =>
    if x.status = .ok ∧ y.status ≠ .ok then some x
    else if x.status ≠ .ok ∧ y.status = .ok then some y
    else if s.isActive b && !s.isActive a then some y
    else some x

/-- Lateral and top of a rail's sample. -/
def Sample.rail : Option Sample → Option Int × Option Int
  | some (.profile _ lateral top) => (lateral, top)
  | _ => (none, none)

/-- The car-frame inputs of a station at its close (R73). -/
def State.inputsOf (s : State) (members : List Member) : Inputs :=
  let l := Sample.rail (s.railSample members .left)
  let r := Sample.rail (s.railSample members .right)
  let i : Inputs := { aL := l.1, hL := l.2, aR := r.1, hR := r.2 }
  match sampleOf members .body with
  | some (_, .body _ yb zb roll) => { i with yb := yb, zb := zb, r := roll }
  | _ => i

/-- The pending table with one entry changed. -/
def State.updateEntry (s : State) (n : Nat) (f : PendingStation → PendingStation) : State :=
  s.withTable (s.table.map fun p => if p.number = n then f p else p)

/-- An OPEN entry closes: its heads are judged, its inputs taken, and it is offered to the ring (R69 to R74). -/
def closeStation (s : State) (p : PendingStation) : State :=
  let s := p.members.foldl (judgeHead p.number) s
  let inputs := s.inputsOf p.members
  let s := s.updateEntry p.number fun p => { p with closed := some inputs }
  enterClosed s s.table.length

/-- The oldest OPEN entry that conditions (a) or (b) now close. -/
def State.firstAnswered (s : State) : Option PendingStation :=
  s.table.find? fun p => p.closed.isNone && s.answered p

/-- The closes that an event brings about by (a) or (b), in station order, each with the head states left by the ones
before it (R69), at most `fuel` of them: the table's length. -/
def closeAnswered (s : State) : Nat → State
  | 0 => s
  | fuel + 1 =>
    match s.firstAnswered with
    | none => s
    | some p => closeAnswered (closeStation s p) fuel

/-! ### Sample intake (R62 to R64, R72) -/

/-- A well-formed answer of a DEGRADED head: recovery, and ACTIVE once it reaches RECOVER_COUNT (R63, R64, R72). -/
def advanceRecovery (s : State) (n : Nat) (h : Head) : State :=
  if h.active then s
  else if s.params.recoverCount ≤ h.recovery + 1 then
    let s := s.updateHead h.cfg.addr fun h => { h with active := true, recovery := 0, misses := 0 }
    offerNote s (.headRecovered s.run.id h.cfg.addr h.cfg.role h.cfg.phase n)
  else s.updateHead h.cfg.addr fun h => { h with recovery := h.recovery + 1 }

/-- A late sample (R64). -/
def lateSample (s : State) (h : Head) (n : Nat) (payload : List Byte) : State :=
  let s := s.updateHead h.cfg.addr fun h => { h with late := h.late + 1 }
  let s := if wellFormedFor h.cfg payload then advanceRecovery s n h else s
  closeAnswered s s.table.length

/-- An accepted sample (R63): stored, recovery advanced, the closing conditions tested. -/
def acceptSample (s : State) (h : Head) (n : Nat) (status : SampleStatus) (payload : List Byte) : State :=
  let sample := convertSample s.params h.cfg status payload
  let s := s.updateHead h.cfg.addr fun h => { h with accepted := h.accepted + 1 }
  let s := s.updateEntry n fun p =>
    { p with members := p.members.map fun m => if m.addr = h.cfg.addr then { m with sample := some sample } else m }
  let s := advanceRecovery s n h
  closeAnswered s s.table.length

/-- Whether a station number is late (R62 step 3): below the oldest entry, with an empty table, or its entry CLOSED. -/
def State.isLate (s : State) (n : Nat) : Bool :=
  match s.table with
  | [] => true
  | p :: _ => decide (n < p.number) || s.table.any fun q => q.number == n && q.closed.isSome

def countMalformed (s : State) (h : Head) : State := s.updateHead h.cfg.addr fun h => { h with malformed := h.malformed + 1 }
def countUnasked (s : State) (h : Head) : State := s.updateHead h.cfg.addr fun h => { h with unasked := h.unasked + 1 }
def countDuplicate (s : State) (h : Head) : State := s.updateHead h.cfg.addr fun h => { h with duplicate := h.duplicate + 1 }

/-- The sample intake (R62). -/
def sampleIntake (s : State) (h : Head) (payload : List Byte) : State :=
  let n := (wordAt payload 0).toNat
  if payload.length < 5 then countMalformed s h
  else match SampleStatus.ofCode (byteAt payload 4) with
    | none => countMalformed s h
    | some status =>
      if s.dist.next ≤ n then countMalformed s h
      else if s.isLate n then lateSample s h n payload
      else match s.table.find? (·.number == n) with
        | none => countUnasked s h
        | some p =>
          match p.members.find? (·.addr == h.cfg.addr) with
          | none => countUnasked s h
          | some m =>
            if m.sample.isSome then countDuplicate s h
            else if wellFormedFor h.cfg payload then acceptSample s h n status payload
            else countMalformed s h

end Sys2Proof.Machine
end

