-- ==== Sys2Proof/Machine/Time.lean ====
section
/-! DEFINITION. The passing of time (R39) and the events that come to the 740 with it: the timers that run out, the
deadlines, the stamp-valid timeout, and the completion of a drain. -/

namespace Sys2Proof.Machine

/-! ### The completion of a drain (R27) -/

/-- Draining, with every pending station entered: the drain completes at once (R27, log entry 23). -/
abbrev State.DrainReady (s : State) : Prop := s.run.state = .draining ∧ s.table = []

/-- The five stages of R27. -/
def completeDrain (s : State) : State :=
  let s := evaluateRest s (s.loc.entryNumber - s.ring.next)
  let s := closeAll s .runEnd
  let s := flushBatch s
  let s := offerNote s (.runEnd s.run.id s.run.distanceAtStop s.run.tallies)
  let s := s.withRing { s.ring with stations := [] }
  let s := s.withLoc { s.loc with status := .none }
  s.withRunState .idle

/-! ### The part's own events -/

/-- An event that comes to the part at a moment, with no cause outside. -/
inductive OwnEvent where
  /-- The pause timer runs out (R15). -/
  | pauseEnd
  /-- The flush timer runs out (R158). -/
  | flush
  /-- The pulse of a marking output runs out (R151). -/
  | pulseEnd (side : Side)
  /-- The deadline of the OPEN entry of a station (R61). -/
  | deadline (station : Nat)
  /-- The time base stands 2^31 µs beyond the previous stamp (R47). -/
  | stampTimeout
  /-- A drain that is ready completes (R27). -/
  | drain
  deriving DecidableEq, Repr

/-- The OPEN entry of a station. -/
def State.openEntry (s : State) (station : Nat) : Option PendingStation :=
  s.table.find? fun p => p.number == station && p.closed.isNone

/-- The µs until an event of the part's own comes; none where it is not to come. -/
def State.timeTo (s : State) : OwnEvent → Option Nat
  | .pauseEnd => s.link.pause
  | .flush => s.out.flush
  | .pulseEnd .left => s.mark.pulseL
  | .pulseEnd .right => s.mark.pulseR
  | .deadline station => (s.openEntry station).map fun p => timeUntil s.time p.deadline
  | .stampTimeout => if s.dist.stampValid then some (2 ^ 31 - (s.time - s.dist.prevStamp).toNat) else none
  | .drain => if s.DrainReady then some 0 else none

/-- An event of the part's own taken. -/
def takeOwn (s : State) : OwnEvent → State
  | .pauseEnd => settle (s.withLink { s.link with pause := none })
  | .flush =>
    let s := flushBatch (completeApply s)
    settle (s.withOut { s.out with flush := none })
  | .pulseEnd .left => settle (s.withMark { s.mark with pulseL := none })
  | .pulseEnd .right => settle (s.withMark { s.mark with pulseR := none })
  | .deadline station =>
    match s.openEntry station with
    | none => s
    | some p =>
      let s := closeStation s p
      settle (closeAnswered s s.table.length)
  | .stampTimeout => settle (s.withDist { s.dist with stampValid := false })
  | .drain => settle (completeDrain s)

/-- The events that can come to the part: one of each kind, and a deadline for each OPEN entry. -/
def State.ownEvents (s : State) : List OwnEvent :=
  [.pauseEnd, .flush, .pulseEnd .left, .pulseEnd .right, .stampTimeout, .drain]
    ++ (s.table.filter (·.closed.isNone)).map (.deadline ·.number)

/-- The µs until the next of the part's own events. -/
def State.soonest (s : State) : Option Nat := (s.ownEvents.filterMap s.timeTo).min?

/-- The part's own events that come at one moment. -/
def State.comingIn (s : State) (t : Nat) : List OwnEvent := s.ownEvents.filter fun e => s.timeTo e == some t

/-- One of several events that come together: a free value chooses, and the choice is counted (log entry 4). -/
def State.pick {α : Type} (s : State) (first : α) : List α → α × State
  | [] => (first, s)
  | second :: rest =>
    let all := first :: second :: rest
    (all.getD (Config.freeOrder s.draws % all.length) first, s.withDraws (s.draws + 1))

/-! ### The passing of time -/

/-- Some µs pass, and each of the part's own events that comes before their end is taken at its moment; one that comes
just at their end is still to be taken (log entries 2 and 3). At most `fuel` events are taken. -/
def passTime : Nat → Nat → State → State
  | 0, n, s => elapse n s
  | fuel + 1, n, s =>
    match s.soonest with
    | none => elapse n s
    | some t =>
      if t < n then
        match s.comingIn t with
        | [] => elapse n s
        | e :: rest =>
          let choice := (elapse t s).pick e rest
          passTime fuel (n - t) (takeOwn choice.2 choice.1)
      else elapse n s

/-- More than the own events that can come while nothing comes from outside: each OPEN entry closes once, each of the
others comes once, and only a deadline or the completion of a drain can start the flush timer again. -/
def State.ownEventBound (s : State) : Nat := 2 * s.table.length + 8

/-- The state after some µs in which nothing comes from outside. -/
def State.after (s : State) (n : Nat) : State := passTime s.ownEventBound n s

/-- The state at the moment of an event of the part's own, before it is taken; the present one where it is not to come. -/
def State.atMoment (s : State) (e : OwnEvent) : State :=
  match s.timeTo e with
  | none => s
  | some t => s.after t

/-- An event of the part's own awaited, and taken if it still comes at its moment: an earlier one may have forestalled
it. Where it is not to come, nothing happens (log entries 1 and 3). -/
def awaitOwn (e : OwnEvent) (s : State) : State :=
  let s := s.atMoment e
  if s.timeTo e = some 0 then takeOwn s e else s

/-! ### The commands -/

/-- PAUSE_EXPIRY (R15). -/
def execPauseExpiry (s : State) : Result := .next (awaitOwn .pauseEnd s)

/-- STAMP_VALID_TIMEOUT (R47). -/
def execStampValidTimeout (s : State) : Result := .next (awaitOwn .stampTimeout s)

/-- DEADLINE_EXPIRY (R61, R69): the entry closes by condition (c), with the closes that brings about. -/
def execDeadlineExpiry (station : Nat) (s : State) : Result := .next (awaitOwn (.deadline station) s)

/-- MARK_PULSE_EXPIRY (R151). -/
def execMarkPulseExpiry (side : Side) (s : State) : Result := .next (awaitOwn (.pulseEnd side) s)

/-- FLUSH_TIMER_EXPIRY (R158): a pending apply completes, a batch is flushed, and the timer is off. -/
def execFlushTimerExpiry (s : State) : Result := .next (awaitOwn .flush s)

/-- DRAIN_COMPLETE (R27): the stages run where the drain is ready; where it is not, nothing happens. -/
def execDrainComplete (s : State) : Result := if s.DrainReady then .next (settle (completeDrain s)) else .next s

end Sys2Proof.Machine
end

