-- ==== Sys2Proof/Machine/Distance.lean ====
section
/-! DEFINITION. The distance unit (chapter 3): the decoder, the odometer, run suspension and resume, due stations, speed and rate. -/

namespace Sys2Proof.Machine

/-- What a change of the encoder levels gives (R33). -/
inductive Count where
  | none
  | forward
  | reverse
  | error
  deriving DecidableEq, Repr

/-- A pair of levels by its place in the forward order (low, low), (high, low), (high, high), (low, high) (R33). -/
def phaseState (a b : Bool) : Nat :=
  match a, b with
  | false, false => 0
  | true, false => 1
  | true, true => 2
  | false, true => 3

/-- The decoder's outcome for a held pair and a new pair (R33, R34). -/
def decodePhase (heldA heldB a b : Bool) : Count :=
  match (phaseState a b + 4 - phaseState heldA heldB) % 4 with
  | 1 => .forward
  | 2 => .error
  | 3 => .reverse
  | _ => .none

/-- The count length Lq (R36). -/
def countLengthOf (p : Params) : Nat := (roundDiv (p.wheelCirc * 65536) p.encCpr).toNat

/-- The speed of a station over an interval in µs, saturated at 65535 (R46). -/
def speedOver (spacing interval : Nat) : Nat :=
  if interval = 0 then 65535 else min 65535 (roundDiv (spacing * 360) interval).toNat

/-- The required rate in fires per second (R49). -/
def requiredRate (speed spacingMm : Nat) : Nat := speed * 1000 / (360 * spacingMm)

/-- The due record of station N on a count stamped now (R43, R46, R47, R49). A station due 2^31 µs or more after the
previous stamp has unknown speed whether or not the indication has been cleared yet (R47, third case). -/
def State.dueRecord (s : State) : Due :=
  let interval := (s.time - s.dist.prevStamp).toNat
  let known := s.dist.stampValid && decide (interval < 2 ^ 31)
  let speed := if known then speedOver s.params.spacing interval else 0
  { number := s.dist.next, nominal := s.dist.next * s.params.spacing, stamp := s.time, speed := speed
    speedUnknown := !known, rate := requiredRate speed s.params.spacingMm }

/-- Station N made due: handed to the assembly unit, N advanced, the stamp and the last speed taken (R41, R43, R45, R48). -/
def dueStation (s : State) : State :=
  let d := s.dueRecord
  let s := takeDue s d
  s.withDist { s.dist with
    next := s.dist.next + 1, prevStamp := d.stamp, stampValid := true, lastSpeed := d.speed, lastUnknown := d.speedUnknown }

/-- The stations one count makes due, in increasing number (R41, R42), with the high-water mark as it stood before the
count, at most `fuel` of them. -/
def dueStations (s : State) (highWater : Int) : Nat → State
  | 0 => s
  | fuel + 1 =>
    if (s.dist.next * s.params.spacing : Int) ≤ s.runDistance ∧ highWater < s.runDistance then
      dueStations (dueStation s) highWater fuel
    else s

/-- A bound on the stations one count can make due: those with a nominal distance within the run distance. -/
def State.dueBound (s : State) : Nat := (s.runDistance / s.params.spacing).toNat + 1 - s.dist.next

/-- The due test of a count in RUNNING, and the high-water mark it leaves (R18, R41, R42). -/
def testDue (s : State) : State :=
  let highWater := s.run.highWater
  let s := dueStations s highWater s.dueBound
  s.withRun { s.run with highWater := max highWater s.runDistance }

/-- The run state a forward count leaves: past the high-water mark a suspended run resumes (R24). -/
def resumeRun (s : State) : State :=
  if s.run.state = .suspended ∧ s.run.highWater < s.runDistance then s.withRunState .running else s

/-- A forward count (R37, R41, R150). -/
def forwardCount (s : State) : State :=
  let s := s.withDist { s.dist with odometer := s.dist.odometer + BitVec.ofNat 64 s.dist.countLength }
  let s := resumeRun s
  let s := if s.run.state = .running then testDue s else s
  reachMarks s

/-- A reverse count: in RUNNING it suspends the run and clears the stamp-valid indication (R23, R37, R45). -/
def reverseCount (s : State) : State :=
  let s := s.withDist { s.dist with odometer := s.dist.odometer - BitVec.ofNat 64 s.dist.countLength }
  if s.run.state = .running then
    (s.withRunState .suspended).withDist { s.dist with stampValid := false }
  else s

/-- ENCODER_CHANGE (R33, R34). -/
def execEncoderChange (wait : Nat) (encA encB : Bool) (s : State) : Result :=
  let s := s.after wait
  let outcome := decodePhase s.dist.heldA s.dist.heldB encA encB
  let s := s.withDist { s.dist with heldA := encA, heldB := encB }
  .next (settle (match outcome with
    | .none => s
    | .forward => forwardCount s
    | .reverse => reverseCount s
    | .error => s.withDist { s.dist with encoderErrors := s.dist.encoderErrors + 1 }))

end Sys2Proof.Machine
end

