-- ==== Sys2Proof/Machine/Link.lean ====
section
/-! DEFINITION. The link commands (chapter 1): port state, reception and classification at both ports, the ends of
transmission, PAUSE. -/

namespace Sys2Proof.Machine

/-! ### Reception -/

/-- A frame of bad length or wrong check, or a partial frame, counted at port A (R2, R16). -/
def errorA (s : State) : State :=
  let c := s.link.countersA
  setEvent (s.withLink { s.link with countersA := { c with errors := c.errors + 1 } }) .linkAErrors

/-- The same at port B. -/
def errorB (s : State) : State :=
  let c := s.link.countersB
  setEvent (s.withLink { s.link with countersB := { c with errors := c.errors + 1 } }) .linkBErrors

/-- The end of a frame found, or a partial frame discarded (R16). -/
def countReceivedA (s : State) : State :=
  let c := s.link.countersA
  s.withLink { s.link with countersA := { c with received := c.received + 1 } }

def countReceivedB (s : State) : State :=
  let c := s.link.countersB
  s.withLink { s.link with countersB := { c with received := c.received + 1 } }

/-- A SAMPLE or TAG dropped at port A (R6). -/
def dropUnknownSource (s : State) : State :=
  let c := s.link.countersA
  s.withLink { s.link with countersA := { c with unknownSource := c.unknownSource + 1 } }

/-- A frame dropped at port B for its kind, or a PAUSE of wrong payload (R8). -/
def dropWrongKind (s : State) : State :=
  let c := s.link.countersB
  s.withLink { s.link with countersB := { c with wrongKind := c.wrongKind + 1 } }

/-- The classification of a good frame at port A by kind and source (R6). -/
def classifyA (s : State) (f : Frame) : State :=
  if f.kind = kindSample then
    match s.findHead f.src with
    | none => dropUnknownSource s
    | some h => if h.cfg.role = .tagReader then dropUnknownSource s else sampleIntake s h f.payload
  else if f.kind = kindTag then
    match s.findHead f.src with
    | none => dropUnknownSource s
    | some h => if h.cfg.role = .tagReader then tagIntake s f.payload else dropUnknownSource s
  else offerForwardAB s f

/-- A PAUSE consumed by the port B transmitter (R15); a payload of any other length than two is a wrong-kind drop (R8). -/
def takePause (s : State) (payload : List Byte) : State :=
  if payload.length = 2 then
    let duration := (halfAt payload 0).toNat
    s.withLink { s.link with pause := if duration = 0 then none else some duration }
  else dropWrongKind s

/-- A REQUEST offered to the request intake (R9). -/
def offerRequest (s : State) (f : Frame) : State :=
  if s.req.intake.length < Config.intakeCapacity then s.withReq { s.req with intake := s.req.intake ++ [f] }
  else
    let c := s.link.countersB
    setEvent (s.withLink { s.link with countersB := { c with intakeDrops := c.intakeDrops + 1 } }) .requestDropped

/-- The classification of a good frame at port B, the first row that matches (R8). -/
def classifyB (s : State) (f : Frame) : State :=
  if f.kind = kindPause then takePause s f.payload
  else if f.dst = s.link.ownAddr then
    if f.kind = kindRequest then offerRequest s f else dropWrongKind s
  else if f.dst = broadcast ∧ f.kind = kindRequest then offerForwardBA (offerRequest s f) f
  else offerForwardBA s f

/-- A delimited frame received at port A (R2, R6). -/
def receiveA (s : State) (bytes : List Byte) : State :=
  let s := countReceivedA s
  match judgeFrame bytes with
  | none => errorA s
  | some f => classifyA s f

/-- A delimited frame received at port B (R2, R8). -/
def receiveB (s : State) (bytes : List Byte) : State :=
  let s := countReceivedB s
  match judgeFrame bytes with
  | none => errorB s
  | some f => classifyB s f

/-- PORT_A_RECEIVE. A DOWN port delimits no frame (R1). -/
def execPortAReceive (wait : Nat) (bytes : List Byte) (s : State) : Result :=
  let s := s.after wait
  if s.link.upA then .next (settle (receiveA s bytes)) else .next (settle s)

/-- PORT_B_RECEIVE. A DOWN port delimits no frame (R1). -/
def execPortBReceive (wait : Nat) (bytes : List Byte) (s : State) : Result :=
  let s := s.after wait
  if s.link.upB then .next (settle (receiveB s bytes)) else .next (settle s)

/-! ### Port state (R1, R12) -/

/-- PORT_UP: the port goes UP and its transmitter resumes choosing. -/
def execPortUp (wait : Nat) (port : Port) (s : State) : Result :=
  let s := s.after wait
  .next (settle (match port with
    | .A => s.withLink { s.link with upA := true }
    | .B => s.withLink { s.link with upB := true }))

/-- Port A goes DOWN: the waiting FIRE frames are discarded (R12), a partial frame is counted (R1). -/
def downA (s : State) (partlyReceived : Bool) : State :=
  let s := s.withLink { s.link with upA := false, fires := [] }
  if partlyReceived then errorA (countReceivedA s) else s

/-- Port B goes DOWN. -/
def downB (s : State) (partlyReceived : Bool) : State :=
  let s := s.withLink { s.link with upB := false }
  if partlyReceived then errorB (countReceivedB s) else s

/-- PORT_DOWN. A port that is DOWN already has no lock to lose and nothing partly received. -/
def execPortDown (wait : Nat) (port : Port) (partlyReceived : Bool) (s : State) : Result :=
  let s := s.after wait
  .next (settle (match port with
    | .A => if s.link.upA then downA s partlyReceived else s
    | .B => if s.link.upB then downB s partlyReceived else s))

/-! ### Transmission -/

/-- PORT_A_TRANSMIT_END: the line is free, and the transmitter chooses (R11). -/
def execPortATransmitEnd (wait : Nat) (s : State) : Result :=
  let s := s.after wait
  .next (settle (s.withLink { s.link with lineA := none }))

/-- PORT_B_TRANSMIT_END: the line is free, and the arbiter chooses (R13, R14). -/
def execPortBTransmitEnd (wait : Nat) (s : State) : Result :=
  let s := s.after wait
  .next (settle (s.withLink { s.link with lineB := none }))

end Sys2Proof.Machine
end

