-- ==== Sys2Proof/Machine/Management.lean ====
section
/-! DEFINITION. The handling of requests (chapter 10), but for the four of the chapters Runs and Location. -/

namespace Sys2Proof.Machine

/-! ### One request handled (R169, R170) -/

/-- The handling of the request at the head of the intake by its command: with a free place in the response queue, the
request leaves the intake, the handling makes its changes, and the transmitters choose (R169). Where the head is of
another kind or the response queue has no free place, the request waits and nothing changes; a SET_CHAINAGE waits also for
a drain that is ready, which completes first (R27, R117, log entry 23). -/
def handleRequest (kind : RequestKind) (handling : Frame → State → State) (s : State) : Result :=
  match s.req.intake with
  | [] => .next s
  | r :: rest =>
    if requestKind r.payload = kind ∧ s.req.placesTaken < Config.responseCapacity
        ∧ (kind = .setChainage → ¬s.DrainReady) then
      .next (settle (handling r (s.withReq { s.req with intake := rest })))
    else .next s

/-- A recognised request whose payload does not fit its kind is answered BAD_PARAM and changes nothing (R170). The
response holds the common four bytes only, that of a SET_PARAM or GET_PARAM of wrong length too, whatever its byte 3 is:
the model's choice, log entry 27. A TABLE_OPEN, TABLE_APPLY or TABLE_ABORT of wrong
length is answered so while an apply is pending too, where R179 has every one answered BUSY: the model's choice, log entry
28. -/
def ifConsistent (kind : RequestKind) (handling : Frame → State → State) (r : Frame) (s : State) : State :=
  if requestConsistent kind r.payload then handling r s else respond s r .badParam []

/-! ### Status and parameters (R171 to R174) -/

/-- The staging fields of QUERY_STATUS: state, table, lines received, entries held (R171). -/
def Staging.report : Staging → List Byte
  | .closed => nat8 0 ++ nat8 0 ++ nat16 0 ++ nat16 0
  | .opened t lines entries => nat8 1 ++ nat8 t.code ++ nat16 lines ++ nat16 entries.length
  | .pending t _ _ _ => nat8 2 ++ nat8 t.code ++ nat16 0 ++ nat16 0

/-- The fields of QUERY_STATUS (R171, Table 11-6). -/
def State.statusReport (s : State) : List Byte :=
  nat8 s.run.state.code ++ halfBytes s.run.id ++ nat32 s.dist.next ++ wordBytes s.currentChainage
    ++ nat8 s.loc.status.code ++ nat16 (if s.dist.lastUnknown then 0 else s.dist.lastSpeed)
    ++ [flagByte [s.link.upA, s.link.upB]] ++ s.status.field ++ wordBytes s.status.generation
    ++ s.req.staging.report ++ nat16 Config.partRevision

def queryStatus (r : Frame) (s : State) : State := respond s r .done s.statusReport

/-- CLEAR_STATUS (R174). -/
def clearStatus (r : Frame) (s : State) : State :=
  if wordAt r.payload 5 = s.status.generation then
    let s := s.withStatus (s.status.clear (halfAt r.payload 3))
    respond s r .done (s.status.field ++ wordBytes s.status.generation)
  else respond s r .stale (s.status.field ++ wordBytes s.status.generation)

/-- The fields of a response about a parameter: its identity and the value in force (Table 11-6). -/
def State.paramFields (s : State) (r : Frame) (id : ParamId) : List Byte := [byteAt r.payload 3] ++ int32 (s.params.get id)

/-- SET_PARAM (R172). -/
def setParam (r : Frame) (s : State) : State :=
  match ParamId.ofCode (byteAt r.payload 3) with
  | none => respond s r .badParam []
  | some id =>
    let v := (wordAt r.payload 4).toInt
    if id.runLocked && decide (s.run.state ≠ .idle) then respond s r .busy (s.paramFields r id)
    else if id.accepts v then
      let s := s.withParams (s.params.set id v)
      respond s r .done (s.paramFields r id)
    else respond s r .badParam (s.paramFields r id)

/-- GET_PARAM (R172). -/
def getParam (r : Frame) (s : State) : State :=
  match ParamId.ofCode (byteAt r.payload 3) with
  | none => respond s r .badParam []
  | some id => respond s r .done (s.paramFields r id)

/-! ### Tables (R176 to R181) -/

/-- TABLE_OPEN (R176). One that names no table is answered BAD_PARAM by step 1 of R176 while an apply is pending too, where
R179 has every one answered BUSY: the model's choice, log entry 28. -/
def tableOpen (r : Frame) (s : State) : State :=
  match Table.ofCode (byteAt r.payload 3) with
  | none => respond s r .badParam []
  | some t =>
    if s.req.staging ≠ .closed then respond s r .busy []
    else if t = .roster ∧ s.run.state ≠ .idle then respond s r .refusedRunning []
    else respond (s.withReq { s.req with staging := .opened t 0 [] }) r .done []

/-- The response to a TABLE_LINE: with staging OPEN after the handling it carries the lines received and the entries
held (R177, Table 11-6). -/
def respondLine (s : State) (r : Frame) (code : ResultCode) : State :=
  respond s r code (match s.req.staging with
    | .opened _ lines entries => nat16 lines ++ nat16 entries.length
    | _ => [])

/-- TABLE_LINE (R177, R185). One too short for its own fields is answered BAD_PARAM before the steps of R177 (log entry
17), while an apply is pending too, where R179 has every one answered BUSY: the model's choice, log entry 28. -/
def tableLine (r : Frame) (s : State) : State :=
  if !requestConsistent .tableLine r.payload then respondLine s r .badParam
  else match s.req.staging with
    | .closed => respondLine s r .noLoad
    | .pending .. => respondLine s r .busy
    | .opened t lines entries =>
      let count := (byteAt r.payload 5).toNat
      if count = 0 ∨ 8 < count ∨ r.payload.length ≠ 6 + count * t.entrySize then respondLine s r .badParam
      else if (halfAt r.payload 3).toNat ≠ lines then respondLine s r .lineOrder
      else if t.capacity < entries.length + count then respondLine s r .stagingFull
      else
        let entries := entries ++ chunks t.entrySize count (r.payload.drop 6)
        respondLine (s.withReq { s.req with staging := .opened t (lines + 1) entries }) r .done

/-- Whether a table's apply is immediate in a run state; otherwise it is pending (R178 steps 8 and 9). -/
def appliesAtOnce (t : Table) (state : RunState) : Bool :=
  match t with
  | .roster | .markerTags => true
  | .route | .thresholds => decide (state = .idle ∨ state = .suspended)

/-- TABLE_APPLY (R178, R179). -/
def tableApply (r : Frame) (s : State) : State :=
  match s.req.staging with
  | .closed => respond s r .noLoad []
  | .pending .. => respond s r .busy []
  | .opened t lines entries =>
    let expected := (halfAt r.payload 3).toNat
    if lines = 0 ∧ expected ≠ 0 then respond s r .empty []
    else if expected ≠ entries.length then respond s r .countError []
    else if !orderJudged t entries then respond s r .orderError []
    else if !rangeJudged t entries then respond s r .rangeError []
    else if t = .roster ∧ s.run.state ≠ .idle then respond s r .refusedRunning []
    else if appliesAtOnce t s.run.state then
      let s := swapTable s t entries
      respond s r .applied (nat8 t.code ++ nat16 (s.activeCount t))
    else startFlushTimer (s.withReq { s.req with staging := .pending t entries r.src (halfAt r.payload 0) })

/-- TABLE_ABORT (R180). -/
def tableAbort (r : Frame) (s : State) : State :=
  match s.req.staging with
  | .closed => respond s r .noLoad []
  | .pending .. => respond s r .busy []
  | .opened .. => respond (s.withReq { s.req with staging := .closed }) r .done []

/-- READ_ENTRY (R181). -/
def readEntry (r : Frame) (s : State) : State :=
  match Table.ofCode (byteAt r.payload 3) with
  | none => respond s r .badParam []
  | some t =>
    match s.activeEntry t (halfAt r.payload 4).toNat with
    | none => respond s r .badParam []
    | some entry =>
      respond s r .done (nat8 t.code ++ halfBytes (halfAt r.payload 4) ++ nat16 (s.activeCount t) ++ entry)

/-! ### Counters (R175) -/

/-- The counters of a head in the HEADS report (Table 11-6). -/
def Head.report (h : Head) : List Byte :=
  [h.cfg.addr] ++ nat8 (if h.active then 0 else 1) ++ nat8 h.misses ++ nat8 h.recovery ++ wordBytes h.accepted
    ++ wordBytes h.late ++ wordBytes h.duplicate ++ wordBytes h.unasked ++ wordBytes h.malformed ++ wordBytes h.missed

/-- The counter groups (Table 11-1). -/
inductive Group where
  | portA
  | portB
  | heads
  | run
  deriving DecidableEq, Repr

def Group.ofCode (b : Byte) : Option Group :=
  if b = 1 then some .portA else if b = 2 then some .portB
  else if b = 3 then some .heads else if b = 4 then some .run else none

/-- The counters of a group, in the order reported (R175). -/
def State.counterReport (s : State) : Group → List Byte
  | .portA =>
    let c := s.link.countersA
    wordBytes c.received ++ wordBytes c.errors ++ wordBytes c.unknownSource ++ wordBytes c.forwarded ++ wordBytes c.forwardDrops
  | .portB =>
    let c := s.link.countersB
    wordBytes c.received ++ wordBytes c.errors ++ wordBytes c.wrongKind ++ wordBytes c.forwarded ++ wordBytes c.forwardDrops
      ++ wordBytes c.intakeDrops
  | .heads => nat8 s.heads.length ++ s.heads.flatMap Head.report
  | .run =>
    let d := s.dist
    let c := s.loc.counters
    wordBytes d.encoderErrors ++ wordBytes d.fired ++ wordBytes d.skipped ++ wordBytes c.accepted ++ wordBytes c.rejected
      ++ wordBytes c.stale ++ wordBytes c.unknown ++ wordBytes c.ignored ++ wordBytes c.malformed
      ++ wordBytes s.mark.reached ++ wordBytes s.mark.dropped

/-- A head with its six counters at 0 and its state and counts kept (R55). -/
def Head.clearCounters (h : Head) : Head :=
  { h with accepted := 0, late := 0, duplicate := 0, unasked := 0, malformed := 0, missed := 0 }

/-- The counters of a group set to 0 (R175). -/
def clearGroup (s : State) : Group → State
  | .portA => s.withLink { s.link with countersA := {} }
  | .portB => s.withLink { s.link with countersB := {} }
  | .heads => s.withHeads (s.heads.map Head.clearCounters)
  | .run =>
    let s := s.withDist { s.dist with encoderErrors := 0, fired := 0, skipped := 0 }
    let s := s.withTagCounters {}
    s.withMark { s.mark with reached := 0, dropped := 0 }

/-- READ_COUNTERS (R175). -/
def readCounters (r : Frame) (s : State) : State :=
  match Group.ofCode (byteAt r.payload 3) with
  | none => respond s r .badParam []
  | some g =>
    let fields := [byteAt r.payload 3] ++ s.counterReport g
    respond (if (byteAt r.payload 4).getLsbD 0 then clearGroup s g else s) r .done fields

/-- A request too short or of no recognised kind (R170). -/
def unknownRequest (r : Frame) (s : State) : State := respond s r .unknownRequest []

/-! ### The commands -/

/-- QUERY_STATUS (R171). -/
def execQueryStatus (s : State) : Result := handleRequest .queryStatus (ifConsistent .queryStatus queryStatus) s

/-- CLEAR_STATUS (R174). -/
def execClearStatus (s : State) : Result := handleRequest .clearStatus (ifConsistent .clearStatus clearStatus) s

/-- SET_PARAM (R172). -/
def execSetParam (s : State) : Result := handleRequest .setParam (ifConsistent .setParam setParam) s

/-- GET_PARAM (R172). -/
def execGetParam (s : State) : Result := handleRequest .getParam (ifConsistent .getParam getParam) s

/-- TABLE_OPEN (R176). -/
def execTableOpen (s : State) : Result := handleRequest .tableOpen (ifConsistent .tableOpen tableOpen) s

/-- TABLE_LINE (R177); its own handling answers a payload too short, since that response may carry fields. -/
def execTableLine (s : State) : Result := handleRequest .tableLine tableLine s

/-- TABLE_APPLY (R178, R179). -/
def execTableApply (s : State) : Result := handleRequest .tableApply (ifConsistent .tableApply tableApply) s

/-- TABLE_ABORT (R180). -/
def execTableAbort (s : State) : Result := handleRequest .tableAbort (ifConsistent .tableAbort tableAbort) s

/-- READ_ENTRY (R181). -/
def execReadEntry (s : State) : Result := handleRequest .readEntry (ifConsistent .readEntry readEntry) s

/-- READ_COUNTERS (R175). -/
def execReadCounters (s : State) : Result := handleRequest .readCounters (ifConsistent .readCounters readCounters) s

/-- UNKNOWN_REQUEST (R170). -/
def execUnknownRequest (s : State) : Result := handleRequest .unknown unknownRequest s

end Sys2Proof.Machine
end

