-- ==== Sys2Proof/Machine/Runs.lean ====
section
/-! DEFINITION. Runs (chapter 2): RUN_START, RUN_STOP, SET_CHAINAGE, and the two resets. -/

namespace Sys2Proof.Machine

/-! ### Starting a run (R19 to R22) -/

/-- The derived numbers k, K and t (R20). -/
structure Chords where
  short : Nat
  long : Nat
  twist : Nat
  deriving DecidableEq, Repr

/-- The cross-parameter check: k, K and t where it passes (R20). -/
def crossCheck (p : Params) : Option Chords :=
  let s := p.spacingMm
  let k := p.shortChord / (2 * s)
  let long := p.longChord / (2 * s)
  let t := p.twistBase / s
  if p.shortChord % (2 * s) = 0 ∧ p.longChord % (2 * s) = 0 ∧ p.twistBase % s = 0
      ∧ 1 ≤ k ∧ k ≤ 127 ∧ 1 ≤ long ∧ long ≤ 255 ∧ 1 ≤ t ∧ t ≤ 255
      ∧ k ≤ long ∧ long + max long t + 1 ≤ Config.ringCapacity ∧ p.railSpacing % 2 = 0 then
    some { short := k, long := long, twist := t }
  else none

/-- The roster has the three required roles (R19). -/
def rosterComplete (heads : List Head) : Bool :=
  heads.any (·.cfg.role == .leftProfile) && heads.any (·.cfg.role == .rightProfile) && heads.any (·.cfg.role == .bodyMotion)

/-- A head at the start of a run, after a swap and after SOFT_RESET: ACTIVE, counts and counters 0 (R55). -/
def Head.fresh (h : Head) : Head := { cfg := h.cfg }

/-- The state of every block as an accepted RUN_START sets it up (R21, R45, R48, R52, R76, R81, R105, R124, R144). A FIRE
of the run before that still waits for port A is gone (R76). -/
def setUpRun (s : State) (c0 : Word) (direction : Direction) (id : Half) (c : Chords) : State :=
  let s := s.withLink { s.link with fires := [] }
  let s := s.withRun {
    state := .running, id := id, direction := direction, startChainage := c0, origin := s.dist.odometer
    highWater := 0, distanceAtStop := 0, tallies := {} }
  let s := s.withDist { s.dist with
    countLength := countLengthOf s.params, next := 0, stampValid := false, lastUnknown := true }
  let s := s.withHeads (s.heads.map Head.fresh)
  let s := s.withRing { s.ring with next := 0, short := c.short, long := c.long, twist := c.twist }
  let s := s.withLoc { s.loc with
    correction := 0, epoch := 0, status := .set, entryNumber := 0, previousTag := none }
  let s := s.withDet { s.det with previous := none }
  flushMarks s

/-- RUN_START taken (R19): judged in order, and set up with its note (R22) when it is accepted. -/
def runStart (r : Frame) (s : State) : State :=
  if s.run.state ≠ .idle then respond s r .busy []
  else match Direction.ofCode (byteAt r.payload 7) with
    | none => respond s r .badParam []
    | some direction =>
      if !rosterComplete s.heads then respond s r .badConfig []
      else match crossCheck s.params with
        | none => respond s r .badConfig []
        | some c =>
          let s := setUpRun s (wordAt r.payload 3) direction (halfAt r.payload 8) c
          let s := offerNote s (.runStart s.run.id direction s.run.startChainage s.params.spacing c.short c.long c.twist)
          respond s r .done []

/-! ### Stopping a run (R25) and placing it (R117) -/

/-- RUN_STOP taken (R25). -/
def runStop (r : Frame) (s : State) : State :=
  match s.run.state with
  | .idle => respond s r .notRunning []
  | .draining => respond s r .busy []
  | .running | .suspended =>
    respond (s.withRun { s.run with state := .draining, distanceAtStop := s.run.highWater }) r .done []

/-- SET_CHAINAGE taken (R117). -/
def setChainage (r : Frame) (s : State) : State :=
  if s.run.state = .idle then respond s r .notRunning []
  else respond (placeChainage s (wordAt r.payload 3)) r .done []

/-! ### Resets (R17, R30 to R32) -/

/-- The state SOFT_RESET leaves, before its response (R17, R30, R52, R76, R104, R124, R144, R152, R167, R182). -/
def softResetState (s : State) : State :=
  let s := s.withLink { s.link with
    fires := [], forwardAB := [], forwardBA := [], pause := none, countersA := {}, countersB := {} }
  let s := s.withRun { s.run with state := .idle, tallies := {} }
  let s := s.withDist { s.dist with stampValid := false, encoderErrors := 0, fired := 0, skipped := 0 }
  let s := s.withHeads (s.heads.map Head.fresh)
  let s := s.withTable []
  let s := s.withRing { s.ring with stations := [] }
  let s := s.withLoc { s.loc with
    correction := 0, epoch := 0, status := .none, previousTag := none, counters := {} }
  let s := s.withDet { thresholds := s.det.thresholds }
  let s := s.withMark {}
  let s := s.withOut {}
  let s := s.withStatus {}
  s.withReq {}

/-- SOFT_RESET taken (R30, R31): its response carries APPLY_DISCARDED when an apply was pending. -/
def softReset (r : Frame) (s : State) : State :=
  respond (softResetState s) r .done [flagByte [s.req.staging.isPending]]

/-- The state hardware reset leaves (R32, R4, R35); the commands that wait outside stay. -/
def hardwareResetState (s : State) (straps : BitVec 3) (encA encB : Bool) : State :=
  { State.reset with
    link := { State.reset.link with ownAddr := 0x10 + straps.setWidth 8 }
    dist := { State.reset.dist with heldA := encA, heldB := encB }
    pending := s.pending
    draws := s.draws }

/-! ### The commands -/

/-- HARDWARE_RESET (R32). -/
def execHardwareReset (straps : BitVec 3) (encA encB : Bool) (s : State) : Result :=
  .next (hardwareResetState s straps encA encB)

/-- RUN_START (R19). -/
def execRunStart (s : State) : Result := handleRequest .runStart (ifConsistent .runStart runStart) s

/-- RUN_STOP (R25). -/
def execRunStop (s : State) : Result := handleRequest .runStop (ifConsistent .runStop runStop) s

/-- SET_CHAINAGE (R117). -/
def execSetChainage (s : State) : Result := handleRequest .setChainage (ifConsistent .setChainage setChainage) s

/-- SOFT_RESET (R30). -/
def execSoftReset (s : State) : Result := handleRequest .softReset (ifConsistent .softReset softReset) s

end Sys2Proof.Machine
end

