-- ==== Sys2Proof/Machine/Idle.lean ====
section
/-! DEFINITION. What the 740 does by itself when no command waits: the events that have come due, or the passing of
one microsecond (log entries 3 and 4). -/

namespace Sys2Proof.Machine

/-- The command that takes an event of the part's own. -/
def OwnEvent.command : OwnEvent → Instr
  | .pauseEnd => .pauseExpiry
  | .flush => .flushTimerExpiry
  | .pulseEnd side => .markPulseExpiry side
  | .deadline station => .deadlineExpiry station
  | .stampTimeout => .stampValidTimeout
  | .drain => .drainComplete

/-- The command that handles a request of a kind. -/
def RequestKind.command : RequestKind → Instr
  | .queryStatus => .queryStatus
  | .clearStatus => .clearStatus
  | .setParam => .setParam
  | .getParam => .getParam
  | .tableOpen => .tableOpen
  | .tableLine => .tableLine
  | .tableApply => .tableApply
  | .tableAbort => .tableAbort
  | .readEntry => .readEntry
  | .runStart => .runStart
  | .runStop => .runStop
  | .setChainage => .setChainage
  | .readCounters => .readCounters
  | .softReset => .softReset
  | .unknown => .unknownRequest

/-- The handling that can begin: that of the head of the intake, with a free place in the response queue (R169); that of a
SET_CHAINAGE not while a drain is ready (R117, log entry 23). -/
def State.dueRequest (s : State) : List Instr :=
  match s.req.intake with
  | [] => []
  | r :: _ =>
    let kind := requestKind r.payload
    if s.req.placesTaken < Config.responseCapacity ∧ (kind = .setChainage → ¬s.DrainReady) then [kind.command] else []

/-- What has come due in the part: its own events whose moment it is, and the handling of a request (R169). -/
def State.dueEvents (s : State) : List Instr := (s.comingIn 0).map OwnEvent.command ++ s.dueRequest

/-- No command waits: one of the due events is put in the queue, or, where none is due, one microsecond passes. Which of
several due events comes first the spec leaves open: a free value chooses. -/
def idle (s : State) : State :=
  match s.dueEvents with
  | [] => elapse 1 s
  | c :: rest =>
    let choice := s.pick c rest
    choice.2.withPending [choice.1]

end Sys2Proof.Machine
end

