-- ==== Sys2Proof/Machine/Dispatch.lean ====
section
/-! DEFINITION. One arm per command. -/

namespace Sys2Proof.Machine

def exec (i : Instr) (s : State) : Host.Outcome State Fault Refusal :=
  match i with
  | .hardwareReset straps encA encB => Sys2Proof.Machine.execHardwareReset straps encA encB s
  | .portUp wait port => Sys2Proof.Machine.execPortUp wait port s
  | .portDown wait port partlyReceived => Sys2Proof.Machine.execPortDown wait port partlyReceived s
  | .portAReceive wait bytes => Sys2Proof.Machine.execPortAReceive wait bytes s
  | .portBReceive wait bytes => Sys2Proof.Machine.execPortBReceive wait bytes s
  | .portATransmitEnd wait => Sys2Proof.Machine.execPortATransmitEnd wait s
  | .portBTransmitEnd wait => Sys2Proof.Machine.execPortBTransmitEnd wait s
  | .pauseExpiry => Sys2Proof.Machine.execPauseExpiry s
  | .encoderChange wait encA encB => Sys2Proof.Machine.execEncoderChange wait encA encB s
  | .stampValidTimeout => Sys2Proof.Machine.execStampValidTimeout s
  | .deadlineExpiry station => Sys2Proof.Machine.execDeadlineExpiry station s
  | .markPulseExpiry side => Sys2Proof.Machine.execMarkPulseExpiry side s
  | .flushTimerExpiry => Sys2Proof.Machine.execFlushTimerExpiry s
  | .drainComplete => Sys2Proof.Machine.execDrainComplete s
  | .queryStatus => Sys2Proof.Machine.execQueryStatus s
  | .clearStatus => Sys2Proof.Machine.execClearStatus s
  | .setParam => Sys2Proof.Machine.execSetParam s
  | .getParam => Sys2Proof.Machine.execGetParam s
  | .tableOpen => Sys2Proof.Machine.execTableOpen s
  | .tableLine => Sys2Proof.Machine.execTableLine s
  | .tableApply => Sys2Proof.Machine.execTableApply s
  | .tableAbort => Sys2Proof.Machine.execTableAbort s
  | .readEntry => Sys2Proof.Machine.execReadEntry s
  | .runStart => Sys2Proof.Machine.execRunStart s
  | .runStop => Sys2Proof.Machine.execRunStop s
  | .setChainage => Sys2Proof.Machine.execSetChainage s
  | .readCounters => Sys2Proof.Machine.execReadCounters s
  | .softReset => Sys2Proof.Machine.execSoftReset s
  | .unknownRequest => Sys2Proof.Machine.execUnknownRequest s

end Sys2Proof.Machine
end

