-- ==== Sys2Proof/Safety.lean ====
section
/-! DEFINITION. The terms the statements use: what a command may change (frames), when a request is handled, and the
invariants of the 740. -/

namespace Sys2Proof.Machine

/-! ### Frames -/

/-- The kinds of state a frame speaks of. Together they are all of `State`. -/
inductive Region where
  | time
  | address
  | ports
  | lineA
  | lineB
  | fires
  | forwardAB
  | forwardBA
  | pause
  | countersA
  | countersB
  | runState
  | runRecord
  | highWater
  | distanceAtStop
  | tallies
  | params
  | levels
  | countLength
  | odometer
  | nextStation
  | stamps
  | lastSpeed
  | distanceCounters
  | heads
  | table
  | ring
  | chords
  | location
  | entryNumber
  | tags
  | route
  | tagCounters
  | thresholds
  | exceptions
  | exceptionQueue
  | overflow
  | markQueue
  | pulses
  | markCounters
  | batch
  | flushTimer
  | gap
  | geometryQueue
  | eventQueue
  | status
  | intake
  | responses
  | staging
  | queue
  | draws
  deriving DecidableEq, Repr

/-- Two states hold the same in a region. -/
def State.Agrees (s t : State) : Region → Prop
  | .time => t.time = s.time
  | .address => t.link.ownAddr = s.link.ownAddr
  | .ports => t.link.upA = s.link.upA ∧ t.link.upB = s.link.upB
  | .lineA => t.link.lineA = s.link.lineA
  | .lineB => t.link.lineB = s.link.lineB
  | .fires => t.link.fires = s.link.fires
  | .forwardAB => t.link.forwardAB = s.link.forwardAB
  | .forwardBA => t.link.forwardBA = s.link.forwardBA
  | .pause => t.link.pause = s.link.pause
  | .countersA => t.link.countersA = s.link.countersA
  | .countersB => t.link.countersB = s.link.countersB
  | .runState => t.run.state = s.run.state
  | .runRecord =>
    t.run.id = s.run.id ∧ t.run.direction = s.run.direction ∧ t.run.startChainage = s.run.startChainage
      ∧ t.run.origin = s.run.origin
  | .highWater => t.run.highWater = s.run.highWater
  | .distanceAtStop => t.run.distanceAtStop = s.run.distanceAtStop
  | .tallies => t.run.tallies = s.run.tallies
  | .params => t.params = s.params
  | .levels => t.dist.heldA = s.dist.heldA ∧ t.dist.heldB = s.dist.heldB
  | .countLength => t.dist.countLength = s.dist.countLength
  | .odometer => t.dist.odometer = s.dist.odometer
  | .nextStation => t.dist.next = s.dist.next
  | .stamps => t.dist.prevStamp = s.dist.prevStamp ∧ t.dist.stampValid = s.dist.stampValid
  | .lastSpeed => t.dist.lastSpeed = s.dist.lastSpeed ∧ t.dist.lastUnknown = s.dist.lastUnknown
  | .distanceCounters =>
    t.dist.encoderErrors = s.dist.encoderErrors ∧ t.dist.fired = s.dist.fired ∧ t.dist.skipped = s.dist.skipped
  | .heads => t.heads = s.heads
  | .table => t.table = s.table
  | .ring => t.ring.stations = s.ring.stations ∧ t.ring.next = s.ring.next
  | .chords => t.ring.short = s.ring.short ∧ t.ring.long = s.ring.long ∧ t.ring.twist = s.ring.twist
  | .location =>
    t.loc.correction = s.loc.correction ∧ t.loc.epoch = s.loc.epoch ∧ t.loc.status = s.loc.status
      ∧ t.loc.previousTag = s.loc.previousTag
  | .entryNumber => t.loc.entryNumber = s.loc.entryNumber
  | .tags => t.loc.tags = s.loc.tags
  | .route => t.loc.route = s.loc.route
  | .tagCounters => t.loc.counters = s.loc.counters
  | .thresholds => t.det.thresholds = s.det.thresholds
  | .exceptions => t.det.opened = s.det.opened ∧ t.det.previous = s.det.previous
  | .exceptionQueue => t.det.queue = s.det.queue
  | .overflow => t.det.overflow = s.det.overflow
  | .markQueue => t.mark.queue = s.mark.queue
  | .pulses => t.mark.pulseL = s.mark.pulseL ∧ t.mark.pulseR = s.mark.pulseR
  | .markCounters => t.mark.reached = s.mark.reached ∧ t.mark.dropped = s.mark.dropped
  | .batch => t.out.batch = s.out.batch
  | .flushTimer => t.out.flush = s.out.flush
  | .gap => t.out.gap = s.out.gap
  | .geometryQueue => t.out.geometry = s.out.geometry
  | .eventQueue => t.out.events = s.out.events
  | .status => t.status = s.status
  | .intake => t.req.intake = s.req.intake
  | .responses => t.req.responses = s.req.responses
  | .staging => t.req.staging = s.req.staging
  | .queue => t.pending = s.pending
  | .draws => t.draws = s.draws

/-- From `s` to `t` nothing changes outside the regions named. -/
def State.ChangesOnly (s : State) (regions : List Region) (t : State) : Prop := ∀ r, r ∉ regions → s.Agrees t r

/-- What setting a sticky bit, or offering a note, may change (R164, R165, R173). -/
abbrev Region.noted : List Region := [.eventQueue, .status]

/-- What the passing of time changes: the time base and the running timers (R39). -/
abbrev Region.timed : List Region := [.time, .pause, .pulses, .flushTimer]

/-- What the two transmitters' choices may change: the lines, the queues they serve, and what the owners do with a
place that comes free (R11, R13, R14, R141, R162). -/
abbrev Region.sent : List Region :=
  [.lineA, .lineB, .fires, .forwardAB, .forwardBA, .responses, .eventQueue, .exceptionQueue, .overflow, .geometryQueue,
   .gap, .status]

/-- What an evaluated station may change in the detector, the marking unit and the composer, with the completion of a
pending apply before it (R89, R102, R128, R142, R156, R179). -/
abbrev Region.evaluated : List Region :=
  [.tallies, .heads, .tags, .route, .thresholds, .exceptions, .exceptionQueue, .overflow, .markQueue, .markCounters, .batch,
   .flushTimer, .gap, .geometryQueue, .eventQueue, .status, .responses, .staging]

/-- What a station that closes may change: itself, the heads' health, the ring, and what its entry brings about (R69 to R75). -/
abbrev Region.closed : List Region := [.heads, .table, .ring, .entryNumber] ++ Region.evaluated

/-- What an encoder count may change: the odometer, the run state, a station made due and the marks reached (R33, R150). -/
abbrev Region.counted : List Region :=
  [.odometer, .runState, .highWater, .markQueue, .pulses, .markCounters, .table, .distanceCounters, .fires, .nextStation,
   .stamps, .lastSpeed] ++ Region.noted

/-- What an event of the part's own may change: its timer, what a station that closes or a drain that completes may, and
what is sent (R15, R27, R47, R61, R151, R158). -/
abbrev Region.own : List Region :=
  [.pause, .pulses, .stamps, .location, .runState] ++ Region.closed ++ Region.sent

/-- What may change while nothing comes from outside: the time base and the timers, what the part's own events change, and
the count of free choices. -/
abbrev Region.passing : List Region := .draws :: (Region.own ++ Region.timed)

/-- Everything but the queue of waiting commands and the counter of free choices. -/
abbrev Region.held : List Region :=
  [.time, .address, .ports, .lineA, .lineB, .fires, .forwardAB, .forwardBA, .pause, .countersA, .countersB, .runState,
   .runRecord, .highWater, .distanceAtStop, .tallies, .params, .levels, .countLength, .odometer, .nextStation, .stamps,
   .lastSpeed, .distanceCounters, .heads, .table, .ring, .chords, .location, .entryNumber, .tags, .route, .tagCounters,
   .thresholds, .exceptions, .exceptionQueue, .overflow, .markQueue, .pulses, .markCounters, .batch, .flushTimer, .gap,
   .geometryQueue, .eventQueue, .status, .intake, .responses, .staging]

/-- The state at the moment of a command, before its event: a command from outside comes after its wait, one of the part's
own events when its moment comes, any other at once (log entries 2 and 3). -/
def State.before (s : State) : Instr → State
  | .portUp wait _ => s.after wait
  | .portDown wait _ _ => s.after wait
  | .portAReceive wait _ => s.after wait
  | .portBReceive wait _ => s.after wait
  | .portATransmitEnd wait => s.after wait
  | .portBTransmitEnd wait => s.after wait
  | .encoderChange wait _ _ => s.after wait
  | .pauseExpiry => s.atMoment .pauseEnd
  | .stampValidTimeout => s.atMoment .stampTimeout
  | .deadlineExpiry station => s.atMoment (.deadline station)
  | .markPulseExpiry side => s.atMoment (.pulseEnd side)
  | .flushTimerExpiry => s.atMoment .flush
  | .hardwareReset _ _ _ => s
  | .drainComplete => s
  | .queryStatus => s
  | .clearStatus => s
  | .setParam => s
  | .getParam => s
  | .tableOpen => s
  | .tableLine => s
  | .tableApply => s
  | .tableAbort => s
  | .readEntry => s
  | .runStart => s
  | .runStop => s
  | .setChainage => s
  | .readCounters => s
  | .softReset => s
  | .unknownRequest => s

/-- The regions the event of each command may change (spec/95_what_each_step_holds.md, and the rule of each command). -/
def changedBy : Instr → List Region
  | .hardwareReset _ _ _ => Region.held
  | .portUp _ _ => .ports :: Region.sent
  | .portDown _ .A _ => .ports :: .countersA :: Region.sent
  | .portDown _ .B _ => .ports :: .countersB :: Region.sent
  | .portAReceive _ _ => [.countersA, .location, .tagCounters] ++ Region.closed ++ Region.sent
  | .portBReceive _ _ => .countersB :: .intake :: .pause :: Region.sent
  | .portATransmitEnd _ => Region.sent
  | .portBTransmitEnd _ => Region.sent
  | .pauseExpiry => .pause :: Region.sent
  | .encoderChange _ _ _ => .levels :: (Region.counted ++ Region.sent)
  | .stampValidTimeout => .stamps :: Region.sent
  | .deadlineExpiry _ => Region.closed ++ Region.sent
  | .markPulseExpiry _ => .pulses :: Region.sent
  | .flushTimerExpiry => [.batch, .flushTimer, .staging, .heads, .tags, .route, .thresholds] ++ Region.sent
  | .drainComplete => [.ring, .location, .runState] ++ Region.evaluated ++ Region.sent
  | .queryStatus => .intake :: Region.sent
  | .clearStatus => .intake :: Region.sent
  | .setParam => .intake :: .params :: Region.sent
  | .getParam => .intake :: Region.sent
  | .tableOpen => .intake :: .staging :: Region.sent
  | .tableLine => .intake :: .staging :: Region.sent
  | .tableApply => [.intake, .staging, .heads, .tags, .route, .thresholds, .flushTimer] ++ Region.sent
  | .tableAbort => .intake :: .staging :: Region.sent
  | .readEntry => .intake :: Region.sent
  | .runStart =>
    [.intake, .runState, .runRecord, .highWater, .distanceAtStop, .tallies, .countLength, .nextStation, .stamps, .lastSpeed,
     .heads, .ring, .chords, .location, .entryNumber, .exceptions, .markQueue, .pulses] ++ Region.sent
  | .runStop => .intake :: .runState :: .distanceAtStop :: Region.sent
  | .setChainage => .intake :: .location :: Region.sent
  | .readCounters =>
    [.intake, .countersA, .countersB, .heads, .distanceCounters, .tagCounters, .markCounters] ++ Region.sent
  | .softReset =>
    [.pause, .countersA, .countersB, .runState, .tallies, .stamps, .distanceCounters, .heads, .table, .ring, .location,
     .tagCounters, .exceptions, .markQueue, .pulses, .markCounters, .batch, .flushTimer, .intake, .staging] ++ Region.sent
  | .unknownRequest => .intake :: Region.sent

/-! ### The port B arbiter (R13) -/

/-- The place of a queue in the fixed order. -/
def QueueB.rank : QueueB → Nat
  | .response => 0
  | .note => 1
  | .exception => 2
  | .geometry => 3
  | .forward => 4

/-- A queue that is not empty, with the highest priority among those that are not, and the first of its equals (R13). -/
def State.Wins (s : State) (q : QueueB) : Prop :=
  s.queueB q ≠ [] ∧ ∀ q', s.queueB q' ≠ [] →
    s.priorityB q' < s.priorityB q ∨ (s.priorityB q' = s.priorityB q ∧ q.rank ≤ q'.rank)

/-! ### The handling of a request (R169) -/

/-- A request heads the intake, of a kind, with the rest behind it and a free place for its response; a SET_CHAINAGE with no
drain ready to complete. -/
def State.Handles (s : State) (kind : RequestKind) (request : Frame) (rest : List Frame) : Prop :=
  s.req.intake = request :: rest ∧ requestKind request.payload = kind ∧ s.req.placesTaken < Config.responseCapacity
    ∧ (kind = .setChainage → ¬s.DrainReady)

/-- The state with the request at the head of the intake taken out. -/
def State.takeRequest (s : State) (rest : List Frame) : State := s.withReq { s.req with intake := rest }

/-! ### Frames on the link -/

/-- The 1 bits in a string of bytes. -/
def onesIn (bytes : List Byte) : Nat := (bytes.map fun b => (List.range 8).countP b.getLsbD).sum

/-! ### The forward order of the encoder levels (R33) -/

/-- The pair of ENC_A and ENC_B levels that follows a pair in the forward order. -/
def nextLevels : Bool × Bool → Bool × Bool
  | (false, false) => (true, false)
  | (true, false) => (true, true)
  | (true, true) => (false, true)
  | (false, true) => (false, false)

/-! ### Invariants -/

/-- A void run covers 1 to 127 stations (R155). -/
def BatchEntry.sized : BatchEntry → Prop
  | .station .. => True
  | .voidRun n => 1 ≤ n ∧ n ≤ Config.voidRunLimit

/-- The queues, the pending station table and the batch are within their capacities (chapter 00), a summary or a gap is held
only while its queue has no place for what comes next (R141, R162), and the pause is one a PAUSE can set (R15). The ring's
capacity stands in `State.StationsInOrder`, the tables' and staging's in `State.TablesSound`. -/
def State.WithinCapacities (s : State) : Prop :=
  s.link.fires.length ≤ Config.fireCapacity
    ∧ s.link.forwardAB.length ≤ Config.forwardCapacity
    ∧ s.link.forwardBA.length ≤ Config.forwardCapacity
    ∧ (∀ n, s.link.pause = some n → n ≤ 65535)
    ∧ s.req.intake.length ≤ Config.intakeCapacity
    ∧ s.req.placesTaken ≤ Config.responseCapacity
    ∧ s.table.length ≤ Config.pendingCapacity
    ∧ s.det.queue.length ≤ Config.exceptionCapacity
    ∧ (s.det.overflow.counts ≠ 0 → s.det.queue.length = Config.exceptionCapacity)
    ∧ s.det.overflow.notice ≤ 65535 ∧ s.det.overflow.action ≤ 65535 ∧ s.det.overflow.urgent ≤ 65535
    ∧ s.mark.queue.length ≤ Config.markCapacity
    ∧ s.out.events.length ≤ Config.eventCapacity
    ∧ s.out.geometry.length ≤ Config.geometryCapacity
    ∧ (s.out.gap.isSome = true → Config.geometryCapacity ≤ s.out.geometry.length + 1)
    ∧ ∀ b, s.out.batch = some b →
        1 ≤ b.entries.length ∧ b.entries.length ≤ Config.batchCapacity ∧ ∀ e ∈ b.entries, e.sized

/-- The flush timer runs exactly while there is something for it to serve: a batch that is not empty, or a pending
apply (R157). -/
def State.TimerServes (s : State) : Prop :=
  s.out.flush.isSome = (s.out.batch.isSome || s.req.staging.isPending)

/-- Every parameter lies in its range (R172), and the values that depend on them in theirs: the timers (R151, R157), the
heads' counts (R55), the last speed (R46), the severities and void counts of the open exceptions (R131). -/
def State.ValuesInRange (s : State) : Prop :=
  (∀ id, ParamId.accepts id (s.params.get id) = true)
    ∧ (∀ n, s.mark.pulseL = some n → n ≤ 500000)
    ∧ (∀ n, s.mark.pulseR = some n → n ≤ 500000)
    ∧ (∀ n, s.out.flush = some n → n ≤ 1000000)
    ∧ (∀ h ∈ s.heads, h.misses ≤ 255 ∧ h.recovery ≤ 255)
    ∧ s.dist.lastSpeed ≤ 65535
    ∧ ∀ ch x, s.det.opened.get ch = some x → 1 ≤ x.severity ∧ x.severity ≤ 3 ∧ x.voidCount ≤ 64

/-- The entries of a pending table are the stations from a number up to another, each followed by its skipped ones (R60). -/
def stationsFrom (n : Nat) : List PendingStation → Nat → Prop
  | [], last => n = last
  | p :: rest, last => p.number = n ∧ stationsFrom (n + 1 + p.skips) rest last

/-- Every station number from 0 to the last made due is in one place, in order (R60, R74, R79, R80, R86, R155): in a run
the pending table holds those from the entry number to N, the ring holds those from E − R to the entry number, E is at most
kmax behind, and the batch ends just before E; the stations tally is the entry number (R28). In IDLE all are empty. -/
def State.StationsInOrder (s : State) : Prop :=
  if s.run.state = .idle then
    s.table = [] ∧ s.ring.stations = [] ∧ s.out.batch = none ∧ ∀ ch, s.det.opened.get ch = none
  else
    stationsFrom s.loc.entryNumber s.table s.dist.next
      ∧ s.ring.stations.map (·.number)
          = List.range' (s.ring.next - s.ring.reach) (s.loc.entryNumber - (s.ring.next - s.ring.reach))
      ∧ s.ring.next ≤ s.loc.entryNumber ∧ s.loc.entryNumber ≤ s.ring.next + s.ring.long
      ∧ s.ring.long + s.ring.reach + 1 ≤ Config.ringCapacity
      ∧ (∀ b, s.out.batch = some b → b.first + covered b.entries = s.ring.next)
      ∧ s.run.tallies.stations = BitVec.ofNat 32 s.loc.entryNumber

/-- In a run the high-water mark stands at or past the last station made due and at or before the next one (R18, R41), and
in DRAINING the distance at stop is the high-water mark (R18, R25). -/
def State.DueOnSchedule (s : State) : Prop :=
  0 < s.params.spacing
    ∧ (s.run.state ≠ .idle →
        s.run.highWater ≤ s.dist.next * s.params.spacing
          ∧ (0 < s.dist.next → ((s.dist.next - 1 : Nat) : Int) * s.params.spacing ≤ s.run.highWater))
    ∧ (s.run.state = .draining → s.run.distanceAtStop = s.run.highWater)

/-- An open load holds whole entries, no more than the table's capacity; a pending one is of the route or threshold table
and has passed its judgements (R176 to R179). -/
def Staging.Sound : Staging → Prop
  | .closed => True
  | .opened t _ entries => entries.length ≤ t.capacity ∧ ∀ e ∈ entries, e.length = t.entrySize
  | .pending t entries _ _ =>
    (t = .route ∨ t = .thresholds) ∧ entries.length ≤ t.capacity ∧ orderJudged t entries = true ∧ rangeJudged t entries = true

/-- Every active table is one that its judgements pass (R53, R54, R118, R119, R125, R126), or empty. -/
def State.TablesSound (s : State) : Prop :=
  s.heads.length ≤ Table.roster.capacity
    ∧ (s.heads.map (·.cfg.addr.toNat)).Pairwise (· < ·)
    ∧ (∀ h ∈ s.heads, h.cfg.rangeOk = true)
    ∧ compositionOk (s.heads.map (·.cfg)) = true
    ∧ s.loc.tags.length ≤ Table.markerTags.capacity
    ∧ (s.loc.tags.map (·.id.toNat)).Pairwise (· < ·)
    ∧ s.loc.route.length ≤ Table.route.capacity
    ∧ s.loc.route.Pairwise (fun (a b : Segment) => a.start + a.length ≤ b.start)
    ∧ (∀ g ∈ s.loc.route, g.rangeOk = true)
    ∧ (s.det.thresholds = []
        ∨ s.det.thresholds.map (fun e => (e.speedClass, e.channel))
            = (List.range 48).map (fun i => (i / 8 + 1, i % 8)))
    ∧ (∀ e ∈ s.det.thresholds, e.rangeOk = true)
    ∧ s.req.staging.Sound

end Sys2Proof.Machine
end

