-- ==== Sys2Proof/Certificates/Slice0/Obligations.lean ====
section
/-! DEFINITION. The statements about the Alvegar 740. The rules meant are those of spec/. A statement that rests on a choice
of the model names its log entry: 1 (what a command is, and that it does nothing when its event has not come about), 2 (the
operand `wait` and what is taken in it), 3 (the moment of an event of the part's own), 6 (`settle`: both transmitters choose
at the end of an event). -/

section Statements

open Sys2Proof Sys2Proof.Machine

/-! ### The machine as a whole -/

/-- A step takes the command at the front of the queue and runs it with the queue's rest. The queue is the model's own. -/
def Obligations.StepTakesFrontCommand : Prop :=
  ∀ (s : State) (c : Instr) (rest : List Instr), s.pending = c :: rest → step s = exec c (s.withPending rest)

/-- On an empty queue the 740 puts one of its own events that have come due in the queue, or, where none has, a
microsecond passes. The model's choice: log entries 3 and 4. Which of several due events it is stays free. What has come due
is the command of each event of the part's own whose time has run out (`timeTo` stands in `TimersRunOut`) and that of
the request that can be handled; a SET_CHAINAGE cannot while a drain is ready (the model's reading: log entry 23). -/
def Obligations.IdleStepTakesDueEventOrTime : Prop :=
  (∀ (n : Nat) (s : State), let less := fun timer : Option Nat => timer.map (· - n)
      elapse n s = { s with
        time := s.time + BitVec.ofNat 32 n
        link := { s.link with pause := less s.link.pause }
        mark := { s.mark with pulseL := less s.mark.pulseL, pulseR := less s.mark.pulseR }
        out := { s.out with flush := less s.out.flush } })
  ∧ (∀ (s : State) (c : Instr), c ∈ s.dueEvents ↔
      (c = .pauseExpiry ∧ s.timeTo .pauseEnd = some 0) ∨ (c = .flushTimerExpiry ∧ s.timeTo .flush = some 0)
      ∨ (∃ side, c = .markPulseExpiry side ∧ s.timeTo (.pulseEnd side) = some 0)
      ∨ (∃ n, c = .deadlineExpiry n ∧ s.timeTo (.deadline n) = some 0)
      ∨ (c = .stampValidTimeout ∧ s.timeTo .stampTimeout = some 0) ∨ (c = .drainComplete ∧ s.timeTo .drain = some 0)
      ∨ ∃ kind request rest, s.Handles kind request rest ∧ (kind, c) ∈ [(RequestKind.queryStatus, Instr.queryStatus),
          (.clearStatus, .clearStatus), (.setParam, .setParam), (.getParam, .getParam), (.tableOpen, .tableOpen),
          (.tableLine, .tableLine), (.tableApply, .tableApply), (.tableAbort, .tableAbort), (.readEntry, .readEntry),
          (.runStart, .runStart), (.runStop, .runStop), (.setChainage, .setChainage), (.readCounters, .readCounters),
          (.softReset, .softReset), (.unknown, .unknownRequest)])
  ∧ ∀ s : State, s.pending = [] →
    (s.dueEvents = [] → step s = .next (elapse 1 s))
      ∧ (s.dueEvents ≠ [] → ∃ c ∈ s.dueEvents, ∃ n, step s = .next ((s.withPending [c]).withDraws n))

/-- Every command answers a next state. From the state at the command's moment it differs only in the kinds of state that
`changedBy` lists for the command, and up to that moment only what the passing of time and the part's own events may change
has changed. The waiting commands never change, and no command draws a free choice after its moment. Model's choices in it:
log entries 1, 2, 3. -/
def Obligations.EveryCommandCompletesInItsFrame : Prop :=
  ∀ (c : Instr) (s : State), ∃ t, exec c s = .next t
    ∧ s.ChangesOnly Region.passing (s.before c) ∧ (s.before c).ChangesOnly (changedBy c) t
    ∧ t.pending = s.pending ∧ t.draws = (s.before c).draws

/-- The state after hardware reset meets every invariant. Model's choices in it: log entries 5 (`State.reset` is the reset
with ADDR[2:0] and both encoder inputs low) and 20 (the queue of waiting commands is the model's own, and empty after
reset). -/
def Obligations.ResetMeetsInvariants : Prop :=
  State.reset.WithinCapacities ∧ State.reset.TimerServes ∧ State.reset.ValuesInRange ∧ State.reset.StationsInOrder
    ∧ State.reset.DueOnSchedule ∧ State.reset.TablesSound ∧ State.reset.pending = []

/-- Every step keeps the FIRE, forward, exception, mark, event and geometry queues, the intake of requests, the response
queue, the pending station table and the batch within their capacities. It keeps an exception summary and a geometry gap held
only while their queue has no place for what comes next, and a pause within 65535 µs. The station ring's capacity stands in
`StepKeepsStationsInOrder`, those of the roster, the configuration tables and staging in `StepKeepsTablesSound`. -/
def Obligations.StepKeepsCapacities : Prop :=
  ∀ s t : State, s.WithinCapacities → step s = .next t → t.WithinCapacities

/-- Every step keeps the flush timer running exactly while a batch or a pending apply needs it. -/
def Obligations.StepKeepsTimerServing : Prop :=
  ∀ s t : State, s.TimerServes → step s = .next t → t.TimerServes

/-- Every step keeps the parameters, and the values that depend on them, in their ranges, where the active tables are sound
(each head of the roster then has an address of its own). -/
def Obligations.StepKeepsValuesInRange : Prop :=
  ∀ s t : State, s.TablesSound → s.ValuesInRange → step s = .next t → t.ValuesInRange

/-- Every step keeps the stations of a run in one place each, in order: pending table, ring, batch. -/
def Obligations.StepKeepsStationsInOrder : Prop :=
  ∀ s t : State, s.StationsInOrder → step s = .next t → t.StationsInOrder

/-- Every step keeps the high-water mark between the last station made due and the next one. -/
def Obligations.StepKeepsDueOnSchedule : Prop :=
  ∀ s t : State, s.DueOnSchedule → step s = .next t → t.DueOnSchedule

/-- Every step keeps the active tables such that their order and range judgements pass them, and staging sound. -/
def Obligations.StepKeepsTablesSound : Prop :=
  ∀ s t : State, s.TablesSound → step s = .next t → t.TablesSound

/-- A frame in progress is never broken off: only the end of its transmission or hardware reset takes it from the line. -/
def Obligations.FrameInProgressRunsToItsEnd : Prop :=
  ∀ (c : Instr) (s t : State) (f : Frame), exec c s = .next t → (∀ straps a b, c ≠ .hardwareReset straps a b) →
    ((∀ wait, c ≠ .portATransmitEnd wait) → s.link.lineA = some f → t.link.lineA = some f)
      ∧ ((∀ wait, c ≠ .portBTransmitEnd wait) → s.link.lineB = some f → t.link.lineB = some f)

/-- The run state changes on the events of chapter 2 alone: up to a command's moment a drain may complete, and the command
itself changes it as listed. Only a start of a run or hardware reset lowers the high-water mark. -/
def Obligations.RunStateChangesOnItsEvents : Prop :=
  ∀ (c : Instr) (s t : State), exec c s = .next t →
    let u := s.before c
    (u.run.state = s.run.state ∨ (s.run.state = .draining ∧ u.run.state = .idle))
    ∧ (t.run.state = u.run.state
      ∨ (c = .runStart ∧ u.run.state = .idle ∧ t.run.state = .running)
      ∨ ((∃ wait a b, c = .encoderChange wait a b)
          ∧ ((u.run.state = .running ∧ t.run.state = .suspended) ∨ (u.run.state = .suspended ∧ t.run.state = .running)))
      ∨ (c = .runStop ∧ (u.run.state = .running ∨ u.run.state = .suspended) ∧ t.run.state = .draining)
      ∨ (c = .drainComplete ∧ u.run.state = .draining ∧ t.run.state = .idle)
      ∨ ((c = .softReset ∨ ∃ straps a b, c = .hardwareReset straps a b) ∧ t.run.state = .idle))
    ∧ (c ≠ .runStart → (∀ straps a b, c ≠ .hardwareReset straps a b) → s.run.highWater ≤ t.run.highWater)

/-- Outside IDLE at its moment no command but hardware reset changes what a run fixes: the run-locked parameters, the
roster, the run's identity, direction, start and origin, the count length, and k, K and t. -/
def Obligations.RunConfigurationIsFixed : Prop :=
  ∀ (c : Instr) (s t : State), (s.before c).run.state ≠ .idle → exec c s = .next t →
    (∀ straps a b, c ≠ .hardwareReset straps a b) →
    (∀ id : ParamId, id.runLocked = true → t.params.get id = s.params.get id)
      ∧ (s.req.staging.Sound → t.heads.map (·.cfg) = s.heads.map (·.cfg))
      ∧ s.Agrees t .runRecord ∧ s.Agrees t .countLength ∧ s.Agrees t .chords

/-! ### The survey link (chapter 1) -/

/-- A receiver takes a string of bytes for the good frame `f` exactly when it is the string a transmitter sends for `f`.
The string is the outline of Table 11-2 with the check of R3 at its end; fields go most significant byte first. -/
def Obligations.GoodFrameRoundTrip : Prop :=
  (∀ (h : Half) (w : Word),
      halfBytes h = [h.extractLsb' 8 8, h.extractLsb' 0 8]
      ∧ wordBytes w = [w.extractLsb' 24 8, w.extractLsb' 16 8, w.extractLsb' 8 8, w.extractLsb' 0 8]
      ∧ halfAt (halfBytes h) 0 = h ∧ wordAt (wordBytes w) 0 = w)
  ∧ (crc [] = 0xFFFF ∧ ∀ (bytes : List Byte) (b : Byte), crc (bytes ++ [b]) =
      [7, 6, 5, 4, 3, 2, 1, 0].foldl (fun (r : Half) i =>
        if r.getLsbD 15 = b.getLsbD i then r <<< 1 else (r <<< 1) ^^^ 0x1021) (crc bytes))
  ∧ (∀ f : Frame, let body := [f.dst, f.src, f.kind, BitVec.ofNat 8 f.payload.length] ++ f.payload
      f.bytes = body ++ halfBytes (crc body))
  ∧ ∀ (bytes : List Byte) (f : Frame), judgeFrame bytes = some f ↔ f.payload.length ≤ 250 ∧ bytes = f.bytes

/-- Every good frame carries an even number of 1 bits, so that one corrupted in an odd number of bits is never taken for
good. -/
def Obligations.OddCorruptionIsFound : Prop :=
  (∀ f : Frame, f.payload.length ≤ 250 → onesIn f.bytes % 2 = 0)
    ∧ ∀ bytes : List Byte, onesIn bytes % 2 = 1 → judgeFrame bytes = none

/-- A frame at port A. A DOWN port receives none (R1; log entry 13). A bad frame is counted as received and as a
check/length error, raises LINK_A_ERRORS and does nothing else. A good one goes where its kind and source say. Model's
choices in it: log entries 2, 6. -/
def Obligations.PortAReceivesAndClassifies : Prop :=
  ∀ (wait : Nat) (bytes : List Byte) (s : State),
    let u := s.after wait
    let a := u.link.countersA
    let v := u.withLink { u.link with countersA := { a with received := a.received + 1 } }
    let unknown := u.withLink { u.link with
      countersA := { a with received := a.received + 1, unknownSource := a.unknownSource + 1 } }
    (u.link.upA = false → exec (.portAReceive wait bytes) s = .next (settle u))
    ∧ (u.link.upA = true → judgeFrame bytes = none →
        exec (.portAReceive wait bytes) s = .next (settle (setEvent (u.withLink { u.link with
          countersA := { a with received := a.received + 1, errors := a.errors + 1 } }) .linkAErrors)))
    ∧ ∀ f, u.link.upA = true → judgeFrame bytes = some f →
        (f.kind ≠ 0x02 → f.kind ≠ 0x03 → exec (.portAReceive wait bytes) s = .next (settle (offerForwardAB v f)))
        ∧ ((f.kind = 0x02 ∨ f.kind = 0x03) → u.findHead f.src = none →
            exec (.portAReceive wait bytes) s = .next (settle unknown))
        ∧ ∀ h, u.findHead f.src = some h →
            (f.kind = 0x02 → h.cfg.role ≠ .tagReader →
              exec (.portAReceive wait bytes) s = .next (settle (sampleIntake v h f.payload)))
            ∧ (f.kind = 0x03 → h.cfg.role = .tagReader →
              exec (.portAReceive wait bytes) s = .next (settle (tagIntake v f.payload)))
            ∧ ((f.kind = 0x02 ∧ h.cfg.role = .tagReader) ∨ (f.kind = 0x03 ∧ h.cfg.role ≠ .tagReader) →
              exec (.portAReceive wait bytes) s = .next (settle unknown))

/-- A frame at port B. A DOWN port receives none (R1; log entry 13). A bad frame is counted as received and as a
check/length error, raises LINK_B_ERRORS and does nothing else. A good one goes where the first matching row of R8
says; a PAUSE sets the pause timer. Model's choices in it: log entries 2, 6. -/
def Obligations.PortBReceivesAndClassifies : Prop :=
  ∀ (wait : Nat) (bytes : List Byte) (s : State),
    let u := s.after wait
    let b := u.link.countersB
    let v := u.withLink { u.link with countersB := { b with received := b.received + 1 } }
    let wrongKind := u.withLink { u.link with
      countersB := { b with received := b.received + 1, wrongKind := b.wrongKind + 1 } }
    (u.link.upB = false → exec (.portBReceive wait bytes) s = .next (settle u))
    ∧ (u.link.upB = true → judgeFrame bytes = none →
        exec (.portBReceive wait bytes) s = .next (settle (setEvent (u.withLink { u.link with
          countersB := { b with received := b.received + 1, errors := b.errors + 1 } }) .linkBErrors)))
    ∧ ∀ f, u.link.upB = true → judgeFrame bytes = some f →
        (f.kind = 0x30 →
          (∀ hi lo : Byte, f.payload = [hi, lo] →
            ((hi ++ lo : Half) = 0 →
              exec (.portBReceive wait bytes) s = .next (settle (v.withLink { v.link with pause := none })))
            ∧ ((hi ++ lo : Half) ≠ 0 → exec (.portBReceive wait bytes) s
                = .next (settle (v.withLink { v.link with pause := some (hi ++ lo : Half).toNat }))))
          ∧ (f.payload.length ≠ 2 → exec (.portBReceive wait bytes) s = .next (settle wrongKind)))
        ∧ (f.kind ≠ 0x30 → f.dst = u.link.ownAddr →
            (f.kind = 0x10 → exec (.portBReceive wait bytes) s = .next (settle (offerRequest v f)))
            ∧ (f.kind ≠ 0x10 → exec (.portBReceive wait bytes) s = .next (settle wrongKind)))
        ∧ (f.kind ≠ 0x30 → f.dst ≠ u.link.ownAddr →
            (f.dst = 0xFF → f.kind = 0x10 →
              exec (.portBReceive wait bytes) s = .next (settle (offerForwardBA (offerRequest v f) f)))
            ∧ (f.dst ≠ 0xFF ∨ f.kind ≠ 0x10 →
              exec (.portBReceive wait bytes) s = .next (settle (offerForwardBA v f))))

/-- A frame offered to the request intake or to a forward queue joins at the tail while there is a place; otherwise it is
dropped and counted, and a dropped request raises REQUEST_DROPPED. -/
def Obligations.OffersJoinOrAreDropped : Prop :=
  ∀ (s : State) (f : Frame),
    let a := s.link.countersA
    let b := s.link.countersB
    (s.req.intake.length < 4 → offerRequest s f = s.withReq { s.req with intake := s.req.intake ++ [f] })
    ∧ (4 ≤ s.req.intake.length → offerRequest s f =
        setEvent (s.withLink { s.link with countersB := { b with intakeDrops := b.intakeDrops + 1 } }) .requestDropped)
    ∧ (s.link.forwardAB.length < 8 → offerForwardAB s f =
        s.withLink { s.link with
          forwardAB := s.link.forwardAB ++ [f], countersA := { a with forwarded := a.forwarded + 1 } })
    ∧ (8 ≤ s.link.forwardAB.length → offerForwardAB s f =
        s.withLink { s.link with countersA := { a with forwardDrops := a.forwardDrops + 1 } })
    ∧ (s.link.forwardBA.length < 8 → offerForwardBA s f =
        s.withLink { s.link with
          forwardBA := s.link.forwardBA ++ [f], countersB := { b with forwarded := b.forwarded + 1 } })
    ∧ (8 ≤ s.link.forwardBA.length → offerForwardBA s f =
        s.withLink { s.link with countersB := { b with forwardDrops := b.forwardDrops + 1 } })

/-- A port goes UP or DOWN. Port A going DOWN discards the waiting FIRE frames; a frame partly received is counted as
a check/length error of its port. Model's choices in it: log entries 2, 6. -/
def Obligations.PortGoesUpAndDown : Prop :=
  ∀ (wait : Nat) (s : State),
    let u := s.after wait
    let a := u.link.countersA
    let b := u.link.countersB
    exec (.portUp wait .A) s = .next (settle (u.withLink { u.link with upA := true }))
    ∧ exec (.portUp wait .B) s = .next (settle (u.withLink { u.link with upB := true }))
    ∧ (u.link.upA = true →
        exec (.portDown wait .A false) s = .next (settle (u.withLink { u.link with upA := false, fires := [] }))
        ∧ exec (.portDown wait .A true) s = .next (settle (setEvent (u.withLink { u.link with
            upA := false, fires := [],
            countersA := { a with received := a.received + 1, errors := a.errors + 1 } }) .linkAErrors)))
    ∧ (u.link.upB = true →
        exec (.portDown wait .B false) s = .next (settle (u.withLink { u.link with upB := false }))
        ∧ exec (.portDown wait .B true) s = .next (settle (setEvent (u.withLink { u.link with
            upB := false, countersB := { b with received := b.received + 1, errors := b.errors + 1 } }) .linkBErrors)))

/-- When a frame ends on port A, the oldest FIRE starts; without one, the oldest forwarded frame; a DOWN port starts
none. Model's choices in it: log entries 2, 6.
While a frame is in progress no other starts. -/
def Obligations.PortAChoosesFireFirst : Prop :=
  (∀ (s : State) (f : Frame), s.link.lineA = some f → let t := settle s
      t.link.lineA = some f ∧ t.link.fires = s.link.fires ∧ t.link.forwardBA = s.link.forwardBA)
  ∧ (∀ (wait : Nat) (s : State), let u := s.after wait
      exec (.portATransmitEnd wait) s = .next (settle (u.withLink { u.link with lineA := none })))
  ∧ ∀ (wait : Nat) (s : State), let u := s.after wait
    ∃ t, exec (.portATransmitEnd wait) s = .next t
    ∧ t.time = s.time + BitVec.ofNat 32 wait
    ∧ (u.link.upA = false →
        t.link.lineA = none ∧ t.link.fires = u.link.fires ∧ t.link.forwardBA = u.link.forwardBA)
    ∧ (u.link.upA = true →
        (∀ f rest, u.link.fires = f :: rest →
          t.link.lineA = some f ∧ t.link.fires = rest ∧ t.link.forwardBA = u.link.forwardBA)
        ∧ (u.link.fires = [] → ∀ f rest, u.link.forwardBA = f :: rest →
          t.link.lineA = some f ∧ t.link.fires = [] ∧ t.link.forwardBA = rest)
        ∧ (u.link.fires = [] → u.link.forwardBA = [] → t.link.lineA = none ∧ t.link.fires = [] ∧ t.link.forwardBA = []))

/-- When a frame ends on port B, the oldest frame of the winning queue starts and leaves its queue; nothing starts
while the port is DOWN, a pause is in force or all five queues are empty. The place that comes free in the exception
queue takes an overflow summary that holds counts, and one in the geometry queue reports a pending gap in a GAP note,
which is lost at a full event queue. Model's choices in it: log entries 2, 6.
While a frame is in progress no other starts. An OVERFLOW record and the notes of the seven kinds hold their fields at the
offsets of Tables 11-8 and 11-9, an absent one as 0 with its presence bit clear. -/
def Obligations.PortBArbitrates : Prop :=
  (∀ s : State,
      [QueueB.response, .note, .exception, .geometry, .forward].map s.queueB
          = [s.req.responses, s.out.events, s.det.queue, s.out.geometry, s.link.forwardAB]
      ∧ [QueueB.response, .note, .exception, .geometry, .forward].map s.priorityB
          = [s.params.prioResponse, s.params.prioNote, s.params.prioException, s.params.prioGeometry, s.params.prioForward])
  ∧ (∀ (s : State) (f : Frame), s.link.lineB = some f →
      (settle s).link.lineB = some f ∧ ∀ q, (settle s).queueB q = s.queueB q)
  ∧ (∀ (wait : Nat) (s : State), let u := s.after wait
      exec (.portBTransmitEnd wait) s = .next (settle (u.withLink { u.link with lineB := none })))
  ∧ (∀ o : Overflow, let p := overflowPayload o
      p.length = 19 ∧ byteAt p 0 = 2
      ∧ [1, 3, 5].map (halfAt p) = [BitVec.ofNat 16 o.notice, BitVec.ofNat 16 o.action, BitVec.ofNat 16 o.urgent]
      ∧ halfAt p 7 = o.firstRun ∧ wordAt p 9 = BitVec.ofNat 32 o.firstStation
      ∧ halfAt p 13 = o.lastRun ∧ wordAt p 15 = BitVec.ofNat 32 o.lastStation)
  ∧ (∀ (run : Half) (dir : Direction) (c0 : Word) (spacing short long twist : Nat),
      let p := (Note.runStart run dir c0 spacing short long twist).payload
      p.length = 15 ∧ byteAt p 0 = 1 ∧ halfAt p 1 = run
      ∧ byteAt p 3 = (match dir with | .increasing => 0 | .decreasing => 1)
      ∧ wordAt p 4 = c0 ∧ wordAt p 8 = BitVec.ofNat 32 spacing
      ∧ [12, 13, 14].map (byteAt p) = [BitVec.ofNat 8 short, BitVec.ofNat 8 long, BitVec.ofNat 8 twist])
  ∧ (∀ (run : Half) (distance : Int) (x : Tallies), let p := (Note.runEnd run distance x).payload
      p.length = 55 ∧ byteAt p 0 = 2 ∧ halfAt p 1 = run
      ∧ [3, 7, 19, 23, 27, 31, 35, 39, 43, 47, 51].map (wordAt p) = [x.stations, x.voidStations, x.emittedNotice,
          x.emittedAction, x.emittedUrgent, x.discardedShort, x.lostNotice, x.lostAction, x.lostUrgent, x.marksScheduled,
          x.marksDropped]
      ∧ wordAt p 11 ++ wordAt p 15 = BitVec.ofInt 64 distance)
  ∧ (∀ (run : Half) (cause : LocationCause) (delta : Word) (first : Option Nat) (epoch : Byte) (status : LocationStatus)
      (ratio : Option Int), let p := (Note.location run cause delta first epoch status ratio).payload
      p.length = 22 ∧ byteAt p 0 = 3 ∧ halfAt p 1 = run
      ∧ [0, 1, 2].map (byteAt p 3).getLsbD = (match cause with
          | .accepted _ => [false, false, true]
          | .rejected _ => [true, false, true]
          | .byRequest => [false, true, false])
      ∧ [3, 4, 5, 6, 7].map (byteAt p 3).getLsbD = [first.isSome, ratio.isSome, false, false, false]
      ∧ wordAt p 4 = (match cause with | .accepted tag => tag | .rejected tag => tag | .byRequest => 0)
      ∧ wordAt p 8 = delta ∧ wordAt p 12 = (match first with | some n => BitVec.ofNat 32 n | none => 0)
      ∧ byteAt p 16 = epoch
      ∧ byteAt p 17 = (match status with | .none => 0 | .set => 1 | .confirmed => 2 | .doubtful => 3)
      ∧ wordAt p 18 = (match ratio with | some r => BitVec.ofInt 32 r | none => 0))
  ∧ (∀ (run : Half) (addr : Byte) (role : Role) (phase : Phase) (n : Nat) (code : Byte) (note : Note),
      (code, note) ∈ [(4, Note.headDegraded run addr role phase n), (5, .headRecovered run addr role phase n)] →
      let p := note.payload
      p.length = 10 ∧ byteAt p 0 = code ∧ halfAt p 1 = run ∧ byteAt p 3 = addr
      ∧ byteAt p 4 = (match role with | .leftProfile => 1 | .rightProfile => 2 | .bodyMotion => 3 | .tagReader => 4)
      ∧ byteAt p 5 = (match phase with | .even => 0 | .odd => 1 | .both => 2) ∧ wordAt p 6 = BitVec.ofNat 32 n)
  ∧ (∀ (i : Nat) (b : StickyBit) (x : Status), [StickyBit.linkAErrors, .linkBErrors, .headDegraded, .rateExceeded, .tagUnknown,
        .locationRejected, .exceptionOverflow, .geometryGap, .markDropped, .noteLost, .requestDropped][i]? = some b →
      let p := (Note.status b x).payload
      p.length = 8 ∧ byteAt p 0 = 6 ∧ byteAt p 1 = BitVec.ofNat 8 i ∧ halfAt p 2 = x.bits.setWidth 16
      ∧ wordAt p 4 = x.generation ∧ x.has b = x.bits.getLsbD i)
  ∧ (∀ g : Gap, let p := (Note.gap g).payload
      p.length = 17 ∧ byteAt p 0 = 7 ∧ halfAt p 1 = g.firstRun ∧ wordAt p 3 = BitVec.ofNat 32 g.firstStation
      ∧ halfAt p 7 = g.lastRun ∧ wordAt p 9 = BitVec.ofNat 32 g.lastStation ∧ wordAt p 13 = g.count)
  ∧ ∀ (wait : Nat) (s : State), let u := s.after wait
    ∃ t, exec (.portBTransmitEnd wait) s = .next t
    ∧ t.time = s.time + BitVec.ofNat 32 wait
    ∧ (u.link.upB = false ∨ u.link.pause ≠ none ∨ (∀ q, u.queueB q = []) →
        t.link.lineB = none ∧ ∀ q, t.queueB q = u.queueB q)
    ∧ (u.link.upB = true → u.link.pause = none → ∀ q f rest, u.Wins q → u.queueB q = f :: rest →
        t.link.lineB = some f
        ∧ ((q = .exception → u.det.overflow.counts = 0) → t.queueB q = rest ∧ t.det.overflow = u.det.overflow)
        ∧ (q = .exception → u.det.overflow.counts ≠ 0 → t.det.overflow.counts = 0 ∧ t.queueB q = rest ++
            [{ dst := u.params.recorder, src := u.link.ownAddr, kind := 0x21, payload := overflowPayload u.det.overflow }])
        ∧ ((q = .geometry → u.out.gap = none) → (∀ q', q' ≠ q → t.queueB q' = u.queueB q') ∧ t.status = u.status)
        ∧ (∀ g, q = .geometry → u.out.gap = some g → t.out.gap = none
            ∧ (∀ q', q' ≠ q → q' ≠ .note → t.queueB q' = u.queueB q')
            ∧ (u.out.events.length < 16 → t.status = u.status ∧ t.out.events = u.out.events ++
                [{ dst := u.params.recorder, src := u.link.ownAddr, kind := 0x22, payload := (Note.gap g).payload }])
            ∧ (16 ≤ u.out.events.length → t.out.events = u.out.events ∧ t.status = u.status.raise .noteLost)))

/-! ### The status (chapter 10) and the timers -/

/-- A set event sets its bit and advances the generation by 1. A bit other than NOTE_LOST that turns from clear to set
offers a STATUS note with the status after the set; a note lost at a full event queue is a set event of NOTE_LOST, which
offers none. A bit that is set stays set through every command but CLEAR_STATUS and the two resets.
A note joins the event queue while it holds fewer than 16. -/
def Obligations.SetEventRaisesAndNotes : Prop :=
  (∀ (s : State) (n : Note), let t := offerNote s n
      (s.out.events.length < 16 → t = s.withOut { s.out with events := s.out.events ++
          [{ dst := s.params.recorder, src := s.link.ownAddr, kind := 0x22, payload := n.payload }] })
      ∧ (16 ≤ s.out.events.length → t.status = s.status.raise .noteLost ∧ s.ChangesOnly [.status] t))
  ∧ (∀ (s : Status) (b b' : StickyBit), (s.raise b).generation = s.generation + 1
      ∧ ((s.raise b).has b' = true ↔ b' = b ∨ s.has b' = true))
  ∧ (∀ (s : State) (b : StickyBit),
    let t := setEvent s b
    t.status.has b = true
    ∧ (∀ b', b' ≠ b → b' ≠ .noteLost → t.status.has b' = s.status.has b')
    ∧ (b = .noteLost ∨ s.status.has b = true → t.out = s.out ∧ t.status.generation = s.status.generation + 1)
    ∧ (b ≠ .noteLost → s.status.has b = false → s.out.events.length < 16 →
        t.status.generation = s.status.generation + 1 ∧ t.status.has .noteLost = s.status.has .noteLost
        ∧ t.out = { s.out with events := s.out.events ++
            [{ dst := s.params.recorder, src := s.link.ownAddr, kind := 0x22, payload := (Note.status b t.status).payload }] })
    ∧ (b ≠ .noteLost → s.status.has b = false → 16 ≤ s.out.events.length →
        t.out = s.out ∧ t.status.has .noteLost = true ∧ t.status.generation = s.status.generation + 2)
    ∧ s.ChangesOnly [.eventQueue, .status] t)
  ∧ ∀ (c : Instr) (s t : State) (b : StickyBit), exec c s = .next t → c ≠ .clearStatus → c ≠ .softReset →
      (∀ straps encA encB, c ≠ .hardwareReset straps encA encB) → s.status.has b = true → t.status.has b = true

/-- A timer that runs out goes off once its remaining time has passed: the pause, the pulse of a marking output, and
the stamp-valid indication, which is cleared when the time base stands 2^31 µs beyond the previous stamp. Model's
choices in it: log entries 1, 3, 6.
While nothing comes from outside, time passes and each event of the part's own that comes before the end is taken. With
none to come it is only the time that passes. A pause, a pulse and the stamp-valid indication whose time runs out before the
end are over, no entry is left OPEN beyond its deadline, and a drain that is ready has completed. That an event due just at
the end is still to be taken, and how a deadline counts as past, are the model's choices: log entries 2, 3, 25. -/
def Obligations.TimersRunOut : Prop :=
  (∀ (s : State) (station : Nat),
      let until_ := fun moment : Word => if (s.time - moment).toNat < 2 ^ 31 then 0 else (moment - s.time).toNat
      s.timeTo .pauseEnd = s.link.pause ∧ s.timeTo .flush = s.out.flush
      ∧ s.timeTo (.pulseEnd .left) = s.mark.pulseL ∧ s.timeTo (.pulseEnd .right) = s.mark.pulseR
      ∧ s.timeTo (.deadline station) =
          (s.table.find? fun p => p.number == station && p.closed.isNone).map (fun p => until_ p.deadline)
      ∧ (∀ moment, timeUntil s.time moment = until_ moment)
      ∧ s.timeTo .stampTimeout =
          (if s.dist.stampValid then some (2 ^ 31 - (s.time - s.dist.prevStamp).toNat) else none)
      ∧ s.timeTo .drain = (if s.run.state = .draining ∧ s.table = [] then some 0 else none))
  ∧ (∀ (s : State) (n : Nat),
    let u := s.after n
    (s.link.pause = some n → exec .pauseExpiry s = .next (settle (u.withLink { u.link with pause := none })))
    ∧ (s.mark.pulseL = some n →
        exec (.markPulseExpiry .left) s = .next (settle (u.withMark { u.mark with pulseL := none })))
    ∧ (s.mark.pulseR = some n →
        exec (.markPulseExpiry .right) s = .next (settle (u.withMark { u.mark with pulseR := none })))
    ∧ (s.dist.stampValid = true → ∃ t, exec .stampValidTimeout s = .next t ∧ t.dist = { s.dist with stampValid := false }
        ∧ ((s.time - s.dist.prevStamp).toNat ≤ 2 ^ 31 → t.time = s.dist.prevStamp + 0x80000000)))
  ∧ (∀ (s : State) (n : Nat),
    let u := s.after n
    let left := fun timer : Option Nat => timer.bind fun k => if k < n then none else some (k - n)
    u.time = s.time + BitVec.ofNat 32 n
    ∧ ((∀ e t, s.timeTo e = some t → n ≤ t) → u = elapse n s)
    ∧ u.link.pause = left s.link.pause ∧ u.mark.pulseL = left s.mark.pulseL ∧ u.mark.pulseR = left s.mark.pulseR
    ∧ u.dist = { s.dist with
        stampValid := s.dist.stampValid && decide (n ≤ 2 ^ 31 - (s.time - s.dist.prevStamp).toNat) }
    ∧ (s.table.Pairwise (fun p q => p.number ≠ q.number) → ∀ p ∈ u.table, p.closed = none →
        n ≤ timeUntil s.time p.deadline)
    ∧ (0 < n → ¬(u.run.state = .draining ∧ u.table = [])))

/-- When the flush timer expires, a pending apply is swapped in with its APPLIED response, a batch is flushed, and the
timer is off. Where an earlier event of the part's own has stopped the timer or started it afresh, it does not expire.
Model's choices in it: log entries 1, 3, 6. -/
def Obligations.FlushTimerServesAndGoesOff : Prop :=
  ∀ (s : State) (n : Nat), s.out.flush = some n →
    let w := s.after n
    (w.out.flush ≠ some 0 → exec .flushTimerExpiry s = .next w)
    ∧ (w.out.flush = some 0 → ∃ t u, exec .flushTimerExpiry s = .next t ∧ t = settle u
    ∧ t.time = s.time + BitVec.ofNat 32 n
    ∧ t.out.flush = none ∧ t.out.batch = none ∧ t.req.staging.isPending = false
    ∧ (w.req.staging.isPending = false → t.req.staging = w.req.staging ∧ u.req.responses = w.req.responses)
    ∧ (∀ entries requester tag, w.req.staging = .pending .route entries requester tag →
        t.req.staging = .closed ∧ t.loc.route = entries.map Segment.read ∧ t.det.thresholds = w.det.thresholds
        ∧ u.req.responses = w.req.responses ++
          [{ dst := requester, src := s.link.ownAddr, kind := 0x11
             payload := halfBytes tag ++ [0x07, 0x0A, 3] ++ nat16 entries.length }])
    ∧ (∀ entries requester tag, w.req.staging = .pending .thresholds entries requester tag →
        t.req.staging = .closed ∧ t.loc.route = w.loc.route
        ∧ t.det.thresholds = thresholdTable (entries.map Threshold.read)
        ∧ u.req.responses = w.req.responses ++
          [{ dst := requester, src := s.link.ownAddr, kind := 0x11
             payload := halfBytes tag ++ [0x07, 0x0A, 4] ++ nat16 (if entries = [] then 0 else 48) }])
    ∧ (∀ b, w.out.batch = some b → let v := w.withOut { w.out with batch := none }
        u.out.geometry = (offerBatch v b).out.geometry ∧ u.out.gap = (offerBatch v b).out.gap))

/-! ### Runs (chapter 2) -/

/-- The cross-parameter check passes with k, K and t exactly when they meet the conditions of R20. -/
def Obligations.CrossCheckIsR20 : Prop :=
  ∀ (p : Params) (c : Chords), 0 < p.spacingMm →
    (crossCheck p = some c ↔
      p.shortChord = c.short * (2 * p.spacingMm) ∧ p.longChord = c.long * (2 * p.spacingMm)
        ∧ p.twistBase = c.twist * p.spacingMm
        ∧ (1 ≤ c.short ∧ c.short ≤ 127) ∧ (1 ≤ c.long ∧ c.long ≤ 255) ∧ (1 ≤ c.twist ∧ c.twist ≤ 255)
        ∧ c.short ≤ c.long ∧ c.long + max c.long c.twist + 1 ≤ 512 ∧ p.railSpacing % 2 = 0)

/-- A RUN_START that is refused gives the result of the first row of R19 that applies and changes nothing. An accepted
one sets up every block, offers the RUN_START note and answers DONE. Model's choices in it: log entries 1, 6. -/
def Obligations.RunStartIsRefusedOrSetsUpTheRun : Prop :=
  (∀ (s : State) (r : Frame) (rest : List Frame), s.Handles .runStart r rest → r.payload.length = 10 →
    (s.run.state ≠ .idle → exec .runStart s = .next (settle (respond (s.takeRequest rest) r .busy [])))
    ∧ (s.run.state = .idle → byteAt r.payload 7 ≠ 0 → byteAt r.payload 7 ≠ 1 →
        exec .runStart s = .next (settle (respond (s.takeRequest rest) r .badParam [])))
    ∧ (s.run.state = .idle → (byteAt r.payload 7 = 0 ∨ byteAt r.payload 7 = 1) →
        ((∀ h ∈ s.heads, h.cfg.role ≠ .leftProfile) ∨ (∀ h ∈ s.heads, h.cfg.role ≠ .rightProfile)
          ∨ (∀ h ∈ s.heads, h.cfg.role ≠ .bodyMotion) ∨ crossCheck s.params = none) →
        exec .runStart s = .next (settle (respond (s.takeRequest rest) r .badConfig []))))
  ∧ ∀ (s : State) (r : Frame) (rest : List Frame) (dir : Direction) (c : Chords),
    s.Handles .runStart r rest → r.payload.length = 10 → s.run.state = .idle →
    byteAt r.payload 7 = (match dir with | .increasing => 0 | .decreasing => 1) →
    (∃ h ∈ s.heads, h.cfg.role = .leftProfile) → (∃ h ∈ s.heads, h.cfg.role = .rightProfile) →
    (∃ h ∈ s.heads, h.cfg.role = .bodyMotion) → crossCheck s.params = some c →
    ∃ u : State,
      exec .runStart s = .next (settle (respond
        (offerNote u (.runStart (halfAt r.payload 8) dir (wordAt r.payload 3) s.params.spacing c.short c.long c.twist))
        r .done []))
      ∧ u.run = { state := .running, id := halfAt r.payload 8, direction := dir, startChainage := wordAt r.payload 3,
                  origin := s.dist.odometer, highWater := 0, distanceAtStop := 0, tallies := {} }
      ∧ u.dist = { s.dist with
          countLength := (roundDiv (s.params.wheelCirc * 65536) s.params.encCpr).toNat
          next := 0, stampValid := false, lastUnknown := true }
      ∧ u.heads = s.heads.map (fun h => { cfg := h.cfg, active := true, misses := 0, recovery := 0, accepted := 0, late := 0,
                                          duplicate := 0, unasked := 0, malformed := 0, missed := 0 })
      ∧ u.ring = { s.ring with next := 0, short := c.short, long := c.long, twist := c.twist }
      ∧ u.loc = { s.loc with correction := 0, epoch := 0, status := .set, entryNumber := 0, previousTag := none }
      ∧ u.det = { s.det with previous := none }
      ∧ u.mark = { s.mark with queue := [], pulseL := none, pulseR := none }
      ∧ u.out = s.out ∧ u.status = s.status ∧ u.params = s.params ∧ u.table = s.table ∧ u.time = s.time
      ∧ u.link = { s.link with fires := [] } ∧ u.req = { s.req with intake := rest }

/-- RUN_STOP: DONE and DRAINING from RUNNING and SUSPENDED, with the distance at stop; BUSY in DRAINING; NOT_RUNNING
in IDLE. In DRAINING no encoder event makes a station due or changes the run state. Model's choices in it: log entries
1, 6. -/
def Obligations.RunStopStartsTheDrain : Prop :=
  (∀ (s : State) (r : Frame) (rest : List Frame), s.Handles .runStop r rest → r.payload.length = 3 →
    let u := s.takeRequest rest
    ((s.run.state = .running ∨ s.run.state = .suspended) →
      exec .runStop s = .next (settle (respond
        (u.withRun { s.run with state := .draining, distanceAtStop := s.run.highWater }) r .done [])))
    ∧ (s.run.state = .draining → exec .runStop s = .next (settle (respond u r .busy [])))
    ∧ (s.run.state = .idle → exec .runStop s = .next (settle (respond u r .notRunning []))))
  ∧ ∀ (wait : Nat) (a b : Bool) (s t : State), s.run.state = .draining → exec (.encoderChange wait a b) s = .next t →
      t.run = (s.after wait).run ∧ t.table = (s.after wait).table ∧ t.dist.next = s.dist.next
        ∧ t.dist.fired = s.dist.fired ∧ t.dist.skipped = s.dist.skipped
        ∧ (t.run.state = .draining ∨ t.run.state = .idle)

/-- SET_CHAINAGE in a run: the correction becomes such that the next station to enter takes the chainage given; the
epoch advances, the status becomes SET and a LOCATION note reports the change. In IDLE it is refused. Model's choices
in it: log entries 1, 6. -/
def Obligations.SetChainagePlacesNextStation : Prop :=
  ∀ (s : State) (r : Frame) (rest : List Frame), s.Handles .setChainage r rest → r.payload.length = 7 →
    (s.run.state = .idle → exec .setChainage s = .next (settle (respond (s.takeRequest rest) r .notRunning [])))
    ∧ (s.run.state ≠ .idle → ∃ u : State,
        exec .setChainage s = .next (settle (respond
          (offerNote u (.location s.run.id .byRequest (u.loc.correction - s.loc.correction) (some s.loc.entryNumber)
            (s.loc.epoch + 1) .set none)) r .done []))
        ∧ u.stationChainage s.loc.entryNumber = wordAt r.payload 3
        ∧ u.loc = { s.loc with correction := u.loc.correction, epoch := s.loc.epoch + 1, status := .set }
        ∧ (s.takeRequest rest).ChangesOnly [.location] u)

/-- A drain that is ready completes by the five stages of R27: every station that entered and is not evaluated is evaluated,
every open exception closed with RUN_END, the batch flushed, the RUN_END note offered with the tallies as they then stand,
the ring emptied and the run IDLE. Nothing is then left unevaluated, open or in a batch. Until the pending table is empty
nothing happens. Model's choices in it: log entries 1, 6. -/
def Obligations.DrainCompletes : Prop :=
  (∀ (s : State) (n : Nat), evaluateRest s 0 = s ∧ evaluateRest s (n + 1) = evaluateRest (evaluateNext s) n)
  ∧ ∀ s : State,
    let u := flushBatch (closeAll (evaluateRest s (s.loc.entryNumber - s.ring.next)) .runEnd)
    let v := offerNote u (.runEnd s.run.id s.run.distanceAtStop u.run.tallies)
    (s.run.state = .draining → s.table = [] →
      exec .drainComplete s = .next (settle (((v.withRing { v.ring with stations := [] }).withLoc
        { v.loc with status := .none }).withRun { v.run with state := .idle }))
      ∧ u.ring.next = s.ring.next + (s.loc.entryNumber - s.ring.next)
      ∧ (∀ ch, u.det.opened.get ch = none) ∧ u.out.batch = none
      ∧ (s.TimerServes → u.out.flush.isSome = u.req.staging.isPending)
      ∧ s.Agrees v .runRecord ∧ v.run.distanceAtStop = s.run.distanceAtStop ∧ v.table = [] ∧ v.time = s.time)
    ∧ (s.run.state ≠ .draining ∨ s.table ≠ [] → exec .drainComplete s = .next s)

/-- SOFT_RESET: what R30 lists as discarded, cleared and kept, and a DONE that tells whether an apply was pending.
Model's choices in it: log entries 1, 6. -/
def Obligations.SoftResetClearsAndKeeps : Prop :=
  ∀ (s : State) (r : Frame) (rest : List Frame), s.Handles .softReset r rest → r.payload.length = 3 →
    ∃ u : State,
      exec .softReset s = .next (settle (respond u r .done [if s.req.staging.isPending then 1 else 0]))
      ∧ u.time = s.time ∧ u.params = s.params
      ∧ u.link = { ownAddr := s.link.ownAddr, upA := s.link.upA, upB := s.link.upB, lineA := s.link.lineA,
                   lineB := s.link.lineB, fires := [], forwardAB := [], forwardBA := [], pause := none,
                   countersA := {}, countersB := {} }
      ∧ u.run = { s.run with state := .idle, tallies := {} }
      ∧ u.dist = { s.dist with stampValid := false, encoderErrors := 0, fired := 0, skipped := 0 }
      ∧ u.heads = s.heads.map (fun h => { cfg := h.cfg, active := true, misses := 0, recovery := 0, accepted := 0, late := 0,
                                          duplicate := 0, unasked := 0, malformed := 0, missed := 0 })
      ∧ u.table = [] ∧ u.ring = { s.ring with stations := [] }
      ∧ u.loc = { s.loc with correction := 0, epoch := 0, status := .none, previousTag := none, counters := {} }
      ∧ u.det.thresholds = s.det.thresholds ∧ (∀ ch, u.det.opened.get ch = none) ∧ u.det.previous = none
      ∧ u.det.queue = [] ∧ u.det.overflow = {}
      ∧ u.mark = { queue := [], pulseL := none, pulseR := none, reached := 0, dropped := 0 }
      ∧ u.out = { batch := none, flush := none, gap := none, geometry := [], events := [] }
      ∧ u.status = { bits := 0, generation := 0 }
      ∧ u.req = { intake := [], responses := [], staging := .closed }

/-- HARDWARE_RESET: every block at the value its rule gives, the address from the straps, the decoder at the levels present.
-/
def Obligations.HardwareResetValues : Prop :=
  ∀ (straps : BitVec 3) (a b : Bool) (s : State), ∃ t, exec (.hardwareReset straps a b) s = .next t
    ∧ t.time = 0
    ∧ t.link = { ownAddr := 0x10 + straps.setWidth 8, upA := false, upB := false, lineA := none, lineB := none, fires := [],
                 forwardAB := [], forwardBA := [], pause := none, countersA := ⟨0, 0, 0, 0, 0⟩, countersB := ⟨0, 0, 0, 0, 0, 0⟩ }
    ∧ t.run = { state := .idle, id := 0, direction := .increasing, startChainage := 0, origin := 0, highWater := 0,
                distanceAtStop := 0, tallies := ⟨0, 0, 0, 0, 0, 0, 0, 0, 0, 0, 0⟩ }
    ∧ ([.recorderAddr, .prioResponse, .prioNote, .prioException, .prioGeometry, .prioForward, .encCpr, .wheelCirc, .spacing,
        .assemblyTimeout, .degradeCount, .recoverCount, .gaugeDepth, .gaugeWindow, .shortChord, .longChord, .twistBase,
        .nominalGauge, .railSpacing, .headHeight, .vMin, .tagOffset, .captureWindow, .defaultClass, .voidClose,
        .markSeverity, .sprayOffset, .markLatency, .markSpacing, .markPulse, .flushTime] : List ParamId).map t.params.get
      = [128, 6, 5, 4, 2, 3, 8192, 2890000, 250000, 3000, 16, 8, 1400, 300, 10000, 30000, 3000, 143500, 150000, 45000, 1000,
         0, 20000, 1, 8, 3, 12000, 30000, 3000, 60, 100]
    ∧ t.dist = { heldA := a, heldB := b, countLength := 23120000, odometer := 0, next := 0, prevStamp := 0,
                 stampValid := false, lastSpeed := 0, lastUnknown := true, encoderErrors := 0, fired := 0, skipped := 0 }
    ∧ t.heads = [] ∧ t.table = [] ∧ t.ring = { stations := [], next := 0, short := 20, long := 60, twist := 12 }
    ∧ (t.loc.correction = 0 ∧ t.loc.epoch = 0 ∧ t.loc.status = .none ∧ t.loc.entryNumber = 0 ∧ t.loc.previousTag = none
        ∧ t.loc.tags = [] ∧ t.loc.route = [] ∧ t.loc.counters = ⟨0, 0, 0, 0, 0, 0⟩)
    ∧ (t.det.thresholds = [] ∧ (∀ ch, t.det.opened.get ch = none) ∧ t.det.previous = none ∧ t.det.queue = []
        ∧ t.det.overflow.counts = 0)
    ∧ t.mark = { queue := [], pulseL := none, pulseR := none, reached := 0, dropped := 0 }
    ∧ t.out = { batch := none, flush := none, gap := none, geometry := [], events := [] }
    ∧ t.status = { bits := 0, generation := 0 }
    ∧ t.req = { intake := [], responses := [], staging := .closed }

/-! ### Distance, speed and firing (chapter 3) -/

/-- Both phases changed: no count, one encoder error, the new pair held, and nothing else but the time. Model's
choices in it: log entries 2, 6. -/
def Obligations.EncoderErrorTakesNoCount : Prop :=
  ∀ (wait : Nat) (a b : Bool) (s : State), a ≠ s.dist.heldA → b ≠ s.dist.heldB →
    let u := s.after wait
    exec (.encoderChange wait a b) s = .next (settle (u.withDist { u.dist with
      heldA := a, heldB := b, encoderErrors := s.dist.encoderErrors + 1 }))

/-- A forward count adds Lq to the odometer. Past the high-water mark a suspended run resumes; in RUNNING the
high-water mark follows; the marks it reaches leave the mark queue, lowest target first. Model's choices in it: log
entries 2, 6.
Run distance and odometer position are whole µm, rounded toward minus infinity. -/
def Obligations.ForwardCountMovesTheCar : Prop :=
  (∀ s : State, s.runDistance = (s.dist.odometer - s.run.origin).toInt / 65536
      ∧ s.odometerPosition = BitVec.ofInt 64 (s.dist.odometer.toInt / 65536))
  ∧ (∀ a b : DWord, ahead a b = (a - b).toInt)
  ∧ ∀ (wait : Nat) (a b : Bool) (s : State), (a, b) = nextLevels (s.dist.heldA, s.dist.heldB) →
    let u := s.after wait
    ∃ t, exec (.encoderChange wait a b) s = .next t
    ∧ t.dist.odometer = s.dist.odometer + BitVec.ofNat 64 s.dist.countLength
    ∧ t.dist.heldA = a ∧ t.dist.heldB = b ∧ t.time = s.time + BitVec.ofNat 32 wait
    ∧ t.dist.countLength = s.dist.countLength ∧ t.dist.encoderErrors = s.dist.encoderErrors
    ∧ (u.run.state = .running ∨ (u.run.state = .suspended ∧ u.run.highWater < t.runDistance) →
        t.run = { u.run with state := .running, highWater := max u.run.highWater t.runDistance })
    ∧ (u.run.state ≠ .running → (u.run.state = .suspended → t.runDistance ≤ u.run.highWater) → t.run = u.run)
    ∧ ∃ reached, u.mark.queue = reached ++ t.mark.queue
        ∧ (∀ m ∈ reached, ahead m.target t.odometerPosition ≤ 0)
        ∧ (∀ m, t.mark.queue.head? = some m → 0 < ahead m.target t.odometerPosition)
        ∧ t.mark.reached = u.mark.reached + BitVec.ofNat 32 reached.length
        ∧ t.mark.pulseL = (if reached.any (·.sides.left) then some (s.params.markPulse * 1000)
            else u.mark.pulseL)
        ∧ t.mark.pulseR = (if reached.any (·.sides.right) then some (s.params.markPulse * 1000)
            else u.mark.pulseR)

/-- A reverse count subtracts Lq from the odometer, suspends a run that is RUNNING and clears its stamp-valid
indication, and does nothing else but let the time pass. Model's choices in it: log entries 2, 6. -/
def Obligations.ReverseCountSuspends : Prop :=
  ∀ (wait : Nat) (a b : Bool) (s : State), (s.dist.heldA, s.dist.heldB) = nextLevels (a, b) →
    let u := s.after wait
    let d := { u.dist with heldA := a, heldB := b, odometer := s.dist.odometer - BitVec.ofNat 64 s.dist.countLength }
    (u.run.state = .running →
      exec (.encoderChange wait a b) s
        = .next (settle ((u.withRun { u.run with state := .suspended }).withDist { d with stampValid := false })))
    ∧ (u.run.state ≠ .running → exec (.encoderChange wait a b) s = .next (settle (u.withDist d)))

/-- The due test of a forward count: in RUNNING, past the high-water mark, every station whose nominal distance the run
distance has reached is made due, each once and none beyond; in any other case none is. -/
def Obligations.DueTestHandsOnEachStationReached : Prop :=
  ∀ (wait : Nat) (a b : Bool) (s t : State), 0 < s.params.spacing →
    (a, b) = nextLevels (s.dist.heldA, s.dist.heldB) → exec (.encoderChange wait a b) s = .next t →
    let u := s.after wait
    ((u.run.state = .running ∨ u.run.state = .suspended) → u.run.highWater < t.runDistance →
      s.dist.next ≤ t.dist.next
        ∧ (∀ n, s.dist.next ≤ n → n < t.dist.next → (n * s.params.spacing : Int) ≤ t.runDistance)
        ∧ t.runDistance < t.dist.next * s.params.spacing
        ∧ t.dist.fired.toNat + t.dist.skipped.toNat + s.dist.next
            ≡ s.dist.fired.toNat + s.dist.skipped.toNat + t.dist.next [MOD 2 ^ 32])
    ∧ (u.run.state = .idle ∨ u.run.state = .draining ∨ t.runDistance ≤ u.run.highWater →
        t.dist.next = s.dist.next ∧ t.table = u.table ∧ t.dist.fired = s.dist.fired ∧ t.dist.skipped = s.dist.skipped)

/-- A due station is fired while the pending table has a place: its entry is opened and its FIRE issued to port A. At a full
table it is skipped. Either way it becomes the previous stamp and the last speed. Its speed is unknown, with rate 0, without
a valid stamp or 2^31 µs after it; else S × 360 / Δt to the nearest, saturated, with rate v × 1000 / (360 × S_mm) rounded
down. That an indication not yet cleared counts as clear from 2^31 µs on is the model's reading of R47's third case: log
entry 18. The demand on a head is the whole rate for one of phase BOTH and for an ACTIVE one whose partner is DEGRADED, else
half of it rounded up; a fired station with a head whose max rate is below it sets RATE_EXCEEDED. -/
def Obligations.DueStationIsFiredOrSkipped : Prop :=
  (∀ (heads : List Head) (h : Head) (rate : Nat), h.cfg.role ≠ .tagReader → h ∈ heads →
      compositionOk (heads.map (·.cfg)) = true →
      let alone := h.active = true ∧ ∃ g ∈ heads, g.cfg.role = h.cfg.role ∧ g.active = false
        ∧ ((h.cfg.phase = .even ∧ g.cfg.phase = .odd) ∨ (h.cfg.phase = .odd ∧ g.cfg.phase = .even))
      (h.cfg.phase = .both → demand heads rate h = rate)
      ∧ (h.cfg.phase ≠ .both → alone → demand heads rate h = rate)
      ∧ (h.cfg.phase ≠ .both → ¬alone → rate ≤ 2 * demand heads rate h ∧ 2 * demand heads rate h ≤ rate + 1))
  ∧ ∀ s : State, 0 < s.params.spacingMm →
    let d := s.dueRecord
    let dt := (s.time - s.dist.prevStamp).toNat
    let t := dueStation s
    t.dist.next = s.dist.next + 1 ∧ t.dist.prevStamp = s.time ∧ t.dist.stampValid = true
    ∧ t.dist.lastSpeed = d.speed ∧ t.dist.lastUnknown = d.speedUnknown
    ∧ (s.table.length < 8 →
        t.table = s.table ++ [{ number := s.dist.next, nominal := s.dist.next * s.params.spacing, stamp := s.time,
                                speed := d.speed, speedUnknown := d.speedUnknown,
                                deadline := s.time + BitVec.ofNat 32 s.params.assemblyTimeout,
                                members := answerSet s.heads s.dist.next d.rate, skips := 0, closed := none }]
        ∧ t.dist.fired = s.dist.fired + 1 ∧ t.dist.skipped = s.dist.skipped
        ∧ (s.link.upA = true → s.link.fires.length < 8 → t.link.fires = s.link.fires ++
            [{ dst := 0xFF, src := s.link.ownAddr, kind := 0x01
               payload := wordBytes (BitVec.ofNat 32 s.dist.next)
                 ++ BitVec.ofNat 8 (answerSet s.heads s.dist.next d.rate).length
                   :: (answerSet s.heads s.dist.next d.rate).map (·.addr) }])
        ∧ (s.link.upA = false → t.link.fires = s.link.fires)
        ∧ ((∃ h ∈ s.heads, (∃ m ∈ answerSet s.heads s.dist.next d.rate, m.addr = h.cfg.addr)
              ∧ h.cfg.maxRate < demand s.heads d.rate h) → t.status.has .rateExceeded = true)
        ∧ ((∀ h ∈ s.heads, (∃ m ∈ answerSet s.heads s.dist.next d.rate, m.addr = h.cfg.addr) →
              demand s.heads d.rate h ≤ h.cfg.maxRate) → t.status = s.status))
    ∧ (∀ old p, s.table = old ++ [p] → 8 ≤ s.table.length →
        t.table = old ++ [{ p with skips := p.skips + 1 }] ∧ t.dist.skipped = s.dist.skipped + 1
        ∧ t.dist.fired = s.dist.fired ∧ t.link.fires = s.link.fires ∧ t.status = s.status)
    ∧ (s.dist.stampValid = false ∨ 2 ^ 31 ≤ dt → d.speed = 0 ∧ d.speedUnknown = true ∧ d.rate = 0)
    ∧ (s.dist.stampValid = true → dt < 2 ^ 31 →
        d.speedUnknown = false ∧ d.speed ≤ 65535 ∧ (dt = 0 → d.speed = 65535)
        ∧ (0 < dt → 2 * d.speed * dt ≤ 2 * (s.params.spacing * 360) + dt)
        ∧ (d.speed < 65535 → 2 * (s.params.spacing * 360) + dt < 2 * (d.speed + 1) * dt)
        ∧ d.rate * (360 * s.params.spacingMm) ≤ d.speed * 1000
        ∧ d.speed * 1000 < (d.rate + 1) * (360 * s.params.spacingMm))

/-! ### Heads and station assembly (chapter 4) -/

/-- The answer set of a station: the heads whose phase matches it, the takers of a degraded partner whose rate allows it,
and no others, in address order. -/
def Obligations.AnswerSetIsRegularAndTakers : Prop :=
  ∀ (heads : List Head) (n rate : Nat), compositionOk (heads.map (·.cfg)) = true →
    ((answerSet heads n rate).map (·.addr)).Sublist (heads.map (·.cfg.addr))
    ∧ ∀ m : Member, m ∈ answerSet heads n rate ↔ ∃ h ∈ heads, m.addr = h.cfg.addr ∧ m.sample = none
        ∧ (((h.cfg.phase = .both ∨ (h.cfg.phase = .even ∧ n % 2 = 0) ∨ (h.cfg.phase = .odd ∧ n % 2 = 1))
              ∧ ((h.cfg.role = .bodyMotion ∧ m.part = .body)
                ∨ (h.cfg.role = .leftProfile ∧ m.part = .regular .left)
                ∨ (h.cfg.role = .rightProfile ∧ m.part = .regular .right)))
          ∨ (((h.cfg.phase = .even ∧ n % 2 = 1) ∨ (h.cfg.phase = .odd ∧ n % 2 = 0))
              ∧ h.active = true ∧ rate ≤ h.cfg.maxRate
              ∧ (∃ g ∈ heads, g.cfg.role = h.cfg.role ∧ g.cfg.phase ≠ h.cfg.phase ∧ g.active = false)
              ∧ ((h.cfg.role = .leftProfile ∧ m.part = .taker .left)
                ∨ (h.cfg.role = .rightProfile ∧ m.part = .taker .right))))

/-- A SAMPLE is judged by the steps of R62 in their order. A dropped one changes nothing but the head's counter. An accepted
sample is counted, converted and stored as its head's sample in its station's entry, and nowhere else; a late one is counted
and not stored. Then the head's recovery is advanced, for a late sample only when it is well-formed, and the closing
conditions are tested. A reading is void by the no-value code, or when its sum with the head's offset lies outside its
range; with a status other than OK every reading is void; without a top a profile sample is void whole. The gauge point is
selected among the returns, read in their order. -/
def Obligations.SampleIsJudgedInOrder : Prop :=
  ([0, 1, 2, 3].map SampleStatus.ofCode = [some .ok, some .noReturn, some .overrange, some .fault])
  ∧ (∀ (s : State) (a : Byte) (f : Head → Head),
      s.updateHead a f = s.withHeads (s.heads.map fun h => if h.cfg.addr = a then f h else h))
  ∧ (∀ (s : State) (a : Byte), (∀ h, s.findHead a = some h → h ∈ s.heads ∧ h.cfg.addr = a)
      ∧ (s.findHead a = none ↔ ∀ h ∈ s.heads, h.cfg.addr ≠ a))
  ∧ (∀ (s : State) (h : Head) (payload : List Byte),
    let n := (wordAt payload 0).toNat
    let malformed := s.updateHead h.cfg.addr fun h => { h with malformed := h.malformed + 1 }
    let unasked := s.updateHead h.cfg.addr fun h => { h with unasked := h.unasked + 1 }
    let duplicate := s.updateHead h.cfg.addr fun h => { h with duplicate := h.duplicate + 1 }
    let late := s.table = [] ∨ (∃ p rest, s.table = p :: rest ∧ n < p.number)
      ∨ ∃ p ∈ s.table, p.number = n ∧ p.closed ≠ none
    (payload.length < 5 ∨ 3 < (byteAt payload 4).toNat ∨ s.dist.next ≤ n → sampleIntake s h payload = malformed)
    ∧ (5 ≤ payload.length → (byteAt payload 4).toNat ≤ 3 → n < s.dist.next →
        (late → sampleIntake s h payload = lateSample s h n payload)
        ∧ (¬late →
            ((∀ p ∈ s.table, p.number ≠ n) → sampleIntake s h payload = unasked)
            ∧ (∀ p, s.table.find? (·.number == n) = some p →
                ((∀ m ∈ p.members, m.addr ≠ h.cfg.addr) → sampleIntake s h payload = unasked)
                ∧ (∀ m, p.members.find? (·.addr == h.cfg.addr) = some m →
                    (m.sample ≠ none → sampleIntake s h payload = duplicate)
                    ∧ (m.sample = none → wellFormedFor h.cfg payload = false → sampleIntake s h payload = malformed)
                    ∧ (m.sample = none → wellFormedFor h.cfg payload = true → ∀ st,
                        SampleStatus.ofCode (byteAt payload 4) = some st →
                        sampleIntake s h payload = acceptSample s h n st payload))))))
  ∧ (∀ (s : State) (h : Head) (n : Nat) (st : SampleStatus) (payload : List Byte),
    let reading := fun (at_ : Nat) (offset lo hi : Int) =>
      let v := (wordAt payload at_).toInt + offset
      if wordAt payload at_ = 0x7FFFFFFF ∨ v < lo ∨ hi < v then none else some v
    let top := if (byteAt payload 5).getLsbD 0 then reading 6 h.cfg.verticalOffset (-150000) 0 else none
    let profile := fun rail : Side =>
      if st = .ok ∧ top ≠ none then
        Sample.profile st (gaugePoint s.params rail h.cfg.minStrength (readReturns h.cfg payload)) top
      else Sample.profile st none none
    let stored := match h.cfg.role with
      | .leftProfile => profile .left
      | .rightProfile => profile .right
      | .bodyMotion | .tagReader =>
        if st = .ok then
          Sample.body st (reading 5 h.cfg.lateralOffset (-50000) 50000) (reading 9 h.cfg.verticalOffset (-50000) 50000)
            (reading 13 h.cfg.rollOffset (-150000) 150000)
        else Sample.body st none none none
    let accepted := (s.updateHead h.cfg.addr fun h => { h with accepted := h.accepted + 1 }).withTable
      (s.table.map fun p => if p.number = n then { p with members := p.members.map fun m =>
        if m.addr = h.cfg.addr then { m with sample := some stored } else m } else p)
    let late := s.updateHead h.cfg.addr fun h => { h with late := h.late + 1 }
    acceptSample s h n st payload = closeAnswered (advanceRecovery accepted n h) s.table.length
    ∧ lateSample s h n payload
        = closeAnswered (if wellFormedFor h.cfg payload then advanceRecovery late n h else late) s.table.length
    ∧ (h.cfg.role = .leftProfile ∨ h.cfg.role = .rightProfile → (wellFormedFor h.cfg payload = true ↔
        11 ≤ payload.length ∧ (byteAt payload 10).toNat ≤ 8 ∧ payload.length = 11 + 9 * (byteAt payload 10).toNat
          ∧ (byteAt payload 10).toNat ≤ h.cfg.maxReturns))
    ∧ (h.cfg.role = .bodyMotion → (wellFormedFor h.cfg payload = true ↔ payload.length = 17))
    ∧ (readReturns h.cfg payload).length = (byteAt payload 10).toNat
    ∧ ∀ i < (byteAt payload 10).toNat, (readReturns h.cfg payload)[i]? = some
        { lateral := reading (11 + 9 * i) h.cfg.lateralOffset (-100000) 100000
          depth := if wordAt payload (15 + 9 * i) = 0x7FFFFFFF then none else some (wordAt payload (15 + 9 * i)).toInt
          strength := (byteAt payload (19 + 9 * i)).toNat })

/-- The judgement of a head at the close of a station: an answer clears its misses; a miss is counted, and degrades an
ACTIVE head that has reached DEGRADE_COUNT, with its note and its sticky bit. A well-formed answer of a DEGRADED
head advances its recovery count, and makes it ACTIVE, with its counts 0 and a HEAD_RECOVERED note, once that has reached
RECOVER_COUNT. No other head is touched. That a single free place of the event queue goes to the HEAD_DEGRADED note and not
to the STATUS note of the same degradation is the model's choice: log entry 29. -/
def Obligations.HeadsDegradeAndRecover : Prop :=
  (∀ (n : Nat) (s : State) (m : Member) (h : Head), s.findHead m.addr = some h →
    let t := judgeHead n s m
    let missed := { h with missed := h.missed + 1, misses := min 255 (h.misses + 1) }
    (∀ a, a ≠ m.addr → t.findHead a = s.findHead a)
    ∧ (m.sample ≠ none → t.findHead m.addr = some { h with misses := 0 } ∧ t.out = s.out ∧ t.status = s.status)
    ∧ (m.sample = none → h.active = false →
        t.findHead m.addr = some { missed with recovery := 0 } ∧ t.out = s.out ∧ t.status = s.status)
    ∧ (m.sample = none → h.active = true → min 255 (h.misses + 1) < s.params.degradeCount →
        t.findHead m.addr = some missed ∧ t.out = s.out ∧ t.status = s.status)
    ∧ (m.sample = none → h.active = true → s.params.degradeCount ≤ min 255 (h.misses + 1) →
        t.findHead m.addr = some { missed with active := false, recovery := 0 }
        ∧ t.status.has .headDegraded = true
        ∧ (s.out.events.length < 16 → (s.frame s.params.recorder 0x22
            (Note.headDegraded s.run.id m.addr h.cfg.role h.cfg.phase n).payload) ∈ t.out.events)))
  ∧ ∀ (s : State) (n : Nat) (h : Head), s.findHead h.cfg.addr = some h →
    let t := advanceRecovery s n h
    (h.active = true → t = s)
    ∧ (h.active = false → h.recovery + 1 < s.params.recoverCount →
        t.findHead h.cfg.addr = some { h with recovery := h.recovery + 1 } ∧ t.out = s.out)
    ∧ (h.active = false → s.params.recoverCount ≤ h.recovery + 1 →
        t.findHead h.cfg.addr = some { h with active := true, recovery := 0, misses := 0 }
        ∧ (s.out.events.length < 16 → t.out.events = s.out.events ++ [s.frame s.params.recorder 0x22
            (Note.headRecovered s.run.id h.cfg.addr h.cfg.role h.cfg.phase n).payload]))
    ∧ ∀ a, a ≠ h.cfg.addr → t.findHead a = s.findHead a

/-- The oldest entry enters the ring once it is CLOSED, followed by its skipped stations, and then the next. An entering
station's record is appended with chainage, epoch and LOCATION_DOUBTFUL as the location unit gives them and with its derived
values; the entry number and the stations tally advance; and where it is station E + kmax, station E is evaluated. The
evaluation of station E: a pending apply completes first, the station of the ring is evaluated with L the last station to
enter, and handed on: a station with all eight channels void is tallied, the exception detector judges it, and the composer
takes it (log entry 7: in this order). E advances and the stations below E − max(K, t) leave the ring. -/
def Obligations.StationsEnterTheRingAndAreEvaluated : Prop :=
  ((∀ (s : State) (n : Nat), (s.table = [] ∨ ∃ p rest, s.table = p :: rest ∧ p.closed = none) → enterClosed s n = s)
  ∧ (∀ (s : State) (n : Nat) (p : PendingStation) (rest : List PendingStation) (i : Inputs),
      s.table = p :: rest → p.closed = some i →
      enterClosed s (n + 1) = enterClosed (enterSkipped (enterRing (s.withTable rest)
        { number := p.number, nominal := p.nominal, speed := p.speed, speedUnknown := p.speedUnknown, skipped := false
          inputs := i }) (p.number + 1) p.skips) n)
  ∧ (∀ (s : State) (m : Nat), enterSkipped s m 0 = s)
  ∧ (∀ (s : State) (m n : Nat), enterSkipped s m (n + 1) = enterSkipped (enterRing s
      { number := m, nominal := m * s.params.spacing, speed := 0, speedUnknown := true, skipped := true
        inputs := ⟨none, none, none, none, none, none, none⟩ }) (m + 1) n)
  ∧ ∀ (s : State) (e : Entering),
      let dir : Int := if s.run.direction = .increasing then 1 else -1
      let record : StationRecord :=
        { number := e.number, nominal := e.nominal
          chainage := s.run.startChainage + BitVec.ofInt 32 (dir * (e.number * (s.params.spacing / 1000 : Nat))) + s.loc.correction
          epoch := s.loc.epoch, speed := e.speed, speedUnknown := e.speedUnknown, skipped := e.skipped
          doubtful := decide (s.loc.status = .doubtful), inputs := e.inputs, derived := derive s.params e.inputs }
      let u := ((s.withRing { s.ring with stations := s.ring.stations ++ [record] }).withLoc
        { s.loc with entryNumber := s.loc.entryNumber + 1 }).withRun
        { s.run with tallies := { s.run.tallies with stations := s.run.tallies.stations + 1 } }
      (e.number = s.ring.next + s.ring.long → enterRing s e = evaluateNext u)
      ∧ (e.number ≠ s.ring.next + s.ring.long → enterRing s e = u))
  ∧ (∀ (s : State) (x : StationRecord), s.ring.stations.find? (·.number == s.ring.next) = some x →
    let u := completeApply s
    let e := evaluate u.params u.run.direction u.loc.route u.ring ((s.loc.entryNumber : Int) - 1) x
    let void : Prop := ∀ ch, e.values.get ch = none
    let t := evaluateNext s
    ∃ v : State,
      (void → v = u.withTallies { u.run.tallies with voidStations := u.run.tallies.voidStations + 1 })
      ∧ (¬void → v = u)
      ∧ (∃ g : Ring, t = (composeStation (judgeStation v e) e).withRing g)
      ∧ t.ring.next = s.ring.next + 1
      ∧ t.ring.stations = s.ring.stations.filter (fun r => decide (s.ring.next + 1 ≤ r.number + max s.ring.long s.ring.twist))
      ∧ t.ring.short = s.ring.short ∧ t.ring.long = s.ring.long ∧ t.ring.twist = s.ring.twist
      ∧ u.req.staging.isPending = false ∧ u.ring = s.ring
      ∧ (s.req.staging.isPending = false → u = s)
      ∧ (∀ entries requester tag, s.req.staging = .pending .route entries requester tag →
          u.loc.route = entries.map Segment.read)
      ∧ (∀ entries requester tag, s.req.staging = .pending .thresholds entries requester tag →
          u.det.thresholds = thresholdTable (entries.map Threshold.read)))

/-- The gauge point is the lateral of a return that qualifies and that no other qualifying return betters, and there is
none exactly when no return qualifies. -/
def Obligations.GaugePointIsTheBestReturn : Prop :=
  ∀ (p : Params) (rail : Side) (minStrength : Nat) (returns : List Return),
    let qualifies := fun (x : Return) (lateral depth : Int) => x ∈ returns ∧ x.lateral = some lateral ∧ x.depth = some depth
      ∧ minStrength ≤ x.strength ∧ (depth - p.gaugeDepth).natAbs ≤ p.gaugeWindow
    (gaugePoint p rail minStrength returns = none ↔ ∀ x lateral depth, ¬ qualifies x lateral depth)
    ∧ ∀ lateral, gaugePoint p rail minStrength returns = some lateral →
        ∃ x depth, qualifies x lateral depth ∧ ∀ y lateral' depth', qualifies y lateral' depth' →
          (depth - p.gaugeDepth).natAbs < (depth' - p.gaugeDepth).natAbs
            ∨ ((depth - p.gaugeDepth).natAbs = (depth' - p.gaugeDepth).natAbs
                ∧ (match rail with
                  | .left => lateral' ≤ lateral
                  | .right => lateral ≤ lateral'))

/-- The expiry of an OPEN entry's deadline comes when the time base reaches it, and closes the entry. The oldest entry then
enters the ring; any other waits CLOSED or has entered behind older ones that this close let close. Model's choices in it:
log entries 1, 3, 6 (the transmitters choose at the end of the event), 25 (an interval modulo 2^32 below 2^31 from the
deadline to now is read as past). An entry is answered by conditions (a) and (b) of R69. Entries that an event leaves
answered close in station order, each with the head states left by the ones before it, until no OPEN entry is answered. Each
lets the oldest CLOSED entries enter before the next closes (log entry 8). A close judges the heads of the set in its order
(log entry 9), takes the inputs from the samples, and marks the entry CLOSED. The inputs of a station at its close: the body
head's sample gives yb, zb and r; each rail takes lateral and top together from the sample the table of R73 names. -/
def Obligations.DeadlineClosesTheStation : Prop :=
  (∀ (s : State) (station : Nat) (p : PendingStation),
    s.table.find? (fun q => q.number == station && q.closed.isNone) = some p → ∃ t,
      exec (.deadlineExpiry station) s = .next t
      ∧ (∀ q ∈ t.table, q.number = station → q.closed ≠ none)
      ∧ (2 ^ 31 ≤ (s.time - p.deadline).toNat → t.time = p.deadline)
      ∧ ((s.time - p.deadline).toNat < 2 ^ 31 → t.time = s.time)
      ∧ s.loc.entryNumber ≤ t.loc.entryNumber
      ∧ (s.table.head? = some p → s.loc.entryNumber + 1 + p.skips ≤ t.loc.entryNumber)
      ∧ ∀ q, let w := s.atMoment (.deadline station)
          w.openEntry station = some q → timeUntil w.time q.deadline = 0 → let u := closeStation w q
          exec (.deadlineExpiry station) s = .next (settle (closeAnswered u u.table.length)))
  ∧ ((∀ (s : State) (p : PendingStation), s.answered p = true ↔
      (∀ m ∈ p.members, m.sample ≠ none)
        ∨ ((∃ m ∈ p.members, s.isActive m.addr = true) ∧ ∀ m ∈ p.members, s.isActive m.addr = true → m.sample ≠ none))
  ∧ (∀ (s : State) (a : Byte), s.isActive a = true ↔ ∃ h, s.findHead a = some h ∧ h.active = true)
  ∧ (∀ (s : State) (n : Nat), (∀ p ∈ s.table, p.closed = none → s.answered p = false) → closeAnswered s n = s)
  ∧ (∀ (s : State) (n : Nat) (p : PendingStation) (older newer : List PendingStation), s.table = older ++ p :: newer →
      (∀ q ∈ older, q.closed ≠ none ∨ s.answered q = false) → p.closed = none → s.answered p = true →
      closeAnswered s (n + 1) = closeAnswered (closeStation s p) n)
  ∧ (∀ (s : State), let t := closeAnswered s s.table.length
      ∀ p ∈ t.table, p.closed = none → t.answered p = false)
  ∧ ∀ (s : State) (p : PendingStation),
      let u := p.members.foldl (judgeHead p.number) s
      let v := u.withTable (s.table.map fun q =>
        if q.number = p.number then { q with closed := some (u.inputsOf p.members) } else q)
      closeStation s p = enterClosed v s.table.length)
  ∧ (∀ (s : State) (members : List Member),
    members.Pairwise (fun x y => x.part ≠ y.part) →
    let held := fun (part : Part) (a : Byte) (x : Sample) => (⟨a, part, some x⟩ : Member) ∈ members
    let lacks := fun part : Part => ∀ a x, ¬ held part a x
    let i := s.inputsOf members
    let rail := fun (side : Side) => match side with | .left => (i.aL, i.hL) | .right => (i.aR, i.hR)
    (lacks .body → i.yb = none ∧ i.zb = none ∧ i.r = none)
    ∧ (∀ a st yb zb r, held .body a (.body st yb zb r) → i.yb = yb ∧ i.zb = zb ∧ i.r = r)
    ∧ ∀ side,
      (lacks (.regular side) → lacks (.taker side) → rail side = (none, none))
      ∧ (∀ a st lateral top, held (.regular side) a (.profile st lateral top) →
          (lacks (.taker side) → rail side = (lateral, top))
          ∧ ∀ b st' lateral' top', held (.taker side) b (.profile st' lateral' top') →
            (st = .ok → st' ≠ .ok → rail side = (lateral, top))
            ∧ (st ≠ .ok → st' = .ok → rail side = (lateral', top'))
            ∧ (st = st' → s.isActive a = false → s.isActive b = true → rail side = (lateral', top'))
            ∧ (st = st' → (s.isActive a = true ∨ s.isActive b = false) → rail side = (lateral, top)))
      ∧ (∀ b st lateral top, lacks (.regular side) → held (.taker side) b (.profile st lateral top) →
          rail side = (lateral, top)))

/-! ### Station ring and geometry arithmetic (chapter 5) -/

/-- The chapters' division rounds to nearest, ties away from zero. -/
def Obligations.DivisionRoundsToNearest : Prop :=
  ∀ (a : Int) (b : Nat), 0 < b →
    2 * (a - roundDiv a b * b).natAbs ≤ b
      ∧ (2 * (a - roundDiv a b * b).natAbs = b → a.natAbs < (roundDiv a b * b).natAbs)

/-- The derived values of a station, and which void input voids which of them. -/
def Obligations.DerivedValues : Prop :=
  ∀ (p : Params) (i : Inputs),
    let half : Int := (p.railSpacing / 2 : Nat)
    (∀ aL aR, i.aL = some aL → i.aR = some aR → (derive p i).g = some (aR - aL))
    ∧ (∀ hL hR r, i.hL = some hL → i.hR = some hR → i.r = some r →
        (derive p i).x = some ((hL - hR) + roundDiv (p.railSpacing * r) 1000000))
    ∧ (∀ zb hL r, i.zb = some zb → i.hL = some hL → i.r = some r →
        (derive p i).zl = some (zb + hL + roundDiv (half * r) 1000000))
    ∧ (∀ zb hR r, i.zb = some zb → i.hR = some hR → i.r = some r →
        (derive p i).zr = some (zb + hR - roundDiv (half * r) 1000000))
    ∧ (∀ yb aL r, i.yb = some yb → i.aL = some aL → i.r = some r →
        (derive p i).yl = some (yb + aL - roundDiv (p.headHeight * r) 1000000))
    ∧ (∀ yb aR r, i.yb = some yb → i.aR = some aR → i.r = some r →
        (derive p i).yr = some (yb + aR - roundDiv (p.headHeight * r) 1000000))
    ∧ (∀ yl yr, (derive p i).yl = some yl → (derive p i).yr = some yr → (derive p i).yc = some (roundDiv (yl + yr) 2))
    ∧ ((derive p i).g = none ↔ i.aL = none ∨ i.aR = none)
    ∧ ((derive p i).x = none ↔ i.hL = none ∨ i.hR = none ∨ i.r = none)
    ∧ ((derive p i).zl = none ↔ i.zb = none ∨ i.hL = none ∨ i.r = none)
    ∧ ((derive p i).zr = none ↔ i.zb = none ∨ i.hR = none ∨ i.r = none)
    ∧ ((derive p i).yl = none ↔ i.yb = none ∨ i.aL = none ∨ i.r = none)
    ∧ ((derive p i).yr = none ↔ i.yb = none ∨ i.aR = none ∨ i.r = none)
    ∧ ((derive p i).yc = none ↔ i.yb = none ∨ i.aL = none ∨ i.aR = none ∨ i.r = none)

/-- The eight car-frame channels of a station, and the station flags they set. GAUGE and XLEVEL reach no other station.
TWIST reaches t back, TOP and ALIGN k either side, CURV K either side. The tests are made in order: the window against
station 0 and L, then, for the chords, the station's own speed against V_MIN, then the inputs. -/
def Obligations.ChannelsAreFormedOrVoid : Prop :=
  ∀ (p : Params) (d : Direction) (route : List Segment) (g : Ring) (last : Int) (x : StationRecord),
    let m := x.number
    let slow : Prop := x.speedUnknown = true ∨ x.speed < p.vMin
    let c := formChannels p g last x
    let e := evaluate p d route g last x
    let twist := c.get .twist
    (c.get .gauge = { value := x.derived.g.map fun v => v - p.nominalGauge } ∧ c.get .xlevel = { value := x.derived.x })
    ∧ (twist.startOfRun = decide (m < g.twist) ∧ twist.endOfRun = false ∧ twist.lowSpeed = false
      ∧ (m < g.twist → twist.value = none)
      ∧ (g.twist ≤ m → (∀ a b, x.derived.x = some a → g.value (m - g.twist) (·.x) = some b → twist.value = some (a - b))
          ∧ (x.derived.x = none ∨ g.value (m - g.twist) (·.x) = none → twist.value = none)))
    ∧ (∀ (ch : Channel) (reach : Nat) (f : Derived → Option Int),
        (ch, reach) ∈ [(Channel.topL, g.short), (.topR, g.short), (.alignL, g.short), (.alignR, g.short), (.curv, g.long)] →
        (ch = .topL → f = (·.zl)) → (ch = .topR → f = (·.zr)) → (ch = .alignL → f = (·.yl)) → (ch = .alignR → f = (·.yr)) →
        (ch = .curv → f = (·.yc)) →
        let formed := c.get ch
        (formed.startOfRun = true ↔ m < reach)
        ∧ (formed.endOfRun = true ↔ 0 < reach ∧ last < m + reach)
        ∧ (formed.lowSpeed = true ↔ reach ≤ m ∧ (reach = 0 ∨ (m + reach : Int) ≤ last) ∧ slow)
        ∧ (formed.startOfRun = true ∨ formed.endOfRun = true ∨ formed.lowSpeed = true → formed.value = none)
        ∧ (formed.startOfRun = false → formed.endOfRun = false → formed.lowSpeed = false →
            (∀ a b v, g.value (m - reach) f = some a → g.value (m + reach) f = some b → f x.derived = some v →
              formed.value = some (roundDiv (a + b - 2 * v) 2))
            ∧ (g.value (m - reach) f = none ∨ g.value (m + reach) f = none ∨ f x.derived = none → formed.value = none)))
    ∧ (e.flags.speedUnknown = x.speedUnknown ∧ e.flags.skipped = x.skipped ∧ e.flags.doubtful = x.doubtful)
    ∧ (e.flags.startOfRun = true ↔ ∃ ch, (c.get ch).startOfRun = true)
    ∧ (e.flags.endOfRun = true ↔ ∃ ch, (c.get ch).endOfRun = true)
    ∧ (e.flags.lowSpeed = true ↔ ∃ ch, (c.get ch).lowSpeed = true)
    ∧ e.speed = (if x.speedUnknown then 0 else x.speed)

/-- The line frame of an INCREASING and of a DECREASING run; the station flags are not exchanged. -/
def Obligations.LineFrameByDirection : Prop :=
  (∀ c : PerChannel (Option Int), toLineFrame .increasing c = c)
  ∧ (∀ c : PerChannel (Option Int), toLineFrame .decreasing c =
      { gauge := c.gauge, xlevel := c.xlevel.map (- ·), twist := c.twist, topL := c.topR, topR := c.topL,
        alignL := c.alignR.map (- ·), alignR := c.alignL.map (- ·), curv := c.curv.map (- ·) })
  ∧ ∀ (p : Params) (route : List Segment) (g : Ring) (last : Int) (x : StationRecord),
      { (evaluate p .decreasing route g last x).flags with clipped := false }
        = { (evaluate p .increasing route g last x).flags with clipped := false }

/-- The values of an evaluated station. From the line-frame values of its channels the design cant is taken off XLEVEL and
the design versine of the long chord off CURV, from no other channel and from no void. Every channel value is the exact
value that leaves, clipped to ±32767, or void with it, and CLIPPED tells whether any was clipped. The station carries its
number, distance, chainage and epoch from its record, and class, suppression flags and line code from the route lookup. -/
def Obligations.EvaluatedValuesAreClipped : Prop :=
  (∀ (curvature : Int) (long spacingMm : Nat), let c : Int := 2 * long * spacingMm
      designVersine curvature long spacingMm = roundDiv (curvature * c * c) 80000000)
  ∧ (∀ (cant versine : Int) (x : PerChannel (Option Int)), let y := subtractDesign cant versine x
      (∀ v, x.xlevel = some v → y.xlevel = some (v - cant)) ∧ (∀ v, x.curv = some v → y.curv = some (v - versine))
      ∧ ∀ ch, (x.get ch = none → y.get ch = none) ∧ (ch ≠ .xlevel → ch ≠ .curv → y.get ch = x.get ch))
  ∧ (∀ (x : PerChannel Formed) (ch : Channel), (formedValues x).get ch = (x.get ch).value)
  ∧ ∀ (p : Params) (d : Direction) (route : List Segment) (g : Ring) (last : Int) (x : StationRecord),
    let design := lookup route p.defaultClass x.chainage
    let exact := subtractDesign design.cant (designVersine design.curvature g.long (p.spacing / 1000))
      (toLineFrame d (formedValues (formChannels p g last x)))
    let e := evaluate p d route g last x
    (∀ ch v, exact.get ch = some v →
      (32767 < v → e.values.get ch = some 32767) ∧ (v < -32767 → e.values.get ch = some (-32767))
        ∧ (-32767 ≤ v → v ≤ 32767 → e.values.get ch = some v))
    ∧ (∀ ch, exact.get ch = none → e.values.get ch = none)
    ∧ (e.flags.clipped = true ↔ ∃ ch v, exact.get ch = some v ∧ (32767 < v ∨ v < -32767))
    ∧ e.number = x.number ∧ e.nominal = x.nominal ∧ e.chainage = x.chainage ∧ e.epoch = x.epoch
    ∧ e.speedClass = design.speedClass ∧ e.suppressGauge = design.suppressGauge ∧ e.suppressAll = design.suppressAll
    ∧ e.lineCode = design.lineCode

/-! ### Location (chapter 6) -/

/-- The route lookup finds the one segment that covers a chainage, takes its class, flags and line code and interpolates in
it; where none does, the design values are 0, the class is DEFAULT_CLASS, both flags are clear and the line code is absent. -/
def Obligations.RouteLookupFindsTheSegment : Prop :=
  ∀ (route : List Segment) (defaultClass : Nat) (chainage : Word),
    route.Pairwise (fun (a b : Segment) => a.start + a.length ≤ b.start) →
    (∀ g ∈ route, g.start ≤ chainage.toInt → chainage.toInt < g.start + g.length →
      lookup route defaultClass chainage =
        { cant := g.cantStart + roundDiv ((g.cantEnd - g.cantStart) * (chainage.toInt - g.start)) g.length
          curvature := g.curvStart + roundDiv ((g.curvEnd - g.curvStart) * (chainage.toInt - g.start)) g.length
          speedClass := g.speedClass, suppressGauge := g.suppressGauge, suppressAll := g.suppressAll
          lineCode := some g.lineCode })
    ∧ ((∀ g ∈ route, chainage.toInt < g.start ∨ g.start + g.length ≤ chainage.toInt) →
      lookup route defaultClass chainage =
        { cant := 0, curvature := 0, speedClass := defaultClass, suppressGauge := false, suppressAll := false
          lineCode := none })

/-- A TAG is judged by the steps of R110 in their order: malformed, ignored in IDLE, stale, unknown, or compared. A known
tag within the capture window is taken up: A by δ, the epoch by 1, CONFIRMED, the tag remembered, a LOCATION note. Outside
it the status becomes DOUBTFUL, with LOCATION_REJECTED and a LOCATION note, and A, epoch and previous tag stay. -/
def Obligations.TagCorrectsOrRaisesDoubt : Prop :=
  (∀ (s : State) (payload : List Byte),
    let c := s.loc.counters
    let fits := payload.length = 9 ∧ (byteAt payload 8).toNat ≤ 2
    let age := (wordAt payload 4).toNat
    (¬fits → tagIntake s payload = s.withLoc { s.loc with counters := { c with malformed := c.malformed + 1 } })
    ∧ (fits → s.run.state = .idle →
        tagIntake s payload = s.withLoc { s.loc with counters := { c with ignored := c.ignored + 1 } })
    ∧ (fits → s.run.state ≠ .idle → (byteAt payload 8 ≠ 0 ∨ 100000 < age) →
        tagIntake s payload = s.withLoc { s.loc with counters := { c with stale := c.stale + 1 } })
    ∧ (fits → s.run.state ≠ .idle → byteAt payload 8 = 0 → age ≤ 100000 →
        ((∀ x ∈ s.loc.tags, x.id ≠ wordAt payload 0) →
          tagIntake s payload
            = setEvent (s.withLoc { s.loc with counters := { c with unknown := c.unknown + 1 } }) .tagUnknown)
        ∧ (s.loc.tags.Pairwise (fun x y => x.id ≠ y.id) → ∀ x ∈ s.loc.tags, x.id = wordAt payload 0 →
          tagIntake s payload = judgeTag s x.id age x.chainage)))
  ∧ ∀ (s : State) (id surveyed : Word) (age : Nat),
    let p := s.runDistance - roundDiv ((if s.dist.lastUnknown then 0 else s.dist.lastSpeed) * age) 360
      + s.params.tagOffset * 1000
    let dir : Int := if s.run.direction = .increasing then 1 else -1
    let delta := surveyed - (s.run.startChainage + BitVec.ofInt 32 (dir * roundDiv p 1000) + s.loc.correction)
    let c := s.loc.counters
    (delta.toInt.natAbs ≤ s.params.captureWindow → ∃ ratio : Option Int,
      judgeTag s id age surveyed = offerNote
        (s.withLoc { s.loc with
          correction := s.loc.correction + delta, epoch := s.loc.epoch + 1, status := .confirmed
          previousTag := some { position := p, chainage := surveyed }
          counters := { c with accepted := c.accepted + 1 } })
        (.location s.run.id (.accepted id) delta (some s.loc.entryNumber) (s.loc.epoch + 1) .confirmed ratio)
      ∧ (s.loc.previousTag = none → ratio = none)
      ∧ ∀ q, s.loc.previousTag = some q →
          let m := roundDiv (p - q.position) 1000
          (m < 100000 → ratio = none)
          ∧ (100000 ≤ m → ratio = some (min 2147483647
              (roundDiv (((surveyed.toInt - q.chainage.toInt).natAbs - m) * 1000000) m.toNat))))
    ∧ (s.params.captureWindow < delta.toInt.natAbs →
      judgeTag s id age surveyed = offerNote
        (setEvent (s.withLoc { s.loc with status := .doubtful, counters := { c with rejected := c.rejected + 1 } })
          .locationRejected)
        (.location s.run.id (.rejected id) delta none s.loc.epoch .doubtful none))

/-! ### Exception detection (chapter 7) -/

/-- One channel of a station judged: what opens, extends and closes its exception. No other channel's exception changes.
An evaluated station judged: every open exception is first closed with LOCATION_STEP where its epoch differs from that of
the station before it; the channels are judged in channel order; the marking trigger is tested in channel order; the station
becomes the previous one. A mark is asked once for an exception whose severity has reached MARK_SEVERITY.
A channel is inactive where the entry of the station's class and the channel is disabled or the table is empty, where the
station carries SUPPRESS_ALL, and GAUGE where it carries SUPPRESS_GAUGE; else that entry judges it. A value lies outside a
used level below its lower or above its upper limit, and outside no other. -/
def Obligations.ChannelIsJudged : Prop :=
  (∀ (l : Level) (v : Int), l.outside v = true ↔ l.used = true ∧ (v < l.lower ∨ l.upper < v))
  ∧ (∀ (s : State) (e : EvaluatedStation) (ch : Channel),
      let channels : List Channel := [.gauge, .xlevel, .twist, .topL, .topR, .alignL, .alignR, .curv]
      let entry := fun th : Threshold =>
        th ∈ s.det.thresholds ∧ th.speedClass = e.speedClass ∧ channels[th.channel]? = some ch
      let suppressed := e.suppressAll = true ∨ (e.suppressGauge = true ∧ ch = .gauge)
      (suppressed → s.activeThreshold e ch = none)
      ∧ ((∀ th, ¬entry th) → s.activeThreshold e ch = none)
      ∧ (s.det.thresholds.Pairwise (fun x y => x.speedClass ≠ y.speedClass ∨ x.channel ≠ y.channel) → ∀ th, entry th →
          (th.enabled = false → s.activeThreshold e ch = none)
          ∧ (th.enabled = true → ¬suppressed → s.activeThreshold e ch = some th)))
  ∧ (∀ (e : EvaluatedStation) (s : State) (ch : Channel),
    let t := judgeChannel e s ch
    (∀ ch', ch' ≠ ch → t.det.opened.get ch' = s.det.opened.get ch')
    ∧ (s.activeThreshold e ch = none → t.det.opened.get ch = none
        ∧ (s.det.opened.get ch = none → t = s)
        ∧ ∀ x, s.det.opened.get ch = some x → t = closeException s ch x .suppressedEnd x.lastIncluded)
    ∧ (∀ th, s.activeThreshold e ch = some th →
        (s.det.opened.get ch = none → e.values.get ch = none → t = s)
        ∧ (∀ v, s.det.opened.get ch = none → e.values.get ch = some v →
            (th.level1.outside v = false → t = s)
            ∧ (th.level1.outside v = true → t.det.opened.get ch = some
                { runId := s.run.id, epoch := e.epoch, start := ⟨e.number, e.chainage, e.speedClass⟩
                  severity := if th.level3.outside v then 3 else if th.level2.outside v then 2 else 1
                  peak := ⟨e.number, e.chainage, v, e.speed, e.lineCode,
                    if th.level1.upper < v then v - th.level1.upper else th.level1.lower - v⟩
                  lastIncluded := ⟨e.number, e.chainage, e.speedClass⟩
                  lastNonVoid := ⟨e.number, e.chainage, e.speedClass⟩
                  voidCount := 0, doubtful := e.flags.doubtful, markAsked := false }))
        ∧ (∀ x, s.det.opened.get ch = some x → e.values.get ch = none →
            let y := { x with lastIncluded := ⟨e.number, e.chainage, e.speedClass⟩, voidCount := x.voidCount + 1
                              doubtful := x.doubtful || e.flags.doubtful }
            (x.voidCount + 1 < s.params.voidClose → t.det.opened.get ch = some y)
            ∧ (s.params.voidClose ≤ x.voidCount + 1 → t = closeException s ch y .voidEnd x.lastNonVoid))
        ∧ (∀ x v, s.det.opened.get ch = some x → e.values.get ch = some v →
            let y := { x with lastIncluded := ⟨e.number, e.chainage, e.speedClass⟩
                              lastNonVoid := ⟨e.number, e.chainage, e.speedClass⟩, voidCount := 0
                              doubtful := x.doubtful || e.flags.doubtful }
            let excess := if th.level1.upper < v then v - th.level1.upper else th.level1.lower - v
            (th.level1.outside v = true → t.det.opened.get ch = some { y with
              severity := max x.severity (if th.level3.outside v then 3 else if th.level2.outside v then 2 else 1)
              peak := if x.peak.excess < excess then ⟨e.number, e.chainage, v, e.speed, e.lineCode, excess⟩ else x.peak })
            ∧ (th.level1.outside v = false →
                (th.level1.lower + th.hysteresis ≤ v ∧ v ≤ th.level1.upper - th.hysteresis →
                  t = closeException s ch x .closingBand x.lastIncluded)
                ∧ (v < th.level1.lower + th.hysteresis ∨ th.level1.upper - th.hysteresis < v →
                  t.det.opened.get ch = some y)))))
  ∧ ((∀ (s : State) (e : EvaluatedStation),
    let channels : List Channel := [.gauge, .xlevel, .twist, .topL, .topR, .alignL, .alignR, .curv]
    let judged := fun u : State =>
      let v := channels.foldl (triggerMark e) (channels.foldl (judgeChannel e) u)
      v.withDet { v.det with previous := some { number := e.number, chainage := e.chainage, epoch := e.epoch } }
    (s.det.previous = none → judgeStation s e = judged s)
    ∧ ∀ q, s.det.previous = some q →
        (q.epoch = e.epoch → judgeStation s e = judged s)
        ∧ (q.epoch ≠ e.epoch → ∃ u, judgeStation s e = judged u ∧ u = closeAll s .locationStep
            ∧ ∀ ch, u.det.opened.get ch = none))
  ∧ (∀ (s : State) (cause : CloseCause) (ch : Channel),
      (s.det.opened.get ch = none → closeOpened s cause ch = s)
      ∧ ∀ x, s.det.opened.get ch = some x → closeOpened s cause ch = closeException s ch x cause x.lastIncluded)
  ∧ (∀ (s : State) (cause : CloseCause), closeAll s cause =
      [Channel.gauge, .xlevel, .twist, .topL, .topR, .alignL, .alignR, .curv].foldl (fun s ch => closeOpened s cause ch) s)
  ∧ ∀ (s : State) (e : EvaluatedStation) (ch : Channel),
      let asks := fun x : OpenException =>
        s.params.markSeverity ≠ 0 ∧ x.markAsked = false ∧ s.params.markSeverity ≤ x.severity
      (s.det.opened.get ch = none → triggerMark e s ch = s)
      ∧ ∀ x, s.det.opened.get ch = some x →
          (¬asks x → triggerMark e s ch = s)
          ∧ (asks x → (triggerMark e s ch).det.opened.get ch = some { x with markAsked := true }
              ∧ triggerMark e s ch = requestMark (s.withOpened ch (some { x with markAsked := true }))
                  { number := e.number, nominal := e.nominal, speed := e.speed, channel := ch }))

/-- A closed exception leaves the list. One shorter than its minimum length, below URGENT, is discarded and tallied; any
other is offered, and its record joins the queue or is refused into the overflow summary with EXCEPTION_OVERFLOW. The tally
and the summary's count are those of the record's own severity.
The minimum length is that of the channel's entry for the class of the end station, 0 where it is disabled or the table is
empty. The record holds its fields at the offsets of Table 11-8, an absent line code as 0 with its presence bit clear. -/
def Obligations.ClosedExceptionIsSettled : Prop :=
  (∀ (s : State) (ch : Channel) (last : Place),
      let channels : List Channel := [.gauge, .xlevel, .twist, .topL, .topR, .alignL, .alignR, .curv]
      let entry := fun th : Threshold =>
        th ∈ s.det.thresholds ∧ th.speedClass = last.speedClass ∧ channels[th.channel]? = some ch
      ((∀ th, ¬entry th) → s.minLength ch last = 0)
      ∧ (s.det.thresholds.Pairwise (fun x y => x.speedClass ≠ y.speedClass ∨ x.channel ≠ y.channel) → ∀ th, entry th →
          (th.enabled = true → s.minLength ch last = th.minLength) ∧ (th.enabled = false → s.minLength ch last = 0)))
  ∧ (∀ o : Overflow, o.counts = o.notice + o.action + o.urgent)
  ∧ (∀ (ch : Channel) (x : OpenException) (cause : CloseCause) (last : Place),
      let channels : List Channel := [.gauge, .xlevel, .twist, .topL, .topR, .alignL, .alignR, .curv]
      let p := exceptionPayload ch x cause last
      p.length = 42 ∧ byteAt p 0 = 1 ∧ halfAt p 1 = x.runId ∧ channels[(byteAt p 3).toNat]? = some ch
      ∧ byteAt p 4 = BitVec.ofNat 8 x.severity ∧ byteAt p 5 = x.epoch
      ∧ (List.range 8).map (byteAt p 6).getLsbD = [cause == .voidEnd, cause == .locationStep, cause == .runEnd,
          cause == .suppressedEnd, x.doubtful, x.peak.lineCode.isSome, false, false]
      ∧ wordAt p 7 = BitVec.ofNat 32 x.start.number ∧ wordAt p 11 = x.start.chainage
      ∧ wordAt p 15 = BitVec.ofNat 32 last.number ∧ wordAt p 19 = last.chainage
      ∧ wordAt p 23 = BitVec.ofNat 32 (last.number - x.start.number + 1)
      ∧ halfAt p 27 = BitVec.ofInt 16 x.peak.value ∧ wordAt p 29 = BitVec.ofNat 32 x.peak.number
      ∧ wordAt p 33 = x.peak.chainage ∧ halfAt p 37 = BitVec.ofNat 16 x.peak.speed
      ∧ byteAt p 39 = BitVec.ofNat 8 x.start.speedClass
      ∧ halfAt p 40 = (match x.peak.lineCode with | some code => code | none => 0))
  ∧ ∀ (s : State) (ch : Channel) (x : OpenException) (cause : CloseCause) (last : Place),
    let t := closeException s ch x cause last
    let length := last.number - x.start.number + 1
    let counts := (t.det.overflow.notice, t.det.overflow.action, t.det.overflow.urgent)
    t.det.opened.get ch = none ∧ (∀ ch', ch' ≠ ch → t.det.opened.get ch' = s.det.opened.get ch')
    ∧ (x.severity ≠ 3 → length < s.minLength ch last →
        t.det.queue = s.det.queue ∧ t.det.overflow = s.det.overflow ∧ t.status = s.status
        ∧ t.run.tallies = { s.run.tallies with discardedShort := s.run.tallies.discardedShort + 1 })
    ∧ (x.severity = 3 ∨ s.minLength ch last ≤ length →
        (s.det.queue.length < 64 → s.det.overflow.counts = 0 →
          t.det.queue = s.det.queue ++ [{ dst := s.params.recorder, src := s.link.ownAddr, kind := 0x21
                                          payload := exceptionPayload ch x cause last }]
          ∧ t.det.overflow = s.det.overflow ∧ t.status = s.status
          ∧ (x.severity = 1 → t.run.tallies = { s.run.tallies with emittedNotice := s.run.tallies.emittedNotice + 1 })
          ∧ (x.severity = 2 → t.run.tallies = { s.run.tallies with emittedAction := s.run.tallies.emittedAction + 1 })
          ∧ (x.severity = 3 → t.run.tallies = { s.run.tallies with emittedUrgent := s.run.tallies.emittedUrgent + 1 }))
        ∧ (64 ≤ s.det.queue.length ∨ s.det.overflow.counts ≠ 0 →
          t.det.queue = s.det.queue ∧ t.status.has .exceptionOverflow = true
          ∧ t.det.overflow.lastRun = x.runId ∧ t.det.overflow.lastStation = last.number
          ∧ (s.det.overflow.counts = 0 →
              t.det.overflow.firstRun = x.runId ∧ t.det.overflow.firstStation = x.start.number)
          ∧ (s.det.overflow.counts ≠ 0 → t.det.overflow.firstRun = s.det.overflow.firstRun
              ∧ t.det.overflow.firstStation = s.det.overflow.firstStation)
          ∧ (x.severity = 1 → counts = (min 65535 (s.det.overflow.notice + 1), s.det.overflow.action, s.det.overflow.urgent)
              ∧ t.run.tallies = { s.run.tallies with lostNotice := s.run.tallies.lostNotice + 1 })
          ∧ (x.severity = 2 → counts = (s.det.overflow.notice, min 65535 (s.det.overflow.action + 1), s.det.overflow.urgent)
              ∧ t.run.tallies = { s.run.tallies with lostAction := s.run.tallies.lostAction + 1 })
          ∧ (x.severity = 3 → counts = (s.det.overflow.notice, s.det.overflow.action, min 65535 (s.det.overflow.urgent + 1))
              ∧ t.run.tallies = { s.run.tallies with lostUrgent := s.run.tallies.lostUrgent + 1 })))

/-! ### Track marking (chapter 8) -/

/-- The side set by channel and direction; it is never empty. -/
def Obligations.MarkSidesByChannelAndDirection : Prop :=
  (∀ ch, ch = .topL ∨ ch = .alignL →
    sidesFor ch .increasing = ⟨true, false⟩ ∧ sidesFor ch .decreasing = ⟨false, true⟩)
  ∧ (∀ ch, ch = .topR ∨ ch = .alignR →
    sidesFor ch .increasing = ⟨false, true⟩ ∧ sidesFor ch .decreasing = ⟨true, false⟩)
  ∧ (∀ ch d, ch = .gauge ∨ ch = .xlevel ∨ ch = .twist ∨ ch = .curv → sidesFor ch d = ⟨true, true⟩)
  ∧ ∀ ch d, (sidesFor ch d).left = true ∨ (sidesFor ch d).right = true

/-- A mark request: dropped when its target does not lie ahead, merged into the nearest entry within MARK_SPACING, dropped
at a full queue, else inserted; the tallies count it as scheduled or dropped. -/
def Obligations.MarkRequestIsAdmittedOrDropped : Prop :=
  ∀ (s : State) (q : MarkRequest),
    let t := requestMark s q
    let target := BitVec.ofInt 64 (s.run.origin.toInt / 65536 + q.nominal + s.params.sprayOffset * 1000
      - roundDiv (q.speed * s.params.markLatency) 360)
    let sides := sidesFor q.channel s.run.direction
    let near := fun m : Mark => (ahead m.target target).natAbs ≤ s.params.markSpacing * 1000
    let outputsKept := t.mark.pulseL = s.mark.pulseL ∧ t.mark.pulseR = s.mark.pulseR ∧ t.mark.reached = s.mark.reached
    let droppedOne := outputsKept ∧ t.mark.queue = s.mark.queue ∧ t.mark.dropped = s.mark.dropped + 1
      ∧ t.run.tallies = { s.run.tallies with marksDropped := s.run.tallies.marksDropped + 1 }
      ∧ t.status.has .markDropped = true
    let scheduledOne := outputsKept ∧ t.mark.dropped = s.mark.dropped ∧ t.status = s.status
      ∧ t.run.tallies = { s.run.tallies with marksScheduled := s.run.tallies.marksScheduled + 1 }
    (ahead target s.odometerPosition ≤ 0 → droppedOne)
    ∧ (0 < ahead target s.odometerPosition →
        ((∃ m ∈ s.mark.queue, near m) → scheduledOne
          ∧ ∃ n ∈ s.mark.queue, near n ∧ (∀ m ∈ s.mark.queue, (ahead n.target target).natAbs ≤ (ahead m.target target).natAbs)
              ∧ (s.mark.queue.Pairwise (fun x y => 0 < ahead y.target x.target) → ∀ m ∈ s.mark.queue,
                  (ahead m.target target).natAbs = (ahead n.target target).natAbs → 0 ≤ ahead m.target n.target)
              ∧ t.mark.queue = s.mark.queue.map (fun m => if m.target = n.target
                  then { m with sides := ⟨m.sides.left || sides.left, m.sides.right || sides.right⟩ } else m))
        ∧ ((∀ m ∈ s.mark.queue, ¬ near m) →
            (16 ≤ s.mark.queue.length → droppedOne)
            ∧ (s.mark.queue.length < 16 → scheduledOne ∧ ∃ before after,
                s.mark.queue = before ++ after ∧ t.mark.queue = before ++ { target := target, sides := sides } :: after
                ∧ (∀ m ∈ before, ahead m.target target ≤ 0) ∧ (∀ m, after.head? = some m → 0 < ahead m.target target))))

/-! ### The output stream (chapter 9) -/

/-- A flushed batch joins the geometry queue whole, in one frame or two, when there is room and no gap is pending.
Otherwise it is refused whole into the gap, with GEOMETRY_GAP.
What an evaluated station does to the batch under construction. A batch of another epoch is flushed first. An all-void
station extends a last void run below 127; any other entry joins a batch of fewer than 16 entries; a station that cannot be
added has the batch flushed and opens the next. An opened batch takes the run id, the epoch and the station's number, and
starts the flush timer if it is off. A batch of 16 entries whose last is complete is flushed.
A frame holds its header and its entries, packed in station order, at the offsets of Table 11-7: a void run as its descriptor
alone, a station in 27 bytes with an absent line code as 0 and a void value as −32768. A flush empties the batch, and turns
the timer off unless an apply is pending; so the batch opened after a flush, on one event with it, starts the timer afresh
(the model's reading: log entry 11). -/
def Obligations.FlushedBatchJoinsOrIsRefused : Prop :=
  (∀ (run : Half) (epoch : Byte) (first part parts : Nat) (entries : List BatchEntry),
      let p := geometryPayload run epoch first part parts entries
      halfAt p 0 = run ∧ byteAt p 2 = epoch ∧ wordAt p 3 = BitVec.ofNat 32 first
      ∧ [7, 8, 9].map (byteAt p) = [BitVec.ofNat 8 part, BitVec.ofNat 8 parts, BitVec.ofNat 8 entries.length]
      ∧ 10 ≤ p.length ∧ p.drop 10 = (entries.map BatchEntry.bytes).flatten)
  ∧ (∀ n : Nat, 1 ≤ n → n ≤ 127 → ∃ d : Byte, BatchEntry.bytes (.voidRun n) = [d] ∧ d.getLsbD 7 = true
      ∧ (d.extractLsb' 0 7).toNat = n)
  ∧ (∀ (chainage : Word) (speed speedClass : Nat) (flags : StationFlags) (lineCode : Option Half)
      (values : PerChannel (Option Int)), let b := BatchEntry.bytes (.station chainage speed speedClass flags lineCode values)
      b.length = 27 ∧ byteAt b 0 = (if lineCode.isSome then 1 else 0) ∧ wordAt b 1 = chainage
      ∧ halfAt b 5 = BitVec.ofNat 16 speed ∧ byteAt b 7 = BitVec.ofNat 8 speedClass
      ∧ (List.range 8).map (byteAt b 8).getLsbD = [flags.speedUnknown, flags.skipped, flags.doubtful, flags.startOfRun,
          flags.endOfRun, flags.lowSpeed, flags.clipped, false]
      ∧ halfAt b 9 = (match lineCode with | some code => code | none => 0)
      ∧ ∀ (h : Nat) (ch : Channel), ([.gauge, .xlevel, .twist, .topL, .topR, .alignL, .alignR, .curv] : List Channel)[h]? = some ch →
          halfAt b (11 + 2 * h) = (match values.get ch with | some v => BitVec.ofInt 16 v | none => 0x8000))
  ∧ (∀ entries : List BatchEntry, covered entries = (entries.map fun | .station .. => 1 | .voidRun n => n).sum)
  ∧ (∀ s : State, (s.out.batch = none → flushBatch s = s)
      ∧ ∀ b, s.out.batch = some b → let t := offerBatch (s.withOut { s.out with batch := none }) b
        (s.req.staging.isPending = true → flushBatch s = t)
        ∧ (s.req.staging.isPending = false → flushBatch s = t.withOut { t.out with flush := none }))
  ∧ (∀ (s : State) (b : Batch), 1 ≤ b.entries.length → b.entries.length ≤ 16 →
    let t := offerBatch s b
    let frames : List Frame := (if b.entries.length ≤ 8 then [geometryPayload b.runId b.epoch b.first 1 1 b.entries]
      else [geometryPayload b.runId b.epoch b.first 1 2 (b.entries.take 8),
            geometryPayload b.runId b.epoch (b.first + covered (b.entries.take 8)) 2 2 (b.entries.drop 8)]).map
      fun p => { dst := s.params.recorder, src := s.link.ownAddr, kind := 0x20, payload := p }
    (s.out.geometry.length + frames.length ≤ 8 → s.out.gap = none →
      t = s.withOut { s.out with geometry := s.out.geometry ++ frames })
    ∧ (8 < s.out.geometry.length + frames.length ∨ s.out.gap ≠ none →
      t.out.geometry = s.out.geometry ∧ t.status.has .geometryGap = true
      ∧ ∃ g, t.out.gap = some g ∧ g.lastRun = b.runId ∧ g.lastStation = b.first + covered b.entries - 1
        ∧ (s.out.gap = none → g.firstRun = b.runId ∧ g.firstStation = b.first
            ∧ g.count = BitVec.ofNat 32 (covered b.entries))
        ∧ ∀ g', s.out.gap = some g' → g.firstRun = g'.firstRun ∧ g.firstStation = g'.firstStation
            ∧ g.count = g'.count + BitVec.ofNat 32 (covered b.entries)))
  ∧ (∀ (s : State) (e : EvaluatedStation),
    let t := composeStation s e
    let allVoid : Prop := ∀ ch, e.values.get ch = none
    let opened := fun (u : State) (entry : BatchEntry) =>
      u.withOut { u.out with
        batch := some { runId := u.run.id, epoch := e.epoch, first := e.number, entries := [entry] }
        flush := some (u.out.flush.getD (s.params.flushTime * 1000)) }
    ∃ entry : BatchEntry,
      (allVoid → entry = .voidRun 1)
      ∧ (¬allVoid → entry = .station e.chainage e.speed e.speedClass e.flags e.lineCode e.values)
      ∧ (s.out.batch = none → t = opened s entry)
      ∧ ∀ b, s.out.batch = some b → b.entries.length ≤ 16 →
          let grown := fun entries : List BatchEntry => s.withOut { s.out with batch := some { b with entries := entries } }
          let full := fun u : State => flushBatch u
          (b.epoch ≠ e.epoch → t = opened (full s) entry)
          ∧ (b.epoch = e.epoch →
              (∀ before n, b.entries = before ++ [.voidRun n] → allVoid → n < 127 →
                (b.entries.length = 16 ∧ n = 126 → t = full (grown (before ++ [.voidRun 127])))
                ∧ (b.entries.length < 16 ∨ n < 126 → t = grown (before ++ [.voidRun (n + 1)])))
              ∧ ((¬allVoid ∨ ∀ before n, b.entries = before ++ [.voidRun n] → 127 ≤ n) →
                (b.entries.length < 15 ∨ (b.entries.length = 15 ∧ allVoid) → t = grown (b.entries ++ [entry]))
                ∧ (b.entries.length = 15 → ¬allVoid → t = full (grown (b.entries ++ [entry])))
                ∧ (b.entries.length = 16 → t = opened (full s) entry))))

/-! ### Management (chapter 10) -/

/-- A response joins the tail of the response queue, addressed to the source of its request, with the request's tag and kind
(missing bytes taken as 0), the result code and the result's fields. An unknown kind, or a payload too short for tag and
kind, is answered UNKNOWN_REQUEST; a recognised request that does not fit its kind, BAD_PARAM. While the response queue has
no free place the request waits and its command changes nothing; a SET_CHAINAGE waits also for a drain that is ready.
Model's choices in it: log entries 1, 6, 23 (that drain comes first), 27 (a BAD_PARAM for a payload that does not fit holds
the common four bytes only), 28 (that BAD_PARAM also of a TABLE_OPEN, TABLE_APPLY or TABLE_ABORT while an apply is pending,
where R179 has every one answered BUSY). A TABLE_LINE that does not fit stands in `LoadsAreStaged`. The kinds of request,
their lengths and the result codes are those of Tables 11-4 and 11-5. -/
def Obligations.RequestsAreAnswered : Prop :=
  (∀ (kind : RequestKind) (code n : Nat), (kind, code, n) ∈ [(RequestKind.queryStatus, 1, 0), (.clearStatus, 2, 6),
        (.setParam, 3, 5), (.getParam, 4, 1), (.tableOpen, 5, 1), (.tableLine, 6, 3), (.tableApply, 7, 2), (.tableAbort, 8, 0),
        (.readEntry, 9, 3), (.runStart, 10, 7), (.runStop, 11, 0), (.setChainage, 12, 4), (.readCounters, 13, 2),
        (.softReset, 14, 0)] → ∀ p : List Byte,
      (requestKind p = kind ↔ 3 ≤ p.length ∧ (byteAt p 2).toNat = code)
      ∧ (requestConsistent kind p = true ↔ if kind = .tableLine then 3 + n ≤ p.length else p.length = 3 + n))
  ∧ ([ResultCode.done, .busy, .notRunning, .badParam, .badConfig, .unknownRequest, .noLoad, .lineOrder, .stagingFull, .stale,
      .applied, .empty, .countError, .orderError, .rangeError, .refusedRunning].map ResultCode.code = List.range 16)
  ∧ (∀ (s : State) (r : Frame) (code : ResultCode) (fields : List Byte),
    respond s r code fields = s.withReq { s.req with responses := s.req.responses ++
      [{ dst := r.src, src := s.link.ownAddr, kind := 0x11
         payload := [r.payload.getD 0 0, r.payload.getD 1 0, r.payload.getD 2 0, BitVec.ofNat 8 code.code] ++ fields }] })
  ∧ (∀ (s : State) (r : Frame) (rest : List Frame), s.req.intake = r :: rest → s.req.placesTaken < 4 →
      (r.payload.length < 3 ∨ (byteAt r.payload 2).toNat = 0 ∨ 14 < (byteAt r.payload 2).toNat) →
      exec .unknownRequest s = .next (settle (respond (s.takeRequest rest) r .unknownRequest [])))
  ∧ (∀ (s : State) (kind : RequestKind), 4 ≤ s.req.placesTaken → exec kind.command s = .next s)
  ∧ (∀ s : State, s.run.state = .draining → s.table = [] → exec .setChainage s = .next s)
  ∧ ∀ (s : State) (kind : RequestKind) (r : Frame) (rest : List Frame), s.Handles kind r rest →
      kind ≠ .unknown → kind ≠ .tableLine → requestConsistent kind r.payload = false →
      exec kind.command s = .next (settle (respond (s.takeRequest rest) r .badParam []))

/-- QUERY_STATUS, GET_PARAM, READ_ENTRY and READ_COUNTERS report what stands at the handling. They change nothing, but that
READ_COUNTERS with its clear flag sets the counters of its group, and no others, to 0; heads keep their state and counts.
Model's choices in it: log entries 1, 6. The fields of the reports, at the offsets of Table 11-6 from offset 4 of the
response: what QUERY_STATUS reports, and the counters of each group in the order of R175. The part revision is that of log
entry 22. An entry of an active table is reported in the layout of Table 11-10, a threshold entry that an empty table lacks
as a disabled one. -/
def Obligations.ReadingRequestsReport : Prop :=
  (∀ s : State, [Table.roster, .markerTags, .route, .thresholds].map s.activeCount
      = [s.heads.length, s.loc.tags.length, s.loc.route.length, s.det.thresholds.length])
  ∧ (∀ (s : State) (i : Nat) (h : Head), s.heads[i]? = some h → let x := h.cfg
      ∃ e, s.activeEntry .roster i = some e ∧ e.length = 19 ∧ byteAt e 0 = x.addr
      ∧ byteAt e 1 = (match x.role with | .leftProfile => 1 | .rightProfile => 2 | .bodyMotion => 3 | .tagReader => 4)
      ∧ byteAt e 2 = (match x.phase with | .even => 0 | .odd => 1 | .both => 2)
      ∧ halfAt e 3 = BitVec.ofNat 16 x.maxRate ∧ byteAt e 5 = BitVec.ofNat 8 x.maxReturns
      ∧ byteAt e 6 = BitVec.ofNat 8 x.minStrength
      ∧ [7, 11, 15].map (wordAt e) = [x.lateralOffset, x.verticalOffset, x.rollOffset].map (BitVec.ofInt 32))
  ∧ (∀ (s : State) (i : Nat) (x : TagEntry), s.loc.tags[i]? = some x →
      ∃ e, s.activeEntry .markerTags i = some e ∧ e.length = 8 ∧ wordAt e 0 = x.id ∧ wordAt e 4 = x.chainage)
  ∧ (∀ (s : State) (i : Nat) (x : Segment), s.loc.route[i]? = some x →
      ∃ e, s.activeEntry .route i = some e ∧ e.length = 20 ∧ wordAt e 0 = BitVec.ofInt 32 x.start
      ∧ wordAt e 4 = BitVec.ofNat 32 x.length
      ∧ [8, 10, 12, 14].map (halfAt e) = [x.cantStart, x.cantEnd, x.curvStart, x.curvEnd].map (BitVec.ofInt 16)
      ∧ byteAt e 16 = BitVec.ofNat 8 x.speedClass
      ∧ (List.range 8).map (byteAt e 17).getLsbD = [x.suppressGauge, x.suppressAll, false, false, false, false, false, false]
      ∧ halfAt e 18 = x.lineCode)
  ∧ (∀ (s : State) (i : Nat), i ≤ 47 → ∃ e, s.activeEntry .thresholds i = some e ∧ e.length = 18
      ∧ (s.det.thresholds[i]? = none → e = [BitVec.ofNat 8 (i / 8 + 1), BitVec.ofNat 8 (i % 8)] ++ List.replicate 16 0)
      ∧ ∀ x, s.det.thresholds[i]? = some x →
          byteAt e 0 = BitVec.ofNat 8 x.speedClass ∧ byteAt e 1 = BitVec.ofNat 8 x.channel
          ∧ (List.range 8).map (byteAt e 2).getLsbD =
              [x.enabled, x.level1.used, x.level2.used, x.level3.used, false, false, false, false]
          ∧ [3, 5, 7, 9, 11, 13, 15].map (halfAt e) = [x.level1.lower, x.level1.upper, x.level2.lower, x.level2.upper,
              x.level3.lower, x.level3.upper, x.hysteresis].map (BitVec.ofInt 16)
          ∧ byteAt e 17 = BitVec.ofNat 8 x.minLength)
  ∧ (∀ (s : State) (r : Frame) (rest : List Frame),
    let u := s.takeRequest rest
    (s.Handles .queryStatus r rest → r.payload.length = 3 →
      exec .queryStatus s = .next (settle (respond u r .done s.statusReport)))
    ∧ (s.Handles .getParam r rest → r.payload.length = 4 →
        (ParamId.ofCode (byteAt r.payload 3) = none →
          exec .getParam s = .next (settle (respond u r .badParam [])))
        ∧ (∀ id, ParamId.ofCode (byteAt r.payload 3) = some id →
          exec .getParam s = .next (settle (respond u r .done
            (byteAt r.payload 3 :: wordBytes (BitVec.ofInt 32 (s.params.get id)))))))
    ∧ (s.Handles .readEntry r rest → r.payload.length = 6 →
        let i := (halfAt r.payload 4).toNat
        (byteAt r.payload 3 = 0 ∨ 4 < (byteAt r.payload 3).toNat →
          exec .readEntry s = .next (settle (respond u r .badParam [])))
        ∧ (∀ T : Table, byteAt r.payload 3 = BitVec.ofNat 8 T.code →
          ((if T = .thresholds then 47 < i else s.activeCount T ≤ i) →
            exec .readEntry s = .next (settle (respond u r .badParam [])))
          ∧ (∀ entry, s.activeEntry T i = some entry →
            exec .readEntry s = .next (settle (respond u r .done
              ([byteAt r.payload 3, byteAt r.payload 4, byteAt r.payload 5] ++ nat16 (s.activeCount T) ++ entry))))))
    ∧ (s.Handles .readCounters r rest → r.payload.length = 5 →
        let clear := (byteAt r.payload 4).getLsbD 0
        (byteAt r.payload 3 = 0 ∨ 4 < (byteAt r.payload 3).toNat →
          exec .readCounters s = .next (settle (respond u r .badParam [])))
        ∧ (byteAt r.payload 3 = 1 → exec .readCounters s = .next (settle (respond
            (if clear then u.withLink { s.link with countersA := ⟨0, 0, 0, 0, 0⟩ } else u) r .done
            (1 :: s.counterReport .portA))))
        ∧ (byteAt r.payload 3 = 2 → exec .readCounters s = .next (settle (respond
            (if clear then u.withLink { s.link with countersB := ⟨0, 0, 0, 0, 0, 0⟩ } else u) r .done
            (2 :: s.counterReport .portB))))
        ∧ (byteAt r.payload 3 = 3 → exec .readCounters s = .next (settle (respond
            (if clear then u.withHeads (s.heads.map fun h =>
                { h with accepted := 0, late := 0, duplicate := 0, unasked := 0, malformed := 0, missed := 0 }) else u) r .done
            (3 :: s.counterReport .heads))))
        ∧ (byteAt r.payload 3 = 4 → exec .readCounters s = .next (settle (respond
            (if clear then ((u.withDist { s.dist with encoderErrors := 0, fired := 0, skipped := 0 }).withLoc
                { s.loc with counters := ⟨0, 0, 0, 0, 0, 0⟩ }).withMark { s.mark with reached := 0, dropped := 0 } else u)
            r .done (4 :: s.counterReport .run))))))
  ∧ (∀ s : State,
    let q := s.statusReport
    let dir : Int := if s.run.direction = .increasing then 1 else -1
    (q.length = 29
      ∧ byteAt q 0 = (match s.run.state with | .idle => 0 | .running => 1 | .suspended => 2 | .draining => 3)
      ∧ halfAt q 1 = s.run.id ∧ wordAt q 3 = BitVec.ofNat 32 s.dist.next
      ∧ wordAt q 7 = s.run.startChainage + BitVec.ofInt 32 (dir * roundDiv s.runDistance 1000) + s.loc.correction
      ∧ byteAt q 11 = (match s.loc.status with | .none => 0 | .set => 1 | .confirmed => 2 | .doubtful => 3)
      ∧ halfAt q 12 = (if s.dist.lastUnknown then 0 else BitVec.ofNat 16 s.dist.lastSpeed)
      ∧ byteAt q 14 = BitVec.ofNat 8 (s.link.upA.toNat + 2 * s.link.upB.toNat)
      ∧ halfAt q 15 = s.status.bits.setWidth 16 ∧ wordAt q 17 = s.status.generation
      ∧ (s.req.staging = .closed → byteAt q 21 = 0 ∧ byteAt q 22 = 0 ∧ halfAt q 23 = 0 ∧ halfAt q 25 = 0)
      ∧ (∀ T lines entries, s.req.staging = .opened T lines entries → byteAt q 21 = 1
          ∧ byteAt q 22 = BitVec.ofNat 8 T.code ∧ halfAt q 23 = BitVec.ofNat 16 lines
          ∧ halfAt q 25 = BitVec.ofNat 16 entries.length)
      ∧ (∀ T entries requester tag, s.req.staging = .pending T entries requester tag → byteAt q 21 = 2
          ∧ byteAt q 22 = BitVec.ofNat 8 T.code ∧ halfAt q 23 = 0 ∧ halfAt q 25 = 0)
      ∧ halfAt q 27 = 1)
    ∧ (let a := s.counterReport .portA
       a.length = 20 ∧ [0, 4, 8, 12, 16].map (wordAt a) = [s.link.countersA.received, s.link.countersA.errors,
        s.link.countersA.unknownSource, s.link.countersA.forwarded, s.link.countersA.forwardDrops])
    ∧ (let b := s.counterReport .portB
       b.length = 24 ∧ [0, 4, 8, 12, 16, 20].map (wordAt b) = [s.link.countersB.received, s.link.countersB.errors,
        s.link.countersB.wrongKind, s.link.countersB.forwarded, s.link.countersB.forwardDrops, s.link.countersB.intakeDrops])
    ∧ (let r := s.counterReport .run
       r.length = 44 ∧ [0, 4, 8, 12, 16, 20, 24, 28, 32, 36, 40].map (wordAt r) = [s.dist.encoderErrors, s.dist.fired,
        s.dist.skipped, s.loc.counters.accepted, s.loc.counters.rejected, s.loc.counters.stale, s.loc.counters.unknown,
        s.loc.counters.ignored, s.loc.counters.malformed, s.mark.reached, s.mark.dropped])
    ∧ (let c := s.counterReport .heads
       c.length = 1 + 28 * s.heads.length ∧ byteAt c 0 = BitVec.ofNat 8 s.heads.length
       ∧ ∀ i h, s.heads[i]? = some h → let o := 1 + 28 * i
          [0, 1, 2, 3].map (fun k => byteAt c (o + k)) =
              [h.cfg.addr, if h.active then 0 else 1, BitVec.ofNat 8 h.misses, BitVec.ofNat 8 h.recovery]
          ∧ [4, 8, 12, 16, 20, 24].map (fun k => wordAt c (o + k)) =
              [h.accepted, h.late, h.duplicate, h.unasked, h.malformed, h.missed]))

/-- CLEAR_STATUS clears the bits its mask names when its generation is the current one, and none otherwise; it never
changes the generation, and answers with the status after the handling. Model's choices in it: log entries 1, 6. -/
def Obligations.ClearStatusNeedsTheGeneration : Prop :=
  ∀ (s : State) (r : Frame) (rest : List Frame), s.Handles .clearStatus r rest → r.payload.length = 9 →
    (wordAt r.payload 5 = s.status.generation → ∃ bits : BitVec 11,
      (∀ i < 11, bits.getLsbD i = (s.status.bits.getLsbD i && !(halfAt r.payload 3).getLsbD i))
      ∧ exec .clearStatus s = .next (settle (respond
          ((s.takeRequest rest).withStatus { s.status with bits := bits }) r .done
          (halfBytes (bits.setWidth 16) ++ wordBytes s.status.generation))))
    ∧ (wordAt r.payload 5 ≠ s.status.generation →
      exec .clearStatus s = .next (settle (respond (s.takeRequest rest) r .stale
        (halfBytes (s.status.bits.setWidth 16) ++ wordBytes s.status.generation))))

/-- SET_PARAM: an unknown identity, a run-locked parameter outside IDLE, a value out of range, or the value taken,
with every other parameter as it was. Model's choices in it: log entries 1, 6.
The identities, ranges and run-locked parameters are those of Table 10-2. -/
def Obligations.SetParamIsJudgedInOrder : Prop :=
  (let rows : List (Nat × ParamId × Int × Int × Bool) := [
        (1, ParamId.recorderAddr, 0, 254, false), (2, .prioResponse, 1, 7, false), (3, .prioNote, 1, 7, false),
        (4, .prioException, 1, 7, false), (5, .prioGeometry, 1, 7, false), (6, .prioForward, 1, 7, false),
        (10, .encCpr, 400, 16384, true), (11, .wheelCirc, 2400000, 3600000, true), (12, .spacing, 125000, 500000, true),
        (20, .assemblyTimeout, 200, 20000, false), (21, .degradeCount, 1, 255, false),
        (22, .recoverCount, 1, 255, false), (23, .gaugeDepth, 0, 5000, true), (24, .gaugeWindow, 0, 2000, true),
        (30, .shortChord, 250, 127000, true), (31, .longChord, 250, 255000, true), (32, .twistBase, 125, 127500, true),
        (33, .nominalGauge, 100000, 200000, true), (34, .railSpacing, 140000, 160000, true),
        (35, .headHeight, 0, 100000, true), (36, .vMin, 0, 5000, false), (40, .tagOffset, -20000, 20000, true),
        (41, .captureWindow, 0, 100000, false), (42, .defaultClass, 1, 6, false), (50, .voidClose, 1, 64, false),
        (51, .markSeverity, 0, 3, false), (60, .sprayOffset, 0, 50000, false), (61, .markLatency, 0, 200000, false),
        (62, .markSpacing, 500, 20000, false), (63, .markPulse, 10, 500, false), (70, .flushTime, 10, 1000, false)];
      (∀ code id lo hi locked, (code, id, lo, hi, locked) ∈ rows →
        ParamId.ofCode (BitVec.ofNat 8 code) = some id ∧ id.runLocked = locked
        ∧ ∀ v, id.accepts v = true ↔ lo ≤ v ∧ v ≤ hi ∧ (id = .spacing → v = 125000 ∨ v = 250000 ∨ v = 500000))
      ∧ (∀ b : Byte, (∀ row ∈ rows, row.1 ≠ b.toNat) → ParamId.ofCode b = none)
      ∧ ∀ p : Params, rows.map (fun row => p.get row.2.1) = ([
          p.recorderAddr, p.prioResponse, p.prioNote, p.prioException, p.prioGeometry, p.prioForward, p.encCpr,
          p.wheelCirc, p.spacing, p.assemblyTimeout, p.degradeCount, p.recoverCount, p.gaugeDepth, p.gaugeWindow,
          p.shortChord, p.longChord, p.twistBase, p.nominalGauge, p.railSpacing, p.headHeight, p.vMin, p.tagOffset,
          p.captureWindow, p.defaultClass, p.voidClose, p.markSeverity, p.sprayOffset, p.markLatency, p.markSpacing,
          p.markPulse, p.flushTime] : List Int))
  ∧ ∀ (s : State) (r : Frame) (rest : List Frame), s.Handles .setParam r rest → r.payload.length = 8 →
    let u := s.takeRequest rest
    let v := (wordAt r.payload 4).toInt
    let fields := fun value : Int => byteAt r.payload 3 :: wordBytes (BitVec.ofInt 32 value)
    (ParamId.ofCode (byteAt r.payload 3) = none → exec .setParam s = .next (settle (respond u r .badParam [])))
    ∧ ∀ id, ParamId.ofCode (byteAt r.payload 3) = some id →
        (id.runLocked = true → s.run.state ≠ .idle →
          exec .setParam s = .next (settle (respond u r .busy (fields (s.params.get id)))))
        ∧ (id.runLocked = false ∨ s.run.state = .idle →
            (id.accepts v = false → exec .setParam s = .next (settle (respond u r .badParam (fields (s.params.get id)))))
            ∧ (id.accepts v = true → ∃ p : Params, p.get id = v ∧ (∀ id', id' ≠ id → p.get id' = s.params.get id')
                ∧ exec .setParam s = .next (settle (respond (u.withParams p) r .done (fields v)))))

/-- TABLE_OPEN and TABLE_ABORT by the state of staging; neither touches an active table. TABLE_LINE: refused whole by
the first step that applies, or its entries appended, each as long as the open table's entries are; the response then
carries the lines received and the entries held. Model's choices in it: log entries 1, 6,
17 (what a refused line's response carries, that to a line too short for its own fields included), 28 (BAD_PARAM while an
apply is pending too, for a TABLE_OPEN that names no table and a line too short for its own fields, where R179 has every one
answered BUSY).
The tables have the codes, entry sizes and capacities of Table 11-1, Table 11-10 and R176. -/
def Obligations.LoadsAreStaged : Prop :=
  ([Table.roster, .markerTags, .route, .thresholds].map (fun T => [T.code, T.entrySize, T.capacity])
      = [[1, 19, 6], [2, 8, 512], [3, 20, 1024], [4, 18, 48]])
  ∧ ∀ (s : State) (r : Frame) (rest : List Frame),
    let u := s.takeRequest rest
    (s.Handles .tableOpen r rest → r.payload.length = 4 →
      (byteAt r.payload 3 = 0 ∨ 4 < (byteAt r.payload 3).toNat →
        exec .tableOpen s = .next (settle (respond u r .badParam [])))
      ∧ ∀ T : Table, byteAt r.payload 3 = BitVec.ofNat 8 T.code →
          (s.req.staging ≠ .closed → exec .tableOpen s = .next (settle (respond u r .busy [])))
          ∧ (s.req.staging = .closed → T = .roster → s.run.state ≠ .idle →
              exec .tableOpen s = .next (settle (respond u r .refusedRunning [])))
          ∧ (s.req.staging = .closed → (T = .roster → s.run.state = .idle) →
              exec .tableOpen s = .next (settle (respond (u.withReq { u.req with staging := .opened T 0 [] }) r .done []))))
    ∧ (s.Handles .tableAbort r rest → r.payload.length = 3 →
      (∀ T lines entries, s.req.staging = .opened T lines entries →
        exec .tableAbort s = .next (settle (respond (u.withReq { u.req with staging := .closed }) r .done [])))
      ∧ (s.req.staging = .closed → exec .tableAbort s = .next (settle (respond u r .noLoad [])))
      ∧ (∀ T entries requester tag, s.req.staging = .pending T entries requester tag →
        exec .tableAbort s = .next (settle (respond u r .busy []))))
    ∧ (s.Handles .tableLine r rest → r.payload.length < 6 →
      exec .tableLine s = .next (settle (respond u r .badParam (match s.req.staging with
        | .opened _ lines entries => nat16 lines ++ nat16 entries.length
        | .closed | .pending .. => []))))
    ∧ (s.Handles .tableLine r rest → 6 ≤ r.payload.length →
    (s.req.staging = .closed → exec .tableLine s = .next (settle (respond u r .noLoad [])))
    ∧ (∀ T entries requester tag, s.req.staging = .pending T entries requester tag →
        exec .tableLine s = .next (settle (respond u r .busy [])))
    ∧ ∀ T lines entries, s.req.staging = .opened T lines entries →
        let count := (byteAt r.payload 5).toNat
        let refused := fun code : ResultCode =>
          exec .tableLine s = .next (settle (respond u r code (nat16 lines ++ nat16 entries.length)))
        let fits := 1 ≤ count ∧ count ≤ 8 ∧ r.payload.length = 6 + count * T.entrySize
        (¬fits → refused .badParam)
        ∧ (fits → (halfAt r.payload 3).toNat ≠ lines → refused .lineOrder)
        ∧ (fits → (halfAt r.payload 3).toNat = lines → T.capacity < entries.length + count → refused .stagingFull)
        ∧ (fits → (halfAt r.payload 3).toNat = lines → entries.length + count ≤ T.capacity → ∃ staged,
            staged.length = count ∧ (∀ e ∈ staged, e.length = T.entrySize)
            ∧ staged.flatten = r.payload.drop 6
            ∧ exec .tableLine s = .next (settle (respond
                (u.withReq { u.req with staging := .opened T (lines + 1) (entries ++ staged) }) r .done
                (nat16 (lines + 1) ++ nat16 (entries.length + count))))))

/-- TABLE_APPLY: the first step that holds gives the result; a table that passes is swapped in at once, or waits
PENDING with the flush timer running and no response yet. Model's choices in it: log entries 1, 6.
The order judgement passes strictly ascending addresses, tag ids, pairs of class and channel, and starts of segments that do
not reach into the next; the range judgement passes the values of each table's fields, the composition of a roster (R54) and
the bands of an enabled threshold entry (R126). Staged entries are read in the layouts of Table 11-10, a roster field that
the role does not use as 0, and a pair of class and channel with no staged entry becomes a disabled entry. -/
def Obligations.TableApplyIsJudgedInOrder : Prop :=
  (∀ entries : List (List Byte),
      (orderJudged .roster entries = true ↔ entries.Pairwise fun a b => (byteAt a 0).toNat < (byteAt b 0).toNat)
      ∧ (orderJudged .markerTags entries = true ↔ entries.Pairwise fun a b => (wordAt a 0).toNat < (wordAt b 0).toNat)
      ∧ (orderJudged .route entries = true ↔ ∀ i a b, entries[i]? = some a → entries[i + 1]? = some b →
          (wordAt a 0).toInt < (wordAt b 0).toInt ∧ (wordAt a 0).toInt + (wordAt a 4).toNat ≤ (wordAt b 0).toInt)
      ∧ (orderJudged .thresholds entries = true ↔ entries.Pairwise fun a b => (byteAt a 0).toNat < (byteAt b 0).toNat
          ∨ ((byteAt a 0).toNat = (byteAt b 0).toNat ∧ (byteAt a 1).toNat < (byteAt b 1).toNat)))
  ∧ (∀ entries : List (List Byte),
      let role := fun b : List Byte => (byteAt b 1).toNat
      let phases := fun code : Nat => (entries.filter fun b => role b == code).map fun b => (byteAt b 2).toNat
      rangeJudged .roster entries = true ↔
        (∀ b ∈ entries, 0x20 ≤ (byteAt b 0).toNat ∧ (byteAt b 0).toNat ≤ 0x7F ∧ 1 ≤ role b ∧ role b ≤ 4
          ∧ (role b ≠ 4 → (byteAt b 2).toNat ≤ 2 ∧ 50 ≤ (halfAt b 3).toNat ∧ (halfAt b 3).toNat ≤ 2000
              ∧ (wordAt b 7).toInt.natAbs ≤ 50000 ∧ (wordAt b 11).toInt.natAbs ≤ 50000)
          ∧ (role b = 3 → (wordAt b 15).toInt.natAbs ≤ 50000)
          ∧ (role b = 1 ∨ role b = 2 → 1 ≤ (byteAt b 5).toNat ∧ (byteAt b 5).toNat ≤ 8))
        ∧ (∀ rail ∈ [1, 2], phases rail ∈ [[], [2], [0, 1], [1, 0]]) ∧ phases 3 ∈ [[], [2]] ∧ (phases 4).length ≤ 1)
  ∧ (∀ entries : List (List Byte), rangeJudged .markerTags entries = true
      ∧ (rangeJudged .route entries = true ↔ ∀ b ∈ entries,
          1 ≤ (wordAt b 4).toNat ∧ (wordAt b 4).toNat ≤ 10000000
          ∧ (∀ o ∈ [8, 10, 12, 14], -20000 ≤ (halfAt b o).toInt ∧ (halfAt b o).toInt ≤ 20000)
          ∧ 1 ≤ (byteAt b 16).toNat ∧ (byteAt b 16).toNat ≤ 6 ∧ (∀ i < 8, 2 ≤ i → (byteAt b 17).getLsbD i = false)
          ∧ (wordAt b 0).toInt + (wordAt b 4).toNat ≤ 2147483648)
      ∧ (rangeJudged .thresholds entries = true ↔ ∀ b ∈ entries,
          1 ≤ (byteAt b 0).toNat ∧ (byteAt b 0).toNat ≤ 6 ∧ (byteAt b 1).toNat ≤ 7 ∧ (halfAt b 15).toNat ≤ 32767
          ∧ (∀ o ∈ [3, 5, 7, 9, 11, 13], -32767 ≤ (halfAt b o).toInt)
          ∧ ((byteAt b 2).getLsbD 0 = true →
              let used := fun level : Nat => (byteAt b 2).getLsbD level = true
              let lower := fun level : Nat => (halfAt b (4 * level - 1)).toInt
              let upper := fun level : Nat => (halfAt b (4 * level + 1)).toInt
              used 1 ∧ (used 3 → used 2) ∧ lower 1 < upper 1 ∧ (used 2 → lower 2 ≤ lower 1 ∧ upper 1 ≤ upper 2)
              ∧ (used 3 → lower 3 ≤ lower 2 ∧ upper 2 ≤ upper 3) ∧ 2 * (halfAt b 15).toNat < upper 1 - lower 1)))
  ∧ (∀ b : List Byte,
      let at_ : Role → Phase → RosterEntry := fun role phase =>
        { addr := byteAt b 0, role := role, phase := phase, maxRate := (halfAt b 3).toNat, maxReturns := (byteAt b 5).toNat
          minStrength := (byteAt b 6).toNat, lateralOffset := (wordAt b 7).toInt, verticalOffset := (wordAt b 11).toInt
          rollOffset := (wordAt b 15).toInt }
      (byteAt b 1 = 4 → RosterEntry.read b = some
          { addr := byteAt b 0, role := .tagReader, phase := .even, maxRate := 0, maxReturns := 0, minStrength := 0
            lateralOffset := 0, verticalOffset := 0, rollOffset := 0 })
      ∧ (∀ code phase, (code, phase) ∈ [((0 : Byte), Phase.even), (1, .odd), (2, .both)] → byteAt b 2 = code →
          (byteAt b 1 = 1 → RosterEntry.read b = some { at_ .leftProfile phase with rollOffset := 0 })
          ∧ (byteAt b 1 = 2 → RosterEntry.read b = some { at_ .rightProfile phase with rollOffset := 0 })
          ∧ (byteAt b 1 = 3 → RosterEntry.read b = some { at_ .bodyMotion phase with maxReturns := 0, minStrength := 0 }))
      ∧ TagEntry.read b = { id := wordAt b 0, chainage := wordAt b 4 }
      ∧ Segment.read b =
          { start := (wordAt b 0).toInt, length := (wordAt b 4).toNat, cantStart := (halfAt b 8).toInt
            cantEnd := (halfAt b 10).toInt, curvStart := (halfAt b 12).toInt, curvEnd := (halfAt b 14).toInt
            speedClass := (byteAt b 16).toNat, suppressGauge := (byteAt b 17).getLsbD 0
            suppressAll := (byteAt b 17).getLsbD 1, lineCode := halfAt b 18 }
      ∧ Threshold.read b =
          { speedClass := (byteAt b 0).toNat, channel := (byteAt b 1).toNat, enabled := (byteAt b 2).getLsbD 0
            level1 := ⟨(byteAt b 2).getLsbD 1, (halfAt b 3).toInt, (halfAt b 5).toInt⟩
            level2 := ⟨(byteAt b 2).getLsbD 2, (halfAt b 7).toInt, (halfAt b 9).toInt⟩
            level3 := ⟨(byteAt b 2).getLsbD 3, (halfAt b 11).toInt, (halfAt b 13).toInt⟩
            hysteresis := (halfAt b 15).toNat, minLength := (byteAt b 17).toNat })
  ∧ (∀ staged : List Threshold, let table := thresholdTable staged
      (staged = [] → table = []) ∧ (staged ≠ [] → table.length = 48
        ∧ ∀ i < 48, let same := fun x : Threshold => x.speedClass = i / 8 + 1 ∧ x.channel = i % 8
          (staged.Pairwise (fun x y => x.speedClass ≠ y.speedClass ∨ x.channel ≠ y.channel) →
            ∀ x ∈ staged, same x → table[i]? = some x)
          ∧ ((∀ x ∈ staged, ¬same x) → table[i]? = some
              { speedClass := i / 8 + 1, channel := i % 8, enabled := false, level1 := ⟨false, 0, 0⟩
                level2 := ⟨false, 0, 0⟩, level3 := ⟨false, 0, 0⟩, hysteresis := 0, minLength := 0 })))
  ∧ ∀ (s : State) (r : Frame) (rest : List Frame), s.Handles .tableApply r rest → r.payload.length = 5 →
    let u := s.takeRequest rest
    (s.req.staging = .closed → exec .tableApply s = .next (settle (respond u r .noLoad [])))
    ∧ (∀ T entries requester tag, s.req.staging = .pending T entries requester tag →
        exec .tableApply s = .next (settle (respond u r .busy [])))
    ∧ ∀ T lines entries, s.req.staging = .opened T lines entries →
        let expected := (halfAt r.payload 3).toNat
        let refused := fun code : ResultCode => exec .tableApply s = .next (settle (respond u r code []))
        let passes := (lines = 0 → expected = 0) ∧ expected = entries.length ∧ orderJudged T entries = true
          ∧ rangeJudged T entries = true ∧ (T = .roster → s.run.state = .idle)
        (lines = 0 → expected ≠ 0 → refused .empty)
        ∧ ((lines = 0 → expected = 0) → expected ≠ entries.length → refused .countError)
        ∧ ((lines = 0 → expected = 0) → expected = entries.length → orderJudged T entries = false → refused .orderError)
        ∧ ((lines = 0 → expected = 0) → expected = entries.length → orderJudged T entries = true →
            rangeJudged T entries = false → refused .rangeError)
        ∧ ((lines = 0 → expected = 0) → expected = entries.length → orderJudged T entries = true →
            rangeJudged T entries = true → T = .roster → s.run.state ≠ .idle → refused .refusedRunning)
        ∧ (passes → (T = .roster ∨ T = .markerTags ∨ s.run.state = .idle ∨ s.run.state = .suspended) → ∃ w : State,
            exec .tableApply s = .next (settle (respond w r .applied (BitVec.ofNat 8 T.code :: nat16 (w.activeCount T))))
            ∧ w.req = { u.req with staging := .closed }
            ∧ (T = .roster → w.heads.map (·.cfg) = entries.filterMap RosterEntry.read
                ∧ (∀ h ∈ w.heads, h = { cfg := h.cfg }) ∧ u.ChangesOnly [.staging, .heads] w)
            ∧ (T = .markerTags → w.loc.tags = entries.map TagEntry.read ∧ u.ChangesOnly [.staging, .tags] w)
            ∧ (T = .route → w.loc.route = entries.map Segment.read ∧ u.ChangesOnly [.staging, .route] w)
            ∧ (T = .thresholds → w.det.thresholds = thresholdTable (entries.map Threshold.read)
                ∧ u.ChangesOnly [.staging, .thresholds] w))
        ∧ (passes → (T = .route ∨ T = .thresholds) → (s.run.state = .running ∨ s.run.state = .draining) →
            exec .tableApply s = .next (settle
              ((u.withReq { u.req with staging := .pending T entries r.src (halfAt r.payload 0) }).withOut
                { s.out with flush := some (s.out.flush.getD (s.params.flushTime * 1000)) })))

end Statements
end

