-- ==== Sys2Proof/Laws/Fields.lean ====
section
/-! SUPPORT. What reading a field at an offset gives in a string of fields written one behind the other (R183). With the
number fields unfolded to `halfBytes` and `wordBytes`, `simp` reads any field of a layout by these. -/

namespace Sys2Proof.Machine

/-! ### Two halves joined -/

theorem extract_append {m n : Nat} (w : BitVec (m + n)) : w.extractLsb' n m ++ w.extractLsb' 0 n = w := by
  apply BitVec.eq_of_getLsbD_eq
  intro i hi
  rw [BitVec.getLsbD_append]
  by_cases h : i < n
  · simp [h]
  · simp only [BitVec.getLsbD_extractLsb', h, if_false, show n + (i - n) = i by omega]
    simp only [show i - n < m by omega, decide_true, Bool.true_and]

theorem halfBytes_eq (h : Half) : halfBytes h = [h.extractLsb' 8 8, h.extractLsb' 0 8] := rfl

theorem wordBytes_eq (w : Word) :
    wordBytes w = [w.extractLsb' 24 8, w.extractLsb' 16 8, w.extractLsb' 8 8, w.extractLsb' 0 8] := by
  simp only [wordBytes, halfBytes, List.cons_append, List.nil_append, List.cons.injEq, and_true]
  refine ⟨?_, ?_, ?_, ?_⟩ <;>
  · apply BitVec.eq_of_getLsbD_eq
    intro i hi
    simp only [BitVec.getLsbD_extractLsb', ← Nat.add_assoc, Nat.reduceAdd, Nat.zero_add]
    simp only [show i < 8 from hi, show i < 16 by omega, show 8 + i < 16 by omega, decide_true, Bool.true_and]

@[simp] theorem halfBytes_length (h : Half) : (halfBytes h).length = 2 := rfl
@[simp] theorem wordBytes_length (w : Word) : (wordBytes w).length = 4 := rfl

/-! ### A field at the front -/

@[simp] theorem byteAt_cons_zero (x : Byte) (l : List Byte) : byteAt (x :: l) 0 = x := rfl
@[simp] theorem halfAt_halfBytes (h : Half) (l : List Byte) : halfAt (halfBytes h ++ l) 0 = h :=
  extract_append (m := 8) (n := 8) h
@[simp] theorem halfAt_halfBytes_nil (h : Half) : halfAt (halfBytes h) 0 = h := extract_append (m := 8) (n := 8) h

@[simp] theorem wordAt_wordBytes (w : Word) (l : List Byte) : wordAt (wordBytes w ++ l) 0 = w := by
  show halfAt (halfBytes _ ++ (halfBytes _ ++ l)) 0 ++ halfAt (halfBytes _ ++ l) 0 = w
  rw [halfAt_halfBytes, halfAt_halfBytes]
  exact extract_append (m := 16) (n := 16) w

@[simp] theorem wordAt_wordBytes_nil (w : Word) : wordAt (wordBytes w) 0 = w := by
  simpa only [List.append_nil] using wordAt_wordBytes w []

theorem dword_join (d : DWord) : d.extractLsb' 32 32 ++ d.extractLsb' 0 32 = d := extract_append (m := 32) (n := 32) d

/-! ### A field behind another -/

@[simp] theorem byteAt_cons (x : Byte) (l : List Byte) (i : Nat) : byteAt (x :: l) (i + 1) = byteAt l i := rfl
@[simp] theorem halfAt_cons (x : Byte) (l : List Byte) (i : Nat) : halfAt (x :: l) (i + 1) = halfAt l i := rfl
@[simp] theorem wordAt_cons (x : Byte) (l : List Byte) (i : Nat) : wordAt (x :: l) (i + 1) = wordAt l i := rfl
@[simp] theorem byteAt_halfBytes (h : Half) (l : List Byte) (i : Nat) : byteAt (halfBytes h ++ l) (i + 2) = byteAt l i := rfl
@[simp] theorem halfAt_behind_half (h : Half) (l : List Byte) (i : Nat) : halfAt (halfBytes h ++ l) (i + 2) = halfAt l i := rfl
@[simp] theorem wordAt_behind_half (h : Half) (l : List Byte) (i : Nat) : wordAt (halfBytes h ++ l) (i + 2) = wordAt l i := rfl
@[simp] theorem byteAt_wordBytes (w : Word) (l : List Byte) (i : Nat) : byteAt (wordBytes w ++ l) (i + 4) = byteAt l i := rfl
@[simp] theorem halfAt_behind_word (w : Word) (l : List Byte) (i : Nat) : halfAt (wordBytes w ++ l) (i + 4) = halfAt l i := rfl
@[simp] theorem wordAt_behind_word (w : Word) (l : List Byte) (i : Nat) : wordAt (wordBytes w ++ l) (i + 4) = wordAt l i := rfl

end Sys2Proof.Machine
end

