-- ==== Sys2Proof/Laws/State.lean ====
section
/-! SUPPORT. The updates of the state: what each changes and what it leaves, field by field. -/

namespace Sys2Proof.Machine.State

variable (s : State)

/-! ### `withTime` -/

@[simp] theorem withTime_time (x : Word) : (s.withTime x).time = x := rfl
@[simp] theorem withTime_link (x : Word) : (s.withTime x).link = s.link := rfl
@[simp] theorem withTime_run (x : Word) : (s.withTime x).run = s.run := rfl
@[simp] theorem withTime_params (x : Word) : (s.withTime x).params = s.params := rfl
@[simp] theorem withTime_dist (x : Word) : (s.withTime x).dist = s.dist := rfl
@[simp] theorem withTime_heads (x : Word) : (s.withTime x).heads = s.heads := rfl
@[simp] theorem withTime_table (x : Word) : (s.withTime x).table = s.table := rfl
@[simp] theorem withTime_ring (x : Word) : (s.withTime x).ring = s.ring := rfl
@[simp] theorem withTime_loc (x : Word) : (s.withTime x).loc = s.loc := rfl
@[simp] theorem withTime_det (x : Word) : (s.withTime x).det = s.det := rfl
@[simp] theorem withTime_mark (x : Word) : (s.withTime x).mark = s.mark := rfl
@[simp] theorem withTime_out (x : Word) : (s.withTime x).out = s.out := rfl
@[simp] theorem withTime_status (x : Word) : (s.withTime x).status = s.status := rfl
@[simp] theorem withTime_req (x : Word) : (s.withTime x).req = s.req := rfl
@[simp] theorem withTime_pending (x : Word) : (s.withTime x).pending = s.pending := rfl
@[simp] theorem withTime_draws (x : Word) : (s.withTime x).draws = s.draws := rfl
@[simp] theorem withTime_withTime (x y : Word) : (s.withTime x).withTime y = s.withTime y := rfl

/-! ### `withLink` -/

@[simp] theorem withLink_time (x : Link) : (s.withLink x).time = s.time := rfl
@[simp] theorem withLink_link (x : Link) : (s.withLink x).link = x := rfl
@[simp] theorem withLink_run (x : Link) : (s.withLink x).run = s.run := rfl
@[simp] theorem withLink_params (x : Link) : (s.withLink x).params = s.params := rfl
@[simp] theorem withLink_dist (x : Link) : (s.withLink x).dist = s.dist := rfl
@[simp] theorem withLink_heads (x : Link) : (s.withLink x).heads = s.heads := rfl
@[simp] theorem withLink_table (x : Link) : (s.withLink x).table = s.table := rfl
@[simp] theorem withLink_ring (x : Link) : (s.withLink x).ring = s.ring := rfl
@[simp] theorem withLink_loc (x : Link) : (s.withLink x).loc = s.loc := rfl
@[simp] theorem withLink_det (x : Link) : (s.withLink x).det = s.det := rfl
@[simp] theorem withLink_mark (x : Link) : (s.withLink x).mark = s.mark := rfl
@[simp] theorem withLink_out (x : Link) : (s.withLink x).out = s.out := rfl
@[simp] theorem withLink_status (x : Link) : (s.withLink x).status = s.status := rfl
@[simp] theorem withLink_req (x : Link) : (s.withLink x).req = s.req := rfl
@[simp] theorem withLink_pending (x : Link) : (s.withLink x).pending = s.pending := rfl
@[simp] theorem withLink_draws (x : Link) : (s.withLink x).draws = s.draws := rfl
@[simp] theorem withLink_withLink (x y : Link) : (s.withLink x).withLink y = s.withLink y := rfl

/-! ### `withRun` -/

@[simp] theorem withRun_time (x : Run) : (s.withRun x).time = s.time := rfl
@[simp] theorem withRun_link (x : Run) : (s.withRun x).link = s.link := rfl
@[simp] theorem withRun_run (x : Run) : (s.withRun x).run = x := rfl
@[simp] theorem withRun_params (x : Run) : (s.withRun x).params = s.params := rfl
@[simp] theorem withRun_dist (x : Run) : (s.withRun x).dist = s.dist := rfl
@[simp] theorem withRun_heads (x : Run) : (s.withRun x).heads = s.heads := rfl
@[simp] theorem withRun_table (x : Run) : (s.withRun x).table = s.table := rfl
@[simp] theorem withRun_ring (x : Run) : (s.withRun x).ring = s.ring := rfl
@[simp] theorem withRun_loc (x : Run) : (s.withRun x).loc = s.loc := rfl
@[simp] theorem withRun_det (x : Run) : (s.withRun x).det = s.det := rfl
@[simp] theorem withRun_mark (x : Run) : (s.withRun x).mark = s.mark := rfl
@[simp] theorem withRun_out (x : Run) : (s.withRun x).out = s.out := rfl
@[simp] theorem withRun_status (x : Run) : (s.withRun x).status = s.status := rfl
@[simp] theorem withRun_req (x : Run) : (s.withRun x).req = s.req := rfl
@[simp] theorem withRun_pending (x : Run) : (s.withRun x).pending = s.pending := rfl
@[simp] theorem withRun_draws (x : Run) : (s.withRun x).draws = s.draws := rfl
@[simp] theorem withRun_withRun (x y : Run) : (s.withRun x).withRun y = s.withRun y := rfl

/-! ### `withParams` -/

@[simp] theorem withParams_time (x : Params) : (s.withParams x).time = s.time := rfl
@[simp] theorem withParams_link (x : Params) : (s.withParams x).link = s.link := rfl
@[simp] theorem withParams_run (x : Params) : (s.withParams x).run = s.run := rfl
@[simp] theorem withParams_params (x : Params) : (s.withParams x).params = x := rfl
@[simp] theorem withParams_dist (x : Params) : (s.withParams x).dist = s.dist := rfl
@[simp] theorem withParams_heads (x : Params) : (s.withParams x).heads = s.heads := rfl
@[simp] theorem withParams_table (x : Params) : (s.withParams x).table = s.table := rfl
@[simp] theorem withParams_ring (x : Params) : (s.withParams x).ring = s.ring := rfl
@[simp] theorem withParams_loc (x : Params) : (s.withParams x).loc = s.loc := rfl
@[simp] theorem withParams_det (x : Params) : (s.withParams x).det = s.det := rfl
@[simp] theorem withParams_mark (x : Params) : (s.withParams x).mark = s.mark := rfl
@[simp] theorem withParams_out (x : Params) : (s.withParams x).out = s.out := rfl
@[simp] theorem withParams_status (x : Params) : (s.withParams x).status = s.status := rfl
@[simp] theorem withParams_req (x : Params) : (s.withParams x).req = s.req := rfl
@[simp] theorem withParams_pending (x : Params) : (s.withParams x).pending = s.pending := rfl
@[simp] theorem withParams_draws (x : Params) : (s.withParams x).draws = s.draws := rfl
@[simp] theorem withParams_withParams (x y : Params) : (s.withParams x).withParams y = s.withParams y := rfl

/-! ### `withDist` -/

@[simp] theorem withDist_time (x : Distance) : (s.withDist x).time = s.time := rfl
@[simp] theorem withDist_link (x : Distance) : (s.withDist x).link = s.link := rfl
@[simp] theorem withDist_run (x : Distance) : (s.withDist x).run = s.run := rfl
@[simp] theorem withDist_params (x : Distance) : (s.withDist x).params = s.params := rfl
@[simp] theorem withDist_dist (x : Distance) : (s.withDist x).dist = x := rfl
@[simp] theorem withDist_heads (x : Distance) : (s.withDist x).heads = s.heads := rfl
@[simp] theorem withDist_table (x : Distance) : (s.withDist x).table = s.table := rfl
@[simp] theorem withDist_ring (x : Distance) : (s.withDist x).ring = s.ring := rfl
@[simp] theorem withDist_loc (x : Distance) : (s.withDist x).loc = s.loc := rfl
@[simp] theorem withDist_det (x : Distance) : (s.withDist x).det = s.det := rfl
@[simp] theorem withDist_mark (x : Distance) : (s.withDist x).mark = s.mark := rfl
@[simp] theorem withDist_out (x : Distance) : (s.withDist x).out = s.out := rfl
@[simp] theorem withDist_status (x : Distance) : (s.withDist x).status = s.status := rfl
@[simp] theorem withDist_req (x : Distance) : (s.withDist x).req = s.req := rfl
@[simp] theorem withDist_pending (x : Distance) : (s.withDist x).pending = s.pending := rfl
@[simp] theorem withDist_draws (x : Distance) : (s.withDist x).draws = s.draws := rfl
@[simp] theorem withDist_withDist (x y : Distance) : (s.withDist x).withDist y = s.withDist y := rfl

/-! ### `withHeads` -/

@[simp] theorem withHeads_time (x : List Head) : (s.withHeads x).time = s.time := rfl
@[simp] theorem withHeads_link (x : List Head) : (s.withHeads x).link = s.link := rfl
@[simp] theorem withHeads_run (x : List Head) : (s.withHeads x).run = s.run := rfl
@[simp] theorem withHeads_params (x : List Head) : (s.withHeads x).params = s.params := rfl
@[simp] theorem withHeads_dist (x : List Head) : (s.withHeads x).dist = s.dist := rfl
@[simp] theorem withHeads_heads (x : List Head) : (s.withHeads x).heads = x := rfl
@[simp] theorem withHeads_table (x : List Head) : (s.withHeads x).table = s.table := rfl
@[simp] theorem withHeads_ring (x : List Head) : (s.withHeads x).ring = s.ring := rfl
@[simp] theorem withHeads_loc (x : List Head) : (s.withHeads x).loc = s.loc := rfl
@[simp] theorem withHeads_det (x : List Head) : (s.withHeads x).det = s.det := rfl
@[simp] theorem withHeads_mark (x : List Head) : (s.withHeads x).mark = s.mark := rfl
@[simp] theorem withHeads_out (x : List Head) : (s.withHeads x).out = s.out := rfl
@[simp] theorem withHeads_status (x : List Head) : (s.withHeads x).status = s.status := rfl
@[simp] theorem withHeads_req (x : List Head) : (s.withHeads x).req = s.req := rfl
@[simp] theorem withHeads_pending (x : List Head) : (s.withHeads x).pending = s.pending := rfl
@[simp] theorem withHeads_draws (x : List Head) : (s.withHeads x).draws = s.draws := rfl
@[simp] theorem withHeads_withHeads (x y : List Head) : (s.withHeads x).withHeads y = s.withHeads y := rfl

/-! ### `withTable` -/

@[simp] theorem withTable_time (x : List PendingStation) : (s.withTable x).time = s.time := rfl
@[simp] theorem withTable_link (x : List PendingStation) : (s.withTable x).link = s.link := rfl
@[simp] theorem withTable_run (x : List PendingStation) : (s.withTable x).run = s.run := rfl
@[simp] theorem withTable_params (x : List PendingStation) : (s.withTable x).params = s.params := rfl
@[simp] theorem withTable_dist (x : List PendingStation) : (s.withTable x).dist = s.dist := rfl
@[simp] theorem withTable_heads (x : List PendingStation) : (s.withTable x).heads = s.heads := rfl
@[simp] theorem withTable_table (x : List PendingStation) : (s.withTable x).table = x := rfl
@[simp] theorem withTable_ring (x : List PendingStation) : (s.withTable x).ring = s.ring := rfl
@[simp] theorem withTable_loc (x : List PendingStation) : (s.withTable x).loc = s.loc := rfl
@[simp] theorem withTable_det (x : List PendingStation) : (s.withTable x).det = s.det := rfl
@[simp] theorem withTable_mark (x : List PendingStation) : (s.withTable x).mark = s.mark := rfl
@[simp] theorem withTable_out (x : List PendingStation) : (s.withTable x).out = s.out := rfl
@[simp] theorem withTable_status (x : List PendingStation) : (s.withTable x).status = s.status := rfl
@[simp] theorem withTable_req (x : List PendingStation) : (s.withTable x).req = s.req := rfl
@[simp] theorem withTable_pending (x : List PendingStation) : (s.withTable x).pending = s.pending := rfl
@[simp] theorem withTable_draws (x : List PendingStation) : (s.withTable x).draws = s.draws := rfl
@[simp] theorem withTable_withTable (x y : List PendingStation) : (s.withTable x).withTable y = s.withTable y := rfl

/-! ### `withRing` -/

@[simp] theorem withRing_time (x : Ring) : (s.withRing x).time = s.time := rfl
@[simp] theorem withRing_link (x : Ring) : (s.withRing x).link = s.link := rfl
@[simp] theorem withRing_run (x : Ring) : (s.withRing x).run = s.run := rfl
@[simp] theorem withRing_params (x : Ring) : (s.withRing x).params = s.params := rfl
@[simp] theorem withRing_dist (x : Ring) : (s.withRing x).dist = s.dist := rfl
@[simp] theorem withRing_heads (x : Ring) : (s.withRing x).heads = s.heads := rfl
@[simp] theorem withRing_table (x : Ring) : (s.withRing x).table = s.table := rfl
@[simp] theorem withRing_ring (x : Ring) : (s.withRing x).ring = x := rfl
@[simp] theorem withRing_loc (x : Ring) : (s.withRing x).loc = s.loc := rfl
@[simp] theorem withRing_det (x : Ring) : (s.withRing x).det = s.det := rfl
@[simp] theorem withRing_mark (x : Ring) : (s.withRing x).mark = s.mark := rfl
@[simp] theorem withRing_out (x : Ring) : (s.withRing x).out = s.out := rfl
@[simp] theorem withRing_status (x : Ring) : (s.withRing x).status = s.status := rfl
@[simp] theorem withRing_req (x : Ring) : (s.withRing x).req = s.req := rfl
@[simp] theorem withRing_pending (x : Ring) : (s.withRing x).pending = s.pending := rfl
@[simp] theorem withRing_draws (x : Ring) : (s.withRing x).draws = s.draws := rfl
@[simp] theorem withRing_withRing (x y : Ring) : (s.withRing x).withRing y = s.withRing y := rfl

/-! ### `withLoc` -/

@[simp] theorem withLoc_time (x : Location) : (s.withLoc x).time = s.time := rfl
@[simp] theorem withLoc_link (x : Location) : (s.withLoc x).link = s.link := rfl
@[simp] theorem withLoc_run (x : Location) : (s.withLoc x).run = s.run := rfl
@[simp] theorem withLoc_params (x : Location) : (s.withLoc x).params = s.params := rfl
@[simp] theorem withLoc_dist (x : Location) : (s.withLoc x).dist = s.dist := rfl
@[simp] theorem withLoc_heads (x : Location) : (s.withLoc x).heads = s.heads := rfl
@[simp] theorem withLoc_table (x : Location) : (s.withLoc x).table = s.table := rfl
@[simp] theorem withLoc_ring (x : Location) : (s.withLoc x).ring = s.ring := rfl
@[simp] theorem withLoc_loc (x : Location) : (s.withLoc x).loc = x := rfl
@[simp] theorem withLoc_det (x : Location) : (s.withLoc x).det = s.det := rfl
@[simp] theorem withLoc_mark (x : Location) : (s.withLoc x).mark = s.mark := rfl
@[simp] theorem withLoc_out (x : Location) : (s.withLoc x).out = s.out := rfl
@[simp] theorem withLoc_status (x : Location) : (s.withLoc x).status = s.status := rfl
@[simp] theorem withLoc_req (x : Location) : (s.withLoc x).req = s.req := rfl
@[simp] theorem withLoc_pending (x : Location) : (s.withLoc x).pending = s.pending := rfl
@[simp] theorem withLoc_draws (x : Location) : (s.withLoc x).draws = s.draws := rfl
@[simp] theorem withLoc_withLoc (x y : Location) : (s.withLoc x).withLoc y = s.withLoc y := rfl

/-! ### `withDet` -/

@[simp] theorem withDet_time (x : Detector) : (s.withDet x).time = s.time := rfl
@[simp] theorem withDet_link (x : Detector) : (s.withDet x).link = s.link := rfl
@[simp] theorem withDet_run (x : Detector) : (s.withDet x).run = s.run := rfl
@[simp] theorem withDet_params (x : Detector) : (s.withDet x).params = s.params := rfl
@[simp] theorem withDet_dist (x : Detector) : (s.withDet x).dist = s.dist := rfl
@[simp] theorem withDet_heads (x : Detector) : (s.withDet x).heads = s.heads := rfl
@[simp] theorem withDet_table (x : Detector) : (s.withDet x).table = s.table := rfl
@[simp] theorem withDet_ring (x : Detector) : (s.withDet x).ring = s.ring := rfl
@[simp] theorem withDet_loc (x : Detector) : (s.withDet x).loc = s.loc := rfl
@[simp] theorem withDet_det (x : Detector) : (s.withDet x).det = x := rfl
@[simp] theorem withDet_mark (x : Detector) : (s.withDet x).mark = s.mark := rfl
@[simp] theorem withDet_out (x : Detector) : (s.withDet x).out = s.out := rfl
@[simp] theorem withDet_status (x : Detector) : (s.withDet x).status = s.status := rfl
@[simp] theorem withDet_req (x : Detector) : (s.withDet x).req = s.req := rfl
@[simp] theorem withDet_pending (x : Detector) : (s.withDet x).pending = s.pending := rfl
@[simp] theorem withDet_draws (x : Detector) : (s.withDet x).draws = s.draws := rfl
@[simp] theorem withDet_withDet (x y : Detector) : (s.withDet x).withDet y = s.withDet y := rfl

/-! ### `withMark` -/

@[simp] theorem withMark_time (x : Marking) : (s.withMark x).time = s.time := rfl
@[simp] theorem withMark_link (x : Marking) : (s.withMark x).link = s.link := rfl
@[simp] theorem withMark_run (x : Marking) : (s.withMark x).run = s.run := rfl
@[simp] theorem withMark_params (x : Marking) : (s.withMark x).params = s.params := rfl
@[simp] theorem withMark_dist (x : Marking) : (s.withMark x).dist = s.dist := rfl
@[simp] theorem withMark_heads (x : Marking) : (s.withMark x).heads = s.heads := rfl
@[simp] theorem withMark_table (x : Marking) : (s.withMark x).table = s.table := rfl
@[simp] theorem withMark_ring (x : Marking) : (s.withMark x).ring = s.ring := rfl
@[simp] theorem withMark_loc (x : Marking) : (s.withMark x).loc = s.loc := rfl
@[simp] theorem withMark_det (x : Marking) : (s.withMark x).det = s.det := rfl
@[simp] theorem withMark_mark (x : Marking) : (s.withMark x).mark = x := rfl
@[simp] theorem withMark_out (x : Marking) : (s.withMark x).out = s.out := rfl
@[simp] theorem withMark_status (x : Marking) : (s.withMark x).status = s.status := rfl
@[simp] theorem withMark_req (x : Marking) : (s.withMark x).req = s.req := rfl
@[simp] theorem withMark_pending (x : Marking) : (s.withMark x).pending = s.pending := rfl
@[simp] theorem withMark_draws (x : Marking) : (s.withMark x).draws = s.draws := rfl
@[simp] theorem withMark_withMark (x y : Marking) : (s.withMark x).withMark y = s.withMark y := rfl

/-! ### `withOut` -/

@[simp] theorem withOut_time (x : Composer) : (s.withOut x).time = s.time := rfl
@[simp] theorem withOut_link (x : Composer) : (s.withOut x).link = s.link := rfl
@[simp] theorem withOut_run (x : Composer) : (s.withOut x).run = s.run := rfl
@[simp] theorem withOut_params (x : Composer) : (s.withOut x).params = s.params := rfl
@[simp] theorem withOut_dist (x : Composer) : (s.withOut x).dist = s.dist := rfl
@[simp] theorem withOut_heads (x : Composer) : (s.withOut x).heads = s.heads := rfl
@[simp] theorem withOut_table (x : Composer) : (s.withOut x).table = s.table := rfl
@[simp] theorem withOut_ring (x : Composer) : (s.withOut x).ring = s.ring := rfl
@[simp] theorem withOut_loc (x : Composer) : (s.withOut x).loc = s.loc := rfl
@[simp] theorem withOut_det (x : Composer) : (s.withOut x).det = s.det := rfl
@[simp] theorem withOut_mark (x : Composer) : (s.withOut x).mark = s.mark := rfl
@[simp] theorem withOut_out (x : Composer) : (s.withOut x).out = x := rfl
@[simp] theorem withOut_status (x : Composer) : (s.withOut x).status = s.status := rfl
@[simp] theorem withOut_req (x : Composer) : (s.withOut x).req = s.req := rfl
@[simp] theorem withOut_pending (x : Composer) : (s.withOut x).pending = s.pending := rfl
@[simp] theorem withOut_draws (x : Composer) : (s.withOut x).draws = s.draws := rfl
@[simp] theorem withOut_withOut (x y : Composer) : (s.withOut x).withOut y = s.withOut y := rfl

/-! ### `withStatus` -/

@[simp] theorem withStatus_time (x : Status) : (s.withStatus x).time = s.time := rfl
@[simp] theorem withStatus_link (x : Status) : (s.withStatus x).link = s.link := rfl
@[simp] theorem withStatus_run (x : Status) : (s.withStatus x).run = s.run := rfl
@[simp] theorem withStatus_params (x : Status) : (s.withStatus x).params = s.params := rfl
@[simp] theorem withStatus_dist (x : Status) : (s.withStatus x).dist = s.dist := rfl
@[simp] theorem withStatus_heads (x : Status) : (s.withStatus x).heads = s.heads := rfl
@[simp] theorem withStatus_table (x : Status) : (s.withStatus x).table = s.table := rfl
@[simp] theorem withStatus_ring (x : Status) : (s.withStatus x).ring = s.ring := rfl
@[simp] theorem withStatus_loc (x : Status) : (s.withStatus x).loc = s.loc := rfl
@[simp] theorem withStatus_det (x : Status) : (s.withStatus x).det = s.det := rfl
@[simp] theorem withStatus_mark (x : Status) : (s.withStatus x).mark = s.mark := rfl
@[simp] theorem withStatus_out (x : Status) : (s.withStatus x).out = s.out := rfl
@[simp] theorem withStatus_status (x : Status) : (s.withStatus x).status = x := rfl
@[simp] theorem withStatus_req (x : Status) : (s.withStatus x).req = s.req := rfl
@[simp] theorem withStatus_pending (x : Status) : (s.withStatus x).pending = s.pending := rfl
@[simp] theorem withStatus_draws (x : Status) : (s.withStatus x).draws = s.draws := rfl
@[simp] theorem withStatus_withStatus (x y : Status) : (s.withStatus x).withStatus y = s.withStatus y := rfl

/-! ### `withReq` -/

@[simp] theorem withReq_time (x : Requests) : (s.withReq x).time = s.time := rfl
@[simp] theorem withReq_link (x : Requests) : (s.withReq x).link = s.link := rfl
@[simp] theorem withReq_run (x : Requests) : (s.withReq x).run = s.run := rfl
@[simp] theorem withReq_params (x : Requests) : (s.withReq x).params = s.params := rfl
@[simp] theorem withReq_dist (x : Requests) : (s.withReq x).dist = s.dist := rfl
@[simp] theorem withReq_heads (x : Requests) : (s.withReq x).heads = s.heads := rfl
@[simp] theorem withReq_table (x : Requests) : (s.withReq x).table = s.table := rfl
@[simp] theorem withReq_ring (x : Requests) : (s.withReq x).ring = s.ring := rfl
@[simp] theorem withReq_loc (x : Requests) : (s.withReq x).loc = s.loc := rfl
@[simp] theorem withReq_det (x : Requests) : (s.withReq x).det = s.det := rfl
@[simp] theorem withReq_mark (x : Requests) : (s.withReq x).mark = s.mark := rfl
@[simp] theorem withReq_out (x : Requests) : (s.withReq x).out = s.out := rfl
@[simp] theorem withReq_status (x : Requests) : (s.withReq x).status = s.status := rfl
@[simp] theorem withReq_req (x : Requests) : (s.withReq x).req = x := rfl
@[simp] theorem withReq_pending (x : Requests) : (s.withReq x).pending = s.pending := rfl
@[simp] theorem withReq_draws (x : Requests) : (s.withReq x).draws = s.draws := rfl
@[simp] theorem withReq_withReq (x y : Requests) : (s.withReq x).withReq y = s.withReq y := rfl

/-! ### `withPending` -/

@[simp] theorem withPending_time (x : List Instr) : (s.withPending x).time = s.time := rfl
@[simp] theorem withPending_link (x : List Instr) : (s.withPending x).link = s.link := rfl
@[simp] theorem withPending_run (x : List Instr) : (s.withPending x).run = s.run := rfl
@[simp] theorem withPending_params (x : List Instr) : (s.withPending x).params = s.params := rfl
@[simp] theorem withPending_dist (x : List Instr) : (s.withPending x).dist = s.dist := rfl
@[simp] theorem withPending_heads (x : List Instr) : (s.withPending x).heads = s.heads := rfl
@[simp] theorem withPending_table (x : List Instr) : (s.withPending x).table = s.table := rfl
@[simp] theorem withPending_ring (x : List Instr) : (s.withPending x).ring = s.ring := rfl
@[simp] theorem withPending_loc (x : List Instr) : (s.withPending x).loc = s.loc := rfl
@[simp] theorem withPending_det (x : List Instr) : (s.withPending x).det = s.det := rfl
@[simp] theorem withPending_mark (x : List Instr) : (s.withPending x).mark = s.mark := rfl
@[simp] theorem withPending_out (x : List Instr) : (s.withPending x).out = s.out := rfl
@[simp] theorem withPending_status (x : List Instr) : (s.withPending x).status = s.status := rfl
@[simp] theorem withPending_req (x : List Instr) : (s.withPending x).req = s.req := rfl
@[simp] theorem withPending_pending (x : List Instr) : (s.withPending x).pending = x := rfl
@[simp] theorem withPending_draws (x : List Instr) : (s.withPending x).draws = s.draws := rfl
@[simp] theorem withPending_withPending (x y : List Instr) : (s.withPending x).withPending y = s.withPending y := rfl

/-! ### `withDraws` -/

@[simp] theorem withDraws_time (x : Nat) : (s.withDraws x).time = s.time := rfl
@[simp] theorem withDraws_link (x : Nat) : (s.withDraws x).link = s.link := rfl
@[simp] theorem withDraws_run (x : Nat) : (s.withDraws x).run = s.run := rfl
@[simp] theorem withDraws_params (x : Nat) : (s.withDraws x).params = s.params := rfl
@[simp] theorem withDraws_dist (x : Nat) : (s.withDraws x).dist = s.dist := rfl
@[simp] theorem withDraws_heads (x : Nat) : (s.withDraws x).heads = s.heads := rfl
@[simp] theorem withDraws_table (x : Nat) : (s.withDraws x).table = s.table := rfl
@[simp] theorem withDraws_ring (x : Nat) : (s.withDraws x).ring = s.ring := rfl
@[simp] theorem withDraws_loc (x : Nat) : (s.withDraws x).loc = s.loc := rfl
@[simp] theorem withDraws_det (x : Nat) : (s.withDraws x).det = s.det := rfl
@[simp] theorem withDraws_mark (x : Nat) : (s.withDraws x).mark = s.mark := rfl
@[simp] theorem withDraws_out (x : Nat) : (s.withDraws x).out = s.out := rfl
@[simp] theorem withDraws_status (x : Nat) : (s.withDraws x).status = s.status := rfl
@[simp] theorem withDraws_req (x : Nat) : (s.withDraws x).req = s.req := rfl
@[simp] theorem withDraws_pending (x : Nat) : (s.withDraws x).pending = s.pending := rfl
@[simp] theorem withDraws_draws (x : Nat) : (s.withDraws x).draws = x := rfl
@[simp] theorem withDraws_withDraws (x y : Nat) : (s.withDraws x).withDraws y = s.withDraws y := rfl

/-! ### `withRunState` -/

@[simp] theorem withRunState_time (x : RunState) : (s.withRunState x).time = s.time := rfl
@[simp] theorem withRunState_link (x : RunState) : (s.withRunState x).link = s.link := rfl
@[simp] theorem withRunState_run (x : RunState) : (s.withRunState x).run = { s.run with state := x } := rfl
@[simp] theorem withRunState_params (x : RunState) : (s.withRunState x).params = s.params := rfl
@[simp] theorem withRunState_dist (x : RunState) : (s.withRunState x).dist = s.dist := rfl
@[simp] theorem withRunState_heads (x : RunState) : (s.withRunState x).heads = s.heads := rfl
@[simp] theorem withRunState_table (x : RunState) : (s.withRunState x).table = s.table := rfl
@[simp] theorem withRunState_ring (x : RunState) : (s.withRunState x).ring = s.ring := rfl
@[simp] theorem withRunState_loc (x : RunState) : (s.withRunState x).loc = s.loc := rfl
@[simp] theorem withRunState_det (x : RunState) : (s.withRunState x).det = s.det := rfl
@[simp] theorem withRunState_mark (x : RunState) : (s.withRunState x).mark = s.mark := rfl
@[simp] theorem withRunState_out (x : RunState) : (s.withRunState x).out = s.out := rfl
@[simp] theorem withRunState_status (x : RunState) : (s.withRunState x).status = s.status := rfl
@[simp] theorem withRunState_req (x : RunState) : (s.withRunState x).req = s.req := rfl
@[simp] theorem withRunState_pending (x : RunState) : (s.withRunState x).pending = s.pending := rfl
@[simp] theorem withRunState_draws (x : RunState) : (s.withRunState x).draws = s.draws := rfl

/-! ### `withTallies` -/

@[simp] theorem withTallies_time (x : Tallies) : (s.withTallies x).time = s.time := rfl
@[simp] theorem withTallies_link (x : Tallies) : (s.withTallies x).link = s.link := rfl
@[simp] theorem withTallies_run (x : Tallies) : (s.withTallies x).run = { s.run with tallies := x } := rfl
@[simp] theorem withTallies_params (x : Tallies) : (s.withTallies x).params = s.params := rfl
@[simp] theorem withTallies_dist (x : Tallies) : (s.withTallies x).dist = s.dist := rfl
@[simp] theorem withTallies_heads (x : Tallies) : (s.withTallies x).heads = s.heads := rfl
@[simp] theorem withTallies_table (x : Tallies) : (s.withTallies x).table = s.table := rfl
@[simp] theorem withTallies_ring (x : Tallies) : (s.withTallies x).ring = s.ring := rfl
@[simp] theorem withTallies_loc (x : Tallies) : (s.withTallies x).loc = s.loc := rfl
@[simp] theorem withTallies_det (x : Tallies) : (s.withTallies x).det = s.det := rfl
@[simp] theorem withTallies_mark (x : Tallies) : (s.withTallies x).mark = s.mark := rfl
@[simp] theorem withTallies_out (x : Tallies) : (s.withTallies x).out = s.out := rfl
@[simp] theorem withTallies_status (x : Tallies) : (s.withTallies x).status = s.status := rfl
@[simp] theorem withTallies_req (x : Tallies) : (s.withTallies x).req = s.req := rfl
@[simp] theorem withTallies_pending (x : Tallies) : (s.withTallies x).pending = s.pending := rfl
@[simp] theorem withTallies_draws (x : Tallies) : (s.withTallies x).draws = s.draws := rfl

/-! ### The passing of time -/

@[simp] theorem elapse_run (n : Nat) : (elapse n s).run = s.run := rfl
@[simp] theorem elapse_params (n : Nat) : (elapse n s).params = s.params := rfl
@[simp] theorem elapse_dist (n : Nat) : (elapse n s).dist = s.dist := rfl
@[simp] theorem elapse_heads (n : Nat) : (elapse n s).heads = s.heads := rfl
@[simp] theorem elapse_table (n : Nat) : (elapse n s).table = s.table := rfl
@[simp] theorem elapse_ring (n : Nat) : (elapse n s).ring = s.ring := rfl
@[simp] theorem elapse_loc (n : Nat) : (elapse n s).loc = s.loc := rfl
@[simp] theorem elapse_det (n : Nat) : (elapse n s).det = s.det := rfl
@[simp] theorem elapse_status (n : Nat) : (elapse n s).status = s.status := rfl
@[simp] theorem elapse_req (n : Nat) : (elapse n s).req = s.req := rfl
@[simp] theorem elapse_pending (n : Nat) : (elapse n s).pending = s.pending := rfl
@[simp] theorem elapse_draws (n : Nat) : (elapse n s).draws = s.draws := rfl
@[simp] theorem elapse_time (n : Nat) : (elapse n s).time = s.time + BitVec.ofNat 32 n := rfl
@[simp] theorem elapse_link_ownAddr (n : Nat) : (elapse n s).link.ownAddr = s.link.ownAddr := rfl
@[simp] theorem elapse_link_upA (n : Nat) : (elapse n s).link.upA = s.link.upA := rfl
@[simp] theorem elapse_link_upB (n : Nat) : (elapse n s).link.upB = s.link.upB := rfl
@[simp] theorem elapse_link_lineA (n : Nat) : (elapse n s).link.lineA = s.link.lineA := rfl
@[simp] theorem elapse_link_lineB (n : Nat) : (elapse n s).link.lineB = s.link.lineB := rfl
@[simp] theorem elapse_link_fires (n : Nat) : (elapse n s).link.fires = s.link.fires := rfl
@[simp] theorem elapse_link_forwardAB (n : Nat) : (elapse n s).link.forwardAB = s.link.forwardAB := rfl
@[simp] theorem elapse_link_forwardBA (n : Nat) : (elapse n s).link.forwardBA = s.link.forwardBA := rfl
@[simp] theorem elapse_link_countersA (n : Nat) : (elapse n s).link.countersA = s.link.countersA := rfl
@[simp] theorem elapse_link_countersB (n : Nat) : (elapse n s).link.countersB = s.link.countersB := rfl
@[simp] theorem elapse_link_pause (n : Nat) : (elapse n s).link.pause = countDown n s.link.pause := rfl
@[simp] theorem elapse_mark_queue (n : Nat) : (elapse n s).mark.queue = s.mark.queue := rfl
@[simp] theorem elapse_mark_reached (n : Nat) : (elapse n s).mark.reached = s.mark.reached := rfl
@[simp] theorem elapse_mark_dropped (n : Nat) : (elapse n s).mark.dropped = s.mark.dropped := rfl
@[simp] theorem elapse_mark_pulseL (n : Nat) : (elapse n s).mark.pulseL = countDown n s.mark.pulseL := rfl
@[simp] theorem elapse_mark_pulseR (n : Nat) : (elapse n s).mark.pulseR = countDown n s.mark.pulseR := rfl
@[simp] theorem elapse_out_batch (n : Nat) : (elapse n s).out.batch = s.out.batch := rfl
@[simp] theorem elapse_out_gap (n : Nat) : (elapse n s).out.gap = s.out.gap := rfl
@[simp] theorem elapse_out_geometry (n : Nat) : (elapse n s).out.geometry = s.out.geometry := rfl
@[simp] theorem elapse_out_events (n : Nat) : (elapse n s).out.events = s.out.events := rfl
@[simp] theorem elapse_out_flush (n : Nat) : (elapse n s).out.flush = countDown n s.out.flush := rfl

end Sys2Proof.Machine.State
end

