-- ==== Sys2Proof/Laws/Frames.lean ====
section
/-! SUPPORT. Frames: the calculus of `ChangesOnly`, and what each shared operation leaves unchanged. -/

namespace Sys2Proof.Machine

/-! ### The calculus -/

namespace State

theorem Agrees.refl (s : State) (r : Region) : s.Agrees s r := by
  cases r <;> simp [State.Agrees]

theorem Agrees.trans {s t u : State} {r : Region} (h : s.Agrees t r) (h' : t.Agrees u r) : s.Agrees u r := by
  cases r <;> simp_all [State.Agrees]

theorem ChangesOnly.refl (s : State) (l : List Region) : s.ChangesOnly l s := fun r _ => Agrees.refl s r

theorem ChangesOnly.trans {s t u : State} {l : List Region} (h : s.ChangesOnly l t) (h' : t.ChangesOnly l u) :
    s.ChangesOnly l u := fun r hr => (h r hr).trans (h' r hr)

theorem ChangesOnly.mono {s t : State} {l l' : List Region} (h : s.ChangesOnly l t) (sub : l ⊆ l') :
    s.ChangesOnly l' t := fun r hr => h r fun hl => hr (sub hl)

/-- A frame of `s` read as one of a later state. -/
theorem ChangesOnly.then {s t u : State} {l l' : List Region} (h : s.ChangesOnly l t) (h' : t.ChangesOnly l' u)
    (sub : l' ⊆ l) : s.ChangesOnly l u := h.trans (h'.mono sub)

theorem ChangesOnly.ite {s t u : State} {l : List Region} {c : Prop} [Decidable c] (h : s.ChangesOnly l t)
    (h' : s.ChangesOnly l u) : s.ChangesOnly l (if c then t else u) := by
  split
  · exact h
  · exact h'

/-- A fold of an operation with a frame has that frame. -/
theorem ChangesOnly.foldl {α : Type} {l : List Region} (f : State → α → State)
    (h : ∀ (s : State) a, s.ChangesOnly l (f s a)) :
    ∀ (as : List α) (s : State), s.ChangesOnly l (as.foldl f s)
  | [], s => .refl s l
  | a :: as, s => (h s a).trans (foldl f h as (f s a))

end State

/-! ### Notes, set events, time, transmission -/

theorem offerNote_changes (s : State) (n : Note) : s.ChangesOnly Region.noted (offerNote s n) := by
  intro r hr
  unfold offerNote
  split <;> cases r <;> first | exact rfl | exact ⟨rfl, rfl⟩ | exact ⟨rfl, rfl, rfl⟩ | exact ⟨rfl, rfl, rfl, rfl⟩ | exact (hr (by decide)).elim

theorem withStatus_changes (s : State) (x : Status) : s.ChangesOnly Region.noted (s.withStatus x) := by
  intro r hr
  cases r <;> first | exact rfl | exact ⟨rfl, rfl⟩ | exact ⟨rfl, rfl, rfl⟩ | exact ⟨rfl, rfl, rfl, rfl⟩ | exact (hr (by decide)).elim

theorem setEvent_changes (s : State) (b : StickyBit) : s.ChangesOnly Region.noted (setEvent s b) := by
  unfold setEvent
  exact .ite (withStatus_changes _ _) ((withStatus_changes _ _).trans (offerNote_changes _ _))

theorem elapse_changes (n : Nat) (s : State) : s.ChangesOnly Region.timed (elapse n s) := by
  intro r hr
  cases r <;> first | exact rfl | exact ⟨rfl, rfl⟩ | exact ⟨rfl, rfl, rfl⟩ | exact ⟨rfl, rfl, rfl, rfl⟩ | exact (hr (by decide)).elim

theorem respond_changes (s : State) (r : Frame) (code : ResultCode) (fields : List Byte) :
    s.ChangesOnly [.responses] (respond s r code fields) := by
  intro r hr
  unfold respond
  cases r <;> first | exact rfl | exact ⟨rfl, rfl⟩ | exact ⟨rfl, rfl, rfl⟩ | exact ⟨rfl, rfl, rfl, rfl⟩ | exact (hr (by decide)).elim

theorem issueFire_changes (s : State) (f : Frame) : s.ChangesOnly [.fires] (issueFire s f) := by
  intro r hr
  unfold issueFire
  split <;> cases r <;> first | exact rfl | exact ⟨rfl, rfl⟩ | exact ⟨rfl, rfl, rfl⟩ | exact ⟨rfl, rfl, rfl, rfl⟩ | exact (hr (by decide)).elim

theorem chooseA_changes (s : State) : s.ChangesOnly [.lineA, .fires, .forwardBA] (chooseA s) := by
  intro r hr
  unfold chooseA
  split
  · split <;> cases r <;> first | exact rfl | exact ⟨rfl, rfl⟩ | exact ⟨rfl, rfl, rfl⟩ | exact ⟨rfl, rfl, rfl, rfl⟩ | exact (hr (by decide)).elim
  · exact .refl _ _

theorem reportOverflow_changes (s : State) : s.ChangesOnly [.exceptionQueue, .overflow] (reportOverflow s) := by
  intro r hr
  unfold reportOverflow
  split <;> cases r <;> first | exact rfl | exact ⟨rfl, rfl⟩ | exact ⟨rfl, rfl, rfl⟩ | exact ⟨rfl, rfl, rfl, rfl⟩ | exact (hr (by decide)).elim

theorem reportGap_changes (s : State) : s.ChangesOnly [.gap, .eventQueue, .status] (reportGap s) := by
  unfold reportGap
  split
  · exact .refl _ _
  · refine .then (t := s.withOut { s.out with gap := none }) ?_ (offerNote_changes _ _) (by decide)
    intro r hr
    cases r <;> first | exact rfl | exact ⟨rfl, rfl⟩ | exact ⟨rfl, rfl, rfl⟩ | exact ⟨rfl, rfl, rfl, rfl⟩ | exact (hr (by decide)).elim

theorem startB_changes (s : State) (q : QueueB) : s.ChangesOnly Region.sent (startB s q) := by
  unfold startB
  split
  · exact .refl _ _
  · rename_i f rest _
    have hl : s.ChangesOnly Region.sent (s.withLink { s.link with lineB := some f }) := by
      intro r hr
      cases r <;> first | exact rfl | exact ⟨rfl, rfl⟩ | exact ⟨rfl, rfl, rfl⟩ | exact ⟨rfl, rfl, rfl, rfl⟩ | exact (hr (by decide)).elim
    refine hl.trans ?_
    generalize s.withLink { s.link with lineB := some f } = u
    cases q
    · intro r hr; cases r <;> first | exact rfl | exact ⟨rfl, rfl⟩ | exact ⟨rfl, rfl, rfl⟩ | exact ⟨rfl, rfl, rfl, rfl⟩ | exact (hr (by decide)).elim
    · intro r hr; cases r <;> first | exact rfl | exact ⟨rfl, rfl⟩ | exact ⟨rfl, rfl, rfl⟩ | exact ⟨rfl, rfl, rfl, rfl⟩ | exact (hr (by decide)).elim
    · refine .then (t := u.withDet { u.det with queue := rest }) ?_ (reportOverflow_changes _) (by decide)
      intro r hr; cases r <;> first | exact rfl | exact ⟨rfl, rfl⟩ | exact ⟨rfl, rfl, rfl⟩ | exact ⟨rfl, rfl, rfl, rfl⟩ | exact (hr (by decide)).elim
    · refine .then (t := u.withOut { u.out with geometry := rest }) ?_ (reportGap_changes _) (by decide)
      intro r hr; cases r <;> first | exact rfl | exact ⟨rfl, rfl⟩ | exact ⟨rfl, rfl, rfl⟩ | exact ⟨rfl, rfl, rfl, rfl⟩ | exact (hr (by decide)).elim
    · intro r hr; cases r <;> first | exact rfl | exact ⟨rfl, rfl⟩ | exact ⟨rfl, rfl, rfl⟩ | exact ⟨rfl, rfl, rfl, rfl⟩ | exact (hr (by decide)).elim

theorem chooseB_changes (s : State) : s.ChangesOnly Region.sent (chooseB s) := by
  unfold chooseB
  refine .ite ?_ (.refl _ _)
  split
  · exact startB_changes _ _
  · exact .refl _ _

theorem settle_changes (s : State) : s.ChangesOnly Region.sent (settle s) :=
  ((chooseA_changes s).mono (by decide)).trans (chooseB_changes _)

/-! ### The link -/

theorem offerForwardAB_changes (s : State) (f : Frame) :
    s.ChangesOnly [.forwardAB, .countersA] (offerForwardAB s f) := by
  intro r hr
  unfold offerForwardAB
  split <;> cases r <;> first | exact rfl | exact ⟨rfl, rfl⟩ | exact ⟨rfl, rfl, rfl⟩ | exact ⟨rfl, rfl, rfl, rfl⟩ | exact (hr (by decide)).elim

theorem offerForwardBA_changes (s : State) (f : Frame) :
    s.ChangesOnly [.forwardBA, .countersB] (offerForwardBA s f) := by
  intro r hr
  unfold offerForwardBA
  split <;> cases r <;> first | exact rfl | exact ⟨rfl, rfl⟩ | exact ⟨rfl, rfl, rfl⟩ | exact ⟨rfl, rfl, rfl, rfl⟩ | exact (hr (by decide)).elim

theorem countReceivedA_changes (s : State) : s.ChangesOnly [.countersA] (countReceivedA s) := by
  intro r hr
  cases r <;> first | exact rfl | exact ⟨rfl, rfl⟩ | exact ⟨rfl, rfl, rfl⟩ | exact ⟨rfl, rfl, rfl, rfl⟩ | exact (hr (by decide)).elim

theorem countReceivedB_changes (s : State) : s.ChangesOnly [.countersB] (countReceivedB s) := by
  intro r hr
  cases r <;> first | exact rfl | exact ⟨rfl, rfl⟩ | exact ⟨rfl, rfl, rfl⟩ | exact ⟨rfl, rfl, rfl, rfl⟩ | exact (hr (by decide)).elim

theorem dropUnknownSource_changes (s : State) : s.ChangesOnly [.countersA] (dropUnknownSource s) := by
  intro r hr
  cases r <;> first | exact rfl | exact ⟨rfl, rfl⟩ | exact ⟨rfl, rfl, rfl⟩ | exact ⟨rfl, rfl, rfl, rfl⟩ | exact (hr (by decide)).elim

theorem dropWrongKind_changes (s : State) : s.ChangesOnly [.countersB] (dropWrongKind s) := by
  intro r hr
  cases r <;> first | exact rfl | exact ⟨rfl, rfl⟩ | exact ⟨rfl, rfl, rfl⟩ | exact ⟨rfl, rfl, rfl, rfl⟩ | exact (hr (by decide)).elim

theorem errorA_changes (s : State) : s.ChangesOnly (.countersA :: Region.noted) (errorA s) := by
  refine .then (t := s.withLink _) ?_ (setEvent_changes _ _) (by decide)
  intro r hr
  cases r <;> first | exact rfl | exact ⟨rfl, rfl⟩ | exact ⟨rfl, rfl, rfl⟩ | exact ⟨rfl, rfl, rfl, rfl⟩ | exact (hr (by decide)).elim

theorem errorB_changes (s : State) : s.ChangesOnly (.countersB :: Region.noted) (errorB s) := by
  refine .then (t := s.withLink _) ?_ (setEvent_changes _ _) (by decide)
  intro r hr
  cases r <;> first | exact rfl | exact ⟨rfl, rfl⟩ | exact ⟨rfl, rfl, rfl⟩ | exact ⟨rfl, rfl, rfl, rfl⟩ | exact (hr (by decide)).elim

theorem takePause_changes (s : State) (payload : List Byte) :
    s.ChangesOnly [.pause, .countersB] (takePause s payload) := by
  unfold takePause
  split
  · intro r hr
    cases r <;> first | exact rfl | exact ⟨rfl, rfl⟩ | exact ⟨rfl, rfl, rfl⟩ | exact ⟨rfl, rfl, rfl, rfl⟩ | exact (hr (by decide)).elim
  · exact (dropWrongKind_changes s).mono (by decide)

theorem offerRequest_changes (s : State) (f : Frame) :
    s.ChangesOnly (.intake :: .countersB :: Region.noted) (offerRequest s f) := by
  unfold offerRequest
  split
  · intro r hr
    cases r <;> first | exact rfl | exact ⟨rfl, rfl⟩ | exact ⟨rfl, rfl, rfl⟩ | exact ⟨rfl, rfl, rfl, rfl⟩ | exact (hr (by decide)).elim
  · refine .then (t := s.withLink _) ?_ (setEvent_changes _ _) (by decide)
    intro r hr
    cases r <;> first | exact rfl | exact ⟨rfl, rfl⟩ | exact ⟨rfl, rfl, rfl⟩ | exact ⟨rfl, rfl, rfl, rfl⟩ | exact (hr (by decide)).elim

theorem receiveB_changes (s : State) (bytes : List Byte) :
    s.ChangesOnly ([.pause, .forwardBA, .intake, .countersB] ++ Region.noted) (receiveB s bytes) := by
  refine .trans (t := countReceivedB s) ((countReceivedB_changes s).mono (by decide)) ?_
  unfold receiveB
  simp only
  generalize countReceivedB s = u
  split
  · exact (errorB_changes u).mono (by decide)
  · rename_i f _
    unfold classifyB
    refine .ite ((takePause_changes u _).mono (by decide)) (.ite (.ite ?_ ?_) (.ite ?_ ?_))
    · exact (offerRequest_changes u f).mono (by decide)
    · exact (dropWrongKind_changes u).mono (by decide)
    · exact .then ((offerRequest_changes u f).mono (by decide)) (offerForwardBA_changes _ f) (by decide)
    · exact (offerForwardBA_changes u f).mono (by decide)

/-! ### Marking, detector, composer -/

theorem withTallies_changes (s : State) (x : Tallies) : s.ChangesOnly [.tallies] (s.withTallies x) := by
  intro r hr
  cases r <;> first | exact rfl | exact ⟨rfl, rfl⟩ | exact ⟨rfl, rfl, rfl⟩ | exact ⟨rfl, rfl, rfl, rfl⟩ | exact (hr (by decide)).elim

theorem dropMark_changes (s : State) : s.ChangesOnly (.tallies :: .markCounters :: Region.noted) (dropMark s) := by
  refine .then (t := (s.withTallies _).withMark _) ?_ (setEvent_changes _ _) (by decide)
  intro r hr
  cases r <;> first | exact rfl | exact ⟨rfl, rfl⟩ | exact ⟨rfl, rfl, rfl⟩ | exact ⟨rfl, rfl, rfl, rfl⟩ | exact (hr (by decide)).elim

theorem scheduleMark_changes (s : State) (queue : List Mark) :
    s.ChangesOnly [.tallies, .markQueue] (scheduleMark s queue) := by
  intro r hr
  cases r <;> first | exact rfl | exact ⟨rfl, rfl⟩ | exact ⟨rfl, rfl, rfl⟩ | exact ⟨rfl, rfl, rfl, rfl⟩ | exact (hr (by decide)).elim

theorem requestMark_changes (s : State) (q : MarkRequest) :
    s.ChangesOnly (.tallies :: .markQueue :: .markCounters :: Region.noted) (requestMark s q) := by
  unfold requestMark
  refine .ite ((dropMark_changes s).mono (by decide)) ?_
  split
  · exact (scheduleMark_changes s _).mono (by decide)
  · exact .ite ((dropMark_changes s).mono (by decide)) ((scheduleMark_changes s _).mono (by decide))

theorem reachMarks_changes (s : State) : s.ChangesOnly [.markQueue, .pulses, .markCounters] (reachMarks s) := by
  intro r hr
  cases r <;> first | exact rfl | exact ⟨rfl, rfl⟩ | exact ⟨rfl, rfl, rfl⟩ | exact ⟨rfl, rfl, rfl, rfl⟩ | exact (hr (by decide)).elim

theorem flushMarks_changes (s : State) : s.ChangesOnly [.markQueue, .pulses] (flushMarks s) := by
  intro r hr
  cases r <;> first | exact rfl | exact ⟨rfl, rfl⟩ | exact ⟨rfl, rfl, rfl⟩ | exact ⟨rfl, rfl, rfl, rfl⟩ | exact (hr (by decide)).elim

theorem withOpened_changes (s : State) (ch : Channel) (x : Option OpenException) :
    s.ChangesOnly [.exceptions] (s.withOpened ch x) := by
  intro r hr
  cases r <;> first | exact rfl | exact ⟨rfl, rfl⟩ | exact ⟨rfl, rfl, rfl⟩ | exact ⟨rfl, rfl, rfl, rfl⟩ | exact (hr (by decide)).elim

theorem offerException_changes (s : State) (ch : Channel) (x : OpenException) (cause : CloseCause) (last : Place) :
    s.ChangesOnly (.tallies :: .exceptionQueue :: .overflow :: Region.noted) (offerException s ch x cause last) := by
  unfold offerException
  refine .ite ?_ ?_
  · intro r hr
    cases r <;> first | exact rfl | exact ⟨rfl, rfl⟩ | exact ⟨rfl, rfl, rfl⟩ | exact ⟨rfl, rfl, rfl, rfl⟩ | exact (hr (by decide)).elim
  · refine .then (t := (s.withDet _).withTallies _) ?_ (setEvent_changes _ _) (by decide)
    intro r hr
    cases r <;> first | exact rfl | exact ⟨rfl, rfl⟩ | exact ⟨rfl, rfl, rfl⟩ | exact ⟨rfl, rfl, rfl, rfl⟩ | exact (hr (by decide)).elim

/-- What judging a channel may change. -/
abbrev Region.judged : List Region := [.exceptions, .tallies, .exceptionQueue, .overflow] ++ Region.noted

theorem closeException_changes (s : State) (ch : Channel) (x : OpenException) (cause : CloseCause) (last : Place) :
    s.ChangesOnly Region.judged (closeException s ch x cause last) := by
  refine .trans (t := s.withOpened ch none) ((withOpened_changes s ch none).mono (by decide)) ?_
  unfold closeException
  exact .ite ((offerException_changes _ _ _ _ _).mono (by decide)) ((withTallies_changes _ _).mono (by decide))

theorem closeOpened_changes (s : State) (cause : CloseCause) (ch : Channel) :
    s.ChangesOnly Region.judged (closeOpened s cause ch) := by
  unfold closeOpened
  split
  · exact closeException_changes _ _ _ _ _
  · exact .refl _ _

theorem closeAll_changes (s : State) (cause : CloseCause) : s.ChangesOnly Region.judged (closeAll s cause) :=
  .foldl _ (fun s ch => closeOpened_changes s cause ch) _ _

theorem judgeChannel_changes (e : EvaluatedStation) (s : State) (ch : Channel) :
    s.ChangesOnly Region.judged (judgeChannel e s ch) := by
  have hw : ∀ x, s.ChangesOnly Region.judged (s.withOpened ch x) :=
    fun x => (withOpened_changes s ch x).mono (by decide)
  unfold judgeChannel
  split
  · exact closeOpened_changes _ _ _
  · exact .refl _ _
  · exact .ite (hw _) (.refl _ _)
  · exact .ite (closeException_changes _ _ _ _ _) (hw _)
  · exact .ite (hw _) (.ite (closeException_changes _ _ _ _ _) (hw _))

theorem triggerMark_changes (e : EvaluatedStation) (s : State) (ch : Channel) :
    s.ChangesOnly ([.exceptions, .tallies, .markQueue, .markCounters] ++ Region.noted) (triggerMark e s ch) := by
  unfold triggerMark
  split
  · exact .refl _ _
  · refine .ite ?_ (.refl _ _)
    exact .then ((withOpened_changes s ch _).mono (by decide)) (requestMark_changes _ _) (by decide)

theorem judgeStation_changes (s : State) (e : EvaluatedStation) :
    s.ChangesOnly ([.exceptions, .tallies, .exceptionQueue, .overflow, .markQueue, .markCounters] ++ Region.noted)
      (judgeStation s e) := by
  have withPrevious : ∀ (u : State) x, u.ChangesOnly [.exceptions] (u.withDet { u.det with previous := x }) := by
    intro u x r hr
    cases r <;> first | exact rfl | exact ⟨rfl, rfl⟩ | exact ⟨rfl, rfl, rfl⟩ | exact ⟨rfl, rfl, rfl, rfl⟩ | exact (hr (by decide)).elim
  unfold judgeStation
  dsimp only
  refine .then ?_ (withPrevious _ _) (by decide)
  refine .trans ?_ (.foldl _ (fun s ch => (triggerMark_changes e s ch).mono (by decide)) _ _)
  refine .trans ?_ (.foldl _ (fun s ch => (judgeChannel_changes e s ch).mono (by decide)) _ _)
  split
  · exact .ite ((closeAll_changes s _).mono (by decide)) (.refl _ _)
  · exact .refl _ _

theorem startFlushTimer_changes (s : State) : s.ChangesOnly [.flushTimer] (startFlushTimer s) := by
  intro r hr
  unfold startFlushTimer
  split <;> cases r <;> first | exact rfl | exact ⟨rfl, rfl⟩ | exact ⟨rfl, rfl, rfl⟩ | exact ⟨rfl, rfl, rfl, rfl⟩ | exact (hr (by decide)).elim

theorem stopIdleTimer_changes (s : State) : s.ChangesOnly [.flushTimer] (stopIdleTimer s) := by
  intro r hr
  unfold stopIdleTimer
  split <;> cases r <;> first | exact rfl | exact ⟨rfl, rfl⟩ | exact ⟨rfl, rfl, rfl⟩ | exact ⟨rfl, rfl, rfl, rfl⟩ | exact (hr (by decide)).elim

theorem offerBatch_changes (s : State) (b : Batch) :
    s.ChangesOnly (.geometryQueue :: .gap :: Region.noted) (offerBatch s b) := by
  unfold offerBatch
  refine .ite ?_ ?_
  · intro r hr
    cases r <;> first | exact rfl | exact ⟨rfl, rfl⟩ | exact ⟨rfl, rfl, rfl⟩ | exact ⟨rfl, rfl, rfl, rfl⟩ | exact (hr (by decide)).elim
  · refine .then (t := s.withOut _) ?_ (setEvent_changes _ _) (by decide)
    intro r hr
    cases r <;> first | exact rfl | exact ⟨rfl, rfl⟩ | exact ⟨rfl, rfl, rfl⟩ | exact ⟨rfl, rfl, rfl, rfl⟩ | exact (hr (by decide)).elim

/-- What the composer may change. -/
abbrev Region.composed : List Region := [.batch, .flushTimer, .geometryQueue, .gap] ++ Region.noted

theorem withBatch_changes (s : State) (b : Option Batch) :
    s.ChangesOnly [.batch] (s.withOut { s.out with batch := b }) := by
  intro r hr
  cases r <;> first | exact rfl | exact ⟨rfl, rfl⟩ | exact ⟨rfl, rfl, rfl⟩ | exact ⟨rfl, rfl, rfl, rfl⟩ | exact (hr (by decide)).elim

theorem flushBatch_changes (s : State) : s.ChangesOnly Region.composed (flushBatch s) := by
  unfold flushBatch
  split
  · exact .refl _ _
  · exact .then (.then ((withBatch_changes s none).mono (by decide)) (offerBatch_changes _ _) (by decide))
      (stopIdleTimer_changes _) (by decide)

theorem openBatch_changes (s : State) (e : EvaluatedStation) : s.ChangesOnly Region.composed (openBatch s e) :=
  .then ((withBatch_changes s _).mono (by decide)) (startFlushTimer_changes _) (by decide)

theorem addStation_changes (s : State) (e : EvaluatedStation) : s.ChangesOnly Region.composed (addStation s e) := by
  unfold addStation
  split
  · exact openBatch_changes _ _
  · split
    · exact (withBatch_changes s _).mono (by decide)
    · exact (flushBatch_changes s).trans (openBatch_changes _ _)

theorem composeStation_changes (s : State) (e : EvaluatedStation) :
    s.ChangesOnly Region.composed (composeStation s e) := by
  have last : ∀ u : State, u.ChangesOnly Region.composed
      (match u.out.batch with
        | some b => if batchFull b.entries then flushBatch u else u
        | none => u) := by
    intro u
    split
    · exact .ite (flushBatch_changes _) (.refl _ _)
    · exact .refl _ _
  unfold composeStation
  refine .trans (.trans ?_ (addStation_changes _ e)) (last _)
  split
  · exact .ite (flushBatch_changes _) (.refl _ _)
  · exact .refl _ _

theorem swapTable_changes (s : State) (t : Table) (entries : List (List Byte)) :
    s.ChangesOnly [.staging, .heads, .tags, .route, .thresholds] (swapTable s t entries) := by
  intro r hr
  unfold swapTable
  cases t <;> cases r <;> first | exact rfl | exact ⟨rfl, rfl⟩ | exact ⟨rfl, rfl, rfl⟩ | exact ⟨rfl, rfl, rfl, rfl⟩ | exact (hr (by decide)).elim

theorem completeApply_changes (s : State) :
    s.ChangesOnly [.staging, .heads, .tags, .route, .thresholds, .responses, .flushTimer] (completeApply s) := by
  unfold completeApply
  split
  · exact .then (.then ((swapTable_changes s _ _).mono (by decide)) (respond_changes _ _ _ _) (by decide))
      (stopIdleTimer_changes _) (by decide)
  · exact .refl _ _

/-! ### Evaluation and assembly -/

theorem handOn_changes (s : State) (e : EvaluatedStation) : s.ChangesOnly Region.evaluated (handOn s e) := by
  unfold handOn
  dsimp only
  refine .then ?_ (composeStation_changes _ e) (by decide)
  refine .then ?_ (judgeStation_changes _ e) (by decide)
  exact .ite ((withTallies_changes s _).mono (by decide)) (.refl _ _)

theorem withRing_changes (s : State) (g : Ring) (h : s.ring.short = g.short) (h' : s.ring.long = g.long)
    (h'' : s.ring.twist = g.twist) : s.ChangesOnly [.ring] (s.withRing g) := by
  intro r hr
  cases r <;> simp_all [State.Agrees]

theorem evaluateNext_changes (s : State) : s.ChangesOnly (.ring :: Region.evaluated) (evaluateNext s) := by
  unfold evaluateNext
  split
  · exact (withRing_changes s s.ring.advance rfl rfl rfl).mono (by decide)
  · exact .then (.then ((completeApply_changes s).mono (by decide)) (handOn_changes _ _) (by decide))
      (withRing_changes _ _ rfl rfl rfl) (by decide)

theorem evaluateRest_changes (count : Nat) (s : State) :
    s.ChangesOnly (.ring :: Region.evaluated) (evaluateRest s count) := by
  induction count generalizing s with
  | zero => exact .refl _ _
  | succ n ih => exact (evaluateNext_changes s).trans (ih _)

theorem enterRing_changes (s : State) (e : Entering) :
    s.ChangesOnly (.ring :: .entryNumber :: Region.evaluated) (enterRing s e) := by
  unfold enterRing
  have h : s.ChangesOnly (.ring :: .entryNumber :: Region.evaluated)
      (((s.withRing { s.ring with stations := s.ring.stations ++ [s.recordOf e] }).withLoc
        { s.loc with entryNumber := s.loc.entryNumber + 1 }).withTallies
        { s.run.tallies with stations := s.run.tallies.stations + 1 }) := by
    intro r hr
    cases r <;> first | exact rfl | exact ⟨rfl, rfl⟩ | exact ⟨rfl, rfl, rfl⟩ | exact ⟨rfl, rfl, rfl, rfl⟩ | exact (hr (by decide)).elim
  exact .ite (h.then (evaluateNext_changes _) (by decide)) h

theorem enterSkipped_changes (count : Nat) (s : State) (n : Nat) :
    s.ChangesOnly (.ring :: .entryNumber :: Region.evaluated) (enterSkipped s n count) := by
  induction count generalizing s n with
  | zero => exact .refl _ _
  | succ m ih => exact (enterRing_changes s _).trans (ih _ _)

theorem enterPending_changes (s : State) (p : PendingStation) (i : Inputs) :
    s.ChangesOnly (.ring :: .entryNumber :: Region.evaluated) (enterPending s p i) :=
  (enterRing_changes s _).trans (enterSkipped_changes _ _ _)

theorem withTable_changes (s : State) (x : List PendingStation) : s.ChangesOnly [.table] (s.withTable x) := by
  intro r hr
  cases r <;> first | exact rfl | exact ⟨rfl, rfl⟩ | exact ⟨rfl, rfl, rfl⟩ | exact ⟨rfl, rfl, rfl, rfl⟩ | exact (hr (by decide)).elim

theorem withHeads_changes (s : State) (x : List Head) : s.ChangesOnly [.heads] (s.withHeads x) := by
  intro r hr
  cases r <;> first | exact rfl | exact ⟨rfl, rfl⟩ | exact ⟨rfl, rfl, rfl⟩ | exact ⟨rfl, rfl, rfl, rfl⟩ | exact (hr (by decide)).elim

theorem enterClosed_changes (fuel : Nat) (s : State) : s.ChangesOnly Region.closed (enterClosed s fuel) := by
  induction fuel generalizing s with
  | zero => exact .refl _ _
  | succ n ih =>
    unfold enterClosed
    split
    · exact .refl _ _
    · split
      · exact .refl _ _
      · exact .trans (.then ((withTable_changes s _).mono (by decide)) (enterPending_changes _ _ _) (by decide)) (ih _)

theorem updateHead_changes (s : State) (addr : Byte) (f : Head → Head) :
    s.ChangesOnly [.heads] (s.updateHead addr f) := withHeads_changes _ _

theorem updateEntry_changes (s : State) (n : Nat) (f : PendingStation → PendingStation) :
    s.ChangesOnly [.table] (s.updateEntry n f) := withTable_changes _ _

theorem judgeHead_changes (n : Nat) (s : State) (m : Member) :
    s.ChangesOnly (.heads :: Region.noted) (judgeHead n s m) := by
  have hu : ∀ (u : State) f, u.ChangesOnly (.heads :: Region.noted) (u.updateHead m.addr f) :=
    fun u f => (updateHead_changes u _ f).mono (by decide)
  unfold judgeHead
  split
  · exact .refl _ _
  · refine .ite (hu _ _) (.ite ((hu _ _).trans (hu _ _)) (.ite ?_ (hu _ _)))
    exact .then (.then ((hu _ _).trans (hu _ _)) (offerNote_changes _ _) (by decide)) (setEvent_changes _ _) (by decide)

theorem closeStation_changes (s : State) (p : PendingStation) : s.ChangesOnly Region.closed (closeStation s p) := by
  unfold closeStation
  dsimp only
  refine .trans ?_ (enterClosed_changes _ _)
  refine .then ?_ (updateEntry_changes _ _ _) (by decide)
  exact .foldl _ (fun s m => (judgeHead_changes _ s m).mono (by decide)) _ _

theorem closeAnswered_changes (fuel : Nat) (s : State) : s.ChangesOnly Region.closed (closeAnswered s fuel) := by
  induction fuel generalizing s with
  | zero => exact .refl _ _
  | succ n ih =>
    unfold closeAnswered
    split
    · exact .refl _ _
    · exact (closeStation_changes s _).trans (ih _)

theorem advanceRecovery_changes (s : State) (n : Nat) (h : Head) :
    s.ChangesOnly (.heads :: Region.noted) (advanceRecovery s n h) := by
  have hu : ∀ (u : State) f, u.ChangesOnly (.heads :: Region.noted) (u.updateHead h.cfg.addr f) :=
    fun u f => (updateHead_changes u _ f).mono (by decide)
  unfold advanceRecovery
  exact .ite (.refl _ _) (.ite (.then (hu _ _) (offerNote_changes _ _) (by decide)) (hu _ _))

theorem lateSample_changes (s : State) (h : Head) (n : Nat) (payload : List Byte) :
    s.ChangesOnly Region.closed (lateSample s h n payload) := by
  unfold lateSample
  dsimp only
  refine .trans ?_ (closeAnswered_changes _ _)
  refine .ite (.then ?_ (advanceRecovery_changes _ _ _) (by decide)) ?_
  · exact (updateHead_changes s _ _).mono (by decide)
  · exact (updateHead_changes s _ _).mono (by decide)

theorem acceptSample_changes (s : State) (h : Head) (n : Nat) (status : SampleStatus) (payload : List Byte) :
    s.ChangesOnly Region.closed (acceptSample s h n status payload) := by
  unfold acceptSample
  dsimp only
  refine .trans ?_ (closeAnswered_changes _ _)
  refine .then ?_ (advanceRecovery_changes _ _ _) (by decide)
  refine .then ?_ (updateEntry_changes _ _ _) (by decide)
  exact (updateHead_changes s _ _).mono (by decide)

theorem sampleIntake_changes (s : State) (h : Head) (payload : List Byte) :
    s.ChangesOnly Region.closed (sampleIntake s h payload) := by
  have hu : ∀ f, s.ChangesOnly Region.closed (s.updateHead h.cfg.addr f) :=
    fun f => (updateHead_changes s _ f).mono (by decide)
  unfold sampleIntake
  refine .ite (hu _) ?_
  split
  · exact hu _
  · refine .ite (hu _) (.ite (lateSample_changes _ _ _ _) ?_)
    split
    · exact hu _
    · split
      · exact hu _
      · exact .ite (hu _) (.ite (acceptSample_changes _ _ _ _ _) (hu _))

/-! ### Location -/

theorem acceptTag_changes (s : State) (id surveyed : Word) (position : Int) (delta : Word) :
    s.ChangesOnly (.location :: .tagCounters :: Region.noted) (acceptTag s id surveyed position delta) := by
  unfold acceptTag
  refine .then (t := s.withLoc _) ?_ (offerNote_changes _ _) (by decide)
  intro r hr
  cases r <;> first | exact rfl | exact ⟨rfl, rfl⟩ | exact ⟨rfl, rfl, rfl⟩ | exact ⟨rfl, rfl, rfl, rfl⟩ | exact (hr (by decide)).elim

theorem rejectTag_changes (s : State) (id delta : Word) :
    s.ChangesOnly (.location :: .tagCounters :: Region.noted) (rejectTag s id delta) := by
  unfold rejectTag
  refine .then (.then (t := s.withLoc _) ?_ (setEvent_changes _ _) (by decide)) (offerNote_changes _ _) (by decide)
  intro r hr
  cases r <;> first | exact rfl | exact ⟨rfl, rfl⟩ | exact ⟨rfl, rfl, rfl⟩ | exact ⟨rfl, rfl, rfl, rfl⟩ | exact (hr (by decide)).elim

theorem tagIntake_changes (s : State) (payload : List Byte) :
    s.ChangesOnly (.location :: .tagCounters :: Region.noted) (tagIntake s payload) := by
  have hc : ∀ c, s.ChangesOnly (.location :: .tagCounters :: Region.noted) (s.withTagCounters c) := by
    intro c r hr
    cases r <;> first | exact rfl | exact ⟨rfl, rfl⟩ | exact ⟨rfl, rfl, rfl⟩ | exact ⟨rfl, rfl, rfl, rfl⟩ | exact (hr (by decide)).elim
  unfold tagIntake
  split
  · exact hc _
  · refine .ite (hc _) (.ite (hc _) ?_)
    split
    · exact (hc _).then (setEvent_changes _ _) (by decide)
    · exact .ite (acceptTag_changes _ _ _ _ _) (rejectTag_changes _ _ _)

theorem placeChainage_changes (s : State) (c : Word) :
    s.ChangesOnly (.location :: Region.noted) (placeChainage s c) := by
  unfold placeChainage
  refine .then (t := s.withLoc _) ?_ (offerNote_changes _ _) (by decide)
  intro r hr
  cases r <;> first | exact rfl | exact ⟨rfl, rfl⟩ | exact ⟨rfl, rfl, rfl⟩ | exact ⟨rfl, rfl, rfl, rfl⟩ | exact (hr (by decide)).elim

theorem receiveA_changes (s : State) (bytes : List Byte) :
    s.ChangesOnly ([.forwardAB, .countersA, .location, .tagCounters] ++ Region.closed) (receiveA s bytes) := by
  refine .trans (t := countReceivedA s) ((countReceivedA_changes s).mono (by decide)) ?_
  unfold receiveA
  simp only
  generalize countReceivedA s = u
  split
  · exact (errorA_changes u).mono (by decide)
  · have hd := (dropUnknownSource_changes u).mono
      (l' := [.forwardAB, .countersA, .location, .tagCounters] ++ Region.closed) (by decide)
    unfold classifyA
    refine .ite ?_ (.ite ?_ ((offerForwardAB_changes u _).mono (by decide)))
    · split
      · exact hd
      · exact .ite hd ((sampleIntake_changes _ _ _).mono (by decide))
    · split
      · exact hd
      · exact .ite ((tagIntake_changes _ _).mono (by decide)) hd

/-! ### Distance -/

theorem takeDue_changes (s : State) (d : Due) :
    s.ChangesOnly ([.table, .distanceCounters, .fires] ++ Region.noted) (takeDue s d) := by
  unfold takeDue
  refine .ite ?_ ?_
  · intro r hr
    cases r <;> first | exact rfl | exact ⟨rfl, rfl⟩ | exact ⟨rfl, rfl, rfl⟩ | exact ⟨rfl, rfl, rfl, rfl⟩ | exact (hr (by decide)).elim
  · have counted : ∀ (u : State), u.ChangesOnly [.distanceCounters]
        (u.withDist { u.dist with fired := u.dist.fired + 1 }) := by
      intro u r hr
      cases r <;> first | exact rfl | exact ⟨rfl, rfl⟩ | exact ⟨rfl, rfl, rfl⟩ | exact ⟨rfl, rfl, rfl, rfl⟩ | exact (hr (by decide)).elim
    unfold fireStation
    dsimp only
    refine .then ?_ (issueFire_changes _ _) (by decide)
    refine .then ?_ (counted _) (by decide)
    refine .then ?_ (withTable_changes _ _) (by decide)
    exact .ite ((setEvent_changes _ _).mono (by decide)) (.refl _ _)

/-- What one count may change beside the odometer. -/
abbrev Region.due : List Region :=
  [.table, .distanceCounters, .fires, .nextStation, .stamps, .lastSpeed] ++ Region.noted

theorem dueStation_changes (s : State) : s.ChangesOnly Region.due (dueStation s) := by
  unfold dueStation
  refine .trans (t := takeDue s s.dueRecord) ((takeDue_changes s _).mono (by decide)) ?_
  intro r hr
  cases r <;> first | exact rfl | exact ⟨rfl, rfl⟩ | exact ⟨rfl, rfl, rfl⟩ | exact ⟨rfl, rfl, rfl, rfl⟩ | exact (hr (by decide)).elim

theorem dueStations_changes (highWater : Int) (fuel : Nat) (s : State) :
    s.ChangesOnly Region.due (dueStations s highWater fuel) := by
  induction fuel generalizing s with
  | zero => exact .refl _ _
  | succ n ih => exact .ite ((dueStation_changes s).trans (ih _)) (.refl _ _)

theorem testDue_changes (s : State) : s.ChangesOnly (.highWater :: Region.due) (testDue s) := by
  have raised : ∀ (u : State) x, u.ChangesOnly [.highWater] (u.withRun { u.run with highWater := x }) := by
    intro u x r hr
    cases r <;> first | exact rfl | exact ⟨rfl, rfl⟩ | exact ⟨rfl, rfl, rfl⟩ | exact ⟨rfl, rfl, rfl, rfl⟩ | exact (hr (by decide)).elim
  unfold testDue
  dsimp only
  refine .then ?_ (raised _ _) (by decide)
  exact (dueStations_changes _ _ s).mono (by decide)

theorem resumeRun_changes (s : State) : s.ChangesOnly [.runState] (resumeRun s) := by
  intro r hr
  unfold resumeRun
  split <;> cases r <;> first | exact rfl | exact ⟨rfl, rfl⟩ | exact ⟨rfl, rfl, rfl⟩ | exact ⟨rfl, rfl, rfl, rfl⟩ | exact (hr (by decide)).elim

theorem withOdometer_changes (s : State) (q : DWord) :
    s.ChangesOnly [.odometer] (s.withDist { s.dist with odometer := q }) := by
  intro r hr
  cases r <;> first | exact rfl | exact ⟨rfl, rfl⟩ | exact ⟨rfl, rfl, rfl⟩ | exact ⟨rfl, rfl, rfl, rfl⟩ | exact (hr (by decide)).elim

theorem forwardCount_changes (s : State) : s.ChangesOnly Region.counted (forwardCount s) := by
  unfold forwardCount
  dsimp only
  refine .then ?_ (reachMarks_changes _) (by decide)
  refine .trans (t := resumeRun _) ?_ (.ite ((testDue_changes _).mono (by decide)) (.refl _ _))
  refine .then ?_ (resumeRun_changes _) (by decide)
  exact (withOdometer_changes s _).mono (by decide)

theorem reverseCount_changes (s : State) : s.ChangesOnly [.odometer, .runState, .stamps] (reverseCount s) := by
  unfold reverseCount
  refine .trans ((withOdometer_changes s _).mono (by decide)) (.ite ?_ (.refl _ _))
  intro r hr
  cases r <;> first | exact rfl | exact ⟨rfl, rfl⟩ | exact ⟨rfl, rfl, rfl⟩ | exact ⟨rfl, rfl, rfl, rfl⟩ | exact (hr (by decide)).elim

/-! ### The passing of time -/

theorem completeDrain_changes (s : State) :
    s.ChangesOnly ([.ring, .location, .runState] ++ Region.evaluated) (completeDrain s) := by
  have emptied : ∀ u : State, u.ChangesOnly [.ring] (u.withRing { u.ring with stations := [] }) :=
    fun u => withRing_changes u _ rfl rfl rfl
  have none' : ∀ u : State, u.ChangesOnly [.location] (u.withLoc { u.loc with status := .none }) := by
    intro u r hr
    cases r <;> first | exact rfl | exact ⟨rfl, rfl⟩ | exact ⟨rfl, rfl, rfl⟩ | exact ⟨rfl, rfl, rfl, rfl⟩ | exact (hr (by decide)).elim
  have idle' : ∀ u : State, u.ChangesOnly [.runState] (u.withRunState .idle) := by
    intro u r hr
    cases r <;> first | exact rfl | exact ⟨rfl, rfl⟩ | exact ⟨rfl, rfl, rfl⟩ | exact ⟨rfl, rfl, rfl, rfl⟩ | exact (hr (by decide)).elim
  unfold completeDrain
  dsimp only
  refine .then ?_ (idle' _) (by decide)
  refine .then ?_ (none' _) (by decide)
  refine .then ?_ (emptied _) (by decide)
  refine .then ?_ (offerNote_changes _ _) (by decide)
  refine .then ?_ (flushBatch_changes _) (by decide)
  refine .then ?_ (closeAll_changes _ _) (by decide)
  exact (evaluateRest_changes _ s).mono (by decide)

theorem withDraws_changes (s : State) (n : Nat) : s.ChangesOnly [.draws] (s.withDraws n) := by
  intro r hr
  cases r <;> first | exact rfl | exact ⟨rfl, rfl⟩ | exact ⟨rfl, rfl, rfl⟩ | exact ⟨rfl, rfl, rfl, rfl⟩ | exact (hr (by decide)).elim

theorem pick_changes {α : Type} (s : State) (first : α) (rest : List α) :
    s.ChangesOnly [.draws] (s.pick first rest).2 := by
  cases rest with
  | nil => exact .refl _ _
  | cons => exact withDraws_changes _ _

/-- An event of the part's own changes what its command may. -/
theorem takeOwn_changes (s : State) (e : OwnEvent) : s.ChangesOnly (changedBy e.command) (takeOwn s e) := by
  have hp : ∀ x, s.ChangesOnly [.pause] (s.withLink { s.link with pause := x }) := by
    intro x r hr
    cases r <;> first | exact rfl | exact ⟨rfl, rfl⟩ | exact ⟨rfl, rfl, rfl⟩ | exact ⟨rfl, rfl, rfl, rfl⟩ | exact (hr (by decide)).elim
  have hf : ∀ (u : State) x, u.ChangesOnly [.flushTimer] (u.withOut { u.out with flush := x }) := by
    intro u x r hr
    cases r <;> first | exact rfl | exact ⟨rfl, rfl⟩ | exact ⟨rfl, rfl, rfl⟩ | exact ⟨rfl, rfl, rfl, rfl⟩ | exact (hr (by decide)).elim
  have hm : ∀ x y, s.ChangesOnly [.pulses] (s.withMark { s.mark with pulseL := x, pulseR := y }) := by
    intro x y r hr
    cases r <;> first | exact rfl | exact ⟨rfl, rfl⟩ | exact ⟨rfl, rfl, rfl⟩ | exact ⟨rfl, rfl, rfl, rfl⟩ | exact (hr (by decide)).elim
  have hd : ∀ x, s.ChangesOnly [.stamps] (s.withDist { s.dist with stampValid := x }) := by
    intro x r hr
    cases r <;> first | exact rfl | exact ⟨rfl, rfl⟩ | exact ⟨rfl, rfl, rfl⟩ | exact ⟨rfl, rfl, rfl, rfl⟩ | exact (hr (by decide)).elim
  cases e with
  | pauseEnd => exact .then ((hp _).mono (by decide)) (settle_changes _) (by decide)
  | flush =>
    refine .then ?_ (settle_changes _) (by decide)
    refine .then ?_ (hf _ _) (by decide)
    exact .then ((completeApply_changes s).mono (by decide)) (flushBatch_changes _) (by decide)
  | pulseEnd side =>
    cases side
    · exact .then ((hm _ _).mono (by decide)) (settle_changes _) (by decide)
    · exact .then ((hm _ _).mono (by decide)) (settle_changes _) (by decide)
  | deadline station =>
    show s.ChangesOnly (Region.closed ++ Region.sent) _
    unfold takeOwn
    dsimp only
    split
    · exact .refl _ _
    · refine .then ?_ (settle_changes _) (by decide)
      exact .then ((closeStation_changes s _).mono (by decide)) (closeAnswered_changes _ _) (by decide)
  | stampTimeout => exact .then ((hd _).mono (by decide)) (settle_changes _) (by decide)
  | drain => exact .then ((completeDrain_changes s).mono (by decide)) (settle_changes _) (by decide)

theorem changedBy_own (e : OwnEvent) : changedBy e.command ⊆ Region.own := by
  cases e <;> simp only [OwnEvent.command, changedBy] <;> decide

/-- From the moment of an awaited event on, only what its command lists changes. -/
theorem awaitOwn_changes (e : OwnEvent) (s : State) : (s.atMoment e).ChangesOnly (changedBy e.command) (awaitOwn e s) :=
  .ite (takeOwn_changes _ e) (.refl _ _)

theorem passTime_changes (fuel n : Nat) (s : State) : s.ChangesOnly Region.passing (passTime fuel n s) := by
  have he : ∀ k, s.ChangesOnly Region.passing (elapse k s) := fun k => (elapse_changes k s).mono (by decide)
  induction fuel generalizing s n with
  | zero => exact he _
  | succ fuel ih =>
    unfold passTime
    split
    · exact he _
    · refine .ite ?_ (he _)
      split
      · exact he _
      · refine .trans ?_ (ih _ _ fun k => (elapse_changes k _).mono (by decide))
        refine .then ?_ (takeOwn_changes _ _) fun _ h => List.mem_cons_of_mem _ (List.mem_append_left _ (changedBy_own _ h))
        exact .then (he _) (pick_changes _ _ _) (by decide)

theorem after_changes (s : State) (n : Nat) : s.ChangesOnly Region.passing (s.after n) := passTime_changes _ n s

theorem atMoment_changes (s : State) (e : OwnEvent) : s.ChangesOnly Region.passing (s.atMoment e) := by
  unfold State.atMoment
  split
  · exact .refl _ _
  · exact after_changes _ _

end Sys2Proof.Machine
end

