-- ==== Sys2Proof/Laws/Operations.lean ====
section
/-! SUPPORT. What the shared operations do, one lemma each, for the provers to cite in place of unfolding them. -/

namespace Sys2Proof.Machine

/-! ### The handling of a request -/

/-- A request that is handled leaves the intake, is handled, and the transmitters choose. -/
theorem handleRequest_of_handles {kind : RequestKind} {s : State} {r : Frame} {rest : List Frame}
    (h : s.Handles kind r rest) (handling : Frame → State → State) :
    handleRequest kind handling s = .next (settle (handling r (s.takeRequest rest))) := by
  obtain ⟨hi, h⟩ := h
  simp only [handleRequest, hi]
  rw [if_pos h]
  rfl

/-- Of a handled request with a consistent payload. -/
theorem handleRequest_of_consistent {kind : RequestKind} {s : State} {r : Frame} {rest : List Frame}
    (h : s.Handles kind r rest) (hc : requestConsistent kind r.payload = true) (handling : Frame → State → State) :
    handleRequest kind (ifConsistent kind handling) s = .next (settle (handling r (s.takeRequest rest))) := by
  rw [handleRequest_of_handles h, ifConsistent, if_pos hc]

/-- A handling either finds its request or changes nothing. -/
theorem handleRequest_cases {kind : RequestKind} {handling : Frame → State → State} {s t : State}
    (e : handleRequest kind handling s = .next t) :
    (∃ r rest, s.Handles kind r rest ∧ t = settle (handling r (s.takeRequest rest)))
      ∨ ((∀ r rest, ¬ s.Handles kind r rest) ∧ t = s) := by
  unfold handleRequest at e
  split at e
  · rename_i hi
    cases e
    exact .inr ⟨fun r rest h => (nomatch hi.symm.trans h.1), rfl⟩
  · rename_i r rest hi
    split at e
    · rename_i h
      cases e
      exact .inl ⟨r, rest, ⟨hi, h⟩, rfl⟩
    · rename_i h
      cases e
      refine .inr ⟨fun r' rest' h' => ?_, rfl⟩
      have := hi.symm.trans h'.1
      cases this
      exact h h'.2

theorem handleRequest_changes {kind : RequestKind} {handling : Frame → State → State} {l : List Region}
    (hh : ∀ (r : Frame) (s : State), s.ChangesOnly l (handling r s)) {s t : State}
    (e : handleRequest kind handling s = .next t) : s.ChangesOnly (.intake :: l ++ Region.sent) t := by
  obtain ⟨r, rest, -, rfl⟩ | ⟨-, rfl⟩ := handleRequest_cases e
  · refine .then ?_ (settle_changes _) (by simp)
    refine .then (l' := l) ?_ (hh _ _) (by intro x; simp; tauto)
    intro x hx
    unfold State.takeRequest
    cases x <;> simp_all [State.Agrees]
  · exact .refl _ _

theorem ifConsistent_changes {kind : RequestKind} {handling : Frame → State → State} {l : List Region}
    (hl : .responses ∈ l) (hh : ∀ (r : Frame) (s : State), s.ChangesOnly l (handling r s)) (r : Frame) (s : State) :
    s.ChangesOnly l (ifConsistent kind handling r s) := by
  unfold ifConsistent
  exact .ite (hh _ _) ((respond_changes _ _ _ _).mono (by simpa using hl))

/-! ### Status, notes, set events -/

theorem has_raise (t : Status) (b b' : StickyBit) : (t.raise b).has b' = (t.has b' || decide (b = b')) := by
  cases b <;> cases b' <;> simp [Status.raise, Status.has, StickyBit.index]

/-- A note joins the event queue, or is lost with a set event of NOTE_LOST. -/
theorem offerNote_cases (s : State) (n : Note) :
    (s.out.events.length < 16
        ∧ offerNote s n = s.withOut { s.out with events := s.out.events ++ [s.frame s.params.recorder 0x22 n.payload] })
      ∨ (16 ≤ s.out.events.length ∧ offerNote s n = s.withStatus (s.status.raise .noteLost)) := by
  unfold offerNote
  split
  · exact .inl ⟨‹_›, rfl⟩
  · exact .inr ⟨by simp only [Config.eventCapacity] at *; omega, rfl⟩

/-- A set event with no note, or with the STATUS note of a bit that turns set. -/
theorem setEvent_cases (s : State) (b : StickyBit) :
    ((b = .noteLost ∨ s.status.has b = true) ∧ setEvent s b = s.withStatus (s.status.raise b))
      ∨ (b ≠ .noteLost ∧ s.status.has b = false
          ∧ setEvent s b = offerNote (s.withStatus (s.status.raise b)) (.status b (s.status.raise b))) := by
  unfold setEvent
  dsimp only
  split
  · exact .inl ⟨‹_›, rfl⟩
  · rename_i h
    exact .inr ⟨fun e => h (.inl e), by simpa using fun e => h (.inr e), rfl⟩

/-! ### The transmitters -/

/-- A FIRE joins the FIRE queue, or is discarded. -/
theorem issueFire_cases (s : State) (f : Frame) :
    (s.link.upA = true ∧ s.link.fires.length < 8 ∧ issueFire s f = s.withLink { s.link with fires := s.link.fires ++ [f] })
      ∨ ((s.link.upA = false ∨ 8 ≤ s.link.fires.length) ∧ issueFire s f = s) := by
  unfold issueFire
  split
  · rename_i h
    simp only [Bool.and_eq_true, decide_eq_true_eq] at h
    exact .inl ⟨h.1, h.2, rfl⟩
  · rename_i h
    simp only [Bool.and_eq_true, decide_eq_true_eq, not_and_or, Config.fireCapacity] at h
    exact .inr ⟨by simpa using h, rfl⟩

/-- The arbiter's comparison of one more queue. -/
def State.better (s : State) (best : Option QueueB) (q : QueueB) : Option QueueB :=
  if (s.queueB q).isEmpty then best
  else match best with
    | none => some q
    | some b => if s.priorityB b < s.priorityB q then some q else best

/-- Below a priority, the best of the queues before stays below it. -/
theorem better_below {s : State} {q : QueueB} : ∀ (pre : List QueueB) (best : Option QueueB),
    (∀ b, best = some b → s.priorityB b < s.priorityB q) →
    (∀ x ∈ pre, s.queueB x ≠ [] → s.priorityB x < s.priorityB q) →
    ∀ b, pre.foldl s.better best = some b → s.priorityB b < s.priorityB q
  | [], _, h, _, b, e => h b e
  | x :: pre, best, h, hp, b, e => by
    refine better_below pre (s.better best x) (fun c hc => ?_) (fun y hy => hp y (List.mem_cons_of_mem _ hy)) b e
    have hx := hp x List.mem_cons_self
    unfold State.better at hc
    split at hc
    · exact h c hc
    · rename_i hne
      have hn : s.priorityB x < s.priorityB q := hx (by simpa using hne)
      split at hc
      · cases hc; exact hn
      · split at hc
        · cases hc; exact hn
        · exact h c hc

/-- A queue that none of the rest betters stays the best. -/
theorem better_stays {s : State} {q : QueueB} : ∀ post : List QueueB,
    (∀ x ∈ post, s.queueB x ≠ [] → s.priorityB x ≤ s.priorityB q) → post.foldl s.better (some q) = some q
  | [], _ => rfl
  | x :: post, h => by
    have e : s.better (some q) x = some q := by
      unfold State.better
      split
      · rfl
      · rename_i hne
        have := h x List.mem_cons_self (by simpa using hne)
        exact if_neg (by omega)
    rw [List.foldl_cons, e]
    exact better_stays post fun y hy => h y (List.mem_cons_of_mem _ hy)

/-- The queue that wins is the arbiter's choice. -/
theorem winnerB_of_wins {s : State} {q : QueueB} (h : s.Wins q) : s.winnerB = some q := by
  have main : ∀ pre post : List QueueB, (∀ x ∈ pre, x.rank < q.rank) → (∀ x ∈ post, q.rank ≤ x.rank) →
      (pre ++ q :: post).foldl s.better none = some q := by
    intro pre post hpre hpost
    have below := better_below (s := s) (q := q) pre none nofun fun x hx hn => by
      have := h.2 x hn
      have := hpre x hx
      omega
    rw [List.foldl_append, List.foldl_cons]
    have e : s.better (pre.foldl s.better none) q = some q := by
      generalize pre.foldl s.better none = best at below
      unfold State.better
      rw [if_neg (by simpa using h.1)]
      cases best with
      | none => rfl
      | some b => exact if_pos (below b rfl)
    rw [e]
    exact better_stays post fun x hx hn => by have := h.2 x hn; omega
  cases q
  · exact main [] [.note, .exception, .geometry, .forward] (by decide) (by decide)
  · exact main [.response] [.exception, .geometry, .forward] (by decide) (by decide)
  · exact main [.response, .note] [.geometry, .forward] (by decide) (by decide)
  · exact main [.response, .note, .exception] [.forward] (by decide) (by decide)
  · exact main [.response, .note, .exception, .geometry] [] (by decide) (by decide)

/-! ### Heads -/

theorem find_map_head (l : List Head) (a a' : Byte) (f : Head → Head) (hf : ∀ h, (f h).cfg = h.cfg) :
    (l.map fun h => if h.cfg.addr = a' then f h else h).find? (·.cfg.addr == a)
      = (l.find? (·.cfg.addr == a)).map fun h => if h.cfg.addr = a' then f h else h := by
  induction l with
  | nil => rfl
  | cons h t ih =>
    simp only [List.map_cons]
    by_cases hh : h.cfg.addr = a
    · rw [List.find?_cons_of_pos, List.find?_cons_of_pos]
      · rfl
      · simp [hh]
      · split <;> simp [hf, hh]
    · rw [List.find?_cons_of_neg, List.find?_cons_of_neg, ih]
      · simp [hh]
      · split <;> simp [hf, hh]

theorem addr_of_findHead {s : State} {a : Byte} {h : Head} (e : s.findHead a = some h) : h.cfg.addr = a := by
  simpa using List.find?_some e

theorem findHead_updateHead_self {s : State} {a : Byte} {h : Head} (e : s.findHead a = some h) (f : Head → Head)
    (hf : ∀ h, (f h).cfg = h.cfg) : (s.updateHead a f).findHead a = some (f h) := by
  refine (find_map_head s.heads a a f hf).trans ?_
  rw [show s.heads.find? (·.cfg.addr == a) = some h from e]
  simp [addr_of_findHead e]

theorem findHead_updateHead_other (s : State) {a a' : Byte} (h : a ≠ a') (f : Head → Head)
    (hf : ∀ h, (f h).cfg = h.cfg) : (s.updateHead a' f).findHead a = s.findHead a := by
  refine (find_map_head s.heads a a' f hf).trans ?_
  cases e : s.heads.find? (·.cfg.addr == a) with
  | none => exact e.symm
  | some x =>
    have hx : x.cfg.addr = a := by simpa using List.find?_some e
    show some (if x.cfg.addr = a' then f x else x) = s.heads.find? (·.cfg.addr == a)
    rw [if_neg (hx ▸ h), e]

/-- What a runtime update keeps of the roster. -/
theorem cfg_updateHead (s : State) (a : Byte) (f : Head → Head) (hf : ∀ h, (f h).cfg = h.cfg) :
    (s.updateHead a f).heads.map (·.cfg) = s.heads.map (·.cfg) := by
  simp only [State.updateHead, State.withHeads, List.map_map]
  refine List.map_congr_left fun h _ => ?_
  simp only [Function.comp_apply]
  split
  · exact hf h
  · rfl

/-! ### Channels, parameters, tables -/

@[simp] theorem PerChannel.get_set_self {α : Type} (c : PerChannel α) (ch : Channel) (a : α) : (c.set ch a).get ch = a := by
  cases ch <;> rfl

theorem PerChannel.get_set_other {α : Type} (c : PerChannel α) {ch ch' : Channel} (a : α) (h : ch' ≠ ch) :
    (c.set ch a).get ch' = c.get ch' := by
  cases ch <;> cases ch' <;> first | rfl | exact absurd rfl h

theorem Params.get_set_self (p : Params) {id : ParamId} {v : Int} (h : id.accepts v = true) : (p.set id v).get id = v := by
  have range : id.range.1 ≤ v ∧ v ≤ id.range.2 := of_decide_eq_true (Bool.and_eq_true_iff.mp h).1
  cases id <;> dsimp only [ParamId.range] at range <;> simp only [Params.get, Params.set] <;> omega

theorem Params.get_set_other (p : Params) {id id' : ParamId} (v : Int) (h : id' ≠ id) : (p.set id v).get id' = p.get id' := by
  cases id <;> cases id' <;> first | rfl | exact absurd rfl h

theorem Table.ofCode_code (T : Table) : Table.ofCode (BitVec.ofNat 8 T.code) = some T := by cases T <;> rfl

theorem swapTable_placesTaken (s : State) (t : Table) (entries : List (List Byte)) :
    (swapTable s t entries).req.placesTaken = s.req.responses.length := by
  unfold swapTable
  cases t <;> simp [Requests.placesTaken, Staging.isPending]

/-! ### Tables -/

/-- Neighbours stand in a relation: each entry with the one behind it. -/
theorem neighbours_iff {α : Type} (r : α → α → Bool) : ∀ l : List α,
    neighbours r l = true ↔ ∀ i a b, l[i]? = some a → l[i + 1]? = some b → r a b = true
  | [] => by simp [neighbours]
  | [x] => by simp [neighbours]
  | x :: y :: l => by
    rw [neighbours, Bool.and_eq_true, neighbours_iff r (y :: l)]
    refine ⟨fun ⟨h, h'⟩ i a b ha hb => ?_, fun h => ⟨h 0 x y rfl rfl, fun i a b ha hb => h (i + 1) a b ha hb⟩⟩
    cases i with
    | zero =>
      cases ha
      cases hb
      exact h
    | succ i => exact h' i a b ha hb

/-- Where the relation is transitive, each entry stands in it with every one behind it. -/
theorem neighbours_iff_pairwise {α : Type} {r : α → α → Bool} (tr : ∀ a b c, r a b = true → r b c = true → r a c = true) :
    ∀ l : List α, neighbours r l = true ↔ l.Pairwise fun a b => r a b = true
  | [] => by simp [neighbours]
  | [x] => by simp [neighbours]
  | x :: y :: l => by
    rw [neighbours, Bool.and_eq_true, neighbours_iff_pairwise tr (y :: l), List.pairwise_cons (a := x)]
    refine ⟨fun ⟨h, h'⟩ => ⟨fun z hz => ?_, h'⟩, fun ⟨h, h'⟩ => ⟨h y List.mem_cons_self, h'⟩⟩
    obtain rfl | hz := List.mem_cons.1 hz
    · exact h
    · exact tr _ _ _ h ((List.pairwise_cons.1 h').1 z hz)

/-- Where no two entries are of one class and channel, the entry found for a pair is the one of that pair. -/
theorem threshold_of_mem {x : Threshold} : ∀ {l : List Threshold},
    l.Pairwise (fun x y => x.speedClass ≠ y.speedClass ∨ x.channel ≠ y.channel) → x ∈ l →
    l.find? (fun e => e.speedClass == x.speedClass && e.channel == x.channel) = some x
  | [], _, hx => nomatch hx
  | a :: l, hp, hx => by
    rw [List.find?_cons]
    obtain ⟨ha, hp⟩ := List.pairwise_cons.1 hp
    obtain rfl | hx := List.mem_cons.1 hx
    · simp
    · have : (a.speedClass == x.speedClass && a.channel == x.channel) = false := by
        have := ha x hx
        simp only [Bool.and_eq_false_iff, beq_eq_false_iff_ne]
        exact this
      rw [this]
      exact threshold_of_mem hp hx

/-! ### Marks, skips, batches -/

theorem insertMark_length (m : Mark) (queue : List Mark) : (insertMark m queue).length = queue.length + 1 := by
  induction queue with
  | nil => rfl
  | cons a queue ih => unfold insertMark; split <;> simp [ih]

theorem skipNewest_length (l : List PendingStation) : (skipNewest l).length = l.length := by
  induction l using skipNewest.induct <;> simp_all [skipNewest]

theorem skipNewest_append (old : List PendingStation) (p : PendingStation) :
    skipNewest (old ++ [p]) = old ++ [{ p with skips := p.skips + 1 }] := by
  induction old with
  | nil => rfl
  | cons a old ih => cases old <;> simp_all [skipNewest]

theorem payloads_length (b : Batch) : b.payloads.length = if b.entries.length ≤ 8 then 1 else 2 := by
  unfold Batch.payloads
  split <;> rfl

theorem covered_append (a b : List BatchEntry) : covered (a ++ b) = covered a + covered b := by simp [covered]

theorem entry_covers (e : EvaluatedStation) : e.entry.covers = 1 := by
  unfold EvaluatedStation.entry
  split <;> rfl

/-- A station added to a batch makes the batch cover one station more. -/
theorem covered_addEntry {entries entries' : List BatchEntry} {e : EvaluatedStation} (h : addEntry entries e = some entries') :
    covered entries' = covered entries + 1 := by
  have joined : (if entries.length < Config.batchCapacity then some (entries ++ [e.entry]) else none) = some entries' →
      covered entries' = covered entries + 1 := by
    intro hj
    split at hj
    · cases hj
      rw [covered_append]
      simp [covered, entry_covers]
    · cases hj
  unfold addEntry at h
  dsimp only at h
  split at h
  · rename_i n hl
    split at h
    · cases h
      have hd : entries.dropLast ++ [.voidRun n] = entries := by
        have := List.dropLast_append_getLast? (BatchEntry.voidRun n) (by simpa using hl)
        simpa using this
      conv_rhs => rw [← hd]
      rw [covered_append, covered_append]
      simp [covered, BatchEntry.covers]
      omega
    · exact joined h
  · exact joined h

end Sys2Proof.Machine
end

