-- ==== Sys2Proof/Laws/Time.lean ====
section
/-! SUPPORT. The passing of time: `State.after` takes every event of the part's own that comes before its end. -/

namespace Sys2Proof.Machine

/-- The OPEN entries of the pending table. -/
def State.openCount (s : State) : Nat := s.table.countP (·.closed.isNone)

/-- A bound on the events of the part's own that can still come while nothing comes from outside. -/
def State.ownLeft (s : State) : Nat :=
  2 * s.openCount + s.out.flush.isSome.toNat + s.link.pause.isSome.toNat + s.mark.pulseL.isSome.toNat
    + s.mark.pulseR.isSome.toNat + s.dist.stampValid.toNat + 2 * (s.run.state == .draining).toNat

theorem ownLeft_lt_bound (s : State) : s.ownLeft < s.ownEventBound := by
  have h : s.openCount ≤ s.table.length := List.countP_le_length
  have hb : ∀ b : Bool, b.toNat ≤ 1 := Bool.toNat_le
  have := hb s.out.flush.isSome
  have := hb s.link.pause.isSome
  have := hb s.mark.pulseL.isSome
  have := hb s.mark.pulseR.isSome
  have := hb s.dist.stampValid
  have := hb (s.run.state == .draining)
  unfold State.ownLeft State.ownEventBound
  omega

/-- What the bound reads but for the flush timer and the run state. -/
def State.ownRest (s : State) : Nat :=
  s.link.pause.isSome.toNat + s.mark.pulseL.isSome.toNat + s.mark.pulseR.isSome.toNat + s.dist.stampValid.toNat

theorem ownRest_eq {s t : State} {l : List Region} (h : s.ChangesOnly l t) (hl : ∀ r ∈ [Region.pause, .pulses, .stamps], r ∉ l) :
    t.ownRest = s.ownRest := by
  have a : t.link.pause = s.link.pause := h .pause (hl _ (by decide))
  have b := h .pulses (hl _ (by decide))
  have c := h .stamps (hl _ (by decide))
  unfold State.ownRest
  rw [a, b.1, b.2, c.2]

theorem openCount_eq {s t : State} (h : t.table = s.table) : t.openCount = s.openCount := by
  unfold State.openCount
  rw [h]

/-- Entering takes CLOSED entries out of the table only. -/
theorem openCount_enterClosed (fuel : Nat) (s : State) : (enterClosed s fuel).openCount = s.openCount := by
  induction fuel generalizing s with
  | zero => rfl
  | succ n ih =>
    unfold enterClosed
    split
    · rfl
    · rename_i p rest h
      split
      · rfl
      · rename_i inputs hc
        rw [ih, openCount_eq (enterPending_changes _ _ _ .table (by decide))]
        simp [State.openCount, h, hc]

/-- A close leaves fewer entries OPEN. -/
theorem openCount_closeStation {s : State} {p : PendingStation} (hp : p ∈ s.table) (ho : p.closed.isNone = true) :
    (closeStation s p).openCount < s.openCount := by
  unfold closeStation
  dsimp only
  rw [openCount_enterClosed]
  have keep : (p.members.foldl (judgeHead p.number) s).table = s.table :=
    (State.ChangesOnly.foldl (l := .heads :: Region.noted) _ (fun s m => judgeHead_changes _ s m) _ _) .table (by decide)
  generalize State.inputsOf _ p.members = inputs
  unfold State.openCount State.updateEntry
  simp only [State.withTable_table, keep, List.countP_map]
  obtain ⟨before, after, e⟩ := List.append_of_mem hp
  have fewer : ∀ l : List PendingStation,
      l.countP ((fun q => q.closed.isNone) ∘ fun q => if q.number = p.number then { q with closed := some inputs } else q)
        ≤ l.countP (·.closed.isNone) := by
    refine fun l => List.countP_mono_left fun q _ h => ?_
    simp only [Function.comp_apply] at h
    split at h
    · simp at h
    · exact h
  have := fewer before
  have := fewer after
  simp only [e, List.countP_append, List.countP_cons, Function.comp_apply, if_true, Option.isNone_some, ho]
  simp only [Bool.false_eq_true, if_false]
  omega

theorem openCount_closeAnswered (fuel : Nat) (s : State) : (closeAnswered s fuel).openCount ≤ s.openCount := by
  induction fuel generalizing s with
  | zero => exact Nat.le_refl _
  | succ n ih =>
    unfold closeAnswered
    split
    · exact Nat.le_refl _
    · rename_i p h
      have ho := List.find?_some h
      simp only [Bool.and_eq_true] at ho
      exact Nat.le_trans (ih _) (Nat.le_of_lt (openCount_closeStation (List.mem_of_find?_eq_some h) ho.1))

theorem ownLeft_settle (s : State) : (settle s).ownLeft = s.ownLeft := by
  have h := settle_changes s
  have a := ownRest_eq h (by decide)
  have b : (settle s).out.flush = s.out.flush := h .flushTimer (by decide)
  have c : (settle s).run.state = s.run.state := h .runState (by decide)
  have d := openCount_eq (show (settle s).table = s.table from h .table (by decide))
  unfold State.ownLeft
  unfold State.ownRest at a
  rw [b, c, d]
  omega

/-- An event of the part's own that comes leaves fewer to come. -/
theorem ownLeft_takeOwn {s : State} {e : OwnEvent} {t : Nat} (h : s.timeTo e = some t) :
    (takeOwn s e).ownLeft < s.ownLeft := by
  cases e with
  | pauseEnd =>
    have h : s.link.pause = some t := h
    unfold takeOwn
    rw [ownLeft_settle]
    simp [State.ownLeft, State.openCount, h]
  | flush =>
    have h : s.out.flush = some t := h
    unfold takeOwn
    dsimp only
    rw [ownLeft_settle]
    have f := State.ChangesOnly.then ((completeApply_changes s).mono (l' := [.staging, .heads, .tags, .route, .thresholds, .responses,
      .flushTimer, .batch, .gap, .geometryQueue, .eventQueue, .status]) (by decide)) (flushBatch_changes _) (by decide)
    have a := ownRest_eq f (by decide)
    have c : _ = s.run.state := f .runState (by decide)
    have d := openCount_eq (f .table (by decide))
    generalize flushBatch (completeApply s) = u at a c d
    unfold State.ownLeft
    unfold State.ownRest at a
    simp only [State.openCount, h, State.withOut_table, State.withOut_run, State.withOut_link, State.withOut_mark,
      State.withOut_dist, State.withOut_out, Option.isSome_none, Option.isSome_some, Bool.toNat_false, Bool.toNat_true] at *
    rw [c, d]
    omega
  | pulseEnd side =>
    cases side
    · have h : s.mark.pulseL = some t := h
      unfold takeOwn
      rw [ownLeft_settle]
      simp [State.ownLeft, State.openCount, h]
    · have h : s.mark.pulseR = some t := h
      unfold takeOwn
      rw [ownLeft_settle]
      simp [State.ownLeft, State.openCount, h]
  | deadline station =>
    unfold takeOwn
    dsimp only
    cases hp : s.openEntry station with
    | none => simp [State.timeTo, hp] at h
    | some p =>
      dsimp only
      rw [ownLeft_settle]
      have ho := List.find?_some hp
      simp only [Bool.and_eq_true] at ho
      have lt := openCount_closeStation (List.mem_of_find?_eq_some hp) ho.2
      have le := openCount_closeAnswered (closeStation s p).table.length (closeStation s p)
      have f := (closeStation_changes s p).trans (closeAnswered_changes (closeStation s p).table.length _)
      have a := ownRest_eq f (by decide)
      have c : _ = s.run.state := f .runState (by decide)
      generalize closeAnswered (closeStation s p) (closeStation s p).table.length = u at le a c
      have := Bool.toNat_le u.out.flush.isSome
      unfold State.ownLeft
      unfold State.ownRest at a
      rw [c]
      omega
  | stampTimeout =>
    have h : s.dist.stampValid = true := by
      unfold State.timeTo at h
      dsimp only at h
      split at h
      · assumption
      · cases h
    unfold takeOwn
    rw [ownLeft_settle]
    simp [State.ownLeft, State.openCount, h]
  | drain =>
    have h : s.run.state = .draining := by
      unfold State.timeTo at h
      dsimp only at h
      split at h
      · rename_i hd; exact hd.1
      · cases h
    unfold takeOwn
    rw [ownLeft_settle]
    have f := completeDrain_changes s
    have a := ownRest_eq f (by decide)
    have d := openCount_eq (f .table (by decide))
    have c : (completeDrain s).run.state = .idle := rfl
    have := Bool.toNat_le (completeDrain s).out.flush.isSome
    unfold State.ownLeft
    unfold State.ownRest at a
    rw [c, d, h]
    simp only [beq_self_eq_true, show (RunState.idle == .draining) = false from rfl, Bool.toNat_true, Bool.toNat_false]
    omega

theorem ownLeft_elapse (n : Nat) (s : State) : (elapse n s).ownLeft = s.ownLeft := by
  simp [State.ownLeft, State.openCount, elapse, countDown]

theorem ownLeft_pick {α : Type} (s : State) (first : α) (rest : List α) : (s.pick first rest).2.ownLeft = s.ownLeft := by
  cases rest <;> rfl

theorem timeUntil_later {now moment : Word} {t : Nat} (h : t ≤ timeUntil now moment) :
    timeUntil (now + BitVec.ofNat 32 t) moment = timeUntil now moment - t := by
  unfold timeUntil at *
  have ht : (BitVec.ofNat 32 t).toNat = t % 2 ^ 32 := BitVec.toNat_ofNat t 32
  split at h
  · obtain rfl : t = 0 := by omega
    simp
  · have := (moment - now).isLt
    split <;> rename_i h1 h2 <;>
      simp only [BitVec.toNat_sub, BitVec.toNat_add, ht] at * <;> omega

/-- The moment of an event that is to come is nearer by the µs that pass. -/
theorem timeTo_elapse {s : State} {e : OwnEvent} {t t' : Nat} (h : s.timeTo e = some t') (ht : t ≤ t') :
    (elapse t s).timeTo e = some (t' - t) := by
  have timer : ∀ {x : Option Nat}, x = some t' → countDown t x = some (t' - t) := fun hx => by rw [hx]; rfl
  cases e with
  | pauseEnd => exact timer h
  | flush => exact timer h
  | pulseEnd side => cases side <;> exact timer h
  | deadline station =>
    simp only [State.timeTo, Option.map_eq_some_iff] at h
    obtain ⟨p, hp, rfl⟩ := h
    have hp' : (elapse t s).openEntry station = some p := hp
    simp only [State.timeTo, hp', Option.map_some]
    exact congrArg some (timeUntil_later ht)
  | stampTimeout =>
    simp only [State.timeTo] at h
    split at h
    · rename_i hv
      have hv' : (elapse t s).dist.stampValid = true := hv
      simp only [State.timeTo, hv', if_true]
      cases h
      have e1 : (elapse t s).time = s.time + BitVec.ofNat 32 t := rfl
      have e2 : (elapse t s).dist.prevStamp = s.dist.prevStamp := rfl
      have e3 : (BitVec.ofNat 32 t).toNat = t % 2 ^ 32 := BitVec.toNat_ofNat t 32
      rw [e1, e2]
      simp only [BitVec.toNat_sub, BitVec.toNat_add, e3] at *
      congr 1
      omega
    · cases h
  | drain =>
    simp only [State.timeTo] at h
    split at h
    · rename_i hd
      have hd' : (elapse t s).DrainReady := hd
      cases h
      simp only [State.timeTo, if_pos hd']
      congr 1
      omega
    · cases h

theorem timeTo_pick {α : Type} (s : State) (first : α) (rest : List α) (e : OwnEvent) :
    (s.pick first rest).2.timeTo e = s.timeTo e := by
  cases rest with
  | nil => rfl
  | cons => cases e with
    | pulseEnd side => cases side <;> rfl
    | _ => rfl

/-- What `soonest` tells: nothing is to come, or something comes then and nothing sooner. -/
theorem soonest_spec (s : State) :
    match s.soonest with
    | none => ∀ e, s.timeTo e = none
    | some t => s.comingIn t ≠ [] ∧ ∀ e t', s.timeTo e = some t' → t ≤ t' := by
  have listed : ∀ e t, s.timeTo e = some t → e ∈ s.ownEvents := by
    intro e t h
    unfold State.ownEvents
    cases e with
    | deadline station =>
      refine List.mem_append_right _ (List.mem_map.mpr ?_)
      cases hp : s.openEntry station with
      | none => simp [State.timeTo, hp] at h
      | some p =>
        have hs := List.find?_some hp
        simp only [Bool.and_eq_true, beq_iff_eq] at hs
        exact ⟨p, List.mem_filter.mpr ⟨List.mem_of_find?_eq_some hp, hs.2⟩, by rw [hs.1]⟩
    | pulseEnd side => cases side <;> exact List.mem_append_left _ (by decide)
    | pauseEnd | flush | stampTimeout | drain => exact List.mem_append_left _ (by decide)
  split
  · rename_i h
    intro e
    cases he : s.timeTo e with
    | none => rfl
    | some t =>
      have hm : t ∈ s.ownEvents.filterMap s.timeTo := List.mem_filterMap.mpr ⟨e, listed e t he, he⟩
      rw [State.soonest, List.min?_eq_none_iff] at h
      rw [h] at hm
      cases hm
  · rename_i t h
    rw [State.soonest, List.min?_eq_some_iff] at h
    obtain ⟨e, he, ht⟩ := List.mem_filterMap.mp h.1
    refine ⟨List.ne_nil_of_mem (List.mem_filter.mpr ⟨he, by simpa using ht⟩), fun e' t' h' => ?_⟩
    exact h.2 t' (List.mem_filterMap.mpr ⟨e', listed e' t' h', h'⟩)

theorem pick_mem {α : Type} (s : State) (first : α) (rest : List α) : (s.pick first rest).1 ∈ first :: rest := by
  cases rest with
  | nil => exact List.mem_cons_self
  | cons second rest =>
    have h : Config.freeOrder s.draws % (first :: second :: rest).length < (first :: second :: rest).length :=
      Nat.mod_lt _ (by simp)
    show (first :: second :: rest).getD _ first ∈ _
    rw [List.getD_eq_getElem _ _ h]
    exact List.getElem_mem h

/-- The passing of time ends in µs in which no event of the part's own comes. -/
theorem passTime_ends (fuel n : Nat) (s : State) (h : s.ownLeft < fuel) :
    ∃ (w : State) (k : Nat), passTime fuel n s = elapse k w ∧ k ≤ n ∧ (0 < n → 0 < k)
      ∧ ∀ e t, w.timeTo e = some t → k ≤ t := by
  induction fuel generalizing n s with
  | zero => omega
  | succ fuel ih =>
    have spec := soonest_spec s
    unfold passTime
    cases hs : s.soonest with
    | none =>
      rw [hs] at spec
      exact ⟨s, n, rfl, Nat.le_refl n, id, fun e t he => by rw [spec e] at he; cases he⟩
    | some t =>
      rw [hs] at spec
      dsimp only
      by_cases ht : t < n
      · rw [if_pos ht]
        cases hc : s.comingIn t with
        | nil => exact (spec.1 hc).elim
        | cons e rest =>
          dsimp only
          have mem : ((elapse t s).pick e rest).1 ∈ s.comingIn t := hc ▸ pick_mem _ e rest
          have came := List.mem_filter.mp mem
          have moment : ((elapse t s).pick e rest).2.timeTo ((elapse t s).pick e rest).1 = some (t - t) := by
            rw [timeTo_pick]
            exact timeTo_elapse (by simpa using came.2) (Nat.le_refl t)
          have fewer := ownLeft_takeOwn moment
          rw [ownLeft_pick, ownLeft_elapse] at fewer
          obtain ⟨w, k, hw, hk, hpos, hq⟩ := ih (n - t)
            (takeOwn ((elapse t s).pick e rest).2 ((elapse t s).pick e rest).1) (by omega)
          exact ⟨w, k, hw, by omega, fun _ => hpos (by omega), hq⟩
      · rw [if_neg ht]
        exact ⟨s, n, rfl, Nat.le_refl n, id, fun e t' he => by have := spec.2 e t' he; omega⟩

/-- What `State.after` does: the state in the end is that of a moment after which no event of the part's own comes. -/
theorem after_ends (s : State) (n : Nat) :
    ∃ (w : State) (k : Nat), s.after n = elapse k w ∧ k ≤ n ∧ (0 < n → 0 < k) ∧ ∀ e t, w.timeTo e = some t → k ≤ t :=
  passTime_ends _ n s (ownLeft_lt_bound s)

/-- Where nothing of the part's own comes before the end, only the time passes. -/
theorem after_eq_elapse {s : State} {n : Nat} (h : ∀ e t, s.timeTo e = some t → n ≤ t) : s.after n = elapse n s := by
  have spec := soonest_spec s
  have hf : s.ownEventBound = (2 * s.table.length + 7) + 1 := rfl
  unfold State.after
  rw [hf]
  unfold passTime
  cases hs : s.soonest with
  | none => rfl
  | some t =>
    rw [hs] at spec
    dsimp only
    rw [if_neg]
    intro ht
    cases hc : s.comingIn t with
    | nil => exact spec.1 hc
    | cons e rest =>
      have mem : e ∈ s.comingIn t := hc ▸ List.mem_cons_self
      have := h e t (by simpa using (List.mem_filter.mp mem).2)
      omega

end Sys2Proof.Machine
end

