-- ==== Sys2Proof/WellFormed.lean ====
section
/-! DEFINITION. Which commands are well formed: the operands within the widths of the spec. -/

namespace Sys2Proof

/-- An interval the time base can measure: up to 2^32 − 1 µs (R39). -/
abbrev WaitOk (wait : Nat) : Prop := wait < 2 ^ 32

/-- The operands lie within the spec's widths: waits as the time base measures them (R39), a station number
in 32 bits (R41). A delimited frame may hold any bytes (R2 judges them), and the other commands have no operand to judge. -/
def Instr.wf : Instr → Bool
  | .hardwareReset _ _ _ => true
  | .portUp wait _ => decide (WaitOk wait)
  | .portDown wait _ _ => decide (WaitOk wait)
  | .portAReceive wait _ => decide (WaitOk wait)
  | .portBReceive wait _ => decide (WaitOk wait)
  | .portATransmitEnd wait => decide (WaitOk wait)
  | .portBTransmitEnd wait => decide (WaitOk wait)
  | .pauseExpiry => true
  | .encoderChange wait _ _ => decide (WaitOk wait)
  | .stampValidTimeout => true
  | .deadlineExpiry station => decide (station < 2 ^ 32)
  | .markPulseExpiry _ => true
  | .flushTimerExpiry => true
  | .drainComplete => true
  | .queryStatus => true
  | .clearStatus => true
  | .setParam => true
  | .getParam => true
  | .tableOpen => true
  | .tableLine => true
  | .tableApply => true
  | .tableAbort => true
  | .readEntry => true
  | .runStart => true
  | .runStop => true
  | .setChainage => true
  | .readCounters => true
  | .softReset => true
  | .unknownRequest => true

end Sys2Proof
end

