-- ==== Sys2Proof/Tests/Slice0.lean ====
section
/-! SUPPORT. Tests: the well-formedness smoke, the worked examples and tables of spec/, one small step for every command,
and for each statement with hypotheses a witness that they can be met. -/

namespace Sys2Proof.Tests

set_option Elab.async false

open Sys2Proof Sys2Proof.Machine

/-! ### Well-formedness -/

theorem test_wf_takes_the_longest_wait : (Instr.portATransmitEnd 0xFFFFFFFF).wf = true := by decide
theorem test_wf_refuses_long_wait_port_up : (Instr.portUp (2 ^ 32) .A).wf = false := by decide
theorem test_wf_refuses_long_wait_port_down : (Instr.portDown (2 ^ 32) .B true).wf = false := by decide
theorem test_wf_refuses_long_wait_receive_A : (Instr.portAReceive (2 ^ 32) []).wf = false := by decide
theorem test_wf_refuses_long_wait_receive_B : (Instr.portBReceive (2 ^ 32) []).wf = false := by decide
theorem test_wf_refuses_long_wait_transmit_end_A : (Instr.portATransmitEnd (2 ^ 32)).wf = false := by decide
theorem test_wf_refuses_long_wait_transmit_end_B : (Instr.portBTransmitEnd (2 ^ 32)).wf = false := by decide
theorem test_wf_refuses_long_wait_encoder : (Instr.encoderChange (2 ^ 32) true false).wf = false := by decide
theorem test_wf_refuses_wide_station : (Instr.deadlineExpiry (2 ^ 32)).wf = false := by decide

/-! ### States and frames for the tests -/

/-- The state a command leaves. -/
def after (c : Instr) (s : State) : State :=
  match exec c s with
  | .next t => t
  | _ => s

def member (addr : Byte) (role : Role) (phase : Phase) (active : Bool := true) : Head :=
  { cfg := { addr := addr, role := role, phase := phase, maxRate := 800, maxReturns := 8, minStrength := 60,
             lateralOffset := 0, verticalOffset := 0, rollOffset := 0 }
    active := active }

/-- A head on each rail and a body head. -/
def crew : List Head := [member 0x21 .leftProfile .both, member 0x23 .rightProfile .both, member 0x24 .bodyMotion .both]

/-- In IDLE, with a roster and both ports UP. -/
def live : State := { link := { upA := true, upB := true }, heads := crew }

/-- Station 0 fired and OPEN, in RUNNING. -/
def running : State :=
  { live with
    run := { state := .running, id := 7, highWater := 352 }
    dist := { odometer := 23120000, next := 1, stampValid := true }
    table := [{ number := 0, nominal := 0, stamp := 0, speed := 0, speedUnknown := true, deadline := 3000,
                members := answerSet crew 0 0 }] }

/-- Nothing pending, in DRAINING, with one station in the ring. -/
def draining : State :=
  { live with
    run := { state := .draining, id := 7, highWater := 352, distanceAtStop := 352, tallies := { stations := 1 } }
    dist := { odometer := 23120000, next := 1, stampValid := true }
    loc := { status := .set, entryNumber := 1 }
    ring := { stations := [{ number := 0, nominal := 0, chainage := 0, epoch := 0, speed := 0, speedUnknown := true,
                             skipped := false, doubtful := false, inputs := {}, derived := {} }] } }

/-- Station 0 still OPEN, in DRAINING. -/
def emptying : State := { running with run := { running.run with state := .draining, distanceAtStop := 352 } }

/-- A request frame of the recorder, and a state with one at the head of the intake. -/
def request (payload : List Byte) : Frame := { dst := 0x10, src := 0x80, kind := 0x10, payload := payload }
def asked (s : State) (payload : List Byte) : State := s.withReq { s.req with intake := [request payload] }

/-- The payload on port B's line after a command. -/
def sentB (c : Instr) (s : State) : Option (List Byte) := (after c s).link.lineB.map (·.payload)

/-- The bytes on the link of a frame for the 740. -/
def sent (src kind : Byte) (payload : List Byte) : List Byte :=
  ({ dst := 0x10, src := src, kind := kind, payload := payload } : Frame).bytes

/-! ### The survey link: Table 1-2, R4, R8, R11, R12, R15, Table 1-4 -/

theorem test_check_table_1_2 :
    (crcByte 0xFFFF 0x12, crc [0x12, 0x80], crc [0x12, 0x80, 0x30, 0x02], crc [0x12, 0x80, 0x30, 0x02, 0x03, 0xE8])
      = ((0xD383, 0xE996, 0x6C82, 0xD6F8) : Half × Half × Half × Half) := by decide +kernel

theorem test_hardware_reset_takes_straps : (after (.hardwareReset 2 true false) running).link.ownAddr = 0x12 := by decide

theorem test_port_up_starts_waiting_frame :
    (after (.portUp 0 .B) { link := { forwardAB := [request []] } }).link.lineB = some (request []) := by decide +kernel

theorem test_port_down_discards_fires :
    (after (.portDown 0 .A true) { live with link := { upA := true, fires := [request []] } }).link.fires = []
      ∧ (after (.portDown 0 .A true) live).link.countersA.errors = 1 := by decide +kernel

theorem test_receive_A_forwards :
    (after (.portAReceive 0 (sent 0x21 0x40 [1])) { live with link := { upA := true } }).link.countersA.forwarded = 1 := by
  decide +kernel

/-- The PAUSE of 1.2.1, to its address 0x12. -/
theorem test_receive_B_pause :
    (after (.portBReceive 0 [0x12, 0x80, 0x30, 0x02, 0x03, 0xE8, 0xD6, 0xF8]) live).link.pause = some 1000 := by decide +kernel

theorem test_receive_B_wrong_check :
    (after (.portBReceive 0 [0x12, 0x80, 0x30, 0x02, 0x03, 0xE9, 0xD6, 0xF8]) live).link.countersB.errors = 1 := by
  decide +kernel

theorem test_transmit_end_A_prefers_fire :
    let f : Frame := { dst := 0xFF, src := 0x10, kind := 0x01, payload := [0, 0, 0, 0, 0] }
    (after (.portATransmitEnd 0) { link := { upA := true, fires := [f], forwardBA := [request []] } }).link.lineA = some f := by
  decide +kernel

/-- The eighth row of Table 1-4: geometry and forward tie at 3, geometry is first in the fixed order. -/
theorem test_transmit_end_B_tie :
    let g : Frame := { dst := 0x80, src := 0x10, kind := 0x20, payload := [2] }
    (after (.portBTransmitEnd 0) { link := { upB := true, forwardAB := [request []] }, params := { prioGeometry := 3 }
                                   out := { geometry := [g] } }).link.lineB = some g := by decide +kernel

/-- A pause of 100 µs is over when a frame in progress ends 200 µs later (R15). -/
theorem test_transmit_end_B_after_the_pause :
    (after (.portBTransmitEnd 200) { link := { upB := true, pause := some 100, lineB := some (request [1])
                                               forwardAB := [request []] } }).link.lineB = some (request []) := by decide +kernel

theorem test_pause_expiry_lets_a_frame_start :
    let t := after .pauseExpiry { link := { upB := true, pause := some 500, forwardAB := [request []] } }
    t.link.pause = none ∧ t.link.lineB = some (request []) ∧ t.time = 500 := by decide +kernel

/-! ### Runs: Table 2-2, R19, R25, R27, R30, R117 -/

theorem test_chords_table_2_2 :
    [125000, 250000, 500000].map (fun s => (crossCheck { spacing := s }).map fun c => [c.short, c.long, c.twist])
      = [some [40, 120, 24], some [20, 60, 12], some [10, 30, 6]] := by decide +kernel

/-- RUN_START at chainage 41,250,000 (0x02756CD0), INCREASING, run id 17; a FIRE of the run before is gone (R76). -/
theorem test_run_start :
    let s : State := { live with link := { upA := true, upB := true, lineA := some (request []), fires := [request []] } }
    let t := after .runStart (asked s [0, 9, 0x0A, 0x02, 0x75, 0x6C, 0xD0, 0, 0, 17])
    t.link.fires = [] ∧ t.run.state = .running ∧ t.run.id = 17 ∧ t.run.startChainage = 41250000 ∧ t.ring.long = 60 := by decide +kernel

theorem test_run_start_without_body_head :
    sentB .runStart (asked { live with heads := crew.take 2 } [0, 9, 0x0A, 0, 0, 0, 0, 0, 0, 17]) = some [0, 9, 0x0A, 0x04] := by
  decide +kernel

theorem test_run_stop :
    let t := after .runStop (asked running [0, 9, 0x0B])
    t.run.state = .draining ∧ t.run.distanceAtStop = 352 := by decide +kernel

/-- 6.3.1: SET_CHAINAGE to 43,094,200 (0x029190B8) with entry number 7240. -/
theorem test_set_chainage :
    let t := after .setChainage (asked
      { live with run := { state := .running, startChainage := 41250000 }
                  loc := { correction := -287, epoch := 2, status := .doubtful, entryNumber := 7240 } }
      [0, 9, 0x0C, 0x02, 0x91, 0x90, 0xB8])
    t.loc.correction = 34200 ∧ t.loc.epoch = 3 ∧ t.loc.status = .set := by decide +kernel

/-- With the pending table empty in DRAINING the drain completes first: the request waits (R27, R117). -/
theorem test_set_chainage_waits_for_the_drain :
    let s := asked draining [0, 9, 0x0C, 0, 0, 0, 1]
    exec .setChainage s = .next s ∧ (after .setChainage (after .drainComplete s)).req.intake = [] := ⟨rfl, by decide +kernel⟩

theorem test_drain_complete :
    let t := after .drainComplete draining
    t.run.state = .idle ∧ t.ring.stations = [] ∧ t.run.tallies.voidStations = 1 ∧ t.ring.next = 1 := by decide +kernel

/-- A SOFT_RESET does not wait for a drain (R31). -/
theorem test_soft_reset_before_the_drain :
    (after .softReset (asked draining [0, 9, 0x0E])).run.state = .idle
      ∧ (after .softReset (asked draining [0, 9, 0x0E])).run.tallies.stations = 0 := by decide +kernel

theorem test_soft_reset :
    let t := after .softReset (asked running [0, 9, 0x0E])
    t.run.state = .idle ∧ t.table = [] ∧ t.run.highWater = 352 := by decide +kernel

/-! ### Distance, speed and firing: Tables 3-1 and 3-2, R33, R38, R47, R49 -/

theorem test_count_lengths_table_3_1 :
    [countLengthOf {}, countLengthOf { encCpr := 4000, wheelCirc := 2827433 },
     countLengthOf { encCpr := 16384, wheelCirc := 2400000 }, countLengthOf { encCpr := 400, wheelCirc := 3600000 }]
      = [23120000, 46324662, 9600000, 589824000] := by decide +kernel

/-- 3.2.1: after 12 forward counts, and one count behind the origin. -/
theorem test_run_distance :
    ({ dist := { odometer := 277440000 } } : State).runDistance = 4233
      ∧ ({ dist := { odometer := BitVec.ofInt 64 (-23120000) } } : State).runDistance = -353 := by decide +kernel

theorem test_speeds_table_3_2 :
    [speedOver 250000 2812, speedOver 125000 1406, speedOver 125000 1407, speedOver 500000 18000, speedOver 500000 2000]
      = [32006, 32006, 31983, 10000, 65535] := by decide +kernel

theorem test_required_rates :
    [requiredRate 32006 250, requiredRate 32006 125, requiredRate 31983 125, requiredRate 65535 125]
      = [355, 711, 710, 1456] := by decide +kernel

/-- 3.4.1: station 0 is due on the first forward count. -/
theorem test_encoder_fires_station_0 :
    let t := after (.encoderChange 5 true false) { live with run := { state := .running } }
    t.run.highWater = 352 ∧ t.dist.next = 1 ∧ (t.table.map (·.deadline)) = [3005] ∧ t.dist.lastUnknown = true := by
  decide +kernel

theorem test_encoder_reverse_suspends :
    (after (.encoderChange 5 false true) running).run.state = .suspended := by decide +kernel

theorem test_stamp_valid_timeout :
    let t := after .stampValidTimeout { dist := { stampValid := true, prevStamp := 10 }, time := 20 }
    t.dist.stampValid = false ∧ t.time = 0x8000000A := by decide +kernel

/-- A stand of 2^31 µs or more inside a wait clears the indication (R47). -/
theorem test_stamp_valid_clears_in_a_wait :
    let s : State := { dist := { stampValid := true }, time := 1000 }
    (s.after 0xFFFFFFFF).dist.stampValid = false ∧ (s.after 0x7FFFFC18).dist.stampValid = true := by decide +kernel

/-! ### Heads and station assembly: Table 4-2, Table 4-3, 4.8.1, R61 -/

/-- The roster of Table 4-2. -/
def pair (evenActive oddActive : Bool) : List Head :=
  [member 0x21 .leftProfile .even evenActive, member 0x22 .leftProfile .odd oddActive, member 0x23 .rightProfile .both,
   member 0x24 .bodyMotion .both]

theorem test_answer_sets_table_4_2 :
    [answerSet (pair true true) 500 355, answerSet (pair true true) 501 355, answerSet (pair true false) 500 355,
     answerSet (pair true false) 501 355, answerSet (pair true false) 501 1100, answerSet (pair false false) 501 355].map
        (·.map (·.addr))
      = [[0x21, 0x23, 0x24], [0x22, 0x23, 0x24], [0x21, 0x23, 0x24], [0x21, 0x22, 0x23, 0x24], [0x22, 0x23, 0x24],
         [0x22, 0x23, 0x24]] := by decide +kernel

theorem test_gauge_point_4_8_1 :
    let returns (depth : Int) : List Return := [⟨some (-71790), some 900, 40⟩, ⟨some (-71805), some 1350, 180⟩,
      ⟨some (-71812), some depth, 175⟩]
    gaugePoint {} .left 60 (returns 1460) = some (-71805) ∧ gaugePoint {} .left 60 (returns 1450) = some (-71805)
      ∧ gaugePoint {} .right 60 (returns 1450) = some (-71812) := by decide +kernel

/-- The pending table of 4.6.1, from 801 on. -/
def judged : State :=
  let entry (n : Nat) (skips : Nat) (sample : Option Sample) : PendingStation :=
    { number := n, nominal := n * 250000, stamp := 0, speed := 0, speedUnknown := true, deadline := 3000, skips := skips
      members := [{ addr := 0x21, part := .regular .left, sample := sample }, { addr := 0x23, part := .regular .right }] }
  { live with
    run := { state := .running }, dist := { next := 805 }
    table := [entry 802 1 (some (.profile .ok none none)), entry 804 0 none]
    heads := [{ member 0x21 .leftProfile .both with cfg := { (member 0x21 .leftProfile .both).cfg with maxReturns := 3 } },
              member 0x23 .rightProfile .both] }

/-- A profile sample of 0x21 for a station, with some returns. -/
def profile (station : Nat) (returns : Nat) : List Byte :=
  nat32 station ++ [0, 1] ++ int32 (-62010) ++ nat8 returns
    ++ (List.replicate returns (int32 (-71805) ++ int32 1350 ++ [180])).flatten

theorem test_samples_table_4_3 :
    ([(805, 2), (801, 2), (803, 2), (802, 2), (804, 4), (804, 2)].map fun (n, k) =>
      ((sampleIntake judged (judged.heads.headD (member 0 .leftProfile .both)) (profile n k)).findHead 0x21).map fun h =>
        [h.malformed, h.late, h.unasked, h.duplicate, h.accepted])
      = [some [1, 0, 0, 0, 0], some [0, 1, 0, 0, 0], some [0, 0, 1, 0, 0], some [0, 0, 0, 1, 0], some [1, 0, 0, 0, 0],
         some [0, 0, 0, 0, 1]] := by decide +kernel

theorem test_deadline_closes_station_0 :
    let t := after (.deadlineExpiry 0) running
    t.time = 3000 ∧ t.table = [] ∧ t.loc.entryNumber = 1 ∧ t.heads.map (·.missed) = [1, 1, 1] := by decide +kernel

/-! ### Geometry: Tables 5-7, 5-8, 5-9, 5.11.3, 5.11.4 -/

def inputs : Inputs :=
  { aL := some (-71805), aR := some 71790, hL := some (-62010), hR := some (-62440), r := some (-1200), yb := some 320, zb := some 1520 }

theorem test_derived_table_5_7 :
    derive {} inputs = { g := some 143595, x := some 250, zl := some (-60580), zr := some (-60830), yl := some (-71431)
                         yr := some 72164, yc := some 367 } := by decide +kernel

def station (n : Nat) (d : Derived) : StationRecord :=
  { number := n, nominal := 0, chainage := 0, epoch := 0, speed := 32006, speedUnknown := false, skipped := false
    doubtful := false, inputs := {}, derived := d }

/-- The ring about station m = 100. -/
def about : Ring :=
  { stations := [station 40 { yc := some 352 },
                 station 80 { zl := some (-60610), zr := some (-60860), yl := some (-71440), yr := some 72150 },
                 station 88 { x := some 100 },
                 station 120 { zl := some (-60571), zr := some (-60815), yl := some (-71418), yr := some 72171 },
                 station 160 { yc := some 375 }] }

theorem test_channels_table_5_8 :
    (formedValues (formChannels {} about 160 (station 100 (derive {} inputs)))).toList
      = [some 95, some 250, some 150, some (-11), some (-8), some 2, some (-4), some (-4)] := by decide +kernel

theorem test_orientation_table_5_9 :
    (toLineFrame .decreasing ⟨some 95, some (-250), some 150, some (-8), some (-11), some 4, some (-2), some 4⟩).toList
      = [some 95, some 250, some 150, some (-11), some (-8), some 2, some (-4), some (-4)] := by decide +kernel

theorem test_transition_5_11_3 :
    designVersine 375 60 250 = 4219 ∧ versine (some 2180) (some 2120) (some (-2100)) = some 4250 := by decide +kernel

theorem test_clipping_5_11_4 :
    let e := evaluate {} .increasing [] about 160 (station 100 { g := some 177000 })
    e.values.gauge = some 32767 ∧ e.flags.clipped = true := by decide +kernel

/-! ### Location: 6.1.1, 6.2.1, Table 6-2 -/

theorem test_chainage_6_1_1 :
    ({ run := { startChainage := 41250000 } } : State).stationChainage 3247 = 42061750
      ∧ ({ run := { startChainage := 58400000, direction := .decreasing }, loc := { correction := 40 } } : State).stationChainage 1000
        = 58150040 := by decide +kernel

/-- A state of the run of 6.2.1 at a run distance, with a last speed. -/
def tagged (distance : Nat) (speed : Nat) (loc : Location) : State :=
  { live with
    run := { state := .running, startChainage := 41250000 }, params := { tagOffset := 3500 }
    dist := { odometer := BitVec.ofNat 64 (distance * 65536), lastSpeed := speed, lastUnknown := false }, loc := loc }

theorem test_tag_70412 :
    let t := judgeTag (tagged 812406530 32006 { entryNumber := 3248 }) 70412 2000 42065600
    t.loc.correction = -129 ∧ t.loc.epoch = 1 ∧ t.loc.previousTag = some ⟨815728719, 42065600⟩ := by decide +kernel

theorem test_tag_70413_ratio :
    let s := tagged 1312400190 31983 { correction := -129, epoch := 1, previousTag := some ⟨815728719, 42065600⟩ }
    (judgeTag s 70413 1500 42565480).loc.correction = -287
      ∧ distanceRatio s.loc.previousTag (s.tagPosition 1500) 42565480 = some (-316) := by decide +kernel

theorem test_tag_70414_rejected :
    let t := judgeTag (tagged 1809750000 0 { correction := -287, epoch := 2 }) 70414 0 43094368
    t.loc.correction = -287 ∧ t.loc.status = .doubtful ∧ t.status.has .locationRejected = true := by decide +kernel

def route : List Segment :=
  [⟨11500000, 500000, 0, 0, 0, 0, 5, false, false, 2104⟩, ⟨12000000, 80000, 0, 9000, 0, 1000, 5, false, false, 2104⟩,
   ⟨12080000, 640000, 9000, 9000, 1000, 1000, 5, false, false, 2104⟩, ⟨12900000, 1200, 0, 0, 0, 0, 4, true, false, 2104⟩]

theorem test_lookup_table_6_2 :
    ([11999999, 12000040, 12030000, 12079999, 12080000, 12800000, 12900600].map fun c =>
      let d := lookup route 1 (BitVec.ofNat 32 c)
      (d.cant, d.curvature, d.speedClass, d.suppressGauge))
      = [(0, 0, 5, false), (5, 1, 5, false), (3375, 375, 5, false), (9000, 1000, 5, false), (9000, 1000, 5, false),
         (0, 0, 1, false), (0, 0, 4, true)] := by decide +kernel

/-! ### Exceptions and marks: Tables 7-1 and 8-1 -/

def topLimits : Threshold :=
  { speedClass := 5, channel := 3, enabled := true, level1 := ⟨true, -600, 600⟩, level2 := ⟨true, -1000, 1000⟩
    level3 := ⟨true, -1500, 1500⟩, hysteresis := 100, minLength := 4 }

def evaluated (n : Nat) (topL : Option Int) : EvaluatedStation :=
  { number := n, nominal := n * 250000, chainage := 12100000 + BitVec.ofNat 32 ((n - 2000) * 250), epoch := 2, speed := 24500
    flags := {}, speedClass := 5, suppressGauge := false, suppressAll := false, lineCode := some 2104
    values := ⟨none, none, none, topL, none, none, none, none⟩ }

def topSeries : List EvaluatedStation :=
  [evaluated 2001 (some 650), evaluated 2002 (some 980), evaluated 2003 (some 1120), evaluated 2004 none,
   evaluated 2005 (some 1120), evaluated 2006 (some 560)]

/-- Table 7-1 down to station 2006. -/
theorem test_exception_table_7_1 :
    let s := topSeries.foldl (fun s e => judgeChannel e s .topL) { live with det := { thresholds := [topLimits] } }
    (s.det.opened.topL.map fun x => (x.severity, x.start.number, x.peak.number, x.peak.excess, x.lastNonVoid.number, x.voidCount))
      = some (2, 2001, 2003, 520, 2006, 0) := by decide +kernel

/-- Its close at station 2007: severity 2, start 2001, end 2006, length 6, peak 1120 at 2003, speed 24500, class 5, line code 2104. -/
theorem test_exception_record_7_3_1 :
    let s := topSeries.foldl (fun s e => judgeChannel e s .topL) { live with det := { thresholds := [topLimits] } }
    ((judgeChannel (evaluated 2007 (some 480)) s .topL).det.queue.map (·.payload)) =
      [[1, 0, 0, 3, 2, 2, 32] ++ nat32 2001 ++ nat32 12100250 ++ nat32 2006 ++ nat32 12101500 ++ nat32 6 ++ int16 1120
        ++ nat32 2003 ++ nat32 12100750 ++ nat16 24500 ++ [5] ++ nat16 2104] := by decide +kernel

/-- The unit of 8.4.1: the run starts at odometer position 1,000,000,000 µm. -/
def marker (position : Nat) (spray : Nat) (queue : List Mark) : State :=
  { live with
    run := { state := .running, origin := 65536000000000 }
    dist := { odometer := BitVec.ofNat 64 (position * 65536) }
    params := { sprayOffset := spray }, mark := { queue := queue } }

theorem test_marks_table_8_1 :
    (requestMark (marker 1515912000 24000 []) ⟨2003, 500750000, 24500, .topL⟩).mark.queue = [⟨1522708333, ⟨true, false⟩⟩]
      ∧ (requestMark (marker 1517662000 24000 [⟨1522708333, ⟨true, false⟩⟩]) ⟨2010, 502500000, 24500, .alignR⟩).mark.queue
        = [⟨1522708333, ⟨true, true⟩⟩]
      ∧ (requestMark (marker 1519662000 24000 [⟨1522708333, ⟨true, true⟩⟩]) ⟨2018, 504500000, 24500, .xlevel⟩).mark.queue
        = [⟨1522708333, ⟨true, true⟩⟩, ⟨1526458333, ⟨true, true⟩⟩]
      ∧ (requestMark (marker 1515912000 12000 []) ⟨2003, 500750000, 24500, .topL⟩).mark.dropped = 1 := by decide +kernel

theorem test_mark_pulse_expiry :
    let t := after (.markPulseExpiry .right) { mark := { pulseL := some 80000, pulseR := some 60000 } }
    t.mark.pulseR = none ∧ t.mark.pulseL = some 20000 ∧ t.time = 60000 := by decide +kernel

/-! ### The output stream: Table 9-1 -/

/-- The batch of Table 9-1 as station 5248 flushes it: six stations, a void run of 4, two stations. -/
def batch : Batch :=
  let x : BatchEntry := .station 0 32006 5 {} none ⟨some 0, none, none, none, none, none, none, none⟩
  { runId := 17, epoch := 1, first := 5236, entries := [x, x, x, x, x, x, .voidRun 4, x, x] }

theorem test_batch_refused_table_9_1 :
    (offerBatch { out := { geometry := List.replicate 7 (request []) } } batch).out.gap = some ⟨17, 5236, 17, 5247, 12⟩ := by
  decide +kernel

/-- 9.4.1: as two frames, part 2 has first station 5247 and one entry. -/
theorem test_batch_two_frames :
    ((offerBatch {} batch).out.geometry.map fun f => f.payload.take 10)
      = [[0, 17, 1] ++ nat32 5236 ++ [1, 2, 8], [0, 17, 1] ++ nat32 5247 ++ [2, 2, 1]] := by decide +kernel

theorem test_flush_timer_expiry :
    let t := after .flushTimerExpiry { live with out := { batch := some batch, flush := some 100000 } }
    t.out.batch = none ∧ t.out.flush = none ∧ t.out.geometry.length = 1 ∧ t.link.lineB.isSome = true := by decide +kernel

/-! ### Management: R170 to R181, Table 10-3 -/

theorem test_query_status :
    sentB .queryStatus (asked live [0, 5, 0x01])
      = some ([0, 5, 1, 0] ++ [0, 0, 0, 0, 0, 0, 0, 0, 0, 0, 0, 0, 0, 0, 3, 0, 0, 0, 0, 0, 0, 0, 0, 0, 0, 0, 0, 0, 1]) := by
  decide +kernel

/-- CLEAR_STATUS of bit 2 under generation 42: taken, and stale under generation 41. -/
theorem test_clear_status :
    let s : State := { live with status := { bits := 0b101, generation := 42 } }
    sentB .clearStatus (asked s [0, 5, 0x02, 0, 4, 0, 0, 0, 42]) = some [0, 5, 2, 0, 0, 1, 0, 0, 0, 42]
      ∧ sentB .clearStatus (asked s [0, 5, 0x02, 0, 4, 0, 0, 0, 41]) = some [0, 5, 2, 9, 0, 5, 0, 0, 0, 42] := by decide +kernel

/-- B_PRIO_GEOMETRY set to 3, as in Table 1-4; a run-locked parameter in RUNNING. -/
theorem test_set_param :
    (after .setParam (asked live [0, 5, 0x03, 5, 0, 0, 0, 3])).params.prioGeometry = 3
      ∧ sentB .setParam (asked running [0, 5, 0x03, 10, 0, 0, 0x10, 0]) = some [0, 5, 3, 1, 10, 0, 0, 0x20, 0] := by decide +kernel

theorem test_get_param : sentB .getParam (asked live [0, 5, 0x04, 63]) = some [0, 5, 4, 0, 63, 0, 0, 0, 60] := by decide +kernel

theorem test_table_open :
    (after .tableOpen (asked live [0, 5, 0x05, 3])).req.staging = .opened .route 0 []
      ∧ sentB .tableOpen (asked running [0, 5, 0x05, 1]) = some [0, 5, 5, 0x0F] := by decide +kernel

/-- The third row of Table 10-3: index 2 where 1 line has come. -/
theorem test_table_line :
    let s (lines : Nat) : State := { live with req := { staging := .opened .markerTags lines [] } }
    sentB .tableLine (asked (s 1) ([0, 5, 0x06, 0, 2, 1] ++ nat32 70412 ++ nat32 42065600)) = some [0, 5, 6, 7, 0, 1, 0, 0]
      ∧ sentB .tableLine (asked (s 1) ([0, 5, 0x06, 0, 1, 1] ++ nat32 70412 ++ nat32 42065600)) = some [0, 5, 6, 0, 0, 2, 0, 1] := by
  decide +kernel

/-- The last rows of Table 10-3: a wrong count, and an apply made pending in RUNNING. -/
theorem test_table_apply :
    let g : List Byte := int32 0 ++ nat32 1000 ++ [0, 0, 0, 0, 0, 0, 0, 0, 1, 0, 0, 0]
    let s : State := { running with req := { staging := .opened .route 1 [g] } }
    sentB .tableApply (asked s [0, 5, 0x07, 0, 2]) = some [0, 5, 7, 0x0C]
      ∧ (after .tableApply (asked s [0, 5, 0x07, 0, 1])).req.staging = .pending .route [g] 0x80 5
      ∧ (after .tableApply (asked s [0, 5, 0x07, 0, 1])).out.flush = some 100000 := by decide +kernel

theorem test_table_abort :
    (after .tableAbort (asked { live with req := { staging := .opened .route 1 [] } } [0, 5, 0x08])).req.staging = .closed := by
  decide +kernel

/-- An empty threshold table reports a disabled entry: index 11 is class 2, channel 3. -/
theorem test_read_entry :
    sentB .readEntry (asked live [0, 5, 0x09, 4, 0, 11])
      = some ([0, 5, 9, 0, 4, 0, 11, 0, 0, 2, 3] ++ List.replicate 16 0) := by decide +kernel

theorem test_read_counters_clears :
    let s : State := { live with link := { upB := true, countersA := { received := 3 } } }
    sentB .readCounters (asked s [0, 5, 0x0D, 1, 1]) = some ([0, 5, 13, 0, 1, 0, 0, 0, 3] ++ List.replicate 16 0)
      ∧ (after .readCounters (asked s [0, 5, 0x0D, 1, 1])).link.countersA.received = 0 := by decide +kernel

theorem test_unknown_request :
    sentB .unknownRequest (asked live [0, 5]) = some [0, 5, 0, 5] ∧ sentB .unknownRequest (asked live [0, 5, 0x0F, 1]) = some [0, 5, 15, 5] := by
  decide +kernel

/-! ### The queue and the idle step -/

theorem test_step_takes_the_front :
    (match step { live with pending := [.portDown 0 .A false, .softReset] } with
      | .next t => (t.link.upA, t.pending)
      | _ => (true, [])) = (false, [.softReset]) := by decide +kernel

theorem test_idle_step_enqueues_the_due_event :
    (match step { link := { pause := some 0 } } with
      | .next t => t.pending
      | _ => []) = [.pauseExpiry] := by decide +kernel

/-! ### Witnesses: each meets all the hypotheses of the statement it is named after, clause by clause -/

theorem asked_handles (s : State) (p : List Byte) (kind : RequestKind) (hk : requestKind p = kind)
    (hp : s.req.placesTaken < 4) (hd : kind = .setChainage → ¬s.DrainReady := by decide) : (asked s p).Handles kind (request p) [] := by
  refine ⟨rfl, hk, ?_, hd⟩
  simpa [asked, State.withReq, Requests.placesTaken] using hp

theorem witness_StepTakesFrontCommand :
    ({ pending := [.softReset, .runStop] } : State).pending = .softReset :: [.runStop] := rfl

theorem witness_IdleStepTakesDueEventOrTime :
    live.pending = [] ∧ live.dueEvents = [] ∧ ({ link := { pause := some 0 } } : State).dueEvents = [.pauseExpiry]
      ∧ (asked live [0, 5, 0x01]).dueEvents = [.queryStatus] ∧ (asked live [0, 5]).dueEvents = [.unknownRequest]
      ∧ (asked { emptying with table := [] } [0, 9, 0x0C, 0, 0, 0, 1]).dueEvents = [.drainComplete] := by decide +kernel

/-- A step from `running`, with the deadline of its station in the queue. -/
def stepping : State := { running with pending := [.deadlineExpiry 0] }

theorem witness_StepKeepsCapacities : stepping.WithinCapacities ∧ ∃ t, step stepping = .next t := by
  refine ⟨⟨by decide, by decide, by decide, nofun, by decide, by decide, by decide, by decide, by decide,
    by decide, by decide, by decide, by decide, by decide, by decide, by decide, nofun⟩, _, rfl⟩

theorem witness_StepKeepsTimerServing :
    ({ stepping with out := { batch := some batch, flush := some 5 } } : State).TimerServes ∧ ∃ t, step stepping = .next t :=
  ⟨rfl, _, rfl⟩

theorem witness_StepKeepsValuesInRange :
    stepping.TablesSound ∧ stepping.ValuesInRange ∧ ∃ t, step stepping = .next t := by
  refine ⟨⟨by decide, by decide, by decide, by decide, by decide, by decide, by decide, .nil, nofun, .inl rfl, nofun, trivial⟩,
    ⟨by intro id; cases id <;> decide, nofun, nofun, nofun, by decide,
    by decide, ?_⟩, _, rfl⟩
  intro ch x h
  cases ch <;> cases h

theorem witness_StepKeepsStationsInOrder :
    stepping.StationsInOrder ∧ live.StationsInOrder ∧ ∃ t, step stepping = .next t := by
  refine ⟨?_, ?_, _, rfl⟩
  · rw [State.StationsInOrder, if_neg (by decide)]
    exact ⟨⟨rfl, rfl⟩, by decide, by decide, by decide, by decide, nofun, by decide⟩
  · rw [State.StationsInOrder, if_pos (by decide)]
    exact ⟨rfl, rfl, rfl, by intro ch; cases ch <;> rfl⟩

theorem witness_StepKeepsDueOnSchedule :
    stepping.DueOnSchedule ∧ draining.DueOnSchedule ∧ ∃ t, step stepping = .next t := by
  refine ⟨⟨by decide, fun _ => ⟨by decide, fun _ => by decide⟩, by decide⟩,
    ⟨by decide, fun _ => ⟨by decide, fun _ => by decide⟩, fun _ => rfl⟩, _, rfl⟩

theorem witness_StepKeepsTablesSound :
    ({ stepping with loc := { tags := [⟨5, 0⟩, ⟨6, 0⟩], route := route } } : State).TablesSound
      ∧ ∃ t, step stepping = .next t := by
  refine ⟨⟨by decide, by decide, by decide, by decide, by decide, by decide, by decide, ?_, by decide, .inl rfl,
    nofun, trivial⟩, _, rfl⟩
  show route.Pairwise _
  simp [route]

theorem witness_FrameInProgressRunsToItsEnd :
    let s : State := { link := { lineA := some (request []), lineB := some (request [1]) } }
    (∃ t, exec (.portUp 0 .A) s = .next t) ∧ (∀ straps a b, Instr.portUp 0 .A ≠ .hardwareReset straps a b)
      ∧ (∀ wait, Instr.portUp 0 .A ≠ .portATransmitEnd wait) ∧ (∀ wait, Instr.portUp 0 .A ≠ .portBTransmitEnd wait)
      ∧ s.link.lineA = some (request []) ∧ s.link.lineB = some (request [1]) :=
  ⟨⟨_, rfl⟩, nofun, nofun, nofun, rfl, rfl⟩

theorem witness_RunStateChangesOnItsEvents :
    (∃ t, exec (.deadlineExpiry 0) running = .next t) ∧ Instr.deadlineExpiry 0 ≠ .runStart
      ∧ ∀ straps a b, Instr.deadlineExpiry 0 ≠ .hardwareReset straps a b := ⟨⟨_, rfl⟩, nofun, nofun⟩

theorem witness_RunConfigurationIsFixed :
    (running.before (.deadlineExpiry 0)).run.state ≠ .idle ∧ (∃ t, exec (.deadlineExpiry 0) running = .next t)
      ∧ (∀ straps a b, Instr.deadlineExpiry 0 ≠ .hardwareReset straps a b) ∧ ParamId.runLocked .encCpr = true
      ∧ running.req.staging.Sound := ⟨by decide +kernel, ⟨_, rfl⟩, nofun, rfl, trivial⟩

theorem witness_OddCorruptionIsFound :
    (request (List.replicate 250 1)).payload.length ≤ 250 ∧ onesIn [0x12, 0x80, 0x30] % 2 = 1 := by decide +kernel

/-- The roster with the tag reader 0x30. -/
def withReader : State := { live with heads := crew ++ [member 0x30 .tagReader .even] }

theorem witness_PortAReceivesAndClassifies :
    (State.reset.after 7).link.upA = false ∧ (withReader.after 7).link.upA = true ∧ judgeFrame [] = none
      ∧ judgeFrame (sent 0x21 0x02 []) = some ⟨0x10, 0x21, 0x02, []⟩ ∧ judgeFrame (sent 0x30 0x03 []) = some ⟨0x10, 0x30, 0x03, []⟩
      ∧ judgeFrame (sent 0x30 0x02 []) = some ⟨0x10, 0x30, 0x02, []⟩ ∧ judgeFrame (sent 0x21 0x03 []) = some ⟨0x10, 0x21, 0x03, []⟩
      ∧ judgeFrame (sent 0x7F 0x02 []) = some ⟨0x10, 0x7F, 0x02, []⟩ ∧ judgeFrame (sent 0x21 0x01 []) = some ⟨0x10, 0x21, 0x01, []⟩
      ∧ (withReader.after 7).findHead 0x7F = none
      ∧ (withReader.after 7).findHead 0x21 = some (member 0x21 .leftProfile .both) ∧ (withReader.after 7).findHead 0x30 = some (member 0x30 .tagReader .even) := by
  decide +kernel

theorem witness_PortBReceivesAndClassifies :
    let frame (dst kind : Byte) (p : List Byte) : Frame := { dst := dst, src := 0x80, kind := kind, payload := p }
    (State.reset.after 7).link.upB = false ∧ (live.after 7).link.upB = true ∧ judgeFrame [] = none
      ∧ (live.after 7).link.ownAddr = 0x10
      ∧ ([frame 0x10 0x30 [0, 0], frame 0x10 0x30 [0, 1], frame 0x10 0x30 [1], frame 0x10 0x10 [], frame 0x10 0x11 [],
          frame 0xFF 0x10 [], frame 0xFF 0x11 [], frame 0x21 0x10 []].all fun f => judgeFrame f.bytes == some f) = true := by
  decide +kernel

theorem witness_OffersJoinOrAreDropped :
    let s (n m : Nat) : State := { link := { forwardAB := List.replicate m (request []), forwardBA := List.replicate m (request []) }
                                   req := { intake := List.replicate n (request []) } }
    (s 3 7).req.intake.length < 4 ∧ 4 ≤ (s 4 8).req.intake.length ∧ (s 3 7).link.forwardAB.length < 8
      ∧ 8 ≤ (s 4 8).link.forwardAB.length ∧ (s 3 7).link.forwardBA.length < 8 ∧ 8 ≤ (s 4 8).link.forwardBA.length := by decide

theorem witness_PortGoesUpAndDown : (live.after 9).link.upA = true ∧ (live.after 9).link.upB = true := by decide +kernel

theorem witness_PortAChoosesFireFirst :
    let s (fires forwards : List Frame) : State := { link := { upA := true, fires := fires, forwardBA := forwards } }
    let u (fires forwards : List Frame) : State := (s fires forwards).after 7
    (State.reset.after 7).link.upA = false ∧ (u [request []] [request [1]]).link.fires = request [] :: []
      ∧ (u [] [request [1]]).link.fires = [] ∧ (u [] [request [1]]).link.forwardBA = request [1] :: []
      ∧ (u [] []).link.fires = [] ∧ (u [] []).link.forwardBA = [] ∧ (u [] []).link.upA = true
      ∧ (s [] []).link.lineA = none ∧ ({ link := { lineA := some (request []) } } : State).link.lineA = some (request []) := by decide +kernel

/-- Frames in the exception and geometry queues, with counts and a gap, and some events. -/
def crowded (events : Nat) (prioGeometry : Nat) : State :=
  { link := { upB := true }, params := { prioGeometry := prioGeometry, prioNote := 1 }
    det := { queue := List.replicate 64 (request []), overflow := { notice := 1 } }
    out := { geometry := List.replicate 8 (request []), gap := some ⟨17, 0, 17, 1, 2⟩, events := List.replicate events (request []) } }

theorem witness_PortBArbitrates :
    let u (events prioGeometry : Nat) : State := (crowded events prioGeometry).after 7
    ({ link := { lineB := some (request []) } } : State).link.lineB = some (request [])
      ∧ [StickyBit.linkAErrors, .linkBErrors, .headDegraded, .rateExceeded, .tagUnknown, .locationRejected, .exceptionOverflow,
          .geometryGap, .markDropped, .noteLost, .requestDropped][10]? = some .requestDropped
      ∧ (State.reset.after 7).link.upB = false
      ∧ (u 15 7).link.upB = true ∧ (u 15 7).link.pause = none
      ∧ (u 15 7).Wins .geometry ∧ (u 15 7).queueB .geometry = request [] :: List.replicate 7 (request [])
      ∧ (u 15 7).out.gap = some ⟨17, 0, 17, 1, 2⟩ ∧ (u 15 7).out.events.length < 16
      ∧ (u 16 7).Wins .geometry ∧ 16 ≤ (u 16 7).out.events.length
      ∧ (u 15 2).Wins .exception ∧ (u 15 2).queueB .exception = request [] :: List.replicate 63 (request [])
      ∧ (u 15 2).det.overflow.counts ≠ 0
      ∧ (({ link := { upB := true, forwardAB := [request []] } } : State).after 7).Wins .forward := by
  refine ⟨rfl, rfl, rfl, rfl, rfl, ⟨by decide +kernel, ?_⟩, rfl, rfl, by decide +kernel, ⟨by decide +kernel, ?_⟩, by decide +kernel,
    ⟨by decide +kernel, ?_⟩, rfl, by decide +kernel, ⟨by decide +kernel, ?_⟩⟩ <;> intro q <;> cases q <;> decide +kernel

theorem witness_SetEventRaisesAndNotes :
    let s (n : Nat) : State := { out := { events := List.replicate n (request []) }, status := { bits := 1 } }
    (s 15).status.has .linkAErrors = true ∧ StickyBit.tagUnknown ≠ .noteLost ∧ (s 15).status.has .tagUnknown = false
      ∧ (s 15).out.events.length < 16 ∧ 16 ≤ (s 16).out.events.length
      ∧ (∃ t, exec (.portUp 0 .A) (s 15) = .next t) := ⟨by decide, by decide, by decide, by decide, by decide, _, rfl⟩

theorem witness_TimersRunOut :
    let s : State := { link := { pause := some 65535 }, mark := { pulseL := some 0, pulseR := some 500000 }
                       dist := { stampValid := true }, time := 0x80000000 }
    s.link.pause = some 65535 ∧ s.mark.pulseL = some 0 ∧ s.mark.pulseR = some 500000 ∧ s.dist.stampValid = true
      ∧ (s.time - s.dist.prevStamp).toNat ≤ 2 ^ 31
      ∧ (∀ e t, State.reset.timeTo e = some t → 5000 ≤ t)
      ∧ running.table.Pairwise (fun p q => p.number ≠ q.number)
      ∧ (∃ p ∈ (running.after 3000).table, p.closed = none) := by
  refine ⟨rfl, rfl, rfl, rfl, by decide +kernel, ?_, by simp [running], by decide +kernel⟩
  intro e t h
  cases e with
  | pulseEnd side => cases side <;> cases h
  | _ => cases h

theorem witness_FlushTimerServesAndGoesOff :
    let s (g : Staging) : State := { running with out := { batch := some batch, flush := some 100000 }, req := { staging := g } }
    let w (g : Staging) : State := (s g).after 100000
    let early : State := { draining with out := { batch := some batch, flush := some 100 } }
    (s .closed).out.flush = some 100000 ∧ (w .closed).out.flush = some 0 ∧ (w .closed).req.staging.isPending = false
      ∧ (w .closed).out.batch = some batch
      ∧ (w (.pending .route [] 0x80 5)).req.staging = .pending .route [] 0x80 5
      ∧ (w (.pending .thresholds [] 0x80 5)).req.staging = .pending .thresholds [] 0x80 5
      ∧ early.out.flush = some 100 ∧ (early.after 100).out.flush ≠ some 0 := by decide +kernel

theorem witness_CrossCheckIsR20 : 0 < ({ spacing := 125000 } : Params).spacingMm := by decide

theorem witness_RunStartIsRefusedOrSetsUpTheRun :
    (asked running [0, 9, 0x0A, 0, 0, 0, 0, 0, 0, 17]).Handles .runStart (request [0, 9, 0x0A, 0, 0, 0, 0, 0, 0, 17]) []
      ∧ running.run.state ≠ .idle
      ∧ (asked live [0, 9, 0x0A, 0, 0, 0, 0, 2, 0, 17]).Handles .runStart (request [0, 9, 0x0A, 0, 0, 0, 0, 2, 0, 17]) []
      ∧ (asked State.reset [0, 9, 0x0A, 0, 0, 0, 0, 1, 0, 17]).Handles .runStart (request [0, 9, 0x0A, 0, 0, 0, 0, 1, 0, 17]) []
      ∧ (∀ h ∈ State.reset.heads, h.cfg.role ≠ .leftProfile)
      ∧ (asked live [0, 9, 0x0A, 0, 0, 0, 0, 1, 0, 17]).Handles .runStart (request [0, 9, 0x0A, 0, 0, 0, 0, 1, 0, 17]) []
      ∧ live.run.state = .idle ∧ (∃ h ∈ live.heads, h.cfg.role = .leftProfile) ∧ (∃ h ∈ live.heads, h.cfg.role = .rightProfile)
      ∧ (∃ h ∈ live.heads, h.cfg.role = .bodyMotion) ∧ crossCheck live.params = some ⟨20, 60, 12⟩ :=
  ⟨asked_handles _ _ _ rfl (by decide), by decide, asked_handles _ _ _ rfl (by decide), asked_handles _ _ _ rfl (by decide),
   nofun, asked_handles _ _ _ rfl (by decide), by decide, by decide, by decide, by decide, by decide⟩

theorem witness_RunStopStartsTheDrain :
    (asked running [0, 9, 0x0B]).Handles .runStop (request [0, 9, 0x0B]) [] ∧ running.run.state = .running
      ∧ (asked emptying [0, 9, 0x0B]).Handles .runStop (request [0, 9, 0x0B]) [] ∧ emptying.run.state = .draining
      ∧ (asked live [0, 9, 0x0B]).Handles .runStop (request [0, 9, 0x0B]) [] ∧ live.run.state = .idle
      ∧ ∃ t, exec (.encoderChange 5000 true false) emptying = .next t :=
  ⟨asked_handles _ _ _ rfl (by decide), rfl, asked_handles _ _ _ rfl (by decide), rfl, asked_handles _ _ _ rfl (by decide),
   rfl, _, rfl⟩

theorem witness_SetChainagePlacesNextStation :
    (asked live [0, 9, 0x0C, 0, 0, 0, 1]).Handles .setChainage (request [0, 9, 0x0C, 0, 0, 0, 1]) [] ∧ live.run.state = .idle
      ∧ (asked running [0, 9, 0x0C, 0, 0, 0, 1]).Handles .setChainage (request [0, 9, 0x0C, 0, 0, 0, 1]) []
      ∧ running.run.state ≠ .idle :=
  ⟨asked_handles _ _ _ rfl (by decide), rfl, asked_handles _ _ _ rfl (by decide), by decide⟩

theorem witness_DrainCompletes :
    draining.run.state = .draining ∧ draining.table = [] ∧ draining.TimerServes ∧ running.run.state ≠ .draining ∧ emptying.table ≠ [] :=
  ⟨rfl, rfl, rfl, by decide, by decide⟩

theorem witness_SoftResetClearsAndKeeps :
    (asked running [0, 9, 0x0E]).Handles .softReset (request [0, 9, 0x0E]) [] ∧ (request [0, 9, 0x0E]).payload.length = 3 :=
  ⟨asked_handles _ _ _ rfl (by decide), rfl⟩

theorem witness_EncoderErrorTakesNoCount : true ≠ running.dist.heldA ∧ true ≠ running.dist.heldB := by decide

theorem witness_ForwardCountMovesTheCar :
    (true, false) = nextLevels (running.dist.heldA, running.dist.heldB) ∧ (running.after 5).run.state = .running
      ∧ (({ running with run := { state := .suspended, highWater := 0 } } : State).after 5).run.state = .suspended
      ∧ (live.after 5).run.state ≠ .running ∧ (live.after 5).run.state ≠ .suspended
      ∧ (∃ t, exec (.encoderChange 5 true false) running = .next t) :=
  ⟨by decide, by decide +kernel, by decide +kernel, by decide +kernel, by decide +kernel, _, rfl⟩

theorem witness_ReverseCountSuspends :
    (running.dist.heldA, running.dist.heldB) = nextLevels (false, true) ∧ (running.after 5).run.state = .running
      ∧ (live.after 5).run.state ≠ .running := by
  decide +kernel

/-- A run one count short of station 0, and its state after that count. -/
def starting : State := { live with run := { state := .running } }

theorem witness_DueTestHandsOnEachStationReached :
    0 < starting.params.spacing ∧ (true, false) = nextLevels (starting.dist.heldA, starting.dist.heldB)
      ∧ exec (.encoderChange 5 true false) starting = .next (after (.encoderChange 5 true false) starting)
      ∧ (starting.after 5).run.state = .running
      ∧ (starting.after 5).run.highWater < (after (.encoderChange 5 true false) starting).runDistance
      ∧ exec (.encoderChange 5 true false) live = .next (after (.encoderChange 5 true false) live)
      ∧ (live.after 5).run.state = .idle := by
  refine ⟨by decide, by decide, rfl, by decide +kernel, by decide +kernel, rfl, by decide +kernel⟩

theorem witness_DueStationIsFiredOrSkipped :
    let p : PendingStation := { number := 0, nominal := 0, stamp := 0, speed := 0, speedUnknown := true, deadline := 3000, members := [] }
    let s (n : Nat) (now : Word) : State := { running with table := List.replicate n p, time := now }
    0 < (s 7 0).params.spacingMm ∧ (s 7 0).table.length < 8 ∧ (s 7 0).link.upA = true ∧ (s 7 0).link.fires.length < 8
      ∧ (s 8 0).table = List.replicate 7 p ++ [p] ∧ 8 ≤ (s 8 0).table.length ∧ (s 7 0).dist.stampValid = true
      ∧ ((s 7 0).time - (s 7 0).dist.prevStamp).toNat = 0
      ∧ ((s 7 0x7FFFFFFF).time - (s 7 0x7FFFFFFF).dist.prevStamp).toNat < 2 ^ 31
      ∧ 2 ^ 31 ≤ ((s 7 0x80000000).time - (s 7 0x80000000).dist.prevStamp).toNat ∧ starting.dist.stampValid = false
      ∧ compositionOk ((pair true false).map (·.cfg)) = true ∧ member 0x21 .leftProfile .even ∈ pair true false
      ∧ member 0x22 .leftProfile .odd false ∈ pair true false ∧ member 0x24 .bodyMotion .both ∈ pair true false
      ∧ [demand (pair true true) 711 (member 0x21 .leftProfile .even), demand (pair true false) 711 (member 0x21 .leftProfile .even),
          demand (pair true true) 711 (member 0x24 .bodyMotion .both)] = [356, 711, 711] := by
  decide +kernel

theorem witness_AnswerSetIsRegularAndTakers : compositionOk ((pair true false).map (·.cfg)) = true := by decide

theorem witness_SampleIsJudgedInOrder :
    let n (k : Nat) := (wordAt (profile k 2) 0).toNat
    5 ≤ (profile 804 2).length ∧ (byteAt (profile 804 2) 4).toNat ≤ 3 ∧ judged.dist.next ≤ n 805 ∧ n 804 < judged.dist.next
      ∧ (∃ p rest, judged.table = p :: rest ∧ n 801 < p.number) ∧ (∀ p ∈ judged.table, p.number ≠ n 803)
      ∧ (judged.table.find? (·.number == n 804)).isSome = true ∧ (judged.table.find? (·.number == n 802)).isSome = true
      ∧ (∀ p ∈ judged.table, p.closed = none)
      ∧ wellFormedFor { (member 0x21 .leftProfile .both).cfg with maxReturns := 3 } (profile 804 2) = true
      ∧ wellFormedFor { (member 0x21 .leftProfile .both).cfg with maxReturns := 3 } (profile 804 4) = false
      ∧ SampleStatus.ofCode (byteAt (profile 804 2) 4) = some .ok
      ∧ (judged.heads.headD (member 0 .bodyMotion .both)).cfg.role = .leftProfile ∧ 1 < (byteAt (profile 804 2) 10).toNat :=
  ⟨by decide +kernel, by decide +kernel, by decide +kernel, by decide +kernel, ⟨_, _, rfl, by decide +kernel⟩, by decide +kernel,
   by decide +kernel, by decide +kernel, by decide +kernel, by decide +kernel, by decide +kernel, by decide +kernel,
   by decide, by decide +kernel⟩

theorem witness_HeadsDegradeAndRecover :
    let s (n : Nat) (recovery misses : Nat) (active : Bool) : State :=
      { running with heads := [{ member 0x21 .leftProfile .both active with recovery := recovery, misses := misses }]
                     out := { events := List.replicate n (request []) } }
    (s 15 7 15 true).findHead 0x21 = some { member 0x21 .leftProfile .both with recovery := 7, misses := 15 }
      ∧ (s 15 7 15 true).params.degradeCount ≤ min 255 (15 + 1) ∧ min 255 (14 + 1) < (s 15 7 14 true).params.degradeCount
      ∧ (s 15 7 15 false).findHead 0x21 = some { member 0x21 .leftProfile .both false with recovery := 7, misses := 15 }
      ∧ (s 15 7 15 false).params.recoverCount ≤ 7 + 1 ∧ 6 + 1 < (s 15 6 15 false).params.recoverCount
      ∧ (s 15 7 15 true).out.events.length < 16 := by decide +kernel

theorem witness_DeadlineClosesTheStation :
    let ok : Sample := .profile .ok (some 1) (some (-2))
    let p : PendingStation := { number := 0, nominal := 0, stamp := 0, speed := 0, speedUnknown := true, deadline := 3000
                                members := [⟨0x21, .regular .left, some ok⟩, ⟨0x22, .taker .left, some (.profile .fault none none)⟩,
                                            ⟨0x24, .body, some (.body .ok (some 3) none none)⟩] }
    let w := running.atMoment (.deadline 0)
    (∃ q, running.table.find? (fun q => q.number == 0 && q.closed.isNone) = some q ∧ running.table.head? = some q
      ∧ 2 ^ 31 ≤ (running.time - q.deadline).toNat
      ∧ (({ running with time := 3000 } : State).time - q.deadline).toNat < 2 ^ 31
      ∧ w.openEntry 0 = some q ∧ timeUntil w.time q.deadline = 0)
      ∧ (∀ p ∈ running.table, p.closed = none → running.answered p = false)
      ∧ p.closed = none ∧ running.answered p = true
      ∧ p.members.Pairwise (fun x y => x.part ≠ y.part) ∧ ⟨0x21, .regular .left, some ok⟩ ∈ p.members := by
  refine ⟨⟨_, rfl, rfl, by decide +kernel, by decide +kernel, by decide +kernel, by decide +kernel⟩, by decide +kernel, rfl,
    by decide +kernel, by simp, by simp⟩

theorem witness_StationsEnterTheRingAndAreEvaluated :
    let p : PendingStation := { number := 60, nominal := 0, stamp := 0, speed := 0, speedUnknown := true, deadline := 3000
                                members := [], closed := some {} }
    let s (staging : Staging) : State := { draining with table := [p], req := { staging := staging } }
    live.table = [] ∧ (s .closed).table = p :: [] ∧ p.number = (s .closed).ring.next + (s .closed).ring.long
      ∧ ((s .closed).ring.stations.find? (·.number == (s .closed).ring.next)).isSome = true
      ∧ (s .closed).req.staging.isPending = false
      ∧ (s (.pending .route [] 0x80 5)).req.staging = .pending .route [] 0x80 5
      ∧ (s (.pending .thresholds [] 0x80 5)).req.staging = .pending .thresholds [] 0x80 5 := by decide +kernel

theorem witness_DivisionRoundsToNearest :
    0 < 2 ∧ 2 * ((-21 : Int) - roundDiv (-21) 2 * 2).natAbs = 2 ∧ roundDiv (-21) 2 = -11 := by decide

theorem witness_DerivedValues :
    inputs.aL = some (-71805) ∧ inputs.aR = some 71790 ∧ inputs.hL = some (-62010) ∧ inputs.hR = some (-62440)
      ∧ inputs.r = some (-1200) ∧ inputs.yb = some 320 ∧ inputs.zb = some 1520 ∧ (derive {} inputs).yl = some (-71431)
      ∧ (derive {} inputs).yr = some 72164 := by decide +kernel

theorem witness_ChannelsAreFormedOrVoid :
    let x := station 100 (derive {} inputs)
    let c := formChannels {} about 160 x
    about.twist ≤ x.number ∧ x.derived.x = some 250 ∧ about.value (x.number - about.twist) (·.x) = some 100
      ∧ 11 < about.twist ∧ (Channel.curv, 60) ∈ [(Channel.topL, about.short), (.curv, about.long)]
      ∧ (c.get .curv).startOfRun = false ∧ (c.get .curv).endOfRun = false ∧ (c.get .curv).lowSpeed = false
      ∧ about.value (x.number - 60) (·.yc) = some 352 ∧ about.value (x.number + 60) (·.yc) = some 375
      ∧ ((formChannels {} about 159 x).get .curv).endOfRun = true ∧ about.value 99 (·.zl) = none := by decide +kernel

theorem witness_EvaluatedValuesAreClipped :
    let exact (cant : Int) (g x : Option Int) := subtractDesign cant 0 (toLineFrame .increasing
      (formedValues (formChannels {} about 160 (station 100 { g := g, x := x }))))
    (exact 0 (some 176268) none).get .gauge = some 32768 ∧ (exact 0 (some 110732) none).get .gauge = some (-32768)
      ∧ (exact 0 (some 176267) none).get .gauge = some 32767 ∧ (exact 5000 none none).get .gauge = none
      ∧ (exact 5000 none none).get .xlevel = none ∧ (exact 5000 none (some 30000)).get .xlevel = some 25000
      ∧ (exact (-5000) none (some 30000)).get .xlevel = some 35000 := by decide +kernel

theorem witness_RouteLookupFindsTheSegment :
    route.Pairwise (fun (a b : Segment) => a.start + a.length ≤ b.start)
      ∧ (∃ g ∈ route, g.start ≤ (12079999 : Word).toInt ∧ (12079999 : Word).toInt < g.start + g.length ∧ g.start = 12000000)
      ∧ ∀ g ∈ route, (12720000 : Word).toInt < g.start ∨ g.start + g.length ≤ (12720000 : Word).toInt := by
  refine ⟨by simp [route], ⟨_, List.mem_cons_of_mem _ List.mem_cons_self, by decide, by decide, rfl⟩, by decide +kernel⟩

theorem witness_TagCorrectsOrRaisesDoubt :
    let tag (id age : Nat) (status : Byte) : List Byte := nat32 id ++ nat32 age ++ [status]
    let s : State := { tagged 812406530 32006 { tags := [⟨70412, 42065600⟩] } with params := { captureWindow := 129, tagOffset := 3500 } }
    let delta (surveyed : Word) := surveyed - s.chainageAt (roundDiv (s.tagPosition 2000) 1000)
    ¬((tag 1 0 3).length = 9 ∧ (byteAt (tag 1 0 3) 8).toNat ≤ 2) ∧ (tag 70412 2000 2).length = 9
      ∧ (byteAt (tag 70412 2000 2) 8).toNat ≤ 2 ∧ live.run.state = .idle ∧ s.run.state ≠ .idle
      ∧ 100000 < (wordAt (tag 70412 100001 0) 4).toNat ∧ (wordAt (tag 70412 100000 0) 4).toNat ≤ 100000
      ∧ (∀ x ∈ s.loc.tags, x.id ≠ wordAt (tag 70413 0 0) 0) ∧ (∃ x ∈ s.loc.tags, x.id = wordAt (tag 70412 0 0) 0)
      ∧ s.loc.tags.Pairwise (fun x y => x.id ≠ y.id)
      ∧ (delta 42065600).toInt.natAbs ≤ s.params.captureWindow ∧ s.params.captureWindow < (delta 42065599).toInt.natAbs := by
  refine ⟨by decide, by decide, by decide, rfl, by decide, by decide +kernel, by decide +kernel, by decide +kernel,
    by decide +kernel, by simp [tagged], by decide +kernel, by decide +kernel⟩

/-- An exception of run 7 open from station 2001 with severity 2, and some voids behind it. -/
def fault (voids : Nat) : OpenException :=
  { runId := 7, epoch := 2, start := ⟨2001, 12100250, 5⟩, severity := 2
    peak := ⟨2001, 12100250, 1001, 24500, some 2104, 401⟩, lastIncluded := ⟨2001, 12100250, 5⟩
    lastNonVoid := ⟨2001, 12100250, 5⟩, voidCount := voids, doubtful := false, markAsked := false }

/-- The detector of Table 7-1 with that exception open on TOP_L. -/
def opened (voids : Nat) : State :=
  { running with det := { thresholds := [topLimits], opened := State.reset.det.opened.set .topL (some (fault voids)) } }

theorem witness_ChannelIsJudged :
    let s := opened 7
    let none' := evaluated 2002 none
    s.activeThreshold none' .gauge = none ∧ s.activeThreshold none' .topL = some topLimits ∧ none'.values.get .topL = none
      ∧ (s.det.opened.get .topL).isSome = true ∧ s.det.opened.get .topR = none
      ∧ (evaluated 2002 (some 601)).values.get .topL = some 601 ∧ topLimits.level1.outside 601 = true
      ∧ topLimits.level1.outside 600 = false ∧ topLimits.level1.lower + topLimits.hysteresis ≤ 500
      ∧ 500 ≤ topLimits.level1.upper - topLimits.hysteresis ∧ topLimits.level1.upper - topLimits.hysteresis < 501
      ∧ s.params.voidClose ≤ 7 + 1 ∧ 6 + 1 < (opened 6).params.voidClose
      ∧ s.det.previous = none ∧ ({ s with det := { previous := some ⟨2001, 0, 1⟩ } } : State).det.previous = some ⟨2001, 0, 1⟩
      ∧ (none'.epoch ≠ 1 ∧ none'.epoch = 2) ∧ s.params.markSeverity ≠ 0 ∧ (fault 7).markAsked = false
      ∧ (fault 7).severity < s.params.markSeverity ∧ ({ s with params := { markSeverity := 2 } } : State).params.markSeverity ≤ (fault 7).severity
      ∧ topLimits ∈ s.det.thresholds ∧ topLimits.speedClass = none'.speedClass ∧ Channel.all[topLimits.channel]? = some .topL
      ∧ topLimits.enabled = true ∧ ({ topLimits with enabled := false } : Threshold).enabled = false
      ∧ s.det.thresholds.Pairwise (fun x y => x.speedClass ≠ y.speedClass ∨ x.channel ≠ y.channel)
      ∧ s.activeThreshold { none' with suppressAll := true } .topL = none
      ∧ s.activeThreshold { none' with suppressGauge := true } .topL = some topLimits
      ∧ ({ s with det := { thresholds := [{ topLimits with enabled := false }] } } : State).activeThreshold none' .topL = none
      ∧ running.activeThreshold none' .topL = none := by
  decide +kernel

theorem witness_ClosedExceptionIsSettled :
    (fault 0).severity ≠ 3 ∧ 2003 - (fault 0).start.number + 1 < (opened 0).minLength .topL ⟨2003, 12100750, 5⟩
      ∧ (opened 0).minLength .topL ⟨2004, 12101000, 5⟩ ≤ 2004 - (fault 0).start.number + 1
      ∧ ({ fault 0 with severity := 3 } : OpenException).severity = 3
      ∧ (opened 0).det.queue.length < 64 ∧ (opened 0).det.overflow.counts = 0
      ∧ 64 ≤ (crowded 0 2).det.queue.length ∧ (crowded 0 2).det.overflow.counts ≠ 0
      ∧ topLimits ∈ (opened 0).det.thresholds ∧ Channel.all[topLimits.channel]? = some .topL ∧ topLimits.enabled = true
      ∧ ({ running with det := { thresholds := [{ topLimits with enabled := false }] } } : State).minLength .topL ⟨2003, 0, 5⟩ = 0
      ∧ running.minLength .topL ⟨2003, 0, 5⟩ = 0 := by decide +kernel

theorem witness_MarkRequestIsAdmittedOrDropped :
    let target : DWord := 1522708333
    let near (m : Mark) (s : State) : Prop := (ahead m.target target).natAbs ≤ s.params.markSpacing * 1000
    let full : List Mark := (List.range 16).map fun i => ⟨1600000000 + BitVec.ofNat 64 i, ⟨true, false⟩⟩
    (marker 1515912000 24000 []).markTarget 500750000 24500 = target
      ∧ ahead target (marker 1522708333 24000 []).odometerPosition ≤ 0
      ∧ 0 < ahead target (marker 1522708332 24000 []).odometerPosition
      ∧ near ⟨1525708333, ⟨true, false⟩⟩ State.reset ∧ ¬ near ⟨1525708334, ⟨true, false⟩⟩ State.reset
      ∧ (∀ m ∈ full, ¬ near m State.reset) ∧ 16 ≤ full.length ∧ (full.take 15).length < 16
      ∧ full.Pairwise (fun x y => 0 < ahead y.target x.target) := by
  intro target near full
  have h : decide (full.Pairwise fun x y => 0 < ahead y.target x.target) = true := by decide +kernel
  exact ⟨by decide +kernel, by decide +kernel, by decide +kernel, by decide +kernel, by decide +kernel, by decide +kernel,
    by decide, by decide, of_decide_eq_true h⟩

theorem witness_FlushedBatchJoinsOrIsRefused :
    let s (n : Nat) (g : Option Gap) : State := { out := { geometry := List.replicate n (request []), gap := g } }
    let x : BatchEntry := .station 0 0 1 {} none ⟨some 0, none, none, none, none, none, none, none⟩
    let long (last : BatchEntry) : Batch := { batch with epoch := 2, entries := List.replicate 15 x ++ [last] }
    1 ≤ batch.entries.length ∧ batch.entries.length ≤ 16 ∧ (s 6 none).out.geometry.length + 2 ≤ 8 ∧ (s 6 none).out.gap = none
      ∧ 8 < (s 7 none).out.geometry.length + 2 ∧ (s 0 (some ⟨17, 0, 17, 1, 2⟩)).out.gap ≠ none
      ∧ (s 0 none).out.batch = none ∧ (long x).entries.length ≤ 16 ∧ batch.epoch ≠ (evaluated 0 none).epoch
      ∧ (long (.voidRun 126)).epoch = (evaluated 0 none).epoch ∧ (long (.voidRun 126)).entries = List.replicate 15 x ++ [.voidRun 126]
      ∧ (∀ ch ∈ Channel.all, (evaluated 0 none).values.get ch = none) ∧ (evaluated 0 (some 1)).values.get .topL ≠ none
      ∧ (long (.voidRun 126)).entries.length = 16 ∧ ((long x).entries.take 15).length = 15 ∧ batch.entries.length < 15
      ∧ BatchEntry.bytes (.voidRun 1) = [0x81] ∧ BatchEntry.bytes (.voidRun 127) = [0xFF] ∧ Channel.all[7]? = some .curv
      ∧ ({ out := { batch := some batch } } : State).out.batch = some batch ∧ State.reset.req.staging.isPending = false
      ∧ ({ req := { staging := .pending .route [] 0x80 0 } } : State).req.staging.isPending = true := by
  decide +kernel

theorem witness_RequestsAreAnswered :
    (asked live [0, 5]).req.intake = request [0, 5] :: [] ∧ (asked live [0, 5]).req.placesTaken < 4
      ∧ draining.run.state = .draining ∧ draining.table = []
      ∧ (request [0, 5]).payload.length < 3 ∧ 14 < (byteAt (request [0, 5, 0x0F]).payload 2).toNat
      ∧ 4 ≤ ({ req := { responses := List.replicate 3 (request []), staging := .pending .route [] 0x80 0 } } : State).req.placesTaken
      ∧ (asked live [0, 5, 0x01, 0]).Handles .queryStatus (request [0, 5, 0x01, 0]) []
      ∧ requestConsistent .queryStatus (request [0, 5, 0x01, 0]).payload = false :=
  ⟨rfl, by decide, rfl, rfl, by decide, by decide, by decide, asked_handles _ _ _ rfl (by decide), by decide⟩

theorem witness_ReadingRequestsReport :
    (asked live [0, 5, 0x01]).Handles .queryStatus (request [0, 5, 0x01]) []
      ∧ (asked live [0, 5, 0x04, 70]).Handles .getParam (request [0, 5, 0x04, 70]) [] ∧ ParamId.ofCode 70 = some .flushTime
      ∧ (asked live [0, 5, 0x04, 71]).Handles .getParam (request [0, 5, 0x04, 71]) [] ∧ ParamId.ofCode 71 = none
      ∧ (asked live [0, 5, 0x09, 4, 0, 47]).Handles .readEntry (request [0, 5, 0x09, 4, 0, 47]) []
      ∧ (live.activeEntry .thresholds 47).isSome = true ∧ live.activeCount .roster ≤ 3
      ∧ (live.activeEntry .roster 2).isSome = true
      ∧ (asked live [0, 5, 0x09, 5, 0, 0]).Handles .readEntry (request [0, 5, 0x09, 5, 0, 0]) []
      ∧ (asked live [0, 5, 0x0D, 4, 1]).Handles .readCounters (request [0, 5, 0x0D, 4, 1]) []
      ∧ (asked live [0, 5, 0x0D, 0, 0]).Handles .readCounters (request [0, 5, 0x0D, 0, 0]) []
      ∧ State.reset.req.staging = .closed ∧ live.heads[2]? = some (member 0x24 .bodyMotion .both)
      ∧ ({ loc := { tags := [⟨5, 0⟩], route := route } } : State).loc.tags[0]? = some ⟨5, 0⟩ ∧ route[3]?.isSome = true
      ∧ State.reset.det.thresholds[47]? = none ∧ (opened 0).det.thresholds[0]? = some topLimits :=
  ⟨asked_handles _ _ _ rfl (by decide), asked_handles _ _ _ rfl (by decide), rfl, asked_handles _ _ _ rfl (by decide), rfl,
   asked_handles _ _ _ rfl (by decide), by decide +kernel, by decide, by decide +kernel, asked_handles _ _ _ rfl (by decide),
   asked_handles _ _ _ rfl (by decide), asked_handles _ _ _ rfl (by decide), rfl, rfl, rfl, rfl, rfl, rfl⟩

theorem witness_ClearStatusNeedsTheGeneration :
    let p (g : Byte) : List Byte := [0, 5, 0x02, 0, 4, 0, 0, 0, g]
    let s : State := { live with status := { bits := 5, generation := 42 } }
    (asked s (p 42)).Handles .clearStatus (request (p 42)) [] ∧ (p 42).length = 9
      ∧ wordAt (p 42) 5 = (asked s (p 42)).status.generation ∧ wordAt (p 41) 5 ≠ (asked s (p 41)).status.generation
      ∧ (asked s (p 41)).Handles .clearStatus (request (p 41)) [] :=
  ⟨asked_handles _ _ _ rfl (by decide), rfl, by decide, by decide, asked_handles _ _ _ rfl (by decide)⟩

theorem witness_SetParamIsJudgedInOrder :
    let p (id v : Byte) : List Byte := [0, 5, 0x03, id, 0, 0, 0, v]
    (asked live (p 7 0)).Handles .setParam (request (p 7 0)) [] ∧ ParamId.ofCode 7 = none
      ∧ (asked running (p 10 0)).Handles .setParam (request (p 10 0)) [] ∧ ParamId.ofCode 10 = some .encCpr
      ∧ ParamId.runLocked .encCpr = true ∧ running.run.state ≠ .idle
      ∧ (asked running (p 6 7)).Handles .setParam (request (p 6 7)) [] ∧ ParamId.ofCode 6 = some .prioForward
      ∧ ParamId.runLocked .prioForward = false ∧ ParamId.accepts .prioForward 7 = true ∧ ParamId.accepts .prioForward 8 = false
      ∧ [125000, 250000, 500000, 124999, 375000, 500001].map (ParamId.accepts .spacing) = [true, true, true, false, false, false]
      ∧ [-20001, -20000, 20000, 20001].map (ParamId.accepts .tagOffset) = [false, true, true, false] :=
  ⟨asked_handles _ _ _ rfl (by decide), rfl, asked_handles _ _ _ rfl (by decide), rfl, rfl, by decide,
   asked_handles _ _ _ rfl (by decide), rfl, rfl, by decide, by decide, by decide, by decide⟩

theorem witness_LoadsAreStaged :
    let line : List Byte := [0, 5, 0x06, 0, 1, 1] ++ List.replicate 8 0
    let s (g : Staging) : State := { live with req := { staging := g } }
    (asked live [0, 5, 0x05, 1]).Handles .tableOpen (request [0, 5, 0x05, 1]) []
      ∧ (asked live [0, 5, 0x05, 5]).Handles .tableOpen (request [0, 5, 0x05, 5]) []
      ∧ (asked (s (.opened .markerTags 1 [])) [0, 5, 0x08]).Handles .tableAbort (request [0, 5, 0x08]) []
      ∧ (asked (s (.opened .markerTags 1 [])) line).Handles .tableLine (request line) []
      ∧ (asked (s (.pending .route [] 0x80 0)) line).Handles .tableLine (request line) []
      ∧ (asked (s (.opened .markerTags 1 [])) (line.take 5)).Handles .tableLine (request (line.take 5)) [] ∧ (line.take 5).length < 6
      ∧ 6 ≤ line.length ∧ line.length = 6 + 1 * Table.entrySize .markerTags ∧ (halfAt line 3).toNat = 1
      ∧ Table.capacity .markerTags < (List.replicate 512 ([] : List Byte)).length + 1 :=
  ⟨asked_handles _ _ _ rfl (by decide), asked_handles _ _ _ rfl (by decide), asked_handles _ _ _ rfl (by decide),
   asked_handles _ _ _ rfl (by decide), asked_handles _ _ _ rfl (by decide), asked_handles _ _ _ rfl (by decide), by decide,
   by decide, by decide, by decide, by decide +kernel⟩

theorem witness_TableApplyIsJudgedInOrder :
    let apply : List Byte := [0, 5, 0x07, 0, 1]
    let g (start : Int) (class_ : Byte) : List Byte := int32 start ++ nat32 1000 ++ [0, 0, 0, 0, 0, 0, 0, 0, class_, 0, 0, 0]
    let s (entries : List (List Byte)) : State := { running with req := { staging := .opened .route 1 entries } }
    (asked (s [g 0 1]) apply).Handles .tableApply (request apply) [] ∧ (halfAt apply 3).toNat = [g 0 1].length
      ∧ orderJudged .route [g 0 1] = true ∧ rangeJudged .route [g 0 1] = true ∧ running.run.state = .running
      ∧ (asked { (s [g 0 1]) with run := { state := .suspended } } apply).Handles .tableApply (request apply) []
      ∧ orderJudged .route [g 0 1, g 999 1] = false ∧ rangeJudged .route [g 0 7] = false
      ∧ orderJudged .markerTags [] = true ∧ rangeJudged .thresholds [] = true
      ∧ (asked live apply).Handles .tableApply (request apply) [] :=
  ⟨asked_handles _ _ _ rfl (by decide), by decide, by decide +kernel, by decide +kernel, rfl, asked_handles _ _ _ rfl (by decide),
   by decide +kernel, by decide +kernel, by decide +kernel, by decide +kernel, asked_handles _ _ _ rfl (by decide)⟩

/-- The order and range judgements and the reading of entries, at the edges of their clauses. -/
theorem witness_TableApplyIsJudgedInOrder_tables :
    let head (addr role phase : Byte) (rate : Nat) : List Byte :=
      [addr, role, phase] ++ nat16 rate ++ [8, 0] ++ int32 (-50000) ++ int32 50000 ++ int32 50000
    let seg (start : Int) (length : Nat) : List Byte := int32 start ++ nat32 length ++ [0, 0, 0, 0, 0, 0, 0, 0, 6, 3, 0, 0]
    let limits (class_ ch : Byte) (upper : Int) (hysteresis : Nat) : List Byte :=
      [class_, ch, 3] ++ int16 (-600) ++ int16 upper ++ List.replicate 8 0 ++ nat16 hysteresis ++ [255]
    orderJudged .roster [head 0x21 1 2 50, head 0x22 2 2 50] = true ∧ orderJudged .roster [head 0x21 1 2 50, head 0x21 2 2 50] = false
      ∧ orderJudged .markerTags [nat32 5, nat32 6] = true ∧ orderJudged .markerTags [nat32 6, nat32 6] = false
      ∧ orderJudged .route [seg 0 1000, seg 1000 1] = true ∧ orderJudged .route [seg 0 1000, seg 999 1] = false
      ∧ orderJudged .thresholds [limits 1 7 600 0, limits 2 0 600 0] = true
      ∧ orderJudged .thresholds [limits 1 7 600 0, limits 1 7 600 0] = false
      ∧ rangeJudged .roster [head 0x20 1 0 50, head 0x21 1 1 2000, head 0x22 2 2 50, head 0x23 3 2 50, head 0x7F 4 9 0] = true
      ∧ rangeJudged .roster [head 0x20 1 0 50] = false ∧ rangeJudged .roster [head 0x20 1 2 49] = false
      ∧ rangeJudged .roster [head 0x80 1 2 50] = false ∧ rangeJudged .roster [head 0x20 5 2 50] = false
      ∧ rangeJudged .route [seg 2147483647 1] = true ∧ rangeJudged .route [seg 2147483647 2] = false
      ∧ rangeJudged .thresholds [limits 6 7 600 599] = true ∧ rangeJudged .thresholds [limits 6 7 600 600] = false
      ∧ rangeJudged .thresholds [limits 6 7 (-32768) 0] = false
      ∧ (thresholdTable [topLimits])[35]? = some topLimits ∧ thresholdTable [] = []
      ∧ ((thresholdTable [topLimits])[36]?.map (·.enabled)) = some false ∧ [topLimits] ≠ [] := by decide +kernel

end Sys2Proof.Tests
end

section
/-! # Capacities: what every step keeps of the queues (chapter 00, "Capacities and ranges")

`State.WithinCapacities` read unit by unit, and one lemma for each operation of the model: it leaves a state that fits where
it finds one. -/

namespace Sys2Proof.Machine

/-! ### The capacities of each unit -/

/-- The FIRE and forward queues, and the pause (R10, R11, R15). -/
structure Link.Fits (x : Link) : Prop where
  fires : x.fires.length ≤ Config.fireCapacity
  forwardAB : x.forwardAB.length ≤ Config.forwardCapacity
  forwardBA : x.forwardBA.length ≤ Config.forwardCapacity
  pause : ∀ n, x.pause = some n → n ≤ 65535

/-- The intake and the response queue (R9, R169). -/
structure Requests.Fits (x : Requests) : Prop where
  intake : x.intake.length ≤ Config.intakeCapacity
  places : x.placesTaken ≤ Config.responseCapacity

/-- The counts of the overflow summary saturate (R140). -/
structure Overflow.Fits (x : Overflow) : Prop where
  notice : x.notice ≤ 65535
  action : x.action ≤ 65535
  urgent : x.urgent ≤ 65535

/-- The exception queue, and the summary held only at a full one (R139, R141). -/
structure Detector.Fits (x : Detector) : Prop where
  queue : x.queue.length ≤ Config.exceptionCapacity
  summary : x.overflow.counts ≠ 0 → x.queue.length = Config.exceptionCapacity
  counts : x.overflow.Fits

/-- A batch holds 1 to 16 entries, its void runs 1 to 127 stations (R155). -/
structure Batch.Fits (b : Batch) : Prop where
  nonempty : 1 ≤ b.entries.length
  entries : b.entries.length ≤ Config.batchCapacity
  sized : ∀ e ∈ b.entries, e.sized

/-- The event and geometry queues, the gap held only without a place for two frames, and the batch (R161, R162, R164). -/
structure Composer.Fits (x : Composer) : Prop where
  events : x.events.length ≤ Config.eventCapacity
  geometry : x.geometry.length ≤ Config.geometryCapacity
  gap : x.gap.isSome = true → Config.geometryCapacity ≤ x.geometry.length + 1
  batch : ∀ b, x.batch = some b → b.Fits

/-- Every unit within its capacities. -/
structure State.Fits (s : State) : Prop where
  link : s.link.Fits
  req : s.req.Fits
  table : s.table.length ≤ Config.pendingCapacity
  det : s.det.Fits
  mark : s.mark.queue.length ≤ Config.markCapacity
  out : s.out.Fits

/-- The capacities of the statements are those of the units. -/
theorem withinCapacities_iff_fits (s : State) : s.WithinCapacities ↔ s.Fits := by
  constructor
  · rintro ⟨fires, ab, ba, pause, intake, places, table, queue, summary, notice, action, urgent, mark, events, geometry, gap,
      batch⟩
    exact ⟨⟨fires, ab, ba, pause⟩, ⟨intake, places⟩, table, ⟨queue, summary, ⟨notice, action, urgent⟩⟩, mark,
      ⟨events, geometry, gap, fun b hb => let ⟨one, most, sized⟩ := batch b hb; ⟨one, most, sized⟩⟩⟩
  · rintro ⟨link, req, table, det, mark, out⟩
    exact ⟨link.fires, link.forwardAB, link.forwardBA, link.pause, req.intake, req.places, table, det.queue, det.summary,
      det.counts.notice, det.counts.action, det.counts.urgent, mark, out.events, out.geometry, out.gap,
      fun b hb => let f := out.batch b hb; ⟨f.nonempty, f.entries, f.sized⟩⟩

/-- A queue within its capacity whose oldest entry leaves has a place free. -/
theorem place_free {α : Type} {queue rest : List α} {f : α} {capacity : Nat} (h : queue.length ≤ capacity)
    (e : queue = f :: rest) : rest.length < capacity := by
  simpa [e] using h

namespace State.Fits

variable {s : State}

/-! ### A unit replaced by one that fits -/

theorem withLink (h : s.Fits) {x : Link} (hx : x.Fits) : (s.withLink x).Fits := { h with link := hx }
theorem withReq (h : s.Fits) {x : Requests} (hx : x.Fits) : (s.withReq x).Fits := { h with req := hx }
theorem withDet (h : s.Fits) {x : Detector} (hx : x.Fits) : (s.withDet x).Fits := { h with det := hx }
theorem withOut (h : s.Fits) {x : Composer} (hx : x.Fits) : (s.withOut x).Fits := { h with out := hx }
theorem withTable (h : s.Fits) {x : List PendingStation} (hx : x.length ≤ Config.pendingCapacity) : (s.withTable x).Fits :=
  { h with table := hx }
theorem withMark (h : s.Fits) {x : Marking} (hx : x.queue.length ≤ Config.markCapacity) : (s.withMark x).Fits :=
  { h with mark := hx }

/-! ### A unit replaced that has no capacity -/

theorem withRun (h : s.Fits) (x : Run) : (s.withRun x).Fits := { h with }
theorem withTallies (h : s.Fits) (x : Tallies) : (s.withTallies x).Fits := { h with }
theorem withRunState (h : s.Fits) (x : RunState) : (s.withRunState x).Fits := { h with }
theorem withParams (h : s.Fits) (x : Params) : (s.withParams x).Fits := { h with }
theorem withDist (h : s.Fits) (x : Distance) : (s.withDist x).Fits := { h with }
theorem withHeads (h : s.Fits) (x : List Head) : (s.withHeads x).Fits := { h with }
theorem withRing (h : s.Fits) (x : Ring) : (s.withRing x).Fits := { h with }
theorem withLoc (h : s.Fits) (x : Location) : (s.withLoc x).Fits := { h with }
theorem withStatus (h : s.Fits) (x : Status) : (s.withStatus x).Fits := { h with }
theorem withPending (h : s.Fits) (x : List Instr) : (s.withPending x).Fits := { h with }
theorem withDraws (h : s.Fits) (x : Nat) : (s.withDraws x).Fits := { h with }

/-! ### Notes, set events, responses -/

theorem offerNote (h : s.Fits) (n : Note) : (offerNote s n).Fits := by
  obtain ⟨free, e⟩ | ⟨-, e⟩ := offerNote_cases s n
  · rw [e]
    exact h.withOut { h.out with events := by simpa using free }
  · rw [e]
    exact h.withStatus _

theorem setEvent (h : s.Fits) (b : StickyBit) : (setEvent s b).Fits := by
  obtain ⟨-, e⟩ | ⟨-, -, e⟩ := setEvent_cases s b
  · rw [e]
    exact h.withStatus _
  · rw [e]
    exact (h.withStatus _).offerNote _

/-- A response takes a place that was free. -/
theorem respond (h : s.Fits) (free : s.req.placesTaken < Config.responseCapacity) (r : Frame) (code : ResultCode)
    (fields : List Byte) : (respond s r code fields).Fits :=
  h.withReq { h.req with places := by simp only [Requests.placesTaken, List.length_append, List.length_singleton] at *; omega }

/-! ### The link -/

theorem offerForwardAB (h : s.Fits) (f : Frame) : (offerForwardAB s f).Fits := by
  unfold Machine.offerForwardAB
  split
  · rename_i free
    exact h.withLink { h.link with forwardAB := by simpa using free }
  · exact h.withLink { h.link with }

theorem offerForwardBA (h : s.Fits) (f : Frame) : (offerForwardBA s f).Fits := by
  unfold Machine.offerForwardBA
  split
  · rename_i free
    exact h.withLink { h.link with forwardBA := by simpa using free }
  · exact h.withLink { h.link with }

theorem issueFire (h : s.Fits) (f : Frame) : (issueFire s f).Fits := by
  obtain ⟨-, free, e⟩ | ⟨-, e⟩ := issueFire_cases s f
  · rw [e]
    exact h.withLink { h.link with fires := by simpa using free }
  · rwa [e]

theorem chooseA (h : s.Fits) : (chooseA s).Fits := by
  unfold Machine.chooseA
  split
  · split
    · rename_i hf
      exact h.withLink { h.link with fires := (place_free h.link.fires hf).le }
    · rename_i hb
      exact h.withLink { h.link with forwardBA := (place_free h.link.forwardBA hb).le }
    · exact h
  · exact h

/-- With a place free in the exception queue a summary that holds counts takes it. -/
theorem reportOverflow (h : s.Fits) {f : Frame} {rest : List Frame} (hq : s.det.queue = f :: rest) :
    (reportOverflow (s.withDet { s.det with queue := rest })).Fits := by
  have room := place_free h.det.queue hq
  unfold Machine.reportOverflow
  split
  · rename_i none'
    exact h.withDet { queue := room.le, summary := fun some' => (some' none').elim, counts := h.det.counts }
  · refine (h.withDet (x := { s.det with queue := rest ++ [_], overflow := {} }) ?_)
    exact {
      queue := by simpa using Nat.succ_le_of_lt room
      summary := fun some' => (some' rfl).elim
      counts := ⟨Nat.zero_le _, Nat.zero_le _, Nat.zero_le _⟩ }

/-- With a place free in the geometry queue a pending gap is reported. -/
theorem reportGap (h : s.Fits) {f : Frame} {rest : List Frame} (hq : s.out.geometry = f :: rest) :
    (reportGap (s.withOut { s.out with geometry := rest })).Fits := by
  have room := place_free h.out.geometry hq
  unfold Machine.reportGap
  split
  · rename_i none'
    exact h.withOut { h.out with
      geometry := room.le
      gap := fun some' => by rw [show s.out.gap = none from none'] at some'; cases some' }
  · refine offerNote (h.withOut (x := { s.out with geometry := rest, gap := none }) ?_) _
    exact { h.out with geometry := room.le, gap := nofun }

theorem startB (h : s.Fits) (q : QueueB) : (startB s q).Fits := by
  unfold Machine.startB
  split
  · exact h
  · rename_i f rest hq
    have line : (s.withLink { s.link with lineB := some f }).Fits := h.withLink { h.link with }
    cases q with
    | response =>
      have hq : s.req.responses = f :: rest := hq
      have := h.req.places
      refine line.withReq { h.req with places := ?_ }
      simp only [Requests.placesTaken, hq, List.length_cons, State.withLink_req] at *
      omega
    | note =>
      exact line.withOut { h.out with events := (place_free h.out.events hq).le }
    | exception => exact line.reportOverflow hq
    | geometry => exact line.reportGap hq
    | forward =>
      exact line.withLink { h.link with forwardAB := (place_free h.link.forwardAB hq).le }

theorem chooseB (h : s.Fits) : (chooseB s).Fits := by
  unfold Machine.chooseB
  split
  · split
    · exact h.startB _
    · exact h
  · exact h

theorem settle (h : s.Fits) : (settle s).Fits := h.chooseA.chooseB

/-! ### Reception -/

theorem errorA (h : s.Fits) : (errorA s).Fits := setEvent (h.withLink (by exact { h.link with })) _
theorem errorB (h : s.Fits) : (errorB s).Fits := setEvent (h.withLink (by exact { h.link with })) _
theorem countReceivedA (h : s.Fits) : (countReceivedA s).Fits := h.withLink { h.link with }
theorem countReceivedB (h : s.Fits) : (countReceivedB s).Fits := h.withLink { h.link with }
theorem dropUnknownSource (h : s.Fits) : (dropUnknownSource s).Fits := h.withLink { h.link with }
theorem dropWrongKind (h : s.Fits) : (dropWrongKind s).Fits := h.withLink { h.link with }

theorem takePause (h : s.Fits) (payload : List Byte) : (takePause s payload).Fits := by
  unfold Machine.takePause
  split
  · refine h.withLink { h.link with pause := fun n hn => ?_ }
    have := (halfAt payload 0).isLt
    simp only at hn
    split at hn
    · cases hn
    · cases hn
      omega
  · exact h.dropWrongKind

theorem offerRequest (h : s.Fits) (f : Frame) : (offerRequest s f).Fits := by
  unfold Machine.offerRequest
  split
  · rename_i free
    exact h.withReq { h.req with intake := by simpa using free }
  · exact setEvent (h.withLink (by exact { h.link with })) _

theorem classifyB (h : s.Fits) (f : Frame) : (classifyB s f).Fits := by
  unfold Machine.classifyB
  split
  · exact h.takePause _
  · split
    · split
      · exact h.offerRequest f
      · exact h.dropWrongKind
    · split
      · exact (h.offerRequest f).offerForwardBA f
      · exact h.offerForwardBA f

theorem receiveB (h : s.Fits) (bytes : List Byte) : (receiveB s bytes).Fits := by
  unfold Machine.receiveB
  dsimp only
  split
  · exact h.countReceivedB.errorB
  · exact h.countReceivedB.classifyB _

/-! ### Marking -/

theorem dropMark (h : s.Fits) : (dropMark s).Fits :=
  setEvent ((h.withTallies _).withMark (by exact h.mark)) _

theorem requestMark (h : s.Fits) (q : MarkRequest) : (requestMark s q).Fits := by
  unfold Machine.requestMark
  dsimp only
  split
  · exact h.dropMark
  · split
    · exact (h.withTallies _).withMark (by simpa using h.mark)
    · split
      · exact h.dropMark
      · rename_i free
        exact (h.withTallies _).withMark (by simp only [insertMark_length]; omega)

theorem reachMarks (h : s.Fits) : (reachMarks s).Fits :=
  h.withMark (by have := h.mark; simp only [List.length_drop]; omega)

theorem flushMarks (h : s.Fits) : (flushMarks s).Fits := h.withMark (Nat.zero_le _)

/-! ### The exception detector -/

theorem withOpened (h : s.Fits) (ch : Channel) (x : Option OpenException) : (s.withOpened ch x).Fits :=
  h.withDet { h.det with }

end State.Fits

theorem Overflow.Fits.refuse {o : Overflow} (h : o.Fits) (severity : Nat) (runId : Half) (start last : Nat) :
    (o.refuse severity runId start last).Fits := by
  have kept : (if o.counts = 0 then { o with firstRun := runId, firstStation := start } else o).Fits := by
    split
    · exact { h with }
    · exact h
  unfold Overflow.refuse
  dsimp only
  split
  · exact { kept with urgent := Nat.min_le_left _ _ }
  · split
    · exact { kept with action := Nat.min_le_left _ _ }
    · exact { kept with notice := Nat.min_le_left _ _ }

namespace State.Fits

variable {s : State}

/-- A record is refused only where the exception queue is full. -/
theorem offerException (h : s.Fits) (ch : Channel) (x : OpenException) (cause : CloseCause) (last : Place) :
    (offerException s ch x cause last).Fits := by
  unfold Machine.offerException
  split
  · rename_i free
    refine (h.withDet (x := { s.det with queue := s.det.queue ++ [_] }) ?_).withTallies _
    exact { h.det with queue := by simpa using free.1, summary := fun some' => (some' free.2).elim }
  · rename_i full
    refine ((h.withDet ?_).withTallies _).setEvent _
    refine { h.det with summary := fun _ => ?_, counts := h.det.counts.refuse _ _ _ _ }
    by_cases none' : s.det.overflow.counts = 0
    · have := h.det.queue
      have : ¬ s.det.queue.length < Config.exceptionCapacity := fun free => full ⟨free, none'⟩
      simp only
      omega
    · exact h.det.summary none'

theorem closeException (h : s.Fits) (ch : Channel) (x : OpenException) (cause : CloseCause) (last : Place) :
    (closeException s ch x cause last).Fits := by
  unfold Machine.closeException
  dsimp only
  split
  · exact (h.withOpened ch none).offerException _ _ _ _
  · exact (h.withOpened ch none).withTallies _

theorem closeOpened (h : s.Fits) (cause : CloseCause) (ch : Channel) : (closeOpened s cause ch).Fits := by
  unfold Machine.closeOpened
  split
  · exact h.closeException _ _ _ _
  · exact h

theorem closeAll (h : s.Fits) (cause : CloseCause) : (closeAll s cause).Fits :=
  List.foldlRecOn _ _ h fun _ hs ch _ => hs.closeOpened cause ch

theorem judgeChannel (h : s.Fits) (e : EvaluatedStation) (ch : Channel) : (judgeChannel e s ch).Fits := by
  unfold Machine.judgeChannel
  split
  · exact h.closeOpened _ _
  · exact h
  · split
    · exact h.withOpened _ _
    · exact h
  · dsimp only
    split
    · exact h.closeException _ _ _ _
    · exact h.withOpened _ _
  · split
    · exact h.withOpened _ _
    · split
      · exact h.closeException _ _ _ _
      · exact h.withOpened _ _

theorem triggerMark (h : s.Fits) (e : EvaluatedStation) (ch : Channel) : (triggerMark e s ch).Fits := by
  unfold Machine.triggerMark
  split
  · exact h
  · split
    · exact (h.withOpened _ _).requestMark _
    · exact h

theorem judgeStation (h : s.Fits) (e : EvaluatedStation) : (judgeStation s e).Fits := by
  unfold Machine.judgeStation
  dsimp only
  have stepped : (match s.det.previous with
      | some q => if q.epoch ≠ e.epoch then Machine.closeAll s .locationStep else s
      | none => s).Fits := by
    split
    · split
      · exact h.closeAll _
      · exact h
    · exact h
  have judged := List.foldlRecOn Channel.all (Machine.judgeChannel e) stepped fun _ hs ch _ => hs.judgeChannel e ch
  have marked := List.foldlRecOn Channel.all (Machine.triggerMark e) judged fun _ hs ch _ => hs.triggerMark e ch
  exact marked.withDet { marked.det with }

/-! ### The output composer -/

theorem startFlushTimer (h : s.Fits) : (startFlushTimer s).Fits := by
  unfold Machine.startFlushTimer
  split
  · exact h.withOut { h.out with }
  · exact h

theorem stopIdleTimer (h : s.Fits) : (stopIdleTimer s).Fits := by
  unfold Machine.stopIdleTimer
  split
  · exact h.withOut { h.out with }
  · exact h

/-- A batch makes at most two frames, so it is refused only where there is no place for two. -/
theorem offerBatch (h : s.Fits) (b : Batch) : (offerBatch s b).Fits := by
  have two : b.payloads.length ≤ 2 := by rw [payloads_length]; split <;> omega
  unfold Machine.offerBatch
  dsimp only
  split
  · rename_i free
    refine h.withOut { h.out with geometry := by simpa using free.1, gap := fun held => ?_ }
    rw [Option.isNone_iff_eq_none.mp free.2] at held
    cases held
  · rename_i full
    refine setEvent (h.withOut ?_) _
    refine { h.out with gap := fun _ => ?_ }
    by_cases held : s.out.gap.isSome = true
    · exact h.out.gap held
    · have := h.out.geometry
      simp only [List.length_map] at full
      have : ¬ s.out.geometry.length + b.payloads.length ≤ Config.geometryCapacity :=
        fun free => full ⟨free, by simpa using held⟩
      simp only
      omega

theorem flushBatch (h : s.Fits) : (flushBatch s).Fits := by
  unfold Machine.flushBatch
  split
  · exact h
  · exact stopIdleTimer (offerBatch (h.withOut (by exact { h.out with batch := nofun })) _)

end State.Fits

theorem entry_sized (e : EvaluatedStation) : e.entry.sized := by
  unfold EvaluatedStation.entry
  split
  · exact ⟨Nat.le_refl 1, by decide⟩
  · trivial

/-- A station added to a batch leaves one that fits. -/
theorem Batch.Fits.addEntry {b : Batch} (h : b.Fits) {e : EvaluatedStation} {entries : List BatchEntry}
    (added : addEntry b.entries e = some entries) : ({ b with entries := entries } : Batch).Fits := by
  have joins : (if b.entries.length < Config.batchCapacity then some (b.entries ++ [e.entry]) else none) = some entries →
      ({ b with entries := entries } : Batch).Fits := by
    intro joined
    split at joined
    · rename_i free
      cases joined
      refine { nonempty := by simp, entries := by simpa using free, sized := fun x hx => ?_ }
      obtain hx | hx := List.mem_append.mp hx
      · exact h.sized x hx
      · rw [List.mem_singleton.mp hx]
        exact entry_sized e
    · cases joined
  unfold Machine.addEntry at added
  dsimp only at added
  split at added
  · rename_i n last
    split at added
    · rename_i extended
      cases added
      have below : n < Config.voidRunLimit := by simpa using (Bool.and_eq_true_iff.mp extended).2
      have := h.nonempty
      have := h.entries
      refine { nonempty := by simp, entries := by simp; omega, sized := fun x hx => ?_ }
      obtain hx | hx := List.mem_append.mp hx
      · exact h.sized x (List.dropLast_subset _ hx)
      · rw [List.mem_singleton.mp hx]
        exact ⟨by omega, by omega⟩
    · exact joins added
  · exact joins added

namespace State.Fits

variable {s : State}

theorem openBatch (h : s.Fits) (e : EvaluatedStation) : (openBatch s e).Fits := by
  refine startFlushTimer (h.withOut { h.out with batch := fun b hb => ?_ })
  cases hb
  exact { nonempty := Nat.le_refl 1, entries := (by decide : 1 ≤ 16), sized := by simpa using entry_sized e }

theorem addStation (h : s.Fits) (e : EvaluatedStation) : (addStation s e).Fits := by
  unfold Machine.addStation
  split
  · exact h.openBatch e
  · rename_i b hb
    split
    · rename_i entries added
      refine h.withOut { h.out with batch := fun b' hb' => ?_ }
      cases hb'
      exact (h.out.batch b hb).addEntry added
    · exact h.flushBatch.openBatch e

theorem composeStation (h : s.Fits) (e : EvaluatedStation) : (composeStation s e).Fits := by
  have first : (match s.out.batch with
      | some b => if b.epoch ≠ e.epoch then Machine.flushBatch s else s
      | none => s).Fits := by
    split
    · split
      · exact h.flushBatch
      · exact h
    · exact h
  have added := first.addStation e
  unfold Machine.composeStation
  dsimp only
  split
  · split
    · exact added.flushBatch
    · exact added
  · exact added

/-- A swap closes staging: the place a pending apply had reserved is free. -/
theorem swapTable (h : s.Fits) (t : Table) (entries : List (List Byte)) : (swapTable s t entries).Fits := by
  have closed : (s.withReq { s.req with staging := .closed }).Fits :=
    h.withReq { h.req with places := Nat.le_trans (Nat.le_add_right _ _) h.req.places }
  unfold Machine.swapTable
  cases t with
  | roster => exact closed.withHeads _
  | markerTags => exact closed.withLoc _
  | route => exact closed.withLoc _
  | thresholds => exact closed.withDet { h.det with }

/-- The APPLIED response of a pending apply takes the reserved place (R179). -/
theorem completeApply (h : s.Fits) : (completeApply s).Fits := by
  unfold Machine.completeApply
  split
  · rename_i t entries requester tag pending
    have reserved : s.req.responses.length < Config.responseCapacity := by
      simpa [Requests.placesTaken, pending, Staging.isPending] using h.req.places
    exact ((h.swapTable t entries).respond (by rwa [swapTable_placesTaken]) _ _ _).stopIdleTimer
  · exact h

/-! ### Ring entry and evaluation -/

theorem handOn (h : s.Fits) (e : EvaluatedStation) : (handOn s e).Fits := by
  unfold Machine.handOn
  dsimp only
  split
  · exact ((h.withTallies _).judgeStation e).composeStation e
  · exact (h.judgeStation e).composeStation e

theorem evaluateNext (h : s.Fits) : (evaluateNext s).Fits := by
  unfold Machine.evaluateNext
  split
  · exact h.withRing _
  · exact (h.completeApply.handOn _).withRing _

theorem evaluateRest (h : s.Fits) (count : Nat) : (evaluateRest s count).Fits := by
  induction count generalizing s with
  | zero => exact h
  | succ n ih => exact ih h.evaluateNext

theorem enterRing (h : s.Fits) (e : Entering) : (enterRing s e).Fits := by
  have entered := ((h.withRing { s.ring with stations := s.ring.stations ++ [s.recordOf e] }).withLoc
    { s.loc with entryNumber := s.loc.entryNumber + 1 }).withTallies
    { s.run.tallies with stations := s.run.tallies.stations + 1 }
  unfold Machine.enterRing
  dsimp only
  split
  · exact entered.evaluateNext
  · exact entered

theorem enterSkipped (h : s.Fits) (number count : Nat) : (enterSkipped s number count).Fits := by
  induction count generalizing s number with
  | zero => exact h
  | succ n ih => exact ih (h.enterRing _) _

theorem enterPending (h : s.Fits) (p : PendingStation) (inputs : Inputs) : (enterPending s p inputs).Fits :=
  (h.enterRing _).enterSkipped _ _

theorem enterClosed (h : s.Fits) (fuel : Nat) : (enterClosed s fuel).Fits := by
  induction fuel generalizing s with
  | zero => exact h
  | succ n ih =>
    unfold Machine.enterClosed
    split
    · exact h
    · rename_i p rest ht
      split
      · exact h
      · exact ih ((h.withTable (place_free h.table ht).le).enterPending p _)

/-! ### The assembly unit -/

theorem updateHead (h : s.Fits) (addr : Byte) (f : Head → Head) : (s.updateHead addr f).Fits := h.withHeads _

theorem updateEntry (h : s.Fits) (n : Nat) (f : PendingStation → PendingStation) : (s.updateEntry n f).Fits :=
  h.withTable (by simpa using h.table)

theorem judgeHead (h : s.Fits) (n : Nat) (m : Member) : (judgeHead n s m).Fits := by
  unfold Machine.judgeHead
  split
  · exact h
  · split
    · exact h.updateHead _ _
    · dsimp only
      split
      · exact (h.updateHead _ _).updateHead _ _
      · split
        · exact (((h.updateHead _ _).updateHead _ _).offerNote _).setEvent _
        · exact h.updateHead _ _

theorem closeStation (h : s.Fits) (p : PendingStation) : (closeStation s p).Fits := by
  have judged := List.foldlRecOn p.members (Machine.judgeHead p.number) h fun _ hs m _ => hs.judgeHead _ m
  exact (judged.updateEntry _ _).enterClosed _

theorem closeAnswered (h : s.Fits) (fuel : Nat) : (closeAnswered s fuel).Fits := by
  induction fuel generalizing s with
  | zero => exact h
  | succ n ih =>
    unfold Machine.closeAnswered
    split
    · exact h
    · exact ih (h.closeStation _)

theorem advanceRecovery (h : s.Fits) (n : Nat) (x : Head) : (advanceRecovery s n x).Fits := by
  unfold Machine.advanceRecovery
  split
  · exact h
  · split
    · exact (h.updateHead _ _).offerNote _
    · exact h.updateHead _ _

theorem lateSample (h : s.Fits) (x : Head) (n : Nat) (payload : List Byte) : (lateSample s x n payload).Fits := by
  unfold Machine.lateSample
  dsimp only
  split
  · exact ((h.updateHead _ _).advanceRecovery _ _).closeAnswered _
  · exact (h.updateHead _ _).closeAnswered _

theorem acceptSample (h : s.Fits) (x : Head) (n : Nat) (status : SampleStatus) (payload : List Byte) :
    (acceptSample s x n status payload).Fits :=
  (((h.updateHead _ _).updateEntry _ _).advanceRecovery _ _).closeAnswered _

theorem sampleIntake (h : s.Fits) (x : Head) (payload : List Byte) : (sampleIntake s x payload).Fits := by
  have counted : ∀ f, (s.updateHead x.cfg.addr f).Fits := h.updateHead _
  unfold Machine.sampleIntake
  dsimp only
  split
  · exact counted _
  · split
    · exact counted _
    · split
      · exact counted _
      · split
        · exact h.lateSample _ _ _
        · split
          · exact counted _
          · split
            · exact counted _
            · split
              · exact counted _
              · split
                · exact h.acceptSample _ _ _ _
                · exact counted _

theorem fireStation (h : s.Fits) (d : Due) (free : s.table.length < Config.pendingCapacity) : (fireStation s d).Fits := by
  have rated : ∀ c : Bool, (if c then Machine.setEvent s .rateExceeded else s).Fits
      ∧ (if c then Machine.setEvent s .rateExceeded else s).table = s.table := by
    intro c
    cases c
    · exact ⟨h, rfl⟩
    · exact ⟨h.setEvent _, setEvent_changes _ _ .table (by decide)⟩
  obtain ⟨fits, table⟩ := rated (rateShortfall s.heads d.rate (answerSet s.heads d.number d.rate))
  unfold Machine.fireStation
  dsimp only
  refine issueFire (withDist (fits.withTable ?_) _) _
  simpa [table] using free

theorem takeDue (h : s.Fits) (d : Due) : (takeDue s d).Fits := by
  unfold Machine.takeDue
  split
  · exact (h.withTable (by rw [skipNewest_length]; exact h.table)).withDist _
  · rename_i free
    exact h.fireStation d (Nat.not_le.mp free)

/-! ### The distance unit -/

theorem dueStations (h : s.Fits) (highWater : Int) (fuel : Nat) : (dueStations s highWater fuel).Fits := by
  induction fuel generalizing s with
  | zero => exact h
  | succ n ih =>
    unfold Machine.dueStations
    split
    · exact ih ((h.takeDue _).withDist _)
    · exact h

theorem resumeRun (h : s.Fits) : (resumeRun s).Fits := by
  unfold Machine.resumeRun
  split
  · exact h.withRunState _
  · exact h

theorem forwardCount (h : s.Fits) : (forwardCount s).Fits := by
  have resumed := (h.withDist { s.dist with odometer := s.dist.odometer + BitVec.ofNat 64 s.dist.countLength }).resumeRun
  unfold Machine.forwardCount
  dsimp only
  split
  · exact ((resumed.dueStations _ _).withRun _).reachMarks
  · exact resumed.reachMarks

theorem reverseCount (h : s.Fits) : (reverseCount s).Fits := by
  unfold Machine.reverseCount
  dsimp only
  split
  · exact ((h.withDist _).withRunState _).withDist _
  · exact h.withDist _

/-! ### Location -/

theorem placeChainage (h : s.Fits) (c : Word) : (placeChainage s c).Fits := (h.withLoc _).offerNote _

theorem tagIntake (h : s.Fits) (payload : List Byte) : (tagIntake s payload).Fits := by
  unfold Machine.tagIntake
  dsimp only
  split
  · exact h.withLoc _
  · split
    · exact h.withLoc _
    · split
      · exact h.withLoc _
      · split
        · exact (h.withLoc _).setEvent _
        · unfold Machine.judgeTag
          dsimp only
          split
          · exact (h.withLoc _).offerNote _
          · exact ((h.withLoc _).setEvent _).offerNote _

theorem receiveA (h : s.Fits) (bytes : List Byte) : (receiveA s bytes).Fits := by
  have counted := h.countReceivedA
  unfold Machine.receiveA
  dsimp only
  split
  · exact counted.errorA
  · unfold Machine.classifyA
    split
    · split
      · exact counted.dropUnknownSource
      · split
        · exact counted.dropUnknownSource
        · exact counted.sampleIntake _ _
    · split
      · split
        · exact counted.dropUnknownSource
        · split
          · exact counted.tagIntake _
          · exact counted.dropUnknownSource
      · exact counted.offerForwardAB _

/-! ### The passing of time -/

/-- A timer that runs down stays within its bound. -/
theorem elapse (h : s.Fits) (n : Nat) : (elapse n s).Fits := by
  refine { h with link := { h.link with pause := fun k hk => ?_ }, out := { h.out with } }
  obtain ⟨m, hm, rfl⟩ := Option.map_eq_some_iff.mp hk
  have := h.link.pause m hm
  omega

theorem completeDrain (h : s.Fits) : (completeDrain s).Fits := by
  have sent := (((h.evaluateRest (s.loc.entryNumber - s.ring.next)).closeAll .runEnd).flushBatch).offerNote
  exact (((sent _).withRing _).withLoc _).withRunState _

theorem takeOwn (h : s.Fits) (e : OwnEvent) : (takeOwn s e).Fits := by
  cases e with
  | pauseEnd => exact settle (h.withLink { h.link with pause := nofun })
  | flush =>
    have flushed := h.completeApply.flushBatch
    exact settle (flushed.withOut { flushed.out with })
  | pulseEnd side =>
    cases side
    · exact settle (h.withMark h.mark)
    · exact settle (h.withMark h.mark)
  | deadline station =>
    unfold Machine.takeOwn
    dsimp only
    split
    · exact h
    · exact ((h.closeStation _).closeAnswered _).settle
  | stampTimeout => exact settle (h.withDist _)
  | drain => exact h.completeDrain.settle

theorem pick {α : Type} (h : s.Fits) (first : α) (rest : List α) : (s.pick first rest).2.Fits := by
  cases rest with
  | nil => exact h
  | cons => exact h.withDraws _

theorem passTime (h : s.Fits) (fuel n : Nat) : (passTime fuel n s).Fits := by
  induction fuel generalizing s n with
  | zero => exact h.elapse n
  | succ fuel ih =>
    unfold Machine.passTime
    split
    · exact h.elapse n
    · split
      · split
        · exact h.elapse n
        · exact ih (((h.elapse _).pick _ _).takeOwn _) _
      · exact h.elapse n

theorem after (h : s.Fits) (n : Nat) : (s.after n).Fits := h.passTime _ n

theorem atMoment (h : s.Fits) (e : OwnEvent) : (s.atMoment e).Fits := by
  unfold State.atMoment
  split
  · exact h
  · exact h.after _

theorem awaitOwn (h : s.Fits) (e : OwnEvent) : (awaitOwn e s).Fits := by
  unfold Machine.awaitOwn
  dsimp only
  split
  · exact (h.atMoment e).takeOwn e
  · exact h.atMoment e

end State.Fits
end Sys2Proof.Machine
end

section
/-! # Capacities: the requests, the commands, a step -/

namespace Sys2Proof.Machine

theorem offerNote_req (s : State) (n : Note) : (offerNote s n).req = s.req := by
  unfold offerNote
  split <;> rfl

/-- A handling keeps the capacities where the response queue has a place free for its response (R169). -/
def KeepsFit (handling : Frame → State → State) : Prop :=
  ∀ (r : Frame) (s : State), s.Fits → s.req.placesTaken < Config.responseCapacity → (handling r s).Fits

/-! ### The resets -/

/-- After hardware reset every queue is empty (R17). -/
theorem reset_fits : State.reset.Fits where
  link := ⟨Nat.zero_le _, Nat.zero_le _, Nat.zero_le _, nofun⟩
  req := ⟨Nat.zero_le _, Nat.zero_le _⟩
  table := Nat.zero_le _
  det := ⟨Nat.zero_le _, fun h => (h rfl).elim, ⟨Nat.zero_le _, Nat.zero_le _, Nat.zero_le _⟩⟩
  mark := Nat.zero_le _
  out := ⟨Nat.zero_le _, Nat.zero_le _, nofun, nofun⟩

/-- After SOFT_RESET every queue is empty (R30). -/
theorem State.Fits.softResetState (s : State) : (softResetState s).Fits :=
  { reset_fits with link := { reset_fits.link with }, det := { reset_fits.det with } }

theorem State.Fits.hardwareResetState (s : State) (straps : BitVec 3) (encA encB : Bool) :
    (hardwareResetState s straps encA encB).Fits :=
  { reset_fits with link := { reset_fits.link with } }

/-! ### The handlings of chapter 10 -/

theorem queryStatus_keepsFit : KeepsFit queryStatus := fun _ _ h free => h.respond free _ _ _

theorem clearStatus_keepsFit : KeepsFit clearStatus := by
  intro r s h free
  unfold clearStatus
  split
  · exact State.Fits.respond (h.withStatus _) (by exact free) _ _ _
  · exact h.respond free _ _ _

theorem setParam_keepsFit : KeepsFit setParam := by
  intro r s h free
  unfold setParam
  split
  · exact h.respond free _ _ _
  · dsimp only
    split
    · exact h.respond free _ _ _
    · split
      · exact State.Fits.respond (h.withParams _) (by exact free) _ _ _
      · exact h.respond free _ _ _

theorem getParam_keepsFit : KeepsFit getParam := by
  intro r s h free
  unfold getParam
  split
  · exact h.respond free _ _ _
  · exact h.respond free _ _ _

/-- Staging that is not pending holds no place of the response queue. -/
theorem placesTaken_withStaging {s : State} {staging : Staging} (h : staging.isPending = false)
    (free : s.req.placesTaken < Config.responseCapacity) :
    ({ s.req with staging := staging } : Requests).placesTaken < Config.responseCapacity := by
  simp only [Requests.placesTaken, h, Bool.toNat_false] at *
  omega

theorem State.Fits.withStaging {s : State} (h : s.Fits) {staging : Staging} (hs : staging.isPending = false)
    (free : s.req.placesTaken < Config.responseCapacity) : (s.withReq { s.req with staging := staging }).Fits :=
  h.withReq { h.req with places := (placesTaken_withStaging hs free).le }

theorem tableOpen_keepsFit : KeepsFit tableOpen := by
  intro r s h free
  unfold tableOpen
  split
  · exact h.respond free _ _ _
  · split
    · exact h.respond free _ _ _
    · split
      · exact h.respond free _ _ _
      · exact (h.withStaging rfl free).respond (placesTaken_withStaging rfl free) _ _ _

theorem tableLine_keepsFit : KeepsFit tableLine := by
  intro r s h free
  unfold tableLine
  split
  · exact h.respond free _ _ _
  · split
    · exact h.respond free _ _ _
    · exact h.respond free _ _ _
    · dsimp only
      split
      · exact h.respond free _ _ _
      · split
        · exact h.respond free _ _ _
        · split
          · exact h.respond free _ _ _
          · exact (h.withStaging rfl free).respond (placesTaken_withStaging rfl free) _ _ _

/-- An apply that must wait takes the place of its response at once (R169, R179). -/
theorem tableApply_keepsFit : KeepsFit tableApply := by
  intro r s h free
  unfold tableApply
  split
  · exact h.respond free _ _ _
  · exact h.respond free _ _ _
  · have used : s.req.responses.length < Config.responseCapacity := Nat.lt_of_le_of_lt (Nat.le_add_right _ _) free
    dsimp only
    split
    · exact h.respond free _ _ _
    · split
      · exact h.respond free _ _ _
      · split
        · exact h.respond free _ _ _
        · split
          · exact h.respond free _ _ _
          · split
            · exact h.respond free _ _ _
            · split
              · exact (h.swapTable _ _).respond (by rwa [swapTable_placesTaken]) _ _ _
              · exact State.Fits.startFlushTimer (h.withReq (by exact { h.req with places := used }))

theorem tableAbort_keepsFit : KeepsFit tableAbort := by
  intro r s h free
  unfold tableAbort
  split
  · exact h.respond free _ _ _
  · exact h.respond free _ _ _
  · exact (h.withStaging rfl free).respond (placesTaken_withStaging rfl free) _ _ _

theorem readEntry_keepsFit : KeepsFit readEntry := by
  intro r s h free
  unfold readEntry
  split
  · exact h.respond free _ _ _
  · split
    · exact h.respond free _ _ _
    · exact h.respond free _ _ _

theorem clearGroup_req (s : State) (g : Group) : (clearGroup s g).req = s.req := by cases g <;> rfl

theorem State.Fits.clearGroup {s : State} (h : s.Fits) (g : Group) : (clearGroup s g).Fits := by
  cases g with
  | portA => exact h.withLink { h.link with }
  | portB => exact h.withLink { h.link with }
  | heads => exact h.withHeads _
  | run => exact ((h.withDist _).withLoc _).withMark h.mark

theorem readCounters_keepsFit : KeepsFit readCounters := by
  intro r s h free
  unfold readCounters
  split
  · exact h.respond free _ _ _
  · dsimp only
    split
    · exact (h.clearGroup _).respond (by rwa [clearGroup_req]) _ _ _
    · exact h.respond free _ _ _

theorem unknownRequest_keepsFit : KeepsFit unknownRequest := fun _ _ h free => h.respond free _ _ _

/-! ### The handlings of the chapters Runs and Location -/

theorem State.Fits.setUpRun {s : State} (h : s.Fits) (c0 : Word) (direction : Direction) (id : Half) (c : Chords) :
    (setUpRun s c0 direction id c).Fits :=
  { h with
    link := { h.link with fires := Nat.zero_le _ }
    det := { h.det with }
    mark := Nat.zero_le _ }

theorem runStart_keepsFit : KeepsFit runStart := by
  intro r s h free
  unfold runStart
  split
  · exact h.respond free _ _ _
  · split
    · exact h.respond free _ _ _
    · split
      · exact h.respond free _ _ _
      · split
        · exact h.respond free _ _ _
        · exact ((h.setUpRun _ _ _ _).offerNote _).respond (by rw [offerNote_req]; exact free) _ _ _

theorem runStop_keepsFit : KeepsFit runStop := by
  intro r s h free
  unfold runStop
  split
  · exact h.respond free _ _ _
  · exact h.respond free _ _ _
  · exact State.Fits.respond (h.withRun _) (by exact free) _ _ _
  · exact State.Fits.respond (h.withRun _) (by exact free) _ _ _

theorem setChainage_keepsFit : KeepsFit setChainage := by
  intro r s h free
  unfold setChainage
  split
  · exact h.respond free _ _ _
  · exact (h.placeChainage _).respond (by unfold placeChainage; rw [offerNote_req]; exact free) _ _ _

theorem softReset_keepsFit : KeepsFit softReset := fun _ s _ _ =>
  (State.Fits.softResetState s).respond (show 0 < 4 by decide) _ _ _

/-! ### The commands -/

theorem ifConsistent_keepsFit {handling : Frame → State → State} (hh : KeepsFit handling) (kind : RequestKind) :
    KeepsFit (ifConsistent kind handling) := by
  intro r s h free
  unfold ifConsistent
  split
  · exact hh r s h free
  · exact h.respond free _ _ _

/-- A request that is handled has left the intake and finds a place for its response. -/
theorem handleRequest_fits {kind : RequestKind} {handling : Frame → State → State} (hh : KeepsFit handling) {s t : State}
    (h : s.Fits) (e : handleRequest kind handling s = .next t) : t.Fits := by
  obtain ⟨r, rest, ⟨head, -, free, -⟩, rfl⟩ | ⟨-, rfl⟩ := handleRequest_cases e
  · have taken : (s.takeRequest rest).Fits := h.withReq { h.req with intake := (place_free h.req.intake head).le }
    exact (hh r _ taken free).settle
  · exact h

theorem State.Fits.downA {s : State} (h : s.Fits) (partly : Bool) : (downA s partly).Fits := by
  have down : (s.withLink { s.link with upA := false, fires := [] }).Fits :=
    h.withLink { h.link with fires := Nat.zero_le _ }
  unfold Machine.downA
  dsimp only
  split
  · exact down.countReceivedA.errorA
  · exact down

theorem State.Fits.downB {s : State} (h : s.Fits) (partly : Bool) : (downB s partly).Fits := by
  have down : (s.withLink { s.link with upB := false }).Fits := h.withLink { h.link with }
  unfold Machine.downB
  dsimp only
  split
  · exact down.countReceivedB.errorB
  · exact down

theorem execPortDown_fits {wait : Nat} {port : Port} {partly : Bool} {s t : State} (h : s.Fits)
    (e : execPortDown wait port partly s = .next t) : t.Fits := by
  have waited := h.after wait
  cases e
  cases port with
  | A =>
    dsimp only
    split
    · exact (waited.downA partly).settle
    · exact waited.settle
  | B =>
    dsimp only
    split
    · exact (waited.downB partly).settle
    · exact waited.settle

theorem execEncoderChange_fits {wait : Nat} {encA encB : Bool} {s t : State} (h : s.Fits)
    (e : execEncoderChange wait encA encB s = .next t) : t.Fits := by
  have held := (h.after wait).withDist { (s.after wait).dist with heldA := encA, heldB := encB }
  cases e
  dsimp only
  refine State.Fits.settle ?_
  split
  · exact held
  · exact held.forwardCount
  · exact held.reverseCount
  · exact held.withDist _

theorem exec_fits {c : Instr} {s t : State} (h : s.Fits) (e : exec c s = .next t) : t.Fits := by
  cases c with
  | hardwareReset straps encA encB => cases e; exact .hardwareResetState s straps encA encB
  | portUp wait port =>
    have waited := h.after wait
    cases e
    cases port
    · exact State.Fits.settle (waited.withLink { waited.link with })
    · exact State.Fits.settle (waited.withLink { waited.link with })
  | portDown wait port partly => exact execPortDown_fits h e
  | portAReceive wait bytes =>
    have waited := h.after wait
    simp only [exec, execPortAReceive] at e
    split at e <;> cases e
    · exact (waited.receiveA bytes).settle
    · exact waited.settle
  | portBReceive wait bytes =>
    have waited := h.after wait
    simp only [exec, execPortBReceive] at e
    split at e <;> cases e
    · exact (waited.receiveB bytes).settle
    · exact waited.settle
  | portATransmitEnd wait =>
    have waited := h.after wait
    cases e
    exact State.Fits.settle (waited.withLink { waited.link with })
  | portBTransmitEnd wait =>
    have waited := h.after wait
    cases e
    exact State.Fits.settle (waited.withLink { waited.link with })
  | encoderChange wait encA encB => exact execEncoderChange_fits h e
  | pauseExpiry => cases e; exact h.awaitOwn _
  | stampValidTimeout => cases e; exact h.awaitOwn _
  | deadlineExpiry station => cases e; exact h.awaitOwn _
  | markPulseExpiry side => cases e; exact h.awaitOwn _
  | flushTimerExpiry => cases e; exact h.awaitOwn _
  | drainComplete =>
    simp only [exec, execDrainComplete] at e
    split at e <;> cases e
    · exact h.completeDrain.settle
    · exact h
  | queryStatus => exact handleRequest_fits (ifConsistent_keepsFit queryStatus_keepsFit _) h e
  | clearStatus => exact handleRequest_fits (ifConsistent_keepsFit clearStatus_keepsFit _) h e
  | setParam => exact handleRequest_fits (ifConsistent_keepsFit setParam_keepsFit _) h e
  | getParam => exact handleRequest_fits (ifConsistent_keepsFit getParam_keepsFit _) h e
  | tableOpen => exact handleRequest_fits (ifConsistent_keepsFit tableOpen_keepsFit _) h e
  | tableLine => exact handleRequest_fits tableLine_keepsFit h e
  | tableApply => exact handleRequest_fits (ifConsistent_keepsFit tableApply_keepsFit _) h e
  | tableAbort => exact handleRequest_fits (ifConsistent_keepsFit tableAbort_keepsFit _) h e
  | readEntry => exact handleRequest_fits (ifConsistent_keepsFit readEntry_keepsFit _) h e
  | runStart => exact handleRequest_fits (ifConsistent_keepsFit runStart_keepsFit _) h e
  | runStop => exact handleRequest_fits (ifConsistent_keepsFit runStop_keepsFit _) h e
  | setChainage => exact handleRequest_fits (ifConsistent_keepsFit setChainage_keepsFit _) h e
  | readCounters => exact handleRequest_fits (ifConsistent_keepsFit readCounters_keepsFit _) h e
  | softReset => exact handleRequest_fits (ifConsistent_keepsFit softReset_keepsFit _) h e
  | unknownRequest => exact handleRequest_fits unknownRequest_keepsFit h e

theorem State.Fits.idle {s : State} (h : s.Fits) : (idle s).Fits := by
  unfold Machine.idle
  split
  · exact h.elapse 1
  · exact (h.pick _ _).withPending _

theorem step_fits {s t : State} (h : s.Fits) (e : step s = .next t) : t.Fits := by
  unfold step at e
  split at e
  · cases e
    exact h.idle
  · exact exec_fits (h.withPending _) e

/-- Settles O5: every operation leaves a state that fits (`State.Fits`), so every step does. -/
theorem stepKeepsCapacities : Obligations.StepKeepsCapacities := by
  intro s t h e
  rw [withinCapacities_iff_fits] at h ⊢
  exact step_fits h e

end Sys2Proof.Machine
end

section
/-! # The event of each command: what it changes before the transmitters choose

`changedBy` lists what a command may change with the transmitters' choices at its end. `Region.event` lists what its event
alone may change; the lines change in the two ends of transmission only. -/

namespace Sys2Proof.Machine

/-! ### The handlings of chapter 10 -/

section Handlings

variable (r : Frame) (s : State)

theorem queryStatus_changes : s.ChangesOnly [.responses] (queryStatus r s) := respond_changes _ _ _ _

theorem clearStatus_changes : s.ChangesOnly [.status, .responses] (clearStatus r s) := by
  have cleared : s.ChangesOnly [.status] (s.withStatus (s.status.clear (halfAt r.payload 3))) := by
    intro x hx
    cases x <;> simp_all [State.Agrees]
  unfold clearStatus
  exact .ite (.then (cleared.mono (by decide)) (respond_changes _ _ _ _) (by decide))
    ((respond_changes _ _ _ _).mono (by decide))

theorem setParam_changes : s.ChangesOnly [.params, .responses] (setParam r s) := by
  have answered : ∀ (u : State) code fields, u.ChangesOnly [.params, .responses] (respond u r code fields) :=
    fun u _ _ => (respond_changes u _ _ _).mono (by decide)
  have set : ∀ p, s.ChangesOnly [.params, .responses] (s.withParams p) := by
    intro p x hx
    cases x <;> simp_all [State.Agrees]
  unfold setParam
  split
  · exact answered _ _ _
  · exact .ite (answered _ _ _) (.ite ((set _).trans (answered _ _ _)) (answered _ _ _))

theorem getParam_changes : s.ChangesOnly [.responses] (getParam r s) := by
  unfold getParam
  split
  · exact respond_changes _ _ _ _
  · exact respond_changes _ _ _ _

theorem withStaging_changes (x : Staging) : s.ChangesOnly [.staging] (s.withReq { s.req with staging := x }) := by
  intro x hx
  cases x <;> simp_all [State.Agrees]

theorem tableOpen_changes : s.ChangesOnly [.staging, .responses] (tableOpen r s) := by
  have answered : ∀ (u : State) code fields, u.ChangesOnly [.staging, .responses] (respond u r code fields) :=
    fun u _ _ => (respond_changes u _ _ _).mono (by decide)
  unfold tableOpen
  split
  · exact answered _ _ _
  · exact .ite (answered _ _ _) (.ite (answered _ _ _)
      (.trans ((withStaging_changes s _).mono (by decide)) (answered _ _ _)))

theorem tableLine_changes : s.ChangesOnly [.staging, .responses] (tableLine r s) := by
  have answered : ∀ (u : State) code, u.ChangesOnly [.staging, .responses] (respondLine u r code) :=
    fun u _ => (respond_changes u _ _ _).mono (by decide)
  unfold tableLine
  refine .ite (answered _ _) ?_
  split
  · exact answered _ _
  · exact answered _ _
  · exact .ite (answered _ _) (.ite (answered _ _) (.ite (answered _ _)
      (.trans ((withStaging_changes s _).mono (by decide)) (answered _ _))))

theorem tableApply_changes :
    s.ChangesOnly [.staging, .heads, .tags, .route, .thresholds, .flushTimer, .responses] (tableApply r s) := by
  have answered : ∀ (u : State) code fields,
      u.ChangesOnly [.staging, .heads, .tags, .route, .thresholds, .flushTimer, .responses] (respond u r code fields) :=
    fun u _ _ => (respond_changes u _ _ _).mono (by decide)
  unfold tableApply
  split
  · exact answered _ _ _
  · exact answered _ _ _
  · refine .ite (answered _ _ _) (.ite (answered _ _ _) (.ite (answered _ _ _) (.ite (answered _ _ _)
      (.ite (answered _ _ _) (.ite ?_ ?_)))))
    · exact .trans ((swapTable_changes s _ _).mono (by decide)) (answered _ _ _)
    · exact .then ((withStaging_changes s _).mono (by decide)) (startFlushTimer_changes _) (by decide)

theorem tableAbort_changes : s.ChangesOnly [.staging, .responses] (tableAbort r s) := by
  have answered : ∀ (u : State) code fields, u.ChangesOnly [.staging, .responses] (respond u r code fields) :=
    fun u _ _ => (respond_changes u _ _ _).mono (by decide)
  unfold tableAbort
  split
  · exact answered _ _ _
  · exact answered _ _ _
  · exact .trans ((withStaging_changes s _).mono (by decide)) (answered _ _ _)

theorem readEntry_changes : s.ChangesOnly [.responses] (readEntry r s) := by
  unfold readEntry
  split
  · exact respond_changes _ _ _ _
  · split
    · exact respond_changes _ _ _ _
    · exact respond_changes _ _ _ _

theorem clearGroup_changes (g : Group) :
    s.ChangesOnly [.countersA, .countersB, .heads, .distanceCounters, .tagCounters, .markCounters] (clearGroup s g) := by
  intro x hx
  cases g <;> cases x <;> simp_all [State.Agrees, clearGroup, State.withTagCounters]

theorem readCounters_changes :
    s.ChangesOnly [.countersA, .countersB, .heads, .distanceCounters, .tagCounters, .markCounters, .responses]
      (readCounters r s) := by
  unfold readCounters
  split
  · exact (respond_changes _ _ _ _).mono (by decide)
  · refine .then (.ite ?_ (.refl _ _)) (respond_changes _ _ _ _) (by decide)
    exact (clearGroup_changes s _).mono (by decide)

theorem unknownRequest_changes : s.ChangesOnly [.responses] (unknownRequest r s) := respond_changes _ _ _ _

/-! ### The handlings of the chapters Runs and Location -/

/-- What the set-up of a run changes (R21). -/
abbrev Region.setUp : List Region :=
  [.fires, .runState, .runRecord, .highWater, .distanceAtStop, .tallies, .countLength, .nextStation, .stamps, .lastSpeed,
   .heads, .ring, .chords, .location, .entryNumber, .exceptions, .markQueue, .pulses]

theorem setUpRun_changes (c0 : Word) (direction : Direction) (id : Half) (c : Chords) :
    s.ChangesOnly Region.setUp (setUpRun s c0 direction id c) := by
  intro x hx
  cases x <;> simp_all [State.Agrees, setUpRun, flushMarks]

theorem runStart_changes : s.ChangesOnly (.responses :: Region.setUp ++ Region.noted) (runStart r s) := by
  have answered : ∀ (u : State) code fields,
      u.ChangesOnly (.responses :: Region.setUp ++ Region.noted) (respond u r code fields) :=
    fun u _ _ => (respond_changes u _ _ _).mono (by decide)
  unfold runStart
  refine .ite (answered _ _ _) ?_
  split
  · exact answered _ _ _
  · refine .ite (answered _ _ _) ?_
    split
    · exact answered _ _ _
    · refine .trans (.then ?_ (offerNote_changes _ _) (by decide)) (answered _ _ _)
      exact (setUpRun_changes s _ _ _ _).mono (by decide)

theorem runStop_changes : s.ChangesOnly [.runState, .distanceAtStop, .responses] (runStop r s) := by
  have answered : ∀ (u : State) code fields,
      u.ChangesOnly [.runState, .distanceAtStop, .responses] (respond u r code fields) :=
    fun u _ _ => (respond_changes u _ _ _).mono (by decide)
  have stopped : s.ChangesOnly [.runState, .distanceAtStop, .responses]
      (s.withRun { s.run with state := .draining, distanceAtStop := s.run.highWater }) := by
    intro x hx
    cases x <;> simp_all [State.Agrees]
  unfold runStop
  split
  · exact answered _ _ _
  · exact answered _ _ _
  · exact stopped.trans (answered _ _ _)
  · exact stopped.trans (answered _ _ _)

theorem setChainage_changes : s.ChangesOnly (.location :: .responses :: Region.noted) (setChainage r s) := by
  unfold setChainage
  exact .ite ((respond_changes _ _ _ _).mono (by decide))
    (.then ((placeChainage_changes s _).mono (by decide)) (respond_changes _ _ _ _) (by decide))

/-- What SOFT_RESET changes (R30). -/
abbrev Region.softReset : List Region :=
  [.fires, .forwardAB, .forwardBA, .pause, .countersA, .countersB, .runState, .tallies, .stamps, .distanceCounters, .heads,
   .table, .ring, .location, .tagCounters, .exceptions, .exceptionQueue, .overflow, .markQueue, .pulses, .markCounters,
   .batch, .flushTimer, .gap, .geometryQueue, .eventQueue, .status, .intake, .responses, .staging]

theorem softReset_changes : s.ChangesOnly Region.softReset (softReset r s) := by
  refine .then ?_ (respond_changes _ _ _ _) (by decide)
  intro x hx
  cases x <;> simp_all [State.Agrees, softResetState]

end Handlings

/-! ### Every command -/

/-- What the event of a command may change before the transmitters choose. -/
def Region.event : Instr → List Region
  | .hardwareReset _ _ _ => Region.held
  | .portUp _ _ => [.ports]
  | .portDown _ _ _ => [.ports, .fires, .countersA, .countersB] ++ Region.noted
  | .portAReceive _ _ => [.forwardAB, .countersA, .location, .tagCounters] ++ Region.closed
  | .portBReceive _ _ => [.pause, .forwardBA, .intake, .countersB] ++ Region.noted
  | .portATransmitEnd _ => [.lineA]
  | .portBTransmitEnd _ => [.lineB]
  | .pauseExpiry => [.pause]
  | .encoderChange _ _ _ => .levels :: Region.counted
  | .stampValidTimeout => [.stamps]
  | .deadlineExpiry _ => Region.closed
  | .markPulseExpiry _ => [.pulses]
  | .flushTimerExpiry => [.staging, .heads, .tags, .route, .thresholds, .responses] ++ Region.composed
  | .drainComplete => [.ring, .location, .runState] ++ Region.evaluated
  | .queryStatus => [.intake, .responses]
  | .clearStatus => [.intake, .status, .responses]
  | .setParam => [.intake, .params, .responses]
  | .getParam => [.intake, .responses]
  | .tableOpen => [.intake, .staging, .responses]
  | .tableLine => [.intake, .staging, .responses]
  | .tableApply => [.intake, .staging, .heads, .tags, .route, .thresholds, .flushTimer, .responses]
  | .tableAbort => [.intake, .staging, .responses]
  | .readEntry => [.intake, .responses]
  | .runStart => .intake :: .responses :: Region.setUp ++ Region.noted
  | .runStop => [.intake, .runState, .distanceAtStop, .responses]
  | .setChainage => .intake :: .location :: .responses :: Region.noted
  | .readCounters =>
    [.intake, .countersA, .countersB, .heads, .distanceCounters, .tagCounters, .markCounters, .responses]
  | .softReset => .intake :: Region.softReset
  | .unknownRequest => [.intake, .responses]

/-- Some event from `s` on changes only some regions; `t` is what it leaves, with the transmitters' choices or, where there
is no event, without them. -/
def State.EventLeads (s : State) (regions : List Region) (t : State) : Prop :=
  ∃ v, s.ChangesOnly regions v ∧ (t = v ∨ t = settle v)

theorem State.EventLeads.settled {s v : State} {l : List Region} (h : s.ChangesOnly l v) : s.EventLeads l (settle v) :=
  ⟨v, h, .inr rfl⟩

theorem State.EventLeads.none (s : State) (l : List Region) : s.EventLeads l s := ⟨s, .refl s l, .inl rfl⟩

/-- An event of the part's own. -/
theorem takeOwn_event (s : State) (e : OwnEvent) : s.EventLeads (Region.event e.command) (takeOwn s e) := by
  cases e with
  | pauseEnd =>
    refine .settled fun x hx => ?_
    cases x <;> simp_all [State.Agrees, Region.event, OwnEvent.command]
  | flush =>
    have timer : ∀ u : State, u.ChangesOnly [.flushTimer] (u.withOut { u.out with flush := none }) := by
      intro u x hx
      cases x <;> simp_all [State.Agrees]
    refine .settled (.then (.then ?_ (flushBatch_changes _) ?_) (timer _) ?_)
    · exact (completeApply_changes s).mono (by decide)
    · decide
    · decide
  | pulseEnd side =>
    cases side
    · refine .settled fun x hx => ?_
      cases x <;> simp_all [State.Agrees, Region.event, OwnEvent.command]
    · refine .settled fun x hx => ?_
      cases x <;> simp_all [State.Agrees, Region.event, OwnEvent.command]
  | deadline station =>
    unfold takeOwn
    dsimp only
    split
    · exact .none s _
    · exact .settled ((closeStation_changes s _).trans (closeAnswered_changes _ _))
  | stampTimeout =>
    refine .settled fun x hx => ?_
    cases x <;> simp_all [State.Agrees, Region.event, OwnEvent.command]
  | drain => exact .settled (completeDrain_changes s)

theorem awaitOwn_event (s : State) (e : OwnEvent) :
    (s.atMoment e).EventLeads (Region.event e.command) (awaitOwn e s) := by
  unfold awaitOwn
  dsimp only
  split
  · exact takeOwn_event _ e
  · exact .none _ _

/-- A request handled. -/
theorem handleRequest_event {kind : RequestKind} {handling : Frame → State → State} {l : List Region}
    (hh : ∀ (r : Frame) (s : State), s.ChangesOnly l (handling r s)) {s t : State}
    (e : handleRequest kind handling s = .next t) : s.EventLeads (.intake :: l) t := by
  obtain ⟨r, rest, -, rfl⟩ | ⟨-, rfl⟩ := handleRequest_cases e
  · have taken : s.ChangesOnly [.intake] (s.takeRequest rest) := by
      intro x hx
      cases x <;> simp_all [State.Agrees, State.takeRequest]
    exact .settled (.then (taken.mono (by simp)) (hh r _) (List.subset_cons_self _ _))
  · exact .none _ _

theorem handleConsistent_event {kind : RequestKind} {handling : Frame → State → State} {l : List Region}
    (hh : ∀ (r : Frame) (s : State), s.ChangesOnly l (handling r s)) (hl : .responses ∈ l) {s t : State}
    (e : handleRequest kind (ifConsistent kind handling) s = .next t) : s.EventLeads (.intake :: l) t :=
  handleRequest_event (ifConsistent_changes hl hh) e

theorem portDown_event (s : State) (port : Port) (partly : Bool) :
    s.EventLeads (Region.event (.portDown 0 port partly)) (settle (match port with
      | .A => if s.link.upA then downA s partly else s
      | .B => if s.link.upB then downB s partly else s)) := by
  refine .settled ?_
  cases port with
  | A =>
    have down : s.ChangesOnly (Region.event (.portDown 0 .A partly))
        (s.withLink { s.link with upA := false, fires := [] }) := by
      intro x hx
      cases x <;> simp_all [State.Agrees, Region.event]
    refine .ite (.ite (.then (.then down (countReceivedA_changes _) ?_) (errorA_changes _) ?_) down) (.refl _ _)
    · simp [Region.event]
    · simp [Region.event]
  | B =>
    have down : s.ChangesOnly (Region.event (.portDown 0 .B partly)) (s.withLink { s.link with upB := false }) := by
      intro x hx
      cases x <;> simp_all [State.Agrees, Region.event]
    refine .ite (.ite (.then (.then down (countReceivedB_changes _) ?_) (errorB_changes _) ?_) down) (.refl _ _)
    · simp [Region.event]
    · simp [Region.event]

theorem encoderChange_event {wait : Nat} {encA encB : Bool} {s t : State} (e : execEncoderChange wait encA encB s = .next t) :
    (s.after wait).EventLeads (.levels :: Region.counted) t := by
  have held : ∀ u : State, u.ChangesOnly [.levels] (u.withDist { u.dist with heldA := encA, heldB := encB }) := by
    intro u x hx
    cases x <;> simp_all [State.Agrees]
  have erred : ∀ u : State, u.ChangesOnly [.distanceCounters]
      (u.withDist { u.dist with encoderErrors := u.dist.encoderErrors + 1 }) := by
    intro u x hx
    cases x <;> simp_all [State.Agrees]
  cases e
  refine .settled (.trans ((held (s.after wait)).mono (by decide)) ?_)
  dsimp only
  split
  · exact .refl _ _
  · exact (forwardCount_changes _).mono (by decide)
  · exact (reverseCount_changes _).mono (by decide)
  · exact (erred _).mono (by decide)

/-- What a command does from its moment on: its event, then the transmitters' choices. -/
theorem exec_event {c : Instr} {s t : State} (e : exec c s = .next t)
    (notReset : ∀ straps encA encB, c ≠ .hardwareReset straps encA encB) :
    (s.before c).EventLeads (Region.event c) t := by
  cases c with
  | hardwareReset straps encA encB => exact (notReset straps encA encB rfl).elim
  | portUp wait port =>
    cases e
    refine .settled fun x hx => ?_
    cases port <;> cases x <;> simp_all [State.Agrees, State.before, Region.event]
  | portDown wait port partly => cases e; exact portDown_event (s.after wait) port partly
  | portAReceive wait bytes =>
    simp only [exec, execPortAReceive] at e
    split at e <;> cases e
    · exact .settled (receiveA_changes _ _)
    · exact .settled (.refl _ _)
  | portBReceive wait bytes =>
    simp only [exec, execPortBReceive] at e
    split at e <;> cases e
    · exact .settled (receiveB_changes _ _)
    · exact .settled (.refl _ _)
  | portATransmitEnd wait =>
    cases e
    refine .settled fun x hx => ?_
    cases x <;> simp_all [State.Agrees, State.before, Region.event]
  | portBTransmitEnd wait =>
    cases e
    refine .settled fun x hx => ?_
    cases x <;> simp_all [State.Agrees, State.before, Region.event]
  | encoderChange wait encA encB => exact encoderChange_event e
  | pauseExpiry => cases e; exact awaitOwn_event s .pauseEnd
  | stampValidTimeout => cases e; exact awaitOwn_event s .stampTimeout
  | deadlineExpiry station => cases e; exact awaitOwn_event s (.deadline station)
  | markPulseExpiry side => cases e; exact awaitOwn_event s (.pulseEnd side)
  | flushTimerExpiry => cases e; exact awaitOwn_event s .flush
  | drainComplete =>
    simp only [exec, execDrainComplete] at e
    split at e <;> cases e
    · exact .settled (completeDrain_changes s)
    · exact .none _ _
  | queryStatus => exact handleConsistent_event queryStatus_changes (by decide) e
  | clearStatus => exact handleConsistent_event clearStatus_changes (by decide) e
  | setParam => exact handleConsistent_event setParam_changes (by decide) e
  | getParam => exact handleConsistent_event getParam_changes (by decide) e
  | tableOpen => exact handleConsistent_event tableOpen_changes (by decide) e
  | tableLine => exact handleRequest_event tableLine_changes e
  | tableApply => exact handleConsistent_event tableApply_changes (by decide) e
  | tableAbort => exact handleConsistent_event tableAbort_changes (by decide) e
  | readEntry => exact handleConsistent_event readEntry_changes (by decide) e
  | runStart => exact handleConsistent_event runStart_changes (by decide) e
  | runStop => exact handleConsistent_event runStop_changes (by decide) e
  | setChainage => exact handleConsistent_event setChainage_changes (by decide) e
  | readCounters => exact handleConsistent_event readCounters_changes (by decide) e
  | softReset => exact handleConsistent_event softReset_changes (by decide) e
  | unknownRequest => exact handleRequest_event unknownRequest_changes e

end Sys2Proof.Machine
end

section
/-! # The passing of time, by its two cases

`State.after` takes the part's own events one by one. `after_induction` says so once: time that passes with no event of the
part's own in it, and one event taken at its moment, are the two cases. -/

namespace Sys2Proof.Machine

theorem pick_eq_withDraws {α : Type} (s : State) (first : α) (rest : List α) : ∃ k, (s.pick first rest).2 = s.withDraws k := by
  cases rest with
  | nil => exact ⟨s.draws, rfl⟩
  | cons => exact ⟨s.draws + 1, rfl⟩

/-- What holds of some time and its end state, where no event of the part's own comes in the time, and where one that comes
first is taken and it holds of the time that is left, holds whatever comes. -/
theorem passTime_induction {P : State → Nat → State → Prop}
    (ends : ∀ s n, (∀ e t, s.timeTo e = some t → n ≤ t) → P s n (elapse n s))
    (takes : ∀ s n t e k r, t < n → s.timeTo e = some t → (∀ e' t', s.timeTo e' = some t' → t ≤ t') →
      P (takeOwn ((elapse t s).withDraws k) e) (n - t) r → P s n r)
    (fuel n : Nat) (s : State) (enough : s.ownLeft < fuel) : P s n (passTime fuel n s) := by
  induction fuel generalizing n s with
  | zero => omega
  | succ fuel ih =>
    have spec := soonest_spec s
    unfold passTime
    cases hs : s.soonest with
    | none =>
      rw [hs] at spec
      exact ends s n fun e t he => nomatch (spec e).symm.trans he
    | some t =>
      rw [hs] at spec
      obtain ⟨comes, first⟩ := spec
      dsimp only
      by_cases before : t < n
      · rw [if_pos before]
        cases hc : s.comingIn t with
        | nil => exact (comes hc).elim
        | cons e rest =>
          obtain ⟨k, picked⟩ := pick_eq_withDraws (elapse t s) e rest
          have chosen : s.timeTo ((elapse t s).pick e rest).1 = some t := by
            have mem : ((elapse t s).pick e rest).1 ∈ s.comingIn t := hc ▸ pick_mem _ e rest
            simpa using (List.mem_filter.mp mem).2
          have moment : ((elapse t s).pick e rest).2.timeTo ((elapse t s).pick e rest).1 = some (t - t) := by
            rw [timeTo_pick]
            exact timeTo_elapse chosen (Nat.le_refl t)
          have fewer := ownLeft_takeOwn moment
          rw [ownLeft_pick, ownLeft_elapse] at fewer
          dsimp only
          refine takes s n t _ k _ before chosen first ?_
          rw [← picked]
          exact ih _ _ (by omega)
      · rw [if_neg before]
        exact ends s n fun e t' he => Nat.le_trans (Nat.not_lt.mp before) (first e t' he)

theorem after_induction {P : State → Nat → State → Prop}
    (ends : ∀ s n, (∀ e t, s.timeTo e = some t → n ≤ t) → P s n (elapse n s))
    (takes : ∀ s n t e k r, t < n → s.timeTo e = some t → (∀ e' t', s.timeTo e' = some t' → t ≤ t') →
      P (takeOwn ((elapse t s).withDraws k) e) (n - t) r → P s n r)
    (s : State) (n : Nat) : P s n (s.after n) :=
  passTime_induction ends takes _ n s (ownLeft_lt_bound s)

/-! ### The time base -/

theorem takeOwn_time (u : State) (e : OwnEvent) : (takeOwn u e).time = u.time := by
  refine takeOwn_changes u e .time ?_
  cases e <;> simp [OwnEvent.command, changedBy]

theorem settle_time (s : State) : (settle s).time = s.time := settle_changes s .time (by decide)

/-- The time base advances by the whole wait, whatever comes in it. -/
theorem after_time (s : State) (n : Nat) : (s.after n).time = s.time + BitVec.ofNat 32 n := by
  refine after_induction (P := fun s n r => r.time = s.time + BitVec.ofNat 32 n) (fun _ _ _ => rfl)
    (fun s n t e k r before _ _ rest => ?_) s n
  rw [rest, takeOwn_time, State.withDraws_time, State.elapse_time, BitVec.add_assoc, ← BitVec.ofNat_add,
    Nat.add_sub_cancel' (Nat.le_of_lt before)]

end Sys2Proof.Machine
end

section
/-! # The transmitters (R11 to R14): what each choice leaves, and a frame in progress

Port A's choice and port B's touch different lines and queues, so what one does can be read off `settle`. -/

namespace Sys2Proof.Machine

/-! ### What the choices leave -/

/-- With a frame in progress on port A its transmitter chooses nothing (R11). -/
theorem chooseA_of_lineA {s : State} {f : Frame} (h : s.link.lineA = some f) : chooseA s = s := by
  simp [chooseA, h]

/-- With a frame in progress on port B the arbiter chooses nothing (R13). -/
theorem chooseB_of_lineB {s : State} {f : Frame} (h : s.link.lineB = some f) : chooseB s = s := by
  simp [chooseB, h]

/-- What the arbiter's choice may change: nothing of port A. -/
abbrev Region.startedB : List Region :=
  [.lineB, .forwardAB, .responses, .eventQueue, .exceptionQueue, .overflow, .geometryQueue, .gap, .status]

theorem startB_changes_portB (s : State) (q : QueueB) : s.ChangesOnly Region.startedB (startB s q) := by
  unfold startB
  split
  · exact .refl _ _
  · rename_i f rest _
    have line : s.ChangesOnly Region.startedB (s.withLink { s.link with lineB := some f }) := by
      intro r hr
      cases r <;> simp_all [State.Agrees]
    refine line.trans ?_
    generalize s.withLink { s.link with lineB := some f } = u
    cases q with
    | response => intro r hr; cases r <;> simp_all [State.Agrees]
    | note => intro r hr; cases r <;> simp_all [State.Agrees]
    | exception =>
      refine .then (t := u.withDet { u.det with queue := rest }) ?_ (reportOverflow_changes _) (by decide)
      intro r hr
      cases r <;> simp_all [State.Agrees]
    | geometry =>
      refine .then (t := u.withOut { u.out with geometry := rest }) ?_ (reportGap_changes _) (by decide)
      intro r hr
      cases r <;> simp_all [State.Agrees]
    | forward => intro r hr; cases r <;> simp_all [State.Agrees]

theorem chooseB_changes_portB (s : State) : s.ChangesOnly Region.startedB (chooseB s) := by
  unfold chooseB
  refine .ite ?_ (.refl _ _)
  split
  · exact startB_changes_portB _ _
  · exact .refl _ _

/-- At the end of an event port A is as its own choice leaves it. -/
theorem settle_portA (s : State) :
    (settle s).link.lineA = (chooseA s).link.lineA ∧ (settle s).link.fires = (chooseA s).link.fires
      ∧ (settle s).link.forwardBA = (chooseA s).link.forwardBA := by
  have h := chooseB_changes_portB (chooseA s)
  exact ⟨h .lineA (by decide), h .fires (by decide), h .forwardBA (by decide)⟩

theorem settle_lineA {s : State} {f : Frame} (h : s.link.lineA = some f) : (settle s).link.lineA = some f := by
  rw [(settle_portA s).1, chooseA_of_lineA h, h]

theorem settle_lineB {s : State} {f : Frame} (h : s.link.lineB = some f) : (settle s).link.lineB = some f := by
  have same : (chooseA s).link.lineB = s.link.lineB := chooseA_changes s .lineB (by decide)
  rw [settle, chooseB_of_lineB (same.trans h), same, h]

/-! ### A frame in progress -/

/-- A frame in progress on port A in the first state is so in the second. -/
def State.KeepsLineA (s t : State) : Prop := ∀ f, s.link.lineA = some f → t.link.lineA = some f

/-- A frame in progress on port B in the first state is so in the second. -/
def State.KeepsLineB (s t : State) : Prop := ∀ f, s.link.lineB = some f → t.link.lineB = some f

theorem State.EventLeads.keepsLineA {s t : State} {l : List Region} (h : s.EventLeads l t) (untouched : .lineA ∉ l) :
    s.KeepsLineA t := by
  intro f hf
  obtain ⟨v, changes, rfl | rfl⟩ := h
  · exact Eq.trans (changes .lineA untouched) hf
  · exact settle_lineA (Eq.trans (changes .lineA untouched) hf)

theorem State.EventLeads.keepsLineB {s t : State} {l : List Region} (h : s.EventLeads l t) (untouched : .lineB ∉ l) :
    s.KeepsLineB t := by
  intro f hf
  obtain ⟨v, changes, rfl | rfl⟩ := h
  · exact Eq.trans (changes .lineB untouched) hf
  · exact settle_lineB (Eq.trans (changes .lineB untouched) hf)

/-- No event of the part's own is the end of a transmission. -/
theorem lines_not_in_own_event (e : OwnEvent) :
    .lineA ∉ Region.event e.command ∧ .lineB ∉ Region.event e.command := by
  cases e <;> simp only [OwnEvent.command, Region.event] <;> decide

theorem after_keepsLines (s : State) (n : Nat) : s.KeepsLineA (s.after n) ∧ s.KeepsLineB (s.after n) := by
  refine after_induction (P := fun s _ r => s.KeepsLineA r ∧ s.KeepsLineB r)
    (fun _ _ _ => ⟨fun _ => id, fun _ => id⟩) (fun s n t e k r _ _ _ rest => ?_) s n
  have event := takeOwn_event ((elapse t s).withDraws k) e
  obtain ⟨notA, notB⟩ := lines_not_in_own_event e
  exact ⟨fun f hf => rest.1 f (event.keepsLineA notA f hf), fun f hf => rest.2 f (event.keepsLineB notB f hf)⟩

theorem atMoment_cases (s : State) (e : OwnEvent) : s.atMoment e = s ∨ ∃ n, s.atMoment e = s.after n := by
  unfold State.atMoment
  split
  · exact .inl rfl
  · exact .inr ⟨_, rfl⟩

/-- Up to the moment of a command at most some time passes. -/
theorem before_cases (s : State) (c : Instr) : s.before c = s ∨ ∃ n, s.before c = s.after n := by
  cases c with
  | portUp n | portDown n | portAReceive n | portBReceive n | portATransmitEnd n | portBTransmitEnd n | encoderChange n =>
    exact .inr ⟨n, rfl⟩
  | pauseExpiry | stampValidTimeout | deadlineExpiry | markPulseExpiry | flushTimerExpiry => exact atMoment_cases s _
  | _ => exact .inl rfl

theorem before_keepsLines (s : State) (c : Instr) : s.KeepsLineA (s.before c) ∧ s.KeepsLineB (s.before c) := by
  obtain e | ⟨n, e⟩ := before_cases s c
  · rw [e]
    exact ⟨fun _ => id, fun _ => id⟩
  · rw [e]
    exact after_keepsLines s n

/-- Only the end of its transmission and hardware reset change port A's line. -/
theorem lineA_mem_event {c : Instr} (h : .lineA ∈ Region.event c) :
    (∃ wait, c = .portATransmitEnd wait) ∨ ∃ straps encA encB, c = .hardwareReset straps encA encB := by
  cases c <;> simp_all [Region.event]

/-- Only the end of its transmission and hardware reset change port B's line. -/
theorem lineB_mem_event {c : Instr} (h : .lineB ∈ Region.event c) :
    (∃ wait, c = .portBTransmitEnd wait) ∨ ∃ straps encA encB, c = .hardwareReset straps encA encB := by
  cases c <;> simp_all [Region.event]

/-- Settles O11: of the commands but hardware reset, only the end of a port's transmission changes its line (`exec_event`),
and neither the passing of time nor the transmitters' choices touch a line in use. -/
theorem frameInProgressRunsToItsEnd : Obligations.FrameInProgressRunsToItsEnd := by
  intro c s t f e notReset
  have event := exec_event e notReset
  obtain ⟨beforeA, beforeB⟩ := before_keepsLines s c
  refine ⟨fun notEnd hf => event.keepsLineA (fun mem => ?_) f (beforeA f hf),
    fun notEnd hf => event.keepsLineB (fun mem => ?_) f (beforeB f hf)⟩
  · obtain ⟨wait, ends⟩ | ⟨straps, encA, encB, resets⟩ := lineA_mem_event mem
    · exact notEnd wait ends
    · exact notReset straps encA encB resets
  · obtain ⟨wait, ends⟩ | ⟨straps, encA, encB, resets⟩ := lineB_mem_event mem
    · exact notEnd wait ends
    · exact notReset straps encA encB resets

end Sys2Proof.Machine
end

section
/-! # The layouts of OVERFLOW records and notes (Tables 11-8 and 11-9) -/

namespace Sys2Proof.Machine

/-! ### Flags bytes -/

theorem testBit_flags (bits : List Bool) (i : Nat) :
    (bits.foldr (fun (b : Bool) n => b.toNat + 2 * n) 0).testBit i = bits.getD i false := by
  induction bits generalizing i with
  | nil => simp
  | cons b bits ih =>
    have split : b.toNat + 2 * bits.foldr (fun (b : Bool) n => b.toNat + 2 * n) 0
        = Nat.bit b (bits.foldr (fun (b : Bool) n => b.toNat + 2 * n) 0) := by
      rw [Nat.bit_val, Nat.add_comm]
    rw [List.foldr_cons, split]
    cases i with
    | zero => simp
    | succ i => simpa [Nat.testBit_bit_succ] using ih i

/-- Bit i of a flags byte is its i-th flag. -/
theorem flagByte_bit (bits : List Bool) {i : Nat} (hi : i < 8) : (flagByte bits)[i] = bits.getD i false := by
  rw [← BitVec.getLsbD_eq_getElem, flagByte, BitVec.getLsbD_ofNat, testBit_flags]
  simp [hi]

/-! ### The records -/

theorem overflowPayload_layout (o : Overflow) : let p := overflowPayload o
    p.length = 19 ∧ byteAt p 0 = 2
    ∧ [1, 3, 5].map (halfAt p) = [BitVec.ofNat 16 o.notice, BitVec.ofNat 16 o.action, BitVec.ofNat 16 o.urgent]
    ∧ halfAt p 7 = o.firstRun ∧ wordAt p 9 = BitVec.ofNat 32 o.firstStation
    ∧ halfAt p 13 = o.lastRun ∧ wordAt p 15 = BitVec.ofNat 32 o.lastStation := by
  simp [overflowPayload, nat8, nat16, nat32]

theorem runStart_layout (run : Half) (dir : Direction) (c0 : Word) (spacing short long twist : Nat) :
    let p := (Note.runStart run dir c0 spacing short long twist).payload
    p.length = 15 ∧ byteAt p 0 = 1 ∧ halfAt p 1 = run
    ∧ byteAt p 3 = (match dir with | .increasing => 0 | .decreasing => 1)
    ∧ wordAt p 4 = c0 ∧ wordAt p 8 = BitVec.ofNat 32 spacing
    ∧ [12, 13, 14].map (byteAt p) = [BitVec.ofNat 8 short, BitVec.ofNat 8 long, BitVec.ofNat 8 twist] := by
  cases dir <;> simp [Note.payload, nat8, nat32, Direction.code]

theorem runEnd_layout (run : Half) (distance : Int) (x : Tallies) : let p := (Note.runEnd run distance x).payload
    p.length = 55 ∧ byteAt p 0 = 2 ∧ halfAt p 1 = run
    ∧ [3, 7, 19, 23, 27, 31, 35, 39, 43, 47, 51].map (wordAt p) = [x.stations, x.voidStations, x.emittedNotice,
        x.emittedAction, x.emittedUrgent, x.discardedShort, x.lostNotice, x.lostAction, x.lostUrgent, x.marksScheduled,
        x.marksDropped]
    ∧ wordAt p 11 ++ wordAt p 15 = BitVec.ofInt 64 distance := by
  simp [Note.payload, nat8, int64, dwordBytes, dword_join]

theorem location_layout (run : Half) (cause : LocationCause) (delta : Word) (first : Option Nat) (epoch : Byte)
    (status : LocationStatus) (ratio : Option Int) :
    let p := (Note.location run cause delta first epoch status ratio).payload
    p.length = 22 ∧ byteAt p 0 = 3 ∧ halfAt p 1 = run
    ∧ [0, 1, 2].map (byteAt p 3).getLsbD = (match cause with
        | .accepted _ => [false, false, true]
        | .rejected _ => [true, false, true]
        | .byRequest => [false, true, false])
    ∧ [3, 4, 5, 6, 7].map (byteAt p 3).getLsbD = [first.isSome, ratio.isSome, false, false, false]
    ∧ wordAt p 4 = (match cause with | .accepted tag => tag | .rejected tag => tag | .byRequest => 0)
    ∧ wordAt p 8 = delta ∧ wordAt p 12 = (match first with | some n => BitVec.ofNat 32 n | none => 0)
    ∧ byteAt p 16 = epoch
    ∧ byteAt p 17 = (match status with | .none => 0 | .set => 1 | .confirmed => 2 | .doubtful => 3)
    ∧ wordAt p 18 = (match ratio with | some r => BitVec.ofInt 32 r | none => 0) := by
  simp only [Note.payload, nat8, nat32, int32]
  refine ⟨by simp, by simp, by simp, ?_, ?_, by cases cause <;> simp, by simp, by cases first <;> simp, by simp,
    by cases status <;> simp [LocationStatus.code], by cases ratio <;> simp⟩
  · cases cause <;> simp [flagByte_bit]
  · cases cause <;> simp [flagByte_bit]

theorem head_layout (run : Half) (addr : Byte) (role : Role) (phase : Phase) (n : Nat) (code : Byte) (note : Note) :
    (code, note) ∈ [(4, Note.headDegraded run addr role phase n), (5, .headRecovered run addr role phase n)] →
    let p := note.payload
    p.length = 10 ∧ byteAt p 0 = code ∧ halfAt p 1 = run ∧ byteAt p 3 = addr
    ∧ byteAt p 4 = (match role with | .leftProfile => 1 | .rightProfile => 2 | .bodyMotion => 3 | .tagReader => 4)
    ∧ byteAt p 5 = (match phase with | .even => 0 | .odd => 1 | .both => 2) ∧ wordAt p 6 = BitVec.ofNat 32 n := by
  intro h
  have payload : note.payload
      = [code] ++ halfBytes run ++ [addr] ++ nat8 role.code ++ nat8 phase.code ++ nat32 n := by
    simp only [List.mem_cons, Prod.mk.injEq, List.not_mem_nil, or_false] at h
    obtain ⟨rfl, rfl⟩ | ⟨rfl, rfl⟩ := h
    · rfl
    · rfl
  simp only [payload, nat8, nat32]
  exact ⟨by simp, by simp, by simp, by simp, by cases role <;> simp [Role.code], by cases phase <;> simp [Phase.code], by simp⟩

/-- The sticky bits are numbered in the order of Table 11-1. -/
theorem StickyBit.index_of_listed {i : Nat} {b : StickyBit}
    (h : [StickyBit.linkAErrors, .linkBErrors, .headDegraded, .rateExceeded, .tagUnknown, .locationRejected,
      .exceptionOverflow, .geometryGap, .markDropped, .noteLost, .requestDropped][i]? = some b) : b.index = i := by
  obtain ⟨hi, rfl⟩ := List.getElem?_eq_some_iff.mp h
  simp only [List.length_cons, List.length_nil] at hi
  interval_cases i <;> rfl

theorem status_layout (i : Nat) (b : StickyBit) (x : Status) (h : [StickyBit.linkAErrors, .linkBErrors, .headDegraded,
      .rateExceeded, .tagUnknown, .locationRejected, .exceptionOverflow, .geometryGap, .markDropped, .noteLost,
      .requestDropped][i]? = some b) :
    let p := (Note.status b x).payload
    p.length = 8 ∧ byteAt p 0 = 6 ∧ byteAt p 1 = BitVec.ofNat 8 i ∧ halfAt p 2 = x.bits.setWidth 16
    ∧ wordAt p 4 = x.generation ∧ x.has b = x.bits.getLsbD i := by
  simp [Note.payload, nat8, Status.field, Status.has, StickyBit.index_of_listed h]

theorem gap_layout (g : Gap) : let p := (Note.gap g).payload
    p.length = 17 ∧ byteAt p 0 = 7 ∧ halfAt p 1 = g.firstRun ∧ wordAt p 3 = BitVec.ofNat 32 g.firstStation
    ∧ halfAt p 7 = g.lastRun ∧ wordAt p 9 = BitVec.ofNat 32 g.lastStation ∧ wordAt p 13 = g.count := by
  simp [Note.payload, nat8, nat32]

end Sys2Proof.Machine
end

section
/-! # The choices of the two transmitters (R11 to R14) -/

namespace Sys2Proof.Machine

/-! ### Port A -/

theorem settle_portA_of_lineA {s : State} {f : Frame} (h : s.link.lineA = some f) :
    (settle s).link.lineA = some f ∧ (settle s).link.fires = s.link.fires
      ∧ (settle s).link.forwardBA = s.link.forwardBA := by
  have port := settle_portA s
  rw [chooseA_of_lineA h] at port
  exact ⟨port.1.trans h, port.2⟩

theorem settle_portA_of_down {s : State} (h : s.link.upA = false) :
    (settle s).link.lineA = s.link.lineA ∧ (settle s).link.fires = s.link.fires
      ∧ (settle s).link.forwardBA = s.link.forwardBA := by
  have port := settle_portA s
  rwa [show chooseA s = s by simp [chooseA, h]] at port

section FreeLineA

variable {s : State} (up : s.link.upA = true) (free : s.link.lineA = none)
include up free

/-- The oldest FIRE starts. -/
theorem settle_portA_of_fire {f : Frame} {rest : List Frame} (h : s.link.fires = f :: rest) :
    (settle s).link.lineA = some f ∧ (settle s).link.fires = rest ∧ (settle s).link.forwardBA = s.link.forwardBA := by
  have port := settle_portA s
  rwa [show chooseA s = s.withLink { s.link with lineA := some f, fires := rest } by
    simp [chooseA, up, free, h]] at port

/-- Without a FIRE the oldest forwarded frame starts. -/
theorem settle_portA_of_forward {f : Frame} {rest : List Frame} (noFire : s.link.fires = [])
    (h : s.link.forwardBA = f :: rest) :
    (settle s).link.lineA = some f ∧ (settle s).link.fires = [] ∧ (settle s).link.forwardBA = rest := by
  have port := settle_portA s
  rw [show chooseA s = s.withLink { s.link with lineA := some f, forwardBA := rest } by
    simp [chooseA, up, free, noFire, h]] at port
  exact ⟨port.1, port.2.1.trans noFire, port.2.2⟩

theorem settle_portA_of_empty (noFire : s.link.fires = []) (noFrame : s.link.forwardBA = []) :
    (settle s).link.lineA = none ∧ (settle s).link.fires = [] ∧ (settle s).link.forwardBA = [] := by
  have port := settle_portA s
  rw [show chooseA s = s by simp [chooseA, up, free, noFire, noFrame], free, noFire, noFrame] at port
  exact port

end FreeLineA

/-- A state with its line A free. -/
abbrev State.endA (s : State) : State := s.withLink { s.link with lineA := none }

/-- Settles O20: the arbiter leaves port A as its own choice does (`settle_portA`). -/
theorem portAChoosesFireFirst : Obligations.PortAChoosesFireFirst := by
  refine ⟨fun s f h => settle_portA_of_lineA h, fun _ _ => rfl,
    fun wait s => ⟨_, rfl, ?_, fun down => ?_, fun up => ⟨?_, ?_, ?_⟩⟩⟩
  · rw [settle_time]
    exact after_time s wait
  · exact settle_portA_of_down (s := (s.after wait).endA) down
  · exact fun f rest waiting => settle_portA_of_fire (s := (s.after wait).endA) up rfl waiting
  · exact fun noFire f rest waiting => settle_portA_of_forward (s := (s.after wait).endA) up rfl noFire waiting
  · exact fun noFire noFrame => settle_portA_of_empty (s := (s.after wait).endA) up rfl noFire noFrame

/-! ### The queues of port B -/

/-- The region of each queue. -/
def QueueB.region : QueueB → Region
  | .response => .responses
  | .note => .eventQueue
  | .exception => .exceptionQueue
  | .geometry => .geometryQueue
  | .forward => .forwardAB

theorem queueB_of_changes {s t : State} {l : List Region} (h : s.ChangesOnly l t) {q : QueueB} (hq : q.region ∉ l) :
    t.queueB q = s.queueB q := by
  cases q <;> exact h _ hq

/-- The state with one queue of port B changed. -/
def State.withQueueB (s : State) (q : QueueB) (frames : List Frame) : State :=
  match q with
  | .response => s.withReq { s.req with responses := frames }
  | .note => s.withOut { s.out with events := frames }
  | .exception => s.withDet { s.det with queue := frames }
  | .geometry => s.withOut { s.out with geometry := frames }
  | .forward => s.withLink { s.link with forwardAB := frames }

theorem withQueueB_changes (s : State) (q : QueueB) (frames : List Frame) :
    s.ChangesOnly [q.region] (s.withQueueB q frames) := by
  intro r hr
  cases q <;> cases r <;> simp_all [State.Agrees, State.withQueueB, QueueB.region]

/-! ### The arbiter -/

section PortB

variable {s : State}

theorem chooseB_of_held (h : s.link.upB = false ∨ s.link.pause ≠ none ∨ ∀ q, s.queueB q = []) : chooseB s = s := by
  obtain down | paused | empty := h
  · simp [chooseB, down]
  · simp [chooseB, paused]
  · simp [chooseB, State.winnerB, empty]

theorem chooseB_of_wins (up : s.link.upB = true) (free : s.link.lineB = none) (go : s.link.pause = none) {q : QueueB}
    (wins : s.Wins q) : chooseB s = startB s q := by
  simp [chooseB, up, free, go, winnerB_of_wins wins]

/-- The state with the oldest frame of a queue on the line, before the owner acts on the free place. -/
def State.started (s : State) (q : QueueB) (f : Frame) (rest : List Frame) : State :=
  (s.withLink { s.link with lineB := some f }).withQueueB q rest

/-- What the owner of a queue does with the place that comes free. -/
def State.reported (s : State) : QueueB → State
  | .exception => reportOverflow s
  | .geometry => reportGap s
  | .response | .note | .forward => s

theorem startB_eq {q : QueueB} {f : Frame} {rest : List Frame} (h : s.queueB q = f :: rest) :
    startB s q = (s.started q f rest).reported q := by
  unfold startB
  rw [h]
  cases q <;> rfl

theorem started_lineB (q : QueueB) (f : Frame) (rest : List Frame) : (s.started q f rest).link.lineB = some f := by
  cases q <;> rfl

theorem started_changes (q : QueueB) (f : Frame) (rest : List Frame) :
    s.ChangesOnly [.lineB, q.region] (s.started q f rest) := by
  have line : s.ChangesOnly [.lineB, q.region] (s.withLink { s.link with lineB := some f }) := by
    intro r hr
    cases r <;> simp_all [State.Agrees]
  exact line.then (withQueueB_changes _ _ _) (List.subset_cons_self _ _)

/-- The frame in progress is the one that started, whatever the owner of its queue does. -/
theorem startB_lineB {q : QueueB} {f : Frame} {rest : List Frame} (h : s.queueB q = f :: rest) :
    (startB s q).link.lineB = some f := by
  have line := started_lineB (s := s) q f rest
  rw [startB_eq h]
  cases q with
  | response => exact line
  | note => exact line
  | exception => exact Eq.trans (reportOverflow_changes _ .lineB (by decide)) line
  | geometry => exact Eq.trans (reportGap_changes _ .lineB (by decide)) line
  | forward => exact line

theorem reportOverflow_of_none {u : State} (h : u.det.overflow.counts = 0) : reportOverflow u = u := by
  unfold reportOverflow
  exact if_pos h

/-- A summary that holds counts takes the free place (R141). -/
theorem reportOverflow_of_counts {u : State} (h : u.det.overflow.counts ≠ 0) :
    reportOverflow u = u.withDet { u.det with
      queue := u.det.queue ++ [u.frame u.params.recorder kindException (overflowPayload u.det.overflow)]
      overflow := {} } := by
  unfold reportOverflow
  exact if_neg h

/-- The state with the oldest GEOMETRY frame on the line and no gap. -/
abbrev State.geometryStarted (s : State) (f : Frame) (rest : List Frame) : State :=
  (s.started .geometry f rest).withOut { (s.started .geometry f rest).out with gap := none }

theorem reportGap_of_none {u : State} (h : u.out.gap = none) : reportGap u = u := by
  simp [reportGap, h]

/-- A pending gap becomes a GAP note (R162). -/
theorem reportGap_of_gap {u : State} {g : Gap} (h : u.out.gap = some g) :
    reportGap u = offerNote (u.withOut { u.out with gap := none }) (.gap g) := by
  simp [reportGap, h]

end PortB

theorem offerNote_of_room {s : State} (room : s.out.events.length < 16) (n : Note) :
    offerNote s n = s.withOut { s.out with events := s.out.events ++ [s.frame s.params.recorder kindNote n.payload] } :=
  if_pos room

theorem offerNote_of_full {s : State} (full : 16 ≤ s.out.events.length) (n : Note) :
    offerNote s n = s.withStatus (s.status.raise .noteLost) :=
  if_neg (Nat.not_lt.mpr full)

/-- What the end of a frame on port B leaves, where the frame `f` starts from the queue `q` (R13, R14, R141, R162). -/
theorem startB_outcome {u : State} {q : QueueB} {f : Frame} {rest : List Frame} (waiting : u.queueB q = f :: rest) :
    let t := startB u q
    t.link.lineB = some f
    ∧ ((q = .exception → u.det.overflow.counts = 0) → t.queueB q = rest ∧ t.det.overflow = u.det.overflow)
    ∧ (q = .exception → u.det.overflow.counts ≠ 0 → t.det.overflow.counts = 0 ∧ t.queueB q = rest ++
        [{ dst := u.params.recorder, src := u.link.ownAddr, kind := 0x21, payload := overflowPayload u.det.overflow }])
    ∧ ((q = .geometry → u.out.gap = none) → (∀ q', q' ≠ q → t.queueB q' = u.queueB q') ∧ t.status = u.status)
    ∧ (∀ g, q = .geometry → u.out.gap = some g → t.out.gap = none
        ∧ (∀ q', q' ≠ q → q' ≠ .note → t.queueB q' = u.queueB q')
        ∧ (u.out.events.length < 16 → t.status = u.status ∧ t.out.events = u.out.events ++
            [{ dst := u.params.recorder, src := u.link.ownAddr, kind := 0x22, payload := (Note.gap g).payload }])
        ∧ (16 ≤ u.out.events.length → t.out.events = u.out.events ∧ t.status = u.status.raise .noteLost)) := by
  have other : ∀ q', q' ≠ q → (u.started q f rest).queueB q' = u.queueB q' := fun q' hq =>
    queueB_of_changes (started_changes q f rest) (by revert hq; cases q <;> cases q' <;> simp [QueueB.region])
  refine ⟨startB_lineB waiting, fun noSummary => ?_, ?_, fun noGap => ?_, ?_⟩
  · rw [startB_eq waiting]
    cases q with
    | exception =>
      rw [State.reported, reportOverflow_of_none (u := u.started .exception f rest) (noSummary rfl)]
      exact ⟨rfl, rfl⟩
    | geometry => exact ⟨reportGap_changes _ .geometryQueue (by decide), reportGap_changes _ .overflow (by decide)⟩
    | response | note | forward => exact ⟨rfl, rfl⟩
  · rintro rfl counts
    rw [startB_eq waiting, State.reported, reportOverflow_of_counts (u := u.started .exception f rest) counts]
    exact ⟨rfl, rfl⟩
  · rw [startB_eq waiting]
    cases q with
    | exception =>
      have report := reportOverflow_changes (u.started .exception f rest)
      refine ⟨fun q' hq => (queueB_of_changes report ?_).trans (other q' hq), report .status (by decide)⟩
      cases q' <;> simp_all [QueueB.region]
    | geometry =>
      rw [State.reported, reportGap_of_none (u := u.started .geometry f rest) (noGap rfl)]
      exact ⟨other, rfl⟩
    | response | note | forward => exact ⟨other, rfl⟩
  · rintro g rfl held
    rw [startB_eq waiting, State.reported, reportGap_of_gap (u := u.started .geometry f rest) held]
    have offered := offerNote_changes (u.geometryStarted f rest) (.gap g)
    refine ⟨offered .gap (by decide), fun q' hq hn => (queueB_of_changes offered ?_).trans (other q' hq), fun room => ?_,
      fun full => ?_⟩
    · cases q' <;> simp_all [QueueB.region]
    · rw [offerNote_of_room (s := u.geometryStarted f rest) room]
      exact ⟨rfl, rfl⟩
    · rw [offerNote_of_full (s := u.geometryStarted f rest) full]
      exact ⟨rfl, rfl⟩

/-- With a frame in progress neither the line nor a queue of port B changes at the end of an event. -/
theorem settle_portB_of_lineB {s : State} {f : Frame} (h : s.link.lineB = some f) (q : QueueB) :
    (settle s).queueB q = s.queueB q := by
  have choiceA := chooseA_changes s
  rw [settle, chooseB_of_lineB (Eq.trans (choiceA .lineB (by decide)) h)]
  exact queueB_of_changes choiceA (by cases q <;> decide)

/-- Port A's choice changes the link alone, and nothing of port B in it. -/
theorem chooseA_eq_withLink (s : State) : ∃ x : Link, chooseA s = s.withLink x ∧ x.ownAddr = s.link.ownAddr
    ∧ x.upB = s.link.upB ∧ x.lineB = s.link.lineB ∧ x.pause = s.link.pause ∧ x.forwardAB = s.link.forwardAB := by
  unfold chooseA
  split
  · split
    · exact ⟨_, rfl, rfl, rfl, rfl, rfl, rfl⟩
    · exact ⟨_, rfl, rfl, rfl, rfl, rfl, rfl⟩
    · exact ⟨s.link, rfl, rfl, rfl, rfl, rfl, rfl⟩
  · exact ⟨s.link, rfl, rfl, rfl, rfl, rfl, rfl⟩

/-- Settles O21: port A's choice leaves port B as it is, so what starts is the arbiter's choice in the state with the line
free. -/
theorem portBArbitrates : Obligations.PortBArbitrates := by
  refine ⟨fun _ => ⟨rfl, rfl⟩, fun s f h => ⟨settle_lineB h, settle_portB_of_lineB h⟩, fun _ _ => rfl,
    overflowPayload_layout, runStart_layout, runEnd_layout, location_layout, head_layout, status_layout, gap_layout,
    fun wait s => ⟨_, rfl, ?_, ?_⟩⟩
  · rw [settle_time]
    exact after_time s wait
  generalize s.after wait = u
  obtain ⟨x, e, own, up, line, pause, forward⟩ := chooseA_eq_withLink (u.withLink { u.link with lineB := none })
  have queues : ∀ q, (u.withLink x).queueB q = u.queueB q := by
    intro q
    cases q with
    | forward => exact forward
    | response | note | exception | geometry => rfl
  have priorities : ∀ q, (u.withLink x).priorityB q = u.priorityB q := fun _ => rfl
  rw [settle, e, State.withLink_withLink]
  refine ⟨fun held => ?_, fun isUp noPause q f rest wins waiting => ?_⟩
  · rw [chooseB_of_held]
    · exact ⟨line, queues⟩
    · simpa only [queues, State.withLink_link, up, pause] using held
  · rw [chooseB_of_wins (up.trans isUp) line (pause.trans noPause) (q := q)]
    · have outcome := startB_outcome (u := u.withLink x) ((queues q).trans waiting)
      simp only [queues, State.withLink_link, own] at outcome
      exact outcome
    · simpa only [State.Wins, queues, priorities] using wins

end Sys2Proof.Machine
end

section
/-! # Good frames on the link (R2, R3) -/

namespace Sys2Proof.Machine

/-! ### The check -/

/-- Steps 3 and 4 of R3: the register is shifted, and the polynomial added where its top bit differs from the incoming one. -/
theorem crcBit_eq (r : Half) (b : Bool) : crcBit r b = if r.getLsbD 15 = b then r <<< 1 else (r <<< 1) ^^^ 0x1021 := by
  rw [crcBit, BitVec.msb_eq_getLsbD_last]
  cases r.getLsbD 15 <;> cases b <;> rfl

theorem crc_snoc (bytes : List Byte) (b : Byte) : crc (bytes ++ [b]) = crcByte (crc bytes) b := by
  simp [crc]

/-! ### The receiver's judgement -/

/-- What a frame's bytes are judged to be: the frame, where its payload is no longer than a length byte may say. -/
theorem judgeFrame_bytes {f : Frame} (h : f.payload.length ≤ 250) : judgeFrame f.bytes = some f := by
  have length : (BitVec.ofNat 8 f.payload.length).toNat = f.payload.length := by
    rw [BitVec.toNat_ofNat]
    omega
  simp [Frame.bytes, Frame.body, judgeFrame, length, h]

/-- A string taken for a good frame is that frame's. -/
theorem eq_bytes_of_judgeFrame {bytes : List Byte} {f : Frame} (h : judgeFrame bytes = some f) :
    f.payload.length ≤ 250 ∧ bytes = f.bytes := by
  unfold judgeFrame at h
  split at h
  · rename_i dst src kind len rest
    split at h
    · cases h
    · rename_i fits
      dsimp only at h
      split at h
      · rename_i check
        cases h
        obtain ⟨short, whole⟩ : len.toNat ≤ 250 ∧ rest.length = len.toNat + 2 := by omega
        have length : (rest.take len.toNat).length = len.toNat := by simp; omega
        refine ⟨by simpa [length] using short, ?_⟩
        simp [Frame.bytes, Frame.body, length, ← check]
      · cases h
  · cases h

/-- Settles O14: `judgeFrame` undoes `Frame.bytes`, and takes no other string. -/
theorem goodFrameRoundTrip : Obligations.GoodFrameRoundTrip := by
  refine ⟨fun h w => ⟨rfl, wordBytes_eq w, halfAt_halfBytes_nil h, wordAt_wordBytes_nil w⟩, ⟨rfl, fun bytes b => ?_⟩,
    fun f => rfl, fun bytes f => ⟨eq_bytes_of_judgeFrame, ?_⟩⟩
  · rw [crc_snoc, crcByte]
    simp only [crcBit_eq]
  · rintro ⟨h, rfl⟩
    exact judgeFrame_bytes h

/-! ### The number of 1 bits

The polynomial of R3 has four terms, so each step of the check keeps the parity of the register's 1 bits and those taken in:
a shift loses the top bit, and the polynomial, added where that bit differs from the incoming one, turns three bits more. -/

/-- The 1 bits of a register. -/
def ones (r : Half) : Nat := (List.range 16).countP r.getLsbD

theorem countP_xor (p q : Nat → Bool) (l : List Nat) :
    l.countP (fun i => xor (p i) (q i)) + 2 * l.countP (fun i => p i && q i) = l.countP p + l.countP q := by
  induction l with
  | nil => rfl
  | cons i l ih =>
    simp only [List.countP_cons]
    cases p i <;> cases q i <;> simp <;> omega

/-- A shift loses the top bit. -/
theorem ones_shift (r : Half) : ones (r <<< 1) + (r.getLsbD 15).toNat = ones r := by
  have rest : ((List.range 15).map Nat.succ).countP (r <<< 1).getLsbD = (List.range 15).countP r.getLsbD := by
    rw [List.countP_map]
    refine List.countP_congr fun i hi => ?_
    have : i < 15 := List.mem_range.mp hi
    simp [show i + 1 < 16 by omega, BitVec.getLsbD_eq_getElem (show i < 16 by omega)]
  have low : (List.range 16).countP (r <<< 1).getLsbD = (List.range 15).countP r.getLsbD := by
    rw [List.range_succ_eq_map, List.countP_cons, rest]
    simp
  have high : (List.range 16).countP r.getLsbD = (List.range 15).countP r.getLsbD + (r.getLsbD 15).toNat := by
    rw [List.range_succ, List.countP_append, List.countP_singleton]
    cases r.getLsbD 15 <;> rfl
  rw [ones, ones, low, high]

/-- The polynomial turns three bits. -/
theorem ones_xor_polynomial (r : Half) : ones (r ^^^ 0x1021) % 2 = (ones r + 1) % 2 := by
  have turned := countP_xor r.getLsbD (0x1021 : Half).getLsbD (List.range 16)
  have three : (List.range 16).countP (0x1021 : Half).getLsbD = 3 := by decide
  have bits : (r ^^^ 0x1021).getLsbD = fun i => xor (r.getLsbD i) ((0x1021 : Half).getLsbD i) :=
    funext fun i => BitVec.getLsbD_xor
  unfold ones
  rw [bits]
  omega

theorem ones_crcBit (r : Half) (b : Bool) : ones (crcBit r b) % 2 = (ones r + b.toNat) % 2 := by
  have shift := ones_shift r
  have turned := ones_xor_polynomial (r <<< 1)
  rw [crcBit_eq]
  split
  · rename_i same
    rw [same] at shift
    omega
  · rename_i differs
    have : (r.getLsbD 15).toNat + b.toNat = 1 := by
      revert differs
      cases r.getLsbD 15 <;> cases b <;> simp
    omega

theorem ones_crcBits (p : Nat → Bool) (l : List Nat) (r : Half) :
    ones (l.foldl (fun r i => crcBit r (p i)) r) % 2 = (ones r + l.countP p) % 2 := by
  induction l generalizing r with
  | nil => rfl
  | cons i l ih =>
    have step := ones_crcBit r (p i)
    have count : (i :: l).countP p = l.countP p + (p i).toNat := by
      rw [List.countP_cons]
      cases p i <;> rfl
    rw [List.foldl_cons, ih, count]
    omega

theorem ones_crcByte (r : Half) (b : Byte) :
    ones (crcByte r b) % 2 = (ones r + (List.range 8).countP b.getLsbD) % 2 := by
  have order : [7, 6, 5, 4, 3, 2, 1, 0] = (List.range 8).reverse := rfl
  rw [crcByte, ones_crcBits, order, List.countP_reverse]

theorem onesIn_cons (b : Byte) (bytes : List Byte) :
    onesIn (b :: bytes) = (List.range 8).countP b.getLsbD + onesIn bytes := by
  simp [onesIn]

theorem onesIn_append (a b : List Byte) : onesIn (a ++ b) = onesIn a + onesIn b := by
  simp [onesIn]

theorem ones_crcBytes (bytes : List Byte) (r : Half) : ones (bytes.foldl crcByte r) % 2 = (ones r + onesIn bytes) % 2 := by
  induction bytes generalizing r with
  | nil => rfl
  | cons b bytes ih =>
    have step := ones_crcByte r b
    rw [List.foldl_cons, ih, onesIn_cons]
    omega

/-- The check holds as many 1 bits, modulo 2, as the string it is of. -/
theorem ones_crc (bytes : List Byte) : ones (crc bytes) % 2 = onesIn bytes % 2 := by
  have start : ones 0xFFFF = 16 := by decide
  have h := ones_crcBytes bytes 0xFFFF
  rw [start] at h
  rw [crc, h]
  omega

theorem onesIn_halfBytes (h : Half) : onesIn (halfBytes h) = ones h := by
  have byte : ∀ k, (List.range 8).countP (h.extractLsb' k 8).getLsbD = (List.range 8).countP fun i => h.getLsbD (k + i) := by
    refine fun k => List.countP_congr fun i hi => ?_
    rw [BitVec.getLsbD_extractLsb', decide_eq_true (List.mem_range.mp hi), Bool.true_and]
  have halves : List.range 16 = List.range 8 ++ (List.range 8).map (8 + ·) := rfl
  rw [halfBytes_eq, onesIn_cons, onesIn_cons, ones, halves, List.countP_append, List.countP_map, byte, byte]
  simp only [Nat.zero_add, Function.comp_def]
  exact Nat.add_comm _ _

/-- A frame's bytes hold an even number of 1 bits: those under the check, and as many again modulo 2. -/
theorem onesIn_bytes (f : Frame) : onesIn f.bytes % 2 = 0 := by
  have check := ones_crc f.body
  rw [Frame.bytes, onesIn_append, onesIn_halfBytes]
  omega

/-- Settles O15: a good string is some frame's, and those hold an even number of 1 bits. -/
theorem oddCorruptionIsFound : Obligations.OddCorruptionIsFound := by
  refine ⟨fun f _ => onesIn_bytes f, fun bytes odd => ?_⟩
  cases h : judgeFrame bytes with
  | none => rfl
  | some f =>
    have even := onesIn_bytes f
    rw [(eq_bytes_of_judgeFrame h).2] at odd
    omega

end Sys2Proof.Machine
end

section
/-! # Reset, and the commands of the link (chapter 1) -/

namespace Sys2Proof.Machine

/-! ### The state after reset -/

/-- Every parameter's default lies in its range (Table 10-2). -/
theorem reset_valuesInRange : State.reset.ValuesInRange := by
  refine ⟨fun id => ?_, nofun, nofun, nofun, List.forall_mem_nil _, Nat.zero_le _, fun ch x isOpen => ?_⟩
  · cases id <;> decide
  · cases ch <;> cases isOpen

/-- In IDLE nothing is in place. -/
theorem reset_stationsInOrder : State.reset.StationsInOrder := by
  have idle : State.reset.run.state = .idle := rfl
  rw [State.StationsInOrder, if_pos idle]
  exact ⟨rfl, rfl, rfl, fun ch => by cases ch <;> rfl⟩

theorem reset_tablesSound : State.reset.TablesSound :=
  ⟨Nat.zero_le _, .nil, List.forall_mem_nil _, rfl, Nat.zero_le _, .nil, Nat.zero_le _, .nil, List.forall_mem_nil _,
    .inl rfl, List.forall_mem_nil _, trivial⟩

/-- Settles O4: every queue, table and timer of `State.reset` is empty or off, the parameters at their defaults. -/
theorem resetMeetsInvariants : Obligations.ResetMeetsInvariants :=
  ⟨(withinCapacities_iff_fits _).mpr reset_fits, rfl, reset_valuesInRange, reset_stationsInOrder,
    ⟨by decide, fun running => (running rfl).elim, nofun⟩, reset_tablesSound, rfl⟩

/-- Settles O31: each block of `hardwareResetState` at its default. -/
theorem hardwareResetValues : Obligations.HardwareResetValues := by
  intro straps a b s
  refine ⟨_, rfl, rfl, rfl, rfl, rfl, rfl, rfl, rfl, rfl, ⟨rfl, rfl, rfl, rfl, rfl, rfl, rfl, rfl⟩,
    ⟨rfl, fun ch => ?_, rfl, rfl, rfl⟩, rfl, rfl, rfl, rfl⟩
  cases ch <;> rfl

/-! ### Offers -/

/-- Settles O18: each offer asks whether its queue has a place. -/
theorem offersJoinOrAreDropped : Obligations.OffersJoinOrAreDropped := by
  intro s f
  exact ⟨fun room => if_pos room, fun full => if_neg (Nat.not_lt.mpr full), fun room => if_pos room,
    fun full => if_neg (Nat.not_lt.mpr full), fun room => if_pos room, fun full => if_neg (Nat.not_lt.mpr full)⟩

/-! ### Reception at port A -/

section ReceptionA

variable {s : State} {f : Frame}

theorem receiveA_of_bad {bytes : List Byte} (bad : judgeFrame bytes = none) :
    receiveA s bytes = errorA (countReceivedA s) := by
  simp [receiveA, bad]

theorem receiveA_of_good {bytes : List Byte} (good : judgeFrame bytes = some f) :
    receiveA s bytes = classifyA (countReceivedA s) f := by
  simp [receiveA, good]

theorem classifyA_of_other (notSample : f.kind ≠ kindSample) (notTag : f.kind ≠ kindTag) :
    classifyA s f = offerForwardAB s f := by
  simp only [classifyA, if_neg notSample, if_neg notTag]

theorem classifyA_of_unknown (measured : f.kind = kindSample ∨ f.kind = kindTag) (unknown : s.findHead f.src = none) :
    classifyA s f = dropUnknownSource s := by
  obtain sample | tag := measured
  · simp [classifyA, sample, unknown]
  · simp [classifyA, tag, unknown]

variable {h : Head} (known : s.findHead f.src = some h)
include known

theorem classifyA_of_sample (sample : f.kind = kindSample) (profile : h.cfg.role ≠ .tagReader) :
    classifyA s f = sampleIntake s h f.payload := by
  simp [classifyA, sample, known, profile]

theorem classifyA_of_tag (tag : f.kind = kindTag) (reader : h.cfg.role = .tagReader) :
    classifyA s f = tagIntake s f.payload := by
  simp [classifyA, tag, known, reader]

/-- A SAMPLE of the tag reader, or a TAG of another head. -/
theorem classifyA_of_mismatch
    (mismatch : (f.kind = kindSample ∧ h.cfg.role = .tagReader) ∨ (f.kind = kindTag ∧ h.cfg.role ≠ .tagReader)) :
    classifyA s f = dropUnknownSource s := by
  obtain ⟨sample, reader⟩ | ⟨tag, notReader⟩ := mismatch
  · simp [classifyA, sample, known, reader]
  · simp [classifyA, tag, known, notReader]

end ReceptionA

theorem exec_portAReceive_of_up {wait : Nat} {bytes : List Byte} {s : State} (up : (s.after wait).link.upA = true) :
    exec (.portAReceive wait bytes) s = .next (settle (receiveA (s.after wait) bytes)) :=
  if_pos up

theorem exec_portAReceive_of_down {wait : Nat} {bytes : List Byte} {s : State} (down : (s.after wait).link.upA = false) :
    exec (.portAReceive wait bytes) s = .next (settle (s.after wait)) :=
  if_neg (by simp [down])

/-- Settles O16: a good frame at port A goes by the rows of `classifyA`. -/
theorem portAReceivesAndClassifies : Obligations.PortAReceivesAndClassifies := by
  intro wait bytes s
  refine ⟨exec_portAReceive_of_down, fun up bad => ?_, fun f up good => ?_⟩
  · rw [exec_portAReceive_of_up up, receiveA_of_bad bad]
    rfl
  · rw [exec_portAReceive_of_up up, receiveA_of_good good]
    refine ⟨fun notSample notTag => ?_, fun measured unknown => ?_, fun h known => ⟨fun sample profile => ?_,
      fun tag reader => ?_, fun mismatch => ?_⟩⟩
    · rw [classifyA_of_other notSample notTag]
      rfl
    · rw [classifyA_of_unknown (s := countReceivedA (s.after wait)) measured unknown]
      rfl
    · rw [classifyA_of_sample (s := countReceivedA (s.after wait)) known sample profile]
      rfl
    · rw [classifyA_of_tag (s := countReceivedA (s.after wait)) known tag reader]
      rfl
    · rw [classifyA_of_mismatch (s := countReceivedA (s.after wait)) known mismatch]
      rfl

/-! ### Reception at port B -/

section ReceptionB

variable {s : State} {f : Frame}

theorem receiveB_of_bad {bytes : List Byte} (bad : judgeFrame bytes = none) :
    receiveB s bytes = errorB (countReceivedB s) := by
  simp [receiveB, bad]

theorem receiveB_of_good {bytes : List Byte} (good : judgeFrame bytes = some f) :
    receiveB s bytes = classifyB (countReceivedB s) f := by
  simp [receiveB, good]

/-- A PAUSE of no duration ends the pause. -/
theorem takePause_of_zero {hi lo : Byte} (zero : (hi ++ lo : Half) = 0) :
    takePause s [hi, lo] = s.withLink { s.link with pause := none } := by
  have duration : (halfAt [hi, lo] 0).toNat = 0 := congrArg BitVec.toNat zero
  simp only [takePause, List.length_cons, List.length_nil, duration, if_true]

theorem takePause_of_duration {hi lo : Byte} (some' : (hi ++ lo : Half) ≠ 0) :
    takePause s [hi, lo] = s.withLink { s.link with pause := some (hi ++ lo : Half).toNat } := by
  have duration : (halfAt [hi, lo] 0).toNat ≠ 0 := fun zero => some' (BitVec.eq_of_toNat_eq zero)
  simp only [takePause, List.length_cons, List.length_nil, if_neg duration, if_true]
  rfl

theorem takePause_of_length {payload : List Byte} (h : payload.length ≠ 2) : takePause s payload = dropWrongKind s :=
  if_neg h

theorem classifyB_of_pause (pause : f.kind = kindPause) : classifyB s f = takePause s f.payload := if_pos pause

variable (notPause : f.kind ≠ kindPause)
include notPause

theorem classifyB_of_own_request (own : f.dst = s.link.ownAddr) (request : f.kind = kindRequest) :
    classifyB s f = offerRequest s f := by
  simp only [classifyB, if_neg notPause, if_pos own, if_pos request]

theorem classifyB_of_own_other (own : f.dst = s.link.ownAddr) (other : f.kind ≠ kindRequest) :
    classifyB s f = dropWrongKind s := by
  simp only [classifyB, if_neg notPause, if_pos own, if_neg other]

theorem classifyB_of_broadcast (away : f.dst ≠ s.link.ownAddr) (all : f.dst = broadcast) (request : f.kind = kindRequest) :
    classifyB s f = offerForwardBA (offerRequest s f) f := by
  have both : f.dst = broadcast ∧ f.kind = kindRequest := ⟨all, request⟩
  simp only [classifyB, if_neg notPause, if_neg away, if_pos both]

theorem classifyB_of_away (away : f.dst ≠ s.link.ownAddr) (other : f.dst ≠ broadcast ∨ f.kind ≠ kindRequest) :
    classifyB s f = offerForwardBA s f := by
  have notBoth : ¬ (f.dst = broadcast ∧ f.kind = kindRequest) := not_and_or.mpr other
  simp only [classifyB, if_neg notPause, if_neg away, if_neg notBoth]

end ReceptionB

theorem exec_portBReceive_of_up {wait : Nat} {bytes : List Byte} {s : State} (up : (s.after wait).link.upB = true) :
    exec (.portBReceive wait bytes) s = .next (settle (receiveB (s.after wait) bytes)) :=
  if_pos up

theorem exec_portBReceive_of_down {wait : Nat} {bytes : List Byte} {s : State} (down : (s.after wait).link.upB = false) :
    exec (.portBReceive wait bytes) s = .next (settle (s.after wait)) :=
  if_neg (by simp [down])

/-- Settles O17: a good frame at port B goes by the rows of `classifyB`. -/
theorem portBReceivesAndClassifies : Obligations.PortBReceivesAndClassifies := by
  intro wait bytes s
  refine ⟨exec_portBReceive_of_down, fun up bad => ?_, fun f up good => ?_⟩
  · rw [exec_portBReceive_of_up up, receiveB_of_bad bad]
    rfl
  · rw [exec_portBReceive_of_up up, receiveB_of_good good]
    refine ⟨fun pause => ?_, fun notPause own => ⟨fun request => ?_, fun other => ?_⟩,
      fun notPause away => ⟨fun all request => ?_, fun other => ?_⟩⟩
    · rw [classifyB_of_pause pause]
      refine ⟨fun hi lo payload => ?_, fun length => ?_⟩
      · rw [payload]
        refine ⟨fun zero => ?_, fun some' => ?_⟩
        · rw [takePause_of_zero zero]
          rfl
        · rw [takePause_of_duration some']
          rfl
      · rw [takePause_of_length length]
        rfl
    · rw [classifyB_of_own_request (s := countReceivedB (s.after wait)) notPause own request]
      rfl
    · rw [classifyB_of_own_other (s := countReceivedB (s.after wait)) notPause own other]
      rfl
    · rw [classifyB_of_broadcast (s := countReceivedB (s.after wait)) notPause away all request]
      rfl
    · rw [classifyB_of_away (s := countReceivedB (s.after wait)) notPause away other]
      rfl

/-! ### Port state -/

theorem downA_of_partial (s : State) : downA s true = setEvent (s.withLink { s.link with
    upA := false, fires := []
    countersA := { s.link.countersA with
      received := s.link.countersA.received + 1, errors := s.link.countersA.errors + 1 } }) .linkAErrors := rfl

theorem downB_of_partial (s : State) : downB s true = setEvent (s.withLink { s.link with
    upB := false
    countersB := { s.link.countersB with
      received := s.link.countersB.received + 1, errors := s.link.countersB.errors + 1 } }) .linkBErrors := rfl

/-- Settles O19: the commands after their wait are `downA` and `downB`, or set one port state. -/
theorem portGoesUpAndDown : Obligations.PortGoesUpAndDown := by
  intro wait s
  refine ⟨rfl, rfl, fun up => ⟨?_, ?_⟩, fun up => ⟨?_, ?_⟩⟩
  · simp only [exec, execPortDown, up, if_true]
    rfl
  · simp only [exec, execPortDown, up, if_true, downA_of_partial]
  · simp only [exec, execPortDown, up, if_true]
    rfl
  · simp only [exec, execPortDown, up, if_true, downB_of_partial]

/-! ### SOFT_RESET -/

theorem softResetState_opened (s : State) (ch : Channel) : (softResetState s).det.opened.get ch = none := by
  cases ch <;> rfl

/-- Settles O30: each block of `softResetState`. -/
theorem softResetClearsAndKeeps : Obligations.SoftResetClearsAndKeeps := by
  intro s r rest handles length
  have consistent : requestConsistent .softReset r.payload = true := by simp [requestConsistent, length]
  have flag : [flagByte [s.req.staging.isPending]] = [if s.req.staging.isPending then 1 else 0] := by
    cases s.req.staging.isPending <;> rfl
  refine ⟨softResetState (s.takeRequest rest), ?_, ?_, ?_, ?_, ?_, ?_, ?_, ?_, ?_, ?_, ?_, softResetState_opened _, ?_, ?_, ?_,
    ?_, ?_, ?_, ?_⟩
  · rw [← flag]
    exact handleRequest_of_consistent handles consistent softReset
  all_goals rfl

end Sys2Proof.Machine
end

section
/-! # The passing of time: what it leaves of the timers and of the pending table (R15, R47, R61, R151) -/

namespace Sys2Proof.Machine

/-! ### A timer -/

/-- What is left of a timer after some µs: nothing once it has run out before their end. -/
def leftAfter (n : Nat) (timer : Option Nat) : Option Nat := timer.bind fun k => if k < n then none else some (k - n)

theorem leftAfter_some_self (n : Nat) : leftAfter n (some n) = some 0 := by simp [leftAfter]

theorem leftAfter_some_isSome (n k : Nat) : (leftAfter n (some k)).isSome = decide (n ≤ k) := by
  by_cases h : k < n
  · simp [leftAfter, h]
  · simp [leftAfter, Nat.not_lt.mp h]

theorem timeTo_withDraws (s : State) (k : Nat) (e : OwnEvent) : (s.withDraws k).timeTo e = s.timeTo e := by
  cases e with
  | pulseEnd side => cases side <;> rfl
  | _ => rfl

theorem timeTo_elapse_none {s : State} {e : OwnEvent} (h : s.timeTo e = none) (n : Nat) : (elapse n s).timeTo e = none := by
  have timer : ∀ {x : Option Nat}, x = none → countDown n x = none := fun hx => by rw [hx]; rfl
  cases e with
  | pauseEnd => exact timer h
  | flush => exact timer h
  | pulseEnd side => cases side <;> exact timer h
  | deadline station =>
    simp only [State.timeTo, Option.map_eq_none_iff] at h ⊢
    exact h
  | stampTimeout =>
    have clear : ¬ s.dist.stampValid = true := by
      intro valid
      simp [State.timeTo, valid] at h
    exact if_neg clear
  | drain =>
    have notReady : ¬ s.DrainReady := by
      intro ready
      simp [State.timeTo, ready] at h
    exact if_neg notReady

/-- An event of the part's own that its own taking alone ends: after some µs its time is what is left of it. -/
theorem timeTo_after {e : OwnEvent} (ended : ∀ u, (takeOwn u e).timeTo e = none)
    (kept : ∀ u e', e' ≠ e → (takeOwn u e').timeTo e = u.timeTo e) (s : State) (n : Nat) :
    (s.after n).timeTo e = leftAfter n (s.timeTo e) := by
  refine after_induction (P := fun s n r => r.timeTo e = leftAfter n (s.timeTo e)) (fun s n quiet => ?_)
    (fun s n t e' k r before chosen first rest => ?_) s n
  · cases he : s.timeTo e with
    | none => exact timeTo_elapse_none he n
    | some t =>
      have late := quiet e t he
      rw [timeTo_elapse he late]
      simp [leftAfter, Nat.not_lt.mpr late]
  · rw [rest]
    by_cases same : e' = e
    · rw [same, ended, ← same, chosen]
      simp [leftAfter, before]
    · rw [kept _ _ same, timeTo_withDraws]
      cases he : s.timeTo e with
      | none => rw [timeTo_elapse_none he]; rfl
      | some t' =>
        have := first e t' he
        rw [timeTo_elapse he this]
        simp only [leftAfter, Option.bind_some]
        by_cases out : t' < n
        · rw [if_pos out, if_pos (by omega)]
        · rw [if_neg out, if_neg (by omega)]
          congr 1
          omega

/-! ### The pause, the pulses, the stamp-valid indication -/

theorem takeOwn_pause {u : State} {e : OwnEvent} (h : e ≠ .pauseEnd) : (takeOwn u e).link.pause = u.link.pause := by
  refine takeOwn_changes u e .pause ?_
  cases e with
  | pauseEnd => exact (h rfl).elim
  | _ => simp [OwnEvent.command, changedBy]

theorem after_pause (s : State) (n : Nat) : (s.after n).link.pause = leftAfter n s.link.pause :=
  timeTo_after (e := .pauseEnd) (fun _ => settle_changes _ .pause (by decide)) (fun _ _ h => takeOwn_pause h) s n

theorem takeOwn_pulses {u : State} {e : OwnEvent} (h : ∀ side, e ≠ .pulseEnd side) :
    (takeOwn u e).mark.pulseL = u.mark.pulseL ∧ (takeOwn u e).mark.pulseR = u.mark.pulseR := by
  refine takeOwn_changes u e .pulses ?_
  cases e with
  | pulseEnd side => exact (h side rfl).elim
  | _ => simp [OwnEvent.command, changedBy]

theorem settle_pulses (u : State) :
    (settle u).mark.pulseL = u.mark.pulseL ∧ (settle u).mark.pulseR = u.mark.pulseR := settle_changes u .pulses (by decide)

theorem takeOwn_pulseL {u : State} {e : OwnEvent} (h : e ≠ .pulseEnd .left) : (takeOwn u e).mark.pulseL = u.mark.pulseL := by
  by_cases right : e = .pulseEnd .right
  · rw [right]
    exact (settle_pulses _).1
  · exact (takeOwn_pulses fun side => by cases side <;> assumption).1

theorem takeOwn_pulseR {u : State} {e : OwnEvent} (h : e ≠ .pulseEnd .right) : (takeOwn u e).mark.pulseR = u.mark.pulseR := by
  by_cases left : e = .pulseEnd .left
  · rw [left]
    exact (settle_pulses _).2
  · exact (takeOwn_pulses fun side => by cases side <;> assumption).2

theorem after_pulseL (s : State) (n : Nat) : (s.after n).mark.pulseL = leftAfter n s.mark.pulseL :=
  timeTo_after (e := .pulseEnd .left) (fun _ => (settle_pulses _).1) (fun _ _ h => takeOwn_pulseL h) s n

theorem after_pulseR (s : State) (n : Nat) : (s.after n).mark.pulseR = leftAfter n s.mark.pulseR :=
  timeTo_after (e := .pulseEnd .right) (fun _ => (settle_pulses _).2) (fun _ _ h => takeOwn_pulseR h) s n

/-- A frame without any region of the distance unit. -/
theorem dist_of_changes {s t : State} {l : List Region} (h : s.ChangesOnly l t)
    (hl : ∀ r ∈ [Region.levels, .countLength, .odometer, .nextStation, .stamps, .lastSpeed, .distanceCounters], r ∉ l) :
    t.dist = s.dist := by
  obtain ⟨heldA, heldB⟩ := h .levels (hl _ (by decide))
  have countLength : t.dist.countLength = s.dist.countLength := h .countLength (hl _ (by decide))
  have odometer : t.dist.odometer = s.dist.odometer := h .odometer (hl _ (by decide))
  have next : t.dist.next = s.dist.next := h .nextStation (hl _ (by decide))
  obtain ⟨prevStamp, stampValid⟩ := h .stamps (hl _ (by decide))
  obtain ⟨lastSpeed, lastUnknown⟩ := h .lastSpeed (hl _ (by decide))
  obtain ⟨encoderErrors, fired, skipped⟩ := h .distanceCounters (hl _ (by decide))
  cases hs : s.dist
  cases ht : t.dist
  simp_all

theorem settle_dist (s : State) : (settle s).dist = s.dist := dist_of_changes (settle_changes s) (by decide)

theorem takeOwn_stampTimeout_dist (u : State) : (takeOwn u .stampTimeout).dist = { u.dist with stampValid := false } :=
  settle_dist _

/-- Of the part's own events only the stamp-valid timeout acts on the distance unit. -/
theorem takeOwn_dist {u : State} {e : OwnEvent} (h : e ≠ .stampTimeout) : (takeOwn u e).dist = u.dist := by
  refine dist_of_changes (takeOwn_changes u e) ?_
  cases e with
  | stampTimeout => exact (h rfl).elim
  | _ => simp [OwnEvent.command, changedBy]

theorem after_timeTo_stampTimeout (s : State) (n : Nat) :
    (s.after n).timeTo .stampTimeout = leftAfter n (s.timeTo .stampTimeout) := by
  refine timeTo_after (fun u => ?_) (fun u e h => ?_) s n
  · simp [State.timeTo, takeOwn_stampTimeout_dist]
  · simp only [State.timeTo, takeOwn_dist h, takeOwn_time]

/-- The passing of time changes no more of the distance unit than the stamp-valid indication. -/
theorem after_dist_stampValid (s : State) (n : Nat) : ∃ valid, (s.after n).dist = { s.dist with stampValid := valid } := by
  refine after_induction (P := fun s _ r => ∃ valid, r.dist = { s.dist with stampValid := valid }) (fun s n _ => ?_)
    (fun s n t e k r _ _ _ rest => ?_) s n
  · exact ⟨s.dist.stampValid, rfl⟩
  · obtain ⟨valid, rest⟩ := rest
    refine ⟨valid, rest.trans ?_⟩
    by_cases h : e = .stampTimeout
    · rw [h, takeOwn_stampTimeout_dist]
      rfl
    · rw [takeOwn_dist h]
      rfl

theorem timeTo_stampTimeout_isSome (s : State) : (s.timeTo .stampTimeout).isSome = s.dist.stampValid := by
  cases h : s.dist.stampValid <;> simp [State.timeTo, h]

theorem after_dist (s : State) (n : Nat) : (s.after n).dist = { s.dist with
    stampValid := s.dist.stampValid && decide (n ≤ 2 ^ 31 - (s.time - s.dist.prevStamp).toNat) } := by
  obtain ⟨valid, e⟩ := after_dist_stampValid s n
  have left := congrArg Option.isSome (after_timeTo_stampTimeout s n)
  rw [timeTo_stampTimeout_isSome, e] at left
  rw [e]
  have left : valid = (leftAfter n (s.timeTo .stampTimeout)).isSome := left
  rw [left]
  simp only [State.timeTo]
  cases s.dist.stampValid with
  | false => rfl
  | true => rw [if_pos rfl, leftAfter_some_isSome, Bool.true_and]

/-! ### The OPEN entries -/

/-- From `s` to `t` entries leave the pending table or close; an entry still OPEN is the one it was. -/
structure State.Ages (s t : State) : Prop where
  numbers : (t.table.map (·.number)).Sublist (s.table.map (·.number))
  openKept : ∀ p ∈ t.table, p.closed = none → p ∈ s.table

theorem State.Ages.of_table {s t : State} (h : t.table = s.table) : s.Ages t :=
  ⟨h ▸ List.Sublist.refl _, fun _ hp _ => h ▸ hp⟩

theorem State.Ages.trans {s t u : State} (h : s.Ages t) (h' : t.Ages u) : s.Ages u :=
  ⟨h'.numbers.trans h.numbers, fun p hp ho => h.openKept p (h'.openKept p hp ho) ho⟩

theorem enterClosed_ages (fuel : Nat) (s : State) : s.Ages (enterClosed s fuel) := by
  induction fuel generalizing s with
  | zero => exact .of_table rfl
  | succ n ih =>
    unfold enterClosed
    split
    · exact .of_table rfl
    · rename_i p rest h
      split
      · exact .of_table rfl
      · rename_i inputs _
        have entered : (enterPending (s.withTable rest) p inputs).table = rest :=
          enterPending_changes _ _ _ .table (by decide)
        refine State.Ages.trans ⟨?_, fun q hq _ => ?_⟩ (ih _)
        · rw [entered, h]
          exact List.sublist_cons_self _ _
        · rw [h]
          exact List.mem_cons_of_mem _ (entered ▸ hq)

theorem closeStation_ages (s : State) (p : PendingStation) : s.Ages (closeStation s p) := by
  have judged : (p.members.foldl (judgeHead p.number) s).table = s.table :=
    (State.ChangesOnly.foldl (l := .heads :: Region.noted) _ (fun s m => judgeHead_changes _ s m) _ _) .table (by decide)
  unfold closeStation
  dsimp only
  refine .trans (.trans (.of_table judged) ?_) (enterClosed_ages _ _)
  generalize p.members.foldl (judgeHead p.number) s = u
  generalize u.inputsOf p.members = inputs
  refine ⟨?_, fun q hq ho => ?_⟩
  · have same : ((fun q : PendingStation => q.number)
        ∘ fun q => if q.number = p.number then { q with closed := some inputs } else q) = fun q => q.number := by
      funext q
      simp only [Function.comp_apply]
      split <;> rfl
    simp only [State.updateEntry, State.withTable_table, List.map_map, same]
    exact List.Sublist.refl _
  · obtain ⟨q', hq', rfl⟩ := List.mem_map.mp hq
    split at ho
    · cases ho
    · rename_i other
      rwa [if_neg other]

theorem closeAnswered_ages (fuel : Nat) (s : State) : s.Ages (closeAnswered s fuel) := by
  induction fuel generalizing s with
  | zero => exact .of_table rfl
  | succ n ih =>
    unfold closeAnswered
    split
    · exact .of_table rfl
    · exact (closeStation_ages s _).trans (ih _)

theorem takeOwn_ages (u : State) (e : OwnEvent) : u.Ages (takeOwn u e) := by
  by_cases h : ∃ station, e = .deadline station
  · obtain ⟨station, rfl⟩ := h
    unfold takeOwn
    dsimp only
    split
    · exact .of_table rfl
    · rename_i p _
      exact .trans ((closeStation_ages u p).trans (closeAnswered_ages _ _))
        (.of_table (settle_changes _ .table (by decide)))
  · refine .of_table (takeOwn_changes u e .table ?_)
    cases e with
    | deadline station => exact (h ⟨station, rfl⟩).elim
    | _ => simp [OwnEvent.command, changedBy]

/-- Where every entry has a number of its own, the OPEN entry of a station is the one of its number. -/
theorem openEntry_of_mem {s : State} (own : s.table.Pairwise fun p q => p.number ≠ q.number) {p : PendingStation}
    (hp : p ∈ s.table) (ho : p.closed = none) : s.openEntry p.number = some p := by
  unfold State.openEntry
  cases found : s.table.find? fun q => q.number == p.number && q.closed.isNone with
  | none => simpa [ho] using List.find?_eq_none.mp found p hp
  | some q =>
    have hq := List.find?_some found
    simp only [Bool.and_eq_true, beq_iff_eq] at hq
    exact congrArg some (List.inj_on_of_nodup_map (List.pairwise_map.mpr own) (List.mem_of_find?_eq_some found) hp hq.1)

/-- No entry is left OPEN beyond its deadline. -/
theorem after_deadlines (s : State) (n : Nat) (own : s.table.Pairwise fun p q => p.number ≠ q.number) :
    ∀ p ∈ (s.after n).table, p.closed = none → p ∈ s.table ∧ n ≤ timeUntil s.time p.deadline := by
  revert own
  refine after_induction (P := fun s n r => (s.table.Pairwise fun p q => p.number ≠ q.number) →
    ∀ p ∈ r.table, p.closed = none → p ∈ s.table ∧ n ≤ timeUntil s.time p.deadline)
    (fun s n quiet own p hp ho => ⟨hp, quiet (.deadline p.number) _ ?_⟩)
    (fun s n t e k r before chosen first rest own p hp ho => ?_) s n
  · simp [State.timeTo, openEntry_of_mem own hp ho]
  · have ages := takeOwn_ages ((elapse t s).withDraws k) e
    have own' : (takeOwn ((elapse t s).withDraws k) e).table.Pairwise fun p q => p.number ≠ q.number :=
      List.pairwise_map.mp ((List.pairwise_map.mpr own).sublist ages.numbers)
    obtain ⟨mem, left⟩ := rest own' p hp ho
    have mem : p ∈ s.table := ages.openKept p mem ho
    refine ⟨mem, ?_⟩
    have later := first (.deadline p.number) _ (by simp [State.timeTo, openEntry_of_mem own mem ho]; rfl)
    rw [takeOwn_time, State.withDraws_time, State.elapse_time, timeUntil_later later] at left
    omega

/-- After a wait no drain is ready: one that was has completed. -/
theorem after_not_drainReady (s : State) {n : Nat} (h : 0 < n) : ¬ (s.after n).DrainReady := by
  obtain ⟨w, k, e, -, pos, quiet⟩ := after_ends s n
  intro ready
  rw [e] at ready
  have := quiet .drain 0 (if_pos ready)
  have := pos h
  omega

/-! ### The expiry commands -/

/-- An event of the part's own that still comes at its moment is taken. -/
theorem awaitOwn_of_comes {s : State} {e : OwnEvent} {n : Nat} (h : s.timeTo e = some n)
    (comes : (s.after n).timeTo e = some 0) : awaitOwn e s = takeOwn (s.after n) e := by
  simp [awaitOwn, State.atMoment, h, comes]

/-- The time base stands 2^31 µs beyond the stamp once what was left of them has passed. -/
theorem time_at_stampTimeout {now stamp : Word} {n : Nat} (left : n = 2 ^ 31 - (now - stamp).toNat)
    (within : (now - stamp).toNat ≤ 2 ^ 31) : now + BitVec.ofNat 32 n = stamp + 0x80000000 := by
  calc now + BitVec.ofNat 32 n
      = stamp + (now - stamp + BitVec.ofNat 32 n) := by
        rw [← BitVec.add_assoc, BitVec.add_comm stamp, BitVec.sub_add_cancel]
    _ = stamp + BitVec.ofNat 32 ((now - stamp).toNat + n) := by
        rw [BitVec.ofNat_add, BitVec.ofNat_toNat, BitVec.setWidth_eq]
    _ = stamp + BitVec.ofNat 32 (2 ^ 31) := by
        rw [left, Nat.add_sub_cancel' within]

/-- The stamp-valid timeout comes, and clears the indication. -/
theorem exec_stampValidTimeout_of_valid {s : State} (valid : s.dist.stampValid = true) :
    ∃ t, exec .stampValidTimeout s = .next t ∧ t.dist = { s.dist with stampValid := false }
      ∧ ((s.time - s.dist.prevStamp).toNat ≤ 2 ^ 31 → t.time = s.dist.prevStamp + 0x80000000) := by
  obtain ⟨n, left⟩ : ∃ n, n = 2 ^ 31 - (s.time - s.dist.prevStamp).toNat := ⟨_, rfl⟩
  have due : s.timeTo .stampTimeout = some n := by rw [left]; exact if_pos valid
  have comes : (s.after n).timeTo .stampTimeout = some 0 := by
    rw [after_timeTo_stampTimeout, due, leftAfter_some_self]
  refine ⟨_, congrArg Host.Outcome.next (awaitOwn_of_comes due comes), ?_, fun within => ?_⟩
  · rw [takeOwn_stampTimeout_dist, after_dist]
  · rw [takeOwn_time, after_time]
    exact time_at_stampTimeout left within

/-- Settles O23: what a wait leaves of each timer is `leftAfter`, by induction on the events taken in it. -/
theorem timersRunOut : Obligations.TimersRunOut := by
  refine ⟨fun s station => ⟨rfl, rfl, rfl, rfl, rfl, fun _ => rfl, rfl, rfl⟩, fun s n => ⟨fun pause => ?_, fun pulse => ?_,
    fun pulse => ?_, exec_stampValidTimeout_of_valid⟩, fun s n => ⟨after_time s n, after_eq_elapse, after_pause s n,
    after_pulseL s n, after_pulseR s n, after_dist s n, fun own p hp ho => (after_deadlines s n own p hp ho).2,
    after_not_drainReady s⟩⟩
  · refine congrArg Host.Outcome.next (awaitOwn_of_comes (e := .pauseEnd) pause ?_)
    exact (after_pause s n).trans (by rw [pause, leftAfter_some_self])
  · refine congrArg Host.Outcome.next (awaitOwn_of_comes (e := .pulseEnd .left) pulse ?_)
    exact (after_pulseL s n).trans (by rw [pulse, leftAfter_some_self])
  · refine congrArg Host.Outcome.next (awaitOwn_of_comes (e := .pulseEnd .right) pulse ?_)
    exact (after_pulseR s n).trans (by rw [pulse, leftAfter_some_self])

end Sys2Proof.Machine
end

section
/-! # Runs: frames read unit by unit, and how the run state changes (Figure 2-1) -/

namespace Sys2Proof.Machine

/-! ### A unit whose regions a frame leaves out -/

theorem run_of_changes {s t : State} {l : List Region} (h : s.ChangesOnly l t)
    (hl : ∀ r ∈ [Region.runState, .runRecord, .highWater, .distanceAtStop, .tallies], r ∉ l) : t.run = s.run := by
  have state : t.run.state = s.run.state := h .runState (hl _ (by decide))
  obtain ⟨id, direction, start, origin⟩ := h .runRecord (hl _ (by decide))
  have highWater : t.run.highWater = s.run.highWater := h .highWater (hl _ (by decide))
  have atStop : t.run.distanceAtStop = s.run.distanceAtStop := h .distanceAtStop (hl _ (by decide))
  have tallies : t.run.tallies = s.run.tallies := h .tallies (hl _ (by decide))
  cases hs : s.run
  cases ht : t.run
  simp_all

theorem ring_of_changes {s t : State} {l : List Region} (h : s.ChangesOnly l t)
    (hl : ∀ r ∈ [Region.ring, .chords], r ∉ l) : t.ring = s.ring := by
  obtain ⟨stations, next⟩ := h .ring (hl _ (by decide))
  obtain ⟨short, long, twist⟩ := h .chords (hl _ (by decide))
  cases hs : s.ring
  cases ht : t.ring
  simp_all

theorem mark_of_changes {s t : State} {l : List Region} (h : s.ChangesOnly l t)
    (hl : ∀ r ∈ [Region.markQueue, .pulses, .markCounters], r ∉ l) : t.mark = s.mark := by
  have queue : t.mark.queue = s.mark.queue := h .markQueue (hl _ (by decide))
  obtain ⟨left, right⟩ := h .pulses (hl _ (by decide))
  obtain ⟨reached, dropped⟩ := h .markCounters (hl _ (by decide))
  cases hs : s.mark
  cases ht : t.mark
  simp_all

/-- A frame without the odometer and the run record leaves the run distance. -/
theorem runDistance_of_changes {s t : State} {l : List Region} (h : s.ChangesOnly l t)
    (hl : ∀ r ∈ [Region.odometer, .runRecord], r ∉ l) : t.runDistance = s.runDistance := by
  have odometer : t.dist.odometer = s.dist.odometer := h .odometer (hl _ (by decide))
  obtain ⟨-, -, -, origin⟩ := h .runRecord (hl _ (by decide))
  simp only [State.runDistance, odometer, origin]

/-- What neither the event nor the transmitters' choices change. -/
theorem State.EventLeads.agrees {s t : State} {l : List Region} (h : s.EventLeads l t) {r : Region} (event : r ∉ l)
    (sent : r ∉ Region.sent) : s.Agrees t r := by
  obtain ⟨v, changes, rfl | rfl⟩ := h
  · exact changes r event
  · exact (changes r event).trans (settle_changes v r sent)

theorem before_changes (s : State) (c : Instr) : s.ChangesOnly Region.passing (s.before c) := by
  obtain e | ⟨n, e⟩ := before_cases s c
  · rw [e]
    exact .refl _ _
  · rw [e]
    exact after_changes s n

theorem settle_run (s : State) : (settle s).run = s.run := run_of_changes (settle_changes s) (by decide)

/-! ### The run state while nothing comes from outside -/

/-- The run state stays, or a drain has completed. -/
def State.Drains (s t : State) : Prop :=
  t.run.state = s.run.state ∨ (s.run.state = .draining ∧ t.run.state = .idle)

theorem takeOwn_runState {u : State} {e : OwnEvent} (h : e ≠ .drain) : (takeOwn u e).run.state = u.run.state := by
  refine takeOwn_changes u e .runState ?_
  cases e with
  | drain => exact (h rfl).elim
  | _ => simp [OwnEvent.command, changedBy]

theorem takeOwn_drain_runState (u : State) : (takeOwn u .drain).run.state = .idle :=
  settle_changes (completeDrain u) .runState (by decide)

/-- A drain that is to come is ready. -/
theorem drainReady_of_timeTo {s : State} {t : Nat} (h : s.timeTo .drain = some t) : s.DrainReady := by
  simp only [State.timeTo] at h
  split at h
  · assumption
  · cases h

theorem after_drains (s : State) (n : Nat) : s.Drains (s.after n) := by
  refine after_induction (P := fun s _ r => s.Drains r) (fun _ _ _ => .inl rfl)
    (fun s n t e k r _ chosen _ rest => ?_) s n
  by_cases drain : e = .drain
  · subst drain
    have completed := takeOwn_drain_runState ((elapse t s).withDraws k)
    obtain stays | ⟨drains, -⟩ := rest
    · exact .inr ⟨(drainReady_of_timeTo chosen).1, stays.trans completed⟩
    · exact nomatch completed.symm.trans drains
  · have stays : _ = s.run.state := takeOwn_runState (u := (elapse t s).withDraws k) drain
    rwa [State.Drains, stays] at rest

theorem before_drains (s : State) (c : Instr) : s.Drains (s.before c) := by
  obtain e | ⟨n, e⟩ := before_cases s c
  · exact .inl (by rw [e])
  · rw [e]
    exact after_drains s n

end Sys2Proof.Machine
end

section
/-! # The counts of the encoder (chapter 3): what a forward count, a reverse count and an error leave -/

namespace Sys2Proof.Machine

/-! ### The levels and the outcome -/

/-- The decoder holds a new pair of levels. -/
def State.holdLevels (s : State) (encA encB : Bool) : State := s.withDist { s.dist with heldA := encA, heldB := encB }

/-- The odometer one count further (R37). -/
def State.advanced (s : State) : State :=
  s.withDist { s.dist with odometer := s.dist.odometer + BitVec.ofNat 64 s.dist.countLength }

theorem decodePhase_of_forward {heldA heldB a b : Bool} (h : (a, b) = nextLevels (heldA, heldB)) :
    decodePhase heldA heldB a b = .forward := by
  revert heldA heldB a b
  decide

theorem decodePhase_of_reverse {heldA heldB a b : Bool} (h : (heldA, heldB) = nextLevels (a, b)) :
    decodePhase heldA heldB a b = .reverse := by
  revert heldA heldB a b
  decide

section Outcomes

variable {wait : Nat} {a b : Bool} {s t : State}

theorem exec_encoderChange_of_forward (h : (a, b) = nextLevels (s.dist.heldA, s.dist.heldB)) :
    exec (.encoderChange wait a b) s = .next (settle (forwardCount ((s.after wait).holdLevels a b))) := by
  have outcome : decodePhase (s.after wait).dist.heldA (s.after wait).dist.heldB a b = .forward := by
    rw [after_dist]
    exact decodePhase_of_forward h
  simp only [exec, execEncoderChange, outcome]
  rfl

theorem exec_encoderChange_of_reverse (h : (s.dist.heldA, s.dist.heldB) = nextLevels (a, b)) :
    exec (.encoderChange wait a b) s = .next (settle (reverseCount ((s.after wait).holdLevels a b))) := by
  have outcome : decodePhase (s.after wait).dist.heldA (s.after wait).dist.heldB a b = .reverse := by
    rw [after_dist]
    exact decodePhase_of_reverse h
  simp only [exec, execEncoderChange, outcome]
  rfl

/-- The four outcomes of a change of the levels (R33, R34). -/
theorem encoderChange_cases (e : exec (.encoderChange wait a b) s = .next t) :
    t = settle ((s.after wait).holdLevels a b)
      ∨ t = settle (forwardCount ((s.after wait).holdLevels a b))
      ∨ t = settle (reverseCount ((s.after wait).holdLevels a b))
      ∨ t = settle (((s.after wait).holdLevels a b).withDist { ((s.after wait).holdLevels a b).dist with
          encoderErrors := ((s.after wait).holdLevels a b).dist.encoderErrors + 1 }) := by
  simp only [exec, execEncoderChange] at e
  split at e <;> cases e
  · exact .inl rfl
  · exact .inr (.inl rfl)
  · exact .inr (.inr (.inl rfl))
  · exact .inr (.inr (.inr rfl))

end Outcomes

/-! ### A forward count -/

/-- A count in RUNNING, or one that resumes a suspended run (R24, R41). -/
def State.Counts (s : State) : Prop :=
  s.run.state = .running ∨ (s.run.state = .suspended ∧ s.run.highWater < s.advanced.runDistance)

theorem withRunState_self {s : State} {r : RunState} (h : s.run.state = r) : s.withRunState r = s := by subst h; rfl

theorem forwardCount_of_counts {s : State} (h : s.Counts) :
    forwardCount s = reachMarks (testDue (s.advanced.withRunState .running)) := by
  have resumed : resumeRun s.advanced = s.advanced.withRunState .running := by
    unfold resumeRun
    split
    · rfl
    · rename_i stays
      exact (withRunState_self (s := s.advanced) (h.resolve_right stays)).symm
  show reachMarks (if (resumeRun s.advanced).run.state = .running then testDue (resumeRun s.advanced)
    else resumeRun s.advanced) = _
  rw [resumed]
  exact congrArg reachMarks (if_pos rfl)

theorem forwardCount_of_not_counts {s : State} (h : ¬ s.Counts) : forwardCount s = reachMarks s.advanced := by
  have stays : resumeRun s.advanced = s.advanced := if_neg fun resumes => h (.inr resumes)
  show reachMarks (if (resumeRun s.advanced).run.state = .running then testDue (resumeRun s.advanced)
    else resumeRun s.advanced) = _
  rw [stays]
  exact congrArg reachMarks (if_neg fun running => h (.inl running))

theorem dueStations_run (s : State) (highWater : Int) (fuel : Nat) : (dueStations s highWater fuel).run = s.run :=
  run_of_changes (dueStations_changes highWater fuel s) (by decide)

theorem dueStations_runDistance (s : State) (highWater : Int) (fuel : Nat) :
    (dueStations s highWater fuel).runDistance = s.runDistance :=
  runDistance_of_changes (dueStations_changes highWater fuel s) (by decide)

/-- The due test raises the high-water mark to the run distance, and changes no more of the run. -/
theorem testDue_run (s : State) :
    (testDue s).run = { s.run with highWater := max s.run.highWater s.runDistance } := by
  unfold testDue
  simp only [State.withRun_run, dueStations_run, dueStations_runDistance]

theorem forwardCount_run_of_counts {s : State} (h : s.Counts) : (forwardCount s).run =
    { s.run with state := .running, highWater := max s.run.highWater s.advanced.runDistance } := by
  rw [forwardCount_of_counts h]
  exact testDue_run _

theorem forwardCount_run_of_not_counts {s : State} (h : ¬ s.Counts) : (forwardCount s).run = s.run := by
  rw [forwardCount_of_not_counts h]
  rfl

/-- No count suspends, starts or ends a run; one resumes a suspended run, and none lowers the high-water mark. -/
theorem forwardCount_run_cases (s : State) :
    ((forwardCount s).run.state = s.run.state
        ∨ (s.run.state = .suspended ∧ (forwardCount s).run.state = .running))
      ∧ s.run.highWater ≤ (forwardCount s).run.highWater := by
  by_cases h : s.Counts
  · rw [forwardCount_run_of_counts h]
    refine ⟨?_, le_max_left _ _⟩
    obtain running | ⟨suspended, -⟩ := h
    · exact .inl running.symm
    · exact .inr ⟨suspended, rfl⟩
  · rw [forwardCount_run_of_not_counts h]
    exact ⟨.inl rfl, le_refl _⟩

/-! ### A reverse count -/

theorem reverseCount_of_running {s : State} (h : s.run.state = .running) :
    reverseCount s = (s.withRun { s.run with state := .suspended }).withDist { s.dist with
      odometer := s.dist.odometer - BitVec.ofNat 64 s.dist.countLength, stampValid := false } := if_pos h

theorem reverseCount_of_not_running {s : State} (h : s.run.state ≠ .running) :
    reverseCount s = s.withDist { s.dist with odometer := s.dist.odometer - BitVec.ofNat 64 s.dist.countLength } := if_neg h

/-! ### What any change of the levels does to the run -/

theorem encoderChange_run_cases {wait : Nat} {a b : Bool} {s t : State} (e : exec (.encoderChange wait a b) s = .next t) :
    (t.run.state = (s.after wait).run.state
        ∨ ((s.after wait).run.state = .running ∧ t.run.state = .suspended)
        ∨ ((s.after wait).run.state = .suspended ∧ t.run.state = .running))
      ∧ (s.after wait).run.highWater ≤ t.run.highWater := by
  obtain rfl | rfl | rfl | rfl := encoderChange_cases e
  · rw [settle_run]
    exact ⟨.inl rfl, le_refl _⟩
  · rw [settle_run]
    obtain ⟨state, highWater⟩ := forwardCount_run_cases ((s.after wait).holdLevels a b)
    exact ⟨state.imp id .inr, highWater⟩
  · rw [settle_run]
    by_cases running : (s.after wait).run.state = .running
    · rw [reverseCount_of_running (s := (s.after wait).holdLevels a b) running]
      exact ⟨.inr (.inl ⟨running, rfl⟩), le_refl _⟩
    · rw [reverseCount_of_not_running (s := (s.after wait).holdLevels a b) running]
      exact ⟨.inl rfl, le_refl _⟩
  · rw [settle_run]
    exact ⟨.inl rfl, le_refl _⟩

/-- Settles O34: the outcome of the levels is a reverse count, and a wait leaves the odometer and the count length. -/
theorem reverseCountSuspends : Obligations.ReverseCountSuspends := by
  intro wait a b s levels
  obtain ⟨valid, dist⟩ := after_dist_stampValid s wait
  have odometer : (s.after wait).dist.odometer = s.dist.odometer := by rw [dist]
  have countLength : (s.after wait).dist.countLength = s.dist.countLength := by rw [dist]
  refine ⟨fun running => ?_, fun still => ?_⟩
  · rw [exec_encoderChange_of_reverse levels, reverseCount_of_running (s := (s.after wait).holdLevels a b) running,
      ← odometer, ← countLength]
    rfl
  · rw [exec_encoderChange_of_reverse levels, reverseCount_of_not_running (s := (s.after wait).holdLevels a b) still,
      ← odometer, ← countLength]
    rfl

end Sys2Proof.Machine
end

section
/-! # A forward count of the encoder: the distance unit and the marks it reaches (R33, R37, R150, R151) -/

namespace Sys2Proof.Machine

/-! ### What the due test leaves of the distance unit -/

theorem takeDue_encoderErrors (s : State) (d : Due) : (takeDue s d).dist.encoderErrors = s.dist.encoderErrors := by
  have noted : ∀ b, (setEvent s b).dist = s.dist := fun b => dist_of_changes (setEvent_changes s b) (by decide)
  unfold takeDue
  split
  · rfl
  · unfold fireStation
    dsimp only
    rw [dist_of_changes (issueFire_changes _ _) (by decide)]
    split
    · exact (congrArg Distance.encoderErrors (noted .rateExceeded) :)
    · rfl

theorem dueStations_encoderErrors (s : State) (highWater : Int) (fuel : Nat) :
    (dueStations s highWater fuel).dist.encoderErrors = s.dist.encoderErrors := by
  induction fuel generalizing s with
  | zero => rfl
  | succ fuel ih =>
    unfold dueStations
    split
    · exact (ih _).trans (takeDue_encoderErrors s s.dueRecord)
    · rfl

/-- From one count to the next the due test keeps the levels, the count length, the odometer and the encoder errors. -/
theorem forwardCount_dist (s : State) :
    (forwardCount s).dist.heldA = s.dist.heldA ∧ (forwardCount s).dist.heldB = s.dist.heldB
      ∧ (forwardCount s).dist.countLength = s.dist.countLength
      ∧ (forwardCount s).dist.odometer = s.dist.odometer + BitVec.ofNat 64 s.dist.countLength
      ∧ (forwardCount s).dist.encoderErrors = s.dist.encoderErrors := by
  by_cases h : s.Counts
  · rw [forwardCount_of_counts h]
    have frame := testDue_changes (s.advanced.withRunState .running)
    obtain ⟨heldA, heldB⟩ := frame .levels (by decide)
    exact ⟨heldA, heldB, frame .countLength (by decide), frame .odometer (by decide), dueStations_encoderErrors _ _ _⟩
  · rw [forwardCount_of_not_counts h]
    exact ⟨rfl, rfl, rfl, rfl, rfl⟩

theorem forwardCount_runDistance (s : State) : (forwardCount s).runDistance = s.advanced.runDistance := by
  obtain ⟨-, -, -, origin⟩ := forwardCount_changes s .runRecord (by decide)
  obtain ⟨-, -, -, odometer, -⟩ := forwardCount_dist s
  simp only [State.runDistance, odometer, origin]
  rfl

theorem runDistance_settle (s : State) : (settle s).runDistance = s.runDistance :=
  runDistance_of_changes (settle_changes s) (by decide)

/-! ### The marks it reaches -/

/-- The marks a count reaches leave the head of the queue, as far as the first that lies ahead (R150). -/
theorem reachedMarks_split (position : DWord) (queue : List Mark) :
    queue = reachedMarks position queue ++ queue.drop (reachedMarks position queue).length
      ∧ (∀ m ∈ reachedMarks position queue, ahead m.target position ≤ 0)
      ∧ ∀ m, (queue.drop (reachedMarks position queue).length).head? = some m → 0 < ahead m.target position := by
  induction queue with
  | nil => exact ⟨rfl, nofun, nofun⟩
  | cons a queue ih =>
    by_cases reached : ahead a.target position ≤ 0
    · have first : reachedMarks position (a :: queue) = a :: reachedMarks position queue :=
        List.takeWhile_cons_of_pos (decide_eq_true reached)
      obtain ⟨split, behind, ahead'⟩ := ih
      rw [first]
      refine ⟨congrArg (a :: ·) split, fun m hm => ?_, ahead'⟩
      obtain rfl | hm := List.mem_cons.mp hm
      · exact reached
      · exact behind m hm
    · have none' : reachedMarks position (a :: queue) = [] :=
        List.takeWhile_cons_of_neg (by simpa using reached)
      rw [none']
      refine ⟨rfl, nofun, fun m hm => ?_⟩
      cases hm
      exact Int.not_le.mp reached

/-- A forward count reaches the marks of the queue as it stands, at the odometer position the count leaves. -/
theorem forwardCount_mark (s : State) :
    (forwardCount s).mark = (reachMarks s.advanced).mark
      ∧ (forwardCount s).odometerPosition = s.advanced.odometerPosition := by
  have position : (forwardCount s).odometerPosition = s.advanced.odometerPosition := by
    obtain ⟨-, -, -, odometer, -⟩ := forwardCount_dist s
    simp only [State.odometerPosition, odometer]
    rfl
  refine ⟨?_, position⟩
  by_cases h : s.Counts
  · have frame := testDue_changes (s.advanced.withRunState .running)
    have mark : (testDue (s.advanced.withRunState .running)).mark = s.mark := mark_of_changes (s := s.advanced.withRunState .running) frame (by decide)
    have odometer : (testDue (s.advanced.withRunState .running)).dist.odometer = s.advanced.dist.odometer :=
      frame .odometer (by decide)
    have params : (testDue (s.advanced.withRunState .running)).params = s.params := frame .params (by decide)
    rw [forwardCount_of_counts h]
    simp only [reachMarks, State.withMark_mark, State.odometerPosition, mark, odometer, params]
    rfl
  · rw [forwardCount_of_not_counts h]

/-- The wait before a change of the levels leaves the odometer, the count length and the encoder errors. -/
theorem after_holdLevels_dist (s : State) (wait : Nat) (a b : Bool) :
    ((s.after wait).holdLevels a b).dist.odometer = s.dist.odometer
      ∧ ((s.after wait).holdLevels a b).dist.countLength = s.dist.countLength
      ∧ ((s.after wait).holdLevels a b).dist.encoderErrors = s.dist.encoderErrors := by
  obtain ⟨valid, waited⟩ := after_dist_stampValid s wait
  simp only [State.holdLevels, State.withDist_dist, waited, and_self]

theorem after_params (s : State) (n : Nat) : (s.after n).params = s.params := after_changes s n .params (by decide)

/-- Settles O33: a wait leaves the distance unit but its stamp-valid indication, the count is a forward one, and what it does
is `forwardCount_run_of_counts` or `forwardCount_run_of_not_counts`, `forwardCount_dist` and `forwardCount_mark`. -/
theorem forwardCountMovesTheCar : Obligations.ForwardCountMovesTheCar := by
  refine ⟨fun s => ⟨rfl, rfl⟩, fun _ _ => rfl, fun wait a b s levels => ⟨_, exec_encoderChange_of_forward levels, ?_⟩⟩
  obtain ⟨w, hw⟩ : ∃ w, w = (s.after wait).holdLevels a b := ⟨_, rfl⟩
  obtain ⟨odometer, countLength, errors⟩ := hw ▸ after_holdLevels_dist s wait a b
  have run : w.run = (s.after wait).run := by rw [hw]; rfl
  have mark : w.mark = (s.after wait).mark := by rw [hw]; rfl
  have params : w.params = s.params := by rw [hw]; exact after_params s wait
  have time : (forwardCount w).time = s.time + BitVec.ofNat 32 wait := by
    rw [show (forwardCount w).time = w.time from forwardCount_changes w .time (by decide), hw]
    exact after_time s wait
  obtain ⟨heldA, heldB, length, moved, noError⟩ := forwardCount_dist w
  obtain ⟨marks, position⟩ := forwardCount_mark w
  have settledMark : (settle (forwardCount w)).mark = (reachMarks w.advanced).mark :=
    (mark_of_changes (settle_changes _) (by decide)).trans marks
  have settledPosition : (settle (forwardCount w)).odometerPosition = w.advanced.odometerPosition := by
    rw [← position]
    simp only [State.odometerPosition, settle_dist]
  rw [← hw, settle_dist, settle_time, runDistance_settle, forwardCount_runDistance, settle_run, settledMark, settledPosition,
    ← run, ← mark]
  refine ⟨by rw [moved, odometer, countLength], by rw [heldA, hw]; rfl, by rw [heldB, hw]; rfl, time, by rw [length, countLength],
    by rw [noError, errors], fun counts => forwardCount_run_of_counts counts, fun notRunning stays =>
      forwardCount_run_of_not_counts fun counts => ?_, reachedMarks w.advanced.odometerPosition w.mark.queue, ?_⟩
  · obtain running | ⟨suspended, past⟩ := counts
    · exact notRunning running
    · exact absurd past (Int.not_lt.mpr (stays suspended))
  · obtain ⟨split, behind, ahead'⟩ := reachedMarks_split w.advanced.odometerPosition w.mark.queue
    rw [← params]
    exact ⟨split, behind, ahead', rfl, rfl, rfl⟩

end Sys2Proof.Machine
end

section
/-! # RUN_START and RUN_STOP (R19 to R22, R25, R26) -/

namespace Sys2Proof.Machine

/-! ### The cross-parameter check (R20) -/

/-- A length is a whole number of steps, and `n` of them, exactly when it is `n` times the step. -/
theorem whole_steps_iff {length step n : Nat} (h : 0 < step) :
    (length % step = 0 ∧ length / step = n) ↔ length = n * step := by
  constructor
  · rintro ⟨whole, rfl⟩
    exact (Nat.div_mul_cancel (Nat.dvd_of_mod_eq_zero whole)).symm
  · rintro rfl
    exact ⟨Nat.mul_mod_left n step, Nat.mul_div_cancel n h⟩

/-- Settles O25: each of the check's three divisions is exact and gives its number, or the check fails. -/
theorem crossCheckIsR20 : Obligations.CrossCheckIsR20 := by
  intro p c spaced
  rw [← whole_steps_iff (length := p.shortChord) (by omega), ← whole_steps_iff (length := p.longChord) (by omega),
    ← whole_steps_iff (length := p.twistBase) spaced]
  unfold crossCheck
  dsimp only
  obtain ⟨short, long, twist⟩ := c
  constructor
  · intro checked
    split at checked
    · rename_i passes
      obtain ⟨wholeShort, wholeLong, wholeTwist, shortLow, shortHigh, longLow, longHigh, twistLow, twistHigh, ordered, room,
        even⟩ := passes
      cases checked
      exact ⟨⟨wholeShort, rfl⟩, ⟨wholeLong, rfl⟩, ⟨wholeTwist, rfl⟩, ⟨shortLow, shortHigh⟩, ⟨longLow, longHigh⟩,
        ⟨twistLow, twistHigh⟩, ordered, room, even⟩
    · cases checked
  · rintro ⟨⟨wholeShort, rfl⟩, ⟨wholeLong, rfl⟩, ⟨wholeTwist, rfl⟩, ⟨shortLow, shortHigh⟩, ⟨longLow, longHigh⟩,
      ⟨twistLow, twistHigh⟩, ordered, room, even⟩
    exact if_pos ⟨wholeShort, wholeLong, wholeTwist, shortLow, shortHigh, longLow, longHigh, twistLow, twistHigh, ordered,
      room, even⟩

/-! ### RUN_START -/

section Start

variable {s : State} {r : Frame} {rest : List Frame}

theorem runStart_of_busy (h : s.run.state ≠ .idle) : runStart r s = respond s r .busy [] := if_pos h

theorem runStart_of_badDirection (h : s.run.state = .idle) (bad : Direction.ofCode (byteAt r.payload 7) = none) :
    runStart r s = respond s r .badParam [] := by
  simp [runStart, h, bad]

theorem runStart_of_badConfig (h : s.run.state = .idle) {direction : Direction}
    (good : Direction.ofCode (byteAt r.payload 7) = some direction)
    (bad : rosterComplete s.heads = false ∨ crossCheck s.params = none) : runStart r s = respond s r .badConfig [] := by
  simp only [runStart, h, good, ne_eq, not_true_eq_false, if_false]
  obtain incomplete | fails := bad
  · simp [incomplete]
  · simp only [fails]
    split <;> rfl

/-- An accepted RUN_START sets the run up, offers its note and answers DONE (R21, R22). -/
theorem runStart_of_accepted (h : s.run.state = .idle) {direction : Direction}
    (good : Direction.ofCode (byteAt r.payload 7) = some direction) (complete : rosterComplete s.heads = true) {c : Chords}
    (checked : crossCheck s.params = some c) :
    runStart r s = respond (offerNote (setUpRun s (wordAt r.payload 3) direction (halfAt r.payload 8) c)
      (.runStart (halfAt r.payload 8) direction (wordAt r.payload 3) s.params.spacing c.short c.long c.twist)) r .done [] := by
  simp only [runStart, h, good, complete, checked, ne_eq, not_true_eq_false, if_false, Bool.not_true, Bool.false_eq_true]
  rfl

/-- What RUN_START does, by R19: refused with no change, or the set-up of the run with its note. -/
theorem runStart_cases (r : Frame) (s : State) :
    (∃ code, runStart r s = respond s r code [])
      ∨ (s.run.state = .idle ∧ ∃ direction c, crossCheck s.params = some c
          ∧ runStart r s = respond (offerNote (setUpRun s (wordAt r.payload 3) direction (halfAt r.payload 8) c)
              (.runStart (halfAt r.payload 8) direction (wordAt r.payload 3) s.params.spacing c.short c.long c.twist))
              r .done []) := by
  by_cases idle : s.run.state = .idle
  · cases direction : Direction.ofCode (byteAt r.payload 7) with
    | none => exact .inl ⟨_, runStart_of_badDirection idle direction⟩
    | some d =>
      cases complete : rosterComplete s.heads with
      | false => exact .inl ⟨_, runStart_of_badConfig idle direction (.inl complete)⟩
      | true =>
        cases checked : crossCheck s.params with
        | none => exact .inl ⟨_, runStart_of_badConfig idle direction (.inr checked)⟩
        | some c => exact .inr ⟨idle, d, c, rfl, runStart_of_accepted idle direction complete checked⟩
  · exact .inl ⟨_, runStart_of_busy idle⟩

theorem exec_runStart_of_handles (h : s.Handles .runStart r rest) (length : r.payload.length = 10) :
    exec .runStart s = .next (settle (runStart r (s.takeRequest rest))) :=
  handleRequest_of_consistent h (by simp [requestConsistent, length]) runStart

end Start

theorem rosterComplete_iff (heads : List Head) : rosterComplete heads = true ↔
    (∃ h ∈ heads, h.cfg.role = .leftProfile) ∧ (∃ h ∈ heads, h.cfg.role = .rightProfile)
      ∧ ∃ h ∈ heads, h.cfg.role = .bodyMotion := by
  simp [rosterComplete, and_assoc]

theorem Direction.ofCode_eq_some {b : Byte} {d : Direction}
    (h : b = (match d with | .increasing => 0 | .decreasing => 1)) : Direction.ofCode b = some d := by
  subst h
  cases d <;> rfl

/-- Settles O26: the rows of R19 in their order, and the set-up of R21 read block by block. -/
theorem runStartIsRefusedOrSetsUpTheRun : Obligations.RunStartIsRefusedOrSetsUpTheRun := by
  refine ⟨fun s r rest handles length => ⟨fun busy => ?_, fun idle notUp notDown => ?_, fun idle code bad => ?_⟩,
    fun s r rest dir c handles length idle code left right body checked => ?_⟩
  · rw [exec_runStart_of_handles handles length, runStart_of_busy (s := s.takeRequest rest) busy]
  · have none' : Direction.ofCode (byteAt r.payload 7) = none := by
      rw [Direction.ofCode, if_neg notUp, if_neg notDown]
    rw [exec_runStart_of_handles handles length, runStart_of_badDirection (s := s.takeRequest rest) idle none']
  · obtain ⟨d, direction⟩ : ∃ d, Direction.ofCode (byteAt r.payload 7) = some d := by
      obtain up | down := code
      · exact ⟨.increasing, by rw [up]; rfl⟩
      · exact ⟨.decreasing, by rw [down]; rfl⟩
    have bad : rosterComplete s.heads = false ∨ crossCheck s.params = none := by
      rw [← Bool.not_eq_true, rosterComplete_iff]
      obtain left | right | body | fails := bad
      · exact .inl fun complete => let ⟨h, mem, role⟩ := complete.1; left h mem role
      · exact .inl fun complete => let ⟨h, mem, role⟩ := complete.2.1; right h mem role
      · exact .inl fun complete => let ⟨h, mem, role⟩ := complete.2.2; body h mem role
      · exact .inr fails
    rw [exec_runStart_of_handles handles length, runStart_of_badConfig (s := s.takeRequest rest) idle direction bad]
  · have complete := (rosterComplete_iff s.heads).mpr ⟨left, right, body⟩
    refine ⟨setUpRun (s.takeRequest rest) (wordAt r.payload 3) dir (halfAt r.payload 8) c, ?_, rfl, rfl, rfl, rfl, rfl, rfl,
      rfl, rfl, rfl, rfl, rfl, rfl, rfl, rfl⟩
    rw [exec_runStart_of_handles handles length,
      runStart_of_accepted (s := s.takeRequest rest) idle (Direction.ofCode_eq_some code) complete checked]
    rfl

/-! ### RUN_STOP -/

section Stop

variable {s : State} {r : Frame}

theorem runStop_of_idle (h : s.run.state = .idle) : runStop r s = respond s r .notRunning [] := by
  simp [runStop, h]

theorem runStop_of_draining (h : s.run.state = .draining) : runStop r s = respond s r .busy [] := by
  simp [runStop, h]

theorem runStop_of_running (h : s.run.state = .running ∨ s.run.state = .suspended) : runStop r s =
    respond (s.withRun { s.run with state := .draining, distanceAtStop := s.run.highWater }) r .done [] := by
  obtain h | h := h <;> simp [runStop, h]

/-- RUN_STOP is refused with no change, or starts the drain with the distance at stop (R25). -/
theorem runStop_cases (r : Frame) (s : State) : (∃ code, runStop r s = respond s r code [])
    ∨ ((s.run.state = .running ∨ s.run.state = .suspended) ∧ runStop r s = respond
        (s.withRun { s.run with state := .draining, distanceAtStop := s.run.highWater }) r .done []) := by
  cases h : s.run.state with
  | idle => exact .inl ⟨_, runStop_of_idle h⟩
  | draining => exact .inl ⟨_, runStop_of_draining h⟩
  | running => exact .inr ⟨.inl rfl, runStop_of_running (.inl h)⟩
  | suspended => exact .inr ⟨.inr rfl, runStop_of_running (.inr h)⟩

end Stop

/-- A change of the levels outside a run that measures acts on the levels, the odometer, the marks and the encoder errors
only (R26). -/
theorem encoderChange_changes_of_still {wait : Nat} {a b : Bool} {s t : State}
    (e : exec (.encoderChange wait a b) s = .next t) (running : (s.after wait).run.state ≠ .running)
    (suspended : (s.after wait).run.state ≠ .suspended) :
    t.run = (s.after wait).run ∧ t.table = (s.after wait).table ∧ t.dist.next = (s.after wait).dist.next
      ∧ t.dist.fired = (s.after wait).dist.fired ∧ t.dist.skipped = (s.after wait).dist.skipped := by
  have settled : ∀ u, (settle u).table = u.table := fun u => settle_changes u .table (by decide)
  have still : ¬ ((s.after wait).holdLevels a b).Counts := fun counts => counts.elim running fun h => suspended h.1
  obtain rfl | rfl | rfl | rfl := encoderChange_cases e
  · rw [settle_run, settled, settle_dist]
    exact ⟨rfl, rfl, rfl, rfl, rfl⟩
  · rw [forwardCount_of_not_counts still, settle_run, settled, settle_dist]
    exact ⟨rfl, rfl, rfl, rfl, rfl⟩
  · rw [reverseCount_of_not_running (s := (s.after wait).holdLevels a b) running, settle_run, settled, settle_dist]
    exact ⟨rfl, rfl, rfl, rfl, rfl⟩
  · rw [settle_run, settled, settle_dist]
    exact ⟨rfl, rfl, rfl, rfl, rfl⟩

/-- Settles O27: RUN_STOP by the run state; in DRAINING, and in the IDLE that a wait can lead to, no count takes part in the
run (`encoderChange_changes_of_still`). -/
theorem runStopStartsTheDrain : Obligations.RunStopStartsTheDrain := by
  refine ⟨fun s r rest handles length => ?_, fun wait a b s t draining e => ?_⟩
  · have handled : exec .runStop s = .next (settle (runStop r (s.takeRequest rest))) :=
      handleRequest_of_consistent handles (by simp [requestConsistent, length]) runStop
    refine ⟨fun running => ?_, fun draining => ?_, fun idle => ?_⟩
    · rw [handled, runStop_of_running (s := s.takeRequest rest) running]
      rfl
    · rw [handled, runStop_of_draining (s := s.takeRequest rest) draining]
    · rw [handled, runStop_of_idle (s := s.takeRequest rest) idle]
  · have stopped : (s.after wait).run.state = .draining ∨ (s.after wait).run.state = .idle :=
      (after_drains s wait).imp (·.trans draining) (·.2)
    have running : (s.after wait).run.state ≠ .running := by obtain h | h := stopped <;> simp [h]
    have suspended : (s.after wait).run.state ≠ .suspended := by obtain h | h := stopped <;> simp [h]
    obtain ⟨run, table, next, fired, skipped⟩ := encoderChange_changes_of_still e running suspended
    rw [after_dist] at next fired skipped
    exact ⟨run, table, next, fired, skipped, by rwa [run]⟩

end Sys2Proof.Machine
end

section
/-! # The commands that act on a run: requests, SET_PARAM and the resets -/

namespace Sys2Proof.Machine

/-! ### A request, by its cases -/

/-- What a request that changes nothing leaves changed: it has left the intake and is answered. -/
abbrev Region.answered : List Region := .intake :: Region.sent

theorem takeRequest_changes (s : State) (rest : List Frame) : s.ChangesOnly [.intake] (s.takeRequest rest) := by
  intro x hx
  cases x <;> simp_all [State.Agrees, State.takeRequest]

theorem respond_settle_changes (s : State) (r : Frame) (code : ResultCode) (fields : List Byte) :
    s.ChangesOnly Region.sent (settle (respond s r code fields)) :=
  ((respond_changes s r code fields).mono (by decide)).trans (settle_changes _)

theorem answered_changes (s : State) (r : Frame) (rest : List Frame) (code : ResultCode) (fields : List Byte) :
    s.ChangesOnly Region.answered (settle (respond (s.takeRequest rest) r code fields)) :=
  .then ((takeRequest_changes s rest).mono (by decide)) (respond_settle_changes _ _ _ _) (by decide)

/-- A request of a kind is not there, or is answered at once, or is handled. -/
theorem request_cases {kind : RequestKind} {handling : Frame → State → State} {s t : State}
    (e : handleRequest kind (ifConsistent kind handling) s = .next t) :
    s.ChangesOnly Region.answered t
      ∨ ∃ r rest, s.Handles kind r rest ∧ t = settle (handling r (s.takeRequest rest)) := by
  obtain ⟨r, rest, handles, rfl⟩ | ⟨-, rfl⟩ := handleRequest_cases e
  · unfold ifConsistent
    split
    · exact .inr ⟨r, rest, handles, rfl⟩
    · exact .inl (answered_changes s r rest _ _)
  · exact .inl (.refl _ _)

theorem exec_runStart_cases {s t : State} (e : exec .runStart s = .next t) : s.ChangesOnly Region.answered t
    ∨ (s.run.state = .idle ∧ ∃ rest c0 direction id c, crossCheck s.params = some c
        ∧ (setUpRun (s.takeRequest rest) c0 direction id c).ChangesOnly Region.sent t) := by
  obtain answered | ⟨r, rest, -, rfl⟩ := request_cases e
  · exact .inl answered
  · obtain ⟨code, refused⟩ | ⟨idle, direction, c, checked, accepted⟩ := runStart_cases r (s.takeRequest rest)
    · rw [refused]
      exact .inl (answered_changes s r rest _ _)
    · rw [accepted]
      exact .inr ⟨idle, rest, _, direction, _, c, checked,
        .then ((offerNote_changes _ _).mono (by decide)) (respond_settle_changes _ _ _ _) (by decide)⟩

theorem exec_runStop_cases {s t : State} (e : exec .runStop s = .next t) : s.ChangesOnly Region.answered t
    ∨ ((s.run.state = .running ∨ s.run.state = .suspended) ∧ ∃ rest, ((s.takeRequest rest).withRun
        { s.run with state := .draining, distanceAtStop := s.run.highWater }).ChangesOnly Region.sent t) := by
  obtain answered | ⟨r, rest, -, rfl⟩ := request_cases e
  · exact .inl answered
  · obtain ⟨code, refused⟩ | ⟨running, stopped⟩ := runStop_cases r (s.takeRequest rest)
    · rw [refused]
      exact .inl (answered_changes s r rest _ _)
    · rw [stopped]
      exact .inr ⟨running, rest, respond_settle_changes _ _ _ _⟩

theorem exec_softReset_cases {s t : State} (e : exec .softReset s = .next t) : s.ChangesOnly Region.answered t
    ∨ ∃ rest, (softResetState (s.takeRequest rest)).ChangesOnly Region.sent t := by
  obtain answered | ⟨r, rest, -, rfl⟩ := request_cases e
  · exact .inl answered
  · exact .inr ⟨rest, respond_settle_changes _ _ _ _⟩

theorem exec_drainComplete_cases {s t : State} (e : exec .drainComplete s = .next t) :
    t = s ∨ (s.DrainReady ∧ t = settle (completeDrain s)) := by
  simp only [exec, execDrainComplete] at e
  split at e <;> cases e
  · exact .inr ⟨‹_›, rfl⟩
  · exact .inl rfl

/-! ### SET_PARAM -/

/-- SET_PARAM stores an accepted value, in IDLE where the parameter is run-locked, or changes nothing (R172). -/
theorem setParam_cases (r : Frame) (s : State) : (∃ code fields, setParam r s = respond s r code fields)
    ∨ ∃ id v fields, ParamId.accepts id v = true ∧ (id.runLocked = true → s.run.state = .idle)
        ∧ setParam r s = respond (s.withParams (s.params.set id v)) r .done fields := by
  unfold setParam
  split
  · exact .inl ⟨_, _, rfl⟩
  · dsimp only
    split
    · exact .inl ⟨_, _, rfl⟩
    · rename_i id _ unlocked
      split
      · rename_i accepted
        exact .inr ⟨id, _, _, accepted, fun locked => by simpa [locked] using unlocked, rfl⟩
      · exact .inl ⟨_, _, rfl⟩

theorem exec_setParam_cases {s t : State} (e : exec .setParam s = .next t) : s.ChangesOnly Region.answered t
    ∨ ∃ rest id v, ParamId.accepts id v = true ∧ (id.runLocked = true → s.run.state = .idle)
        ∧ ((s.takeRequest rest).withParams (s.params.set id v)).ChangesOnly Region.sent t := by
  obtain answered | ⟨r, rest, -, rfl⟩ := request_cases e
  · exact .inl answered
  · obtain ⟨code, fields, refused⟩ | ⟨id, v, fields, accepted, unlocked, set⟩ := setParam_cases r (s.takeRequest rest)
    · rw [refused]
      exact .inl (answered_changes s r rest _ _)
    · rw [set]
      exact .inr ⟨rest, id, v, accepted, unlocked, respond_settle_changes _ _ _ _⟩

/-! ### A step -/

theorem idle_changes (s : State) : s.ChangesOnly (.draws :: .queue :: Region.timed) (idle s) := by
  have queued : ∀ (u : State) x, u.ChangesOnly [.queue] (u.withPending x) := by
    intro u x r hr
    cases r <;> simp_all [State.Agrees]
  unfold idle
  split
  · exact (elapse_changes 1 s).mono (by decide)
  · exact .then ((pick_changes s _ _).mono (by decide)) (queued _ _) (by decide)

theorem withPending_changes (s : State) (x : List Instr) : s.ChangesOnly [.queue] (s.withPending x) := by
  intro r hr
  cases r <;> simp_all [State.Agrees]

/-- A step takes the front command, or the part does a step of its own. -/
theorem step_cases {s t : State} (e : step s = .next t) :
    s.ChangesOnly (.draws :: .queue :: Region.timed) t ∨ ∃ c rest, exec c (s.withPending rest) = .next t := by
  unfold step at e
  split at e
  · cases e
    exact .inl (idle_changes s)
  · exact .inr ⟨_, _, e⟩

end Sys2Proof.Machine
end

section
/-! # The run state and the high-water mark under each command (Figure 2-1, R18) -/

namespace Sys2Proof.Machine

/-- The commands whose event can change the run state. -/
theorem runState_mem_event {c : Instr} (h : .runState ∈ Region.event c) :
    (∃ wait a b, c = .encoderChange wait a b) ∨ c = .drainComplete ∨ c = .runStart ∨ c = .runStop ∨ c = .softReset
      ∨ ∃ straps encA encB, c = .hardwareReset straps encA encB := by
  cases c <;> simp_all [Region.event]

/-- The commands whose event can change the high-water mark. -/
theorem highWater_mem_event {c : Instr} (h : .highWater ∈ Region.event c) :
    (∃ wait a b, c = .encoderChange wait a b) ∨ c = .runStart
      ∨ ∃ straps encA encB, c = .hardwareReset straps encA encB := by
  cases c <;> simp_all [Region.event]

/-- The changes of the run state that a command can bring about, from the state at its moment on. -/
theorem exec_runState_cases {c : Instr} {s t : State} (e : exec c s = .next t) : let u := s.before c
    t.run.state = u.run.state
      ∨ (c = .runStart ∧ u.run.state = .idle ∧ t.run.state = .running)
      ∨ ((∃ wait a b, c = .encoderChange wait a b)
          ∧ ((u.run.state = .running ∧ t.run.state = .suspended) ∨ (u.run.state = .suspended ∧ t.run.state = .running)))
      ∨ (c = .runStop ∧ (u.run.state = .running ∨ u.run.state = .suspended) ∧ t.run.state = .draining)
      ∨ (c = .drainComplete ∧ u.run.state = .draining ∧ t.run.state = .idle)
      ∨ ((c = .softReset ∨ ∃ straps a b, c = .hardwareReset straps a b) ∧ t.run.state = .idle) := by
  intro u
  by_cases mem : .runState ∈ Region.event c
  · obtain ⟨wait, a, b, rfl⟩ | rfl | rfl | rfl | rfl | ⟨straps, a, b, rfl⟩ := runState_mem_event mem
    · exact (encoderChange_run_cases e).1.imp id fun counted => .inr (.inl ⟨⟨wait, a, b, rfl⟩, counted⟩)
    · obtain rfl | ⟨⟨draining, -⟩, rfl⟩ := exec_drainComplete_cases e
      · exact .inl rfl
      · exact .inr (.inr (.inr (.inr (.inl ⟨rfl, draining, takeOwn_drain_runState s⟩))))
    · obtain answered | ⟨idle, rest, c0, d, id, c, -, set⟩ := exec_runStart_cases e
      · exact .inl (answered .runState (by decide))
      · exact .inr (.inl ⟨rfl, idle, set .runState (by decide)⟩)
    · obtain answered | ⟨running, rest, stopped⟩ := exec_runStop_cases e
      · exact .inl (answered .runState (by decide))
      · exact .inr (.inr (.inr (.inl ⟨rfl, running, stopped .runState (by decide)⟩)))
    · obtain answered | ⟨rest, reset⟩ := exec_softReset_cases e
      · exact .inl (answered .runState (by decide))
      · exact .inr (.inr (.inr (.inr (.inr ⟨.inl rfl, reset .runState (by decide)⟩))))
    · cases e
      exact .inr (.inr (.inr (.inr (.inr ⟨.inr ⟨straps, a, b, rfl⟩, rfl⟩))))
  · have notReset : ∀ straps encA encB, c ≠ .hardwareReset straps encA encB := by
      rintro straps encA encB rfl
      exact mem (by simp [Region.event])
    exact .inl ((exec_event e notReset).agrees mem (by decide))

/-- Settles O12: a wait can only complete a drain (`after_drains`), the command changes the run state as
`exec_runState_cases` lists, and of the events that reach the high-water mark a count only raises it. -/
theorem runStateChangesOnItsEvents : Obligations.RunStateChangesOnItsEvents := by
  intro c s t e
  refine ⟨before_drains s c, exec_runState_cases e, fun notStart notReset => ?_⟩
  have waited : (s.before c).run.highWater = s.run.highWater := before_changes s c .highWater (by decide)
  rw [← waited]
  by_cases mem : .highWater ∈ Region.event c
  · obtain ⟨wait, a, b, rfl⟩ | rfl | ⟨straps, a, b, rfl⟩ := highWater_mem_event mem
    · exact (encoderChange_run_cases e).2
    · exact (notStart rfl).elim
    · exact (notReset straps a b rfl).elim
  · have kept : t.run.highWater = _ := (exec_event e notReset).agrees mem (by decide)
    exact kept.ge

end Sys2Proof.Machine
end

section
/-! # The due test and the high-water mark (R18, R41, R42) -/

namespace Sys2Proof.Machine

/-! ### The stations one count makes due -/

theorem dueStation_next (s : State) : (dueStation s).dist.next = s.dist.next + 1 :=
  congrArg (· + 1) (takeDue_changes s s.dueRecord .nextStation (by decide))

theorem dueStation_runDistance (s : State) : (dueStation s).runDistance = s.runDistance :=
  runDistance_of_changes (dueStation_changes s) (by decide)

theorem dueStation_params (s : State) : (dueStation s).params = s.params := dueStation_changes s .params (by decide)

theorem dueStations_params (s : State) (highWater : Int) (fuel : Nat) : (dueStations s highWater fuel).params = s.params :=
  dueStations_changes highWater fuel s .params (by decide)

theorem next_le_dueStations (s : State) (highWater : Int) (fuel : Nat) :
    s.dist.next ≤ (dueStations s highWater fuel).dist.next := by
  induction fuel generalizing s with
  | zero => exact Nat.le_refl _
  | succ fuel ih =>
    unfold dueStations
    split
    · have := ih (dueStation s)
      rw [dueStation_next] at this
      omega
    · exact Nat.le_refl _

/-- The last station made due has been reached. -/
theorem dueStations_reached (s : State) (highWater : Int) (fuel : Nat) :
    (dueStations s highWater fuel).dist.next = s.dist.next
      ∨ (((dueStations s highWater fuel).dist.next - 1 : Nat) : Int) * s.params.spacing ≤ s.runDistance := by
  induction fuel generalizing s with
  | zero => exact .inl rfl
  | succ fuel ih =>
    unfold dueStations
    split
    · rename_i due
      obtain same | reached := ih (dueStation s)
      · rw [same, dueStation_next]
        exact .inr due.1
      · rw [dueStation_runDistance, dueStation_params] at reached
        exact .inr reached
    · exact .inl rfl

/-- With a place in the bound for each station reached, the next one lies ahead. -/
theorem dueStations_ahead (s : State) {highWater : Int} (spaced : 0 < s.params.spacing) (past : highWater < s.runDistance)
    (fuel : Nat) (enough : s.dueBound ≤ fuel) :
    s.runDistance < ((dueStations s highWater fuel).dist.next : Int) * s.params.spacing := by
  induction fuel generalizing s with
  | zero =>
    have within := Int.lt_ediv_add_one_mul_self s.runDistance (Int.natCast_pos.mpr spaced)
    have reached : s.runDistance / s.params.spacing + 1 ≤ (s.dist.next : Int) := by
      simp only [State.dueBound] at enough
      omega
    exact lt_of_lt_of_le within (Int.mul_le_mul_of_nonneg_right reached (Int.natCast_nonneg _))
  | succ fuel ih =>
    unfold dueStations
    split
    · have later := ih (dueStation s)
      rw [dueStation_runDistance, dueStation_params] at later
      refine later spaced past ?_
      simp only [State.dueBound, dueStation_runDistance, dueStation_params, dueStation_next] at *
      omega
    · rename_i notDue
      exact Int.not_le.mp fun reached => notDue ⟨reached, past⟩

/-- The high-water mark stands at or past the last station made due and at or before the next one. -/
structure State.OnSchedule (s : State) : Prop where
  next : s.run.highWater ≤ s.dist.next * s.params.spacing
  last : 0 < s.dist.next → ((s.dist.next - 1 : Nat) : Int) * s.params.spacing ≤ s.run.highWater

/-- The due test brings the mark to the run distance and the stations up to the mark. -/
theorem testDue_onSchedule {s : State} (spaced : 0 < s.params.spacing) (h : s.OnSchedule) : (testDue s).OnSchedule := by
  have mark : (testDue s).run.highWater = max s.run.highWater s.runDistance := by rw [testDue_run]
  have next : (testDue s).dist.next = (dueStations s s.run.highWater s.dueBound).dist.next := rfl
  have params : (testDue s).params = s.params := testDue_changes s .params (by decide)
  have grown := next_le_dueStations s s.run.highWater s.dueBound
  refine ⟨?_, fun some' => ?_⟩
  · rw [mark, next, params]
    have before : s.run.highWater ≤ (dueStations s s.run.highWater s.dueBound).dist.next * s.params.spacing :=
      h.next.trans (Int.mul_le_mul_of_nonneg_right (Int.ofNat_le.mpr grown) (Int.natCast_nonneg _))
    refine max_le before ?_
    by_cases past : s.run.highWater < s.runDistance
    · exact (dueStations_ahead s spaced past _ (Nat.le_refl _)).le
    · exact (Int.not_lt.mp past).trans before
  · rw [next] at some'
    rw [mark, next, params]
    obtain same | reached := dueStations_reached s s.run.highWater s.dueBound
    · rw [same] at some' ⊢
      exact (h.last some').trans (le_max_left _ _)
    · exact reached.trans (le_max_right _ _)

theorem forwardCount_onSchedule {s : State} (spaced : 0 < s.params.spacing) (h : s.OnSchedule) :
    (forwardCount s).OnSchedule := by
  by_cases counts : s.Counts
  · rw [forwardCount_of_counts counts]
    have tested := testDue_onSchedule (s := s.advanced.withRunState .running) spaced ⟨h.next, h.last⟩
    exact ⟨tested.next, tested.last⟩
  · rw [forwardCount_of_not_counts counts]
    exact ⟨h.next, h.last⟩

/-! ### The invariant -/

/-- `State.DueOnSchedule` is kept where the spacing, the marks and N stay, no run starts and no drain begins. -/
theorem dueOnSchedule_of_kept {s t : State} (h : s.DueOnSchedule) {l : List Region} (frame : s.ChangesOnly l t)
    (hl : ∀ r ∈ [Region.params, .highWater, .nextStation, .distanceAtStop], r ∉ l)
    (run : t.run.state ≠ .idle → s.run.state ≠ .idle) (drain : t.run.state = .draining → s.run.state = .draining) :
    t.DueOnSchedule := by
  have params : t.params = s.params := frame .params (hl _ (by decide))
  have highWater : t.run.highWater = s.run.highWater := frame .highWater (hl _ (by decide))
  have next : t.dist.next = s.dist.next := frame .nextStation (hl _ (by decide))
  have atStop : t.run.distanceAtStop = s.run.distanceAtStop := frame .distanceAtStop (hl _ (by decide))
  obtain ⟨spaced, marks, stop⟩ := h
  unfold State.DueOnSchedule
  rw [params, highWater, next, atStop]
  exact ⟨spaced, fun running => marks (run running), fun draining => stop (drain draining)⟩

theorem dueOnSchedule_of_changes {s t : State} (h : s.DueOnSchedule) {l : List Region} (frame : s.ChangesOnly l t)
    (hl : ∀ r ∈ [Region.params, .highWater, .nextStation, .distanceAtStop], r ∉ l) (state : .runState ∉ l) :
    t.DueOnSchedule := by
  have state : t.run.state = s.run.state := frame .runState state
  exact dueOnSchedule_of_kept h frame hl (state ▸ id) (state ▸ id)

theorem before_dueOnSchedule {s : State} (h : s.DueOnSchedule) (c : Instr) : (s.before c).DueOnSchedule := by
  refine dueOnSchedule_of_kept h (before_changes s c) (by decide) (fun running => ?_) fun draining => ?_
  · obtain same | ⟨-, idle⟩ := before_drains s c
    · exact same ▸ running
    · exact (running idle).elim
  · obtain same | ⟨-, idle⟩ := before_drains s c
    · exact same ▸ draining
    · exact nomatch idle.symm.trans draining

/-- Every accepted value of a parameter leaves the spacing positive. -/
theorem spacing_set_pos {p : Params} (h : 0 < p.spacing) {id : ParamId} {v : Int} (accepted : id.accepts v = true) :
    0 < (p.set id v).spacing := by
  by_cases spacing : id = .spacing
  · subst spacing
    have set : ((p.set .spacing v).spacing : Int) = v := p.get_set_self accepted
    have range : 125000 ≤ v ∧ v ≤ 500000 := of_decide_eq_true (Bool.and_eq_true_iff.mp accepted).1
    omega
  · have kept : ((p.set id v).spacing : Int) = p.spacing := p.get_set_other v (Ne.symm spacing)
    omega

/-- The due test of a count in a run keeps the schedule; a count outside a run changes no mark. -/
theorem encoderChange_dueOnSchedule {wait : Nat} {a b : Bool} {s t : State} (h : s.DueOnSchedule)
    (e : exec (.encoderChange wait a b) s = .next t) : t.DueOnSchedule := by
  have waited : ((s.after wait).holdLevels a b).DueOnSchedule := before_dueOnSchedule h (.encoderChange wait a b)
  have settled : ∀ u : State, u.DueOnSchedule → (settle u).DueOnSchedule :=
    fun u hu => dueOnSchedule_of_changes hu (settle_changes u) (by decide) (by decide)
  obtain rfl | rfl | rfl | rfl := encoderChange_cases e
  · exact settled _ waited
  · refine settled _ ?_
    generalize (s.after wait).holdLevels a b = w at waited
    obtain ⟨spaced, marks, stop⟩ := waited
    have params : (forwardCount w).params = w.params := forwardCount_changes w .params (by decide)
    have states := (forwardCount_run_cases w).1
    refine ⟨by rw [params]; exact spaced, fun running => ?_, fun draining => ?_⟩
    · have running : w.run.state ≠ .idle := by
        obtain same | ⟨suspended, -⟩ := states
        · exact same ▸ running
        · simp [suspended]
      obtain ⟨next, last⟩ := marks running
      have counted := forwardCount_onSchedule spaced ⟨next, last⟩
      exact ⟨counted.next, counted.last⟩
    · have still : ¬ w.Counts := fun counts => by simp [forwardCount_run_of_counts counts] at draining
      rw [forwardCount_run_of_not_counts still] at draining ⊢
      exact stop draining
  · refine settled _ (dueOnSchedule_of_kept waited (reverseCount_changes _) (by decide) ?_ ?_)
    · generalize (s.after wait).holdLevels a b = w
      by_cases running : w.run.state = .running
      · simp [running]
      · rw [reverseCount_of_not_running running]
        exact id
    · generalize (s.after wait).holdLevels a b = w
      by_cases running : w.run.state = .running
      · simp [reverseCount_of_running running]
      · rw [reverseCount_of_not_running running]
        exact id
  · exact settled _ waited

/-- An idle state is on schedule by its spacing alone. -/
theorem dueOnSchedule_of_idle {s : State} (spaced : 0 < s.params.spacing) (idle : s.run.state = .idle) : s.DueOnSchedule :=
  ⟨spaced, fun running => (running idle).elim, fun draining => nomatch idle.symm.trans draining⟩

theorem exec_dueOnSchedule {c : Instr} {s t : State} (h : s.DueOnSchedule) (e : exec c s = .next t) : t.DueOnSchedule := by
  have params : ∀ {u v : State}, u.ChangesOnly Region.sent v → v.params = u.params := fun frame => frame .params (by decide)
  cases c with
  | hardwareReset straps a b => cases e; exact dueOnSchedule_of_idle (show 0 < 250000 by decide) rfl
  | encoderChange wait a b => exact encoderChange_dueOnSchedule h e
  | setParam =>
    obtain answered | ⟨rest, id, v, accepted, unlocked, set⟩ := exec_setParam_cases e
    · exact dueOnSchedule_of_changes h answered (by decide) (by decide)
    · refine dueOnSchedule_of_changes ?_ set (by decide) (by decide)
      obtain ⟨spaced, marks, stop⟩ := h
      refine ⟨spacing_set_pos spaced accepted, fun running => ?_, stop⟩
      have other : id ≠ .spacing := by
        rintro rfl
        exact running (unlocked rfl)
      have kept : ((s.params.set id v).spacing : Int) = s.params.spacing := s.params.get_set_other v other.symm
      show _ ≤ (s.dist.next : Int) * (s.params.set id v).spacing ∧ (_ → _ * ((s.params.set id v).spacing : Int) ≤ _)
      rw [kept]
      exact marks running
  | drainComplete =>
    obtain rfl | ⟨-, rfl⟩ := exec_drainComplete_cases e
    · exact h
    · have kept : (settle (completeDrain s)).params = s.params :=
        (params (settle_changes _)).trans (completeDrain_changes s .params (by decide))
      exact dueOnSchedule_of_idle (by rw [kept]; exact h.1) (takeOwn_drain_runState s)
  | runStart =>
    obtain answered | ⟨-, rest, c0, d, id, c, -, set⟩ := exec_runStart_cases e
    · exact dueOnSchedule_of_changes h answered (by decide) (by decide)
    · refine dueOnSchedule_of_changes ?_ set (by decide) (by decide)
      exact ⟨h.1, fun _ => ⟨(Int.zero_mul _).ge, nofun⟩, nofun⟩
  | runStop =>
    obtain answered | ⟨running, rest, stopped⟩ := exec_runStop_cases e
    · exact dueOnSchedule_of_changes h answered (by decide) (by decide)
    · refine dueOnSchedule_of_changes ?_ stopped (by decide) (by decide)
      have inRun : s.run.state ≠ .idle := by obtain running | suspended := running <;> simp [*]
      exact ⟨h.1, fun _ => h.2.1 inRun, fun _ => rfl⟩
  | softReset =>
    obtain answered | ⟨rest, reset⟩ := exec_softReset_cases e
    · exact dueOnSchedule_of_changes h answered (by decide) (by decide)
    · exact dueOnSchedule_of_idle (by rw [params reset]; exact h.1) (reset .runState (by decide))
  | _ =>
    have event := exec_event e (by simp)
    obtain ⟨v, changes, rfl | rfl⟩ := event
    · exact dueOnSchedule_of_changes (before_dueOnSchedule h _) changes (by simp [Region.event]) (by simp [Region.event])
    · refine dueOnSchedule_of_changes ?_ (settle_changes v) (by decide) (by decide)
      exact dueOnSchedule_of_changes (before_dueOnSchedule h _) changes (by simp [Region.event]) (by simp [Region.event])

/-- Settles O9: a count keeps the marks on schedule (`testDue_onSchedule`), RUN_STOP takes the distance at stop, and no other
command acts on the marks of a run. -/
theorem stepKeepsDueOnSchedule : Obligations.StepKeepsDueOnSchedule := by
  intro s t h e
  obtain own | ⟨c, rest, e⟩ := step_cases e
  · exact dueOnSchedule_of_changes h own (by decide) (by decide)
  · exact exec_dueOnSchedule (dueOnSchedule_of_changes h (withPending_changes s rest) (by decide) (by decide)) e

end Sys2Proof.Machine
end

section
/-! # What the operations of the part carry over

Of all that the operations of chapters 1 to 9 do, a few act on the sticky bits, the run tallies, the roster and staging: a
set event, a tally, a change of one head's runtime record, the completion of a pending apply. A relation between states that
these keep, and that holds wherever none of the four regions changes, is carried over by every operation: `Carried`, and, for
a relation that takes no account of the tallies, `CarriedOn`. -/

namespace Sys2Proof.Machine

/-! ### A unit replaced -/

section Units

variable (s : State)

theorem withLink_changes (x : Link) : s.ChangesOnly [.address, .ports, .lineA, .lineB, .fires, .forwardAB, .forwardBA, .pause,
    .countersA, .countersB] (s.withLink x) := by
  intro r hr
  cases r <;> simp_all [State.Agrees]

theorem withDist_changes (x : Distance) : s.ChangesOnly [.levels, .countLength, .odometer, .nextStation, .stamps, .lastSpeed,
    .distanceCounters] (s.withDist x) := by
  intro r hr
  cases r <;> simp_all [State.Agrees]

theorem withLoc_changes (x : Location) :
    s.ChangesOnly [.location, .entryNumber, .tags, .route, .tagCounters] (s.withLoc x) := by
  intro r hr
  cases r <;> simp_all [State.Agrees]

theorem withDet_changes (x : Detector) :
    s.ChangesOnly [.thresholds, .exceptions, .exceptionQueue, .overflow] (s.withDet x) := by
  intro r hr
  cases r <;> simp_all [State.Agrees]

theorem withMark_changes (x : Marking) : s.ChangesOnly [.markQueue, .pulses, .markCounters] (s.withMark x) := by
  intro r hr
  cases r <;> simp_all [State.Agrees]

theorem withOut_changes (x : Composer) :
    s.ChangesOnly [.batch, .flushTimer, .gap, .geometryQueue, .eventQueue] (s.withOut x) := by
  intro r hr
  cases r <;> simp_all [State.Agrees]

theorem withRingAll_changes (x : Ring) : s.ChangesOnly [.ring, .chords] (s.withRing x) := by
  intro r hr
  cases r <;> simp_all [State.Agrees]

theorem withRunState_changes (x : RunState) : s.ChangesOnly [.runState] (s.withRunState x) := by
  intro r hr
  cases r <;> simp_all [State.Agrees]

theorem withHighWater_changes (x : Int) : s.ChangesOnly [.highWater] (s.withRun { s.run with highWater := x }) := by
  intro r hr
  cases r <;> simp_all [State.Agrees]

end Units

/-- A record emitted or lost is no station. -/
theorem emit_stations (x : Tallies) (severity : Nat) : (x.emit severity).stations = x.stations := by
  unfold Tallies.emit
  split
  · rfl
  · split <;> rfl

theorem lose_stations (x : Tallies) (severity : Nat) : (x.lose severity).stations = x.stations := by
  unfold Tallies.lose
  split
  · rfl
  · split <;> rfl

/-! ### The relations -/

/-- The regions that a carried relation may read. -/
abbrev Region.carried : List Region := [.status, .tallies, .heads, .staging]

/-- A relation between states that a set event, a tally other than that of the stations, a change of a head's runtime record
and the completion of a pending apply keep, and that holds between states that agree in the regions it may read. -/
structure Carried (R : State → State → Prop) : Prop where
  trans : ∀ {s t u}, R s t → R t u → R s u
  frame : ∀ {s t : State} {l : List Region}, s.ChangesOnly l t → (∀ r ∈ Region.carried, r ∉ l) → R s t
  raise : ∀ (s : State) b, R s (s.withStatus (s.status.raise b))
  tally : ∀ (s : State) x, x.stations = s.run.tallies.stations → R s (s.withTallies x)
  head : ∀ (s : State) a f, (∀ h : Head, (f h).cfg = h.cfg) → R s (s.updateHead a f)
  apply : ∀ s, R s (completeApply s)

/-- A carried relation that takes no account of the run tallies. -/
structure CarriedOn (R : State → State → Prop) : Prop extends Carried R where
  tallies : ∀ (s : State) x, R s (s.withTallies x)

theorem related_ite {R : State → State → Prop} {s t u : State} {c : Prop} [Decidable c] (ht : R s t) (hu : R s u) :
    R s (if c then t else u) := by
  split
  · exact ht
  · exact hu

namespace Carried

variable {R : State → State → Prop} (h : Carried R)
include h

theorem refl (s : State) : R s s := h.frame (.refl s []) (by decide)

theorem foldl {α : Type} {f : State → α → State} (hf : ∀ s a, R s (f s a)) : ∀ (as : List α) (s : State), R s (as.foldl f s)
  | [], s => h.refl s
  | a :: as, s => h.trans (hf s a) (foldl hf as (f s a))

variable (s : State)

theorem withLink (x : Link) : R s (s.withLink x) := h.frame (withLink_changes s x) (by decide)
theorem withDist (x : Distance) : R s (s.withDist x) := h.frame (withDist_changes s x) (by decide)
theorem withLoc (x : Location) : R s (s.withLoc x) := h.frame (withLoc_changes s x) (by decide)
theorem withDet (x : Detector) : R s (s.withDet x) := h.frame (withDet_changes s x) (by decide)
theorem withMark (x : Marking) : R s (s.withMark x) := h.frame (withMark_changes s x) (by decide)
theorem withOut (x : Composer) : R s (s.withOut x) := h.frame (withOut_changes s x) (by decide)
theorem withRing (x : Ring) : R s (s.withRing x) := h.frame (withRingAll_changes s x) (by decide)
theorem withTable (x : List PendingStation) : R s (s.withTable x) := h.frame (withTable_changes s x) (by decide)
theorem withRunState (x : RunState) : R s (s.withRunState x) := h.frame (withRunState_changes s x) (by decide)
theorem withOpened (ch : Channel) (x : Option OpenException) : R s (s.withOpened ch x) := h.withDet s _

/-! ### Notes, set events, transmission -/

theorem offerNote (n : Note) : R s (offerNote s n) := by
  obtain ⟨-, e⟩ | ⟨-, e⟩ := offerNote_cases s n
  · exact e ▸ h.withOut s _
  · exact e ▸ h.raise s _

theorem setEvent (b : StickyBit) : R s (setEvent s b) := by
  obtain ⟨-, e⟩ | ⟨-, -, e⟩ := setEvent_cases s b
  · exact e ▸ h.raise s b
  · exact e ▸ h.trans (h.raise s b) (h.offerNote _ _)

theorem startB (q : QueueB) : R s (startB s q) := by
  cases hq : s.queueB q with
  | nil =>
    have none' : Machine.startB s q = s := by simp [Machine.startB, hq]
    exact none'.symm ▸ h.refl s
  | cons f rest =>
    rw [startB_eq hq]
    have started : R s (s.started q f rest) := h.frame (started_changes q f rest) (by cases q <;> decide)
    generalize s.started q f rest = u at started
    cases q with
    | response | note | forward => exact started
    | exception => exact h.trans started (h.frame (reportOverflow_changes u) (by decide))
    | geometry =>
      refine h.trans started ?_
      show R u (reportGap u)
      cases gap : u.out.gap with
      | none => exact (reportGap_of_none gap).symm ▸ h.refl u
      | some g => exact (reportGap_of_gap gap).symm ▸ h.trans (h.withOut u _) (h.offerNote _ _)

theorem settle : R s (settle s) := by
  refine h.trans (h.frame (chooseA_changes s) (by decide)) ?_
  show R _ (chooseB (chooseA s))
  unfold chooseB
  refine related_ite ?_ (h.refl _)
  split
  · exact h.startB _ _
  · exact h.refl _

/-! ### Reception at port B, and at port A of what no head sent -/

theorem errorA : R s (errorA s) := h.trans (h.withLink s _) (h.setEvent _ _)
theorem errorB : R s (errorB s) := h.trans (h.withLink s _) (h.setEvent _ _)
theorem downA (partly : Bool) : R s (downA s partly) := by
  refine h.trans (h.withLink s _) (related_ite ?_ (h.refl _))
  exact h.trans (h.withLink _ _) (h.errorA _)
theorem downB (partly : Bool) : R s (downB s partly) := by
  refine h.trans (h.withLink s _) (related_ite ?_ (h.refl _))
  exact h.trans (h.withLink _ _) (h.errorB _)

theorem offerRequest (f : Frame) : R s (offerRequest s f) := by
  have queued : s.ChangesOnly [.intake] (s.withReq { s.req with intake := s.req.intake ++ [f] }) := by
    intro r hr
    cases r <;> simp_all [State.Agrees]
  exact related_ite (h.frame queued (by decide)) (h.trans (h.withLink s _) (h.setEvent _ _))

theorem receiveB (bytes : List Byte) : R s (receiveB s bytes) := by
  refine h.trans (t := countReceivedB s) (h.withLink s _) ?_
  unfold Machine.receiveB
  dsimp only
  generalize countReceivedB s = u
  have forwarded : ∀ (v : State) f, R v (offerForwardBA v f) :=
    fun v f => h.frame (offerForwardBA_changes v f) (by decide)
  split
  · exact h.errorB u
  · refine related_ite (h.frame (takePause_changes u _) (by decide))
      (related_ite (related_ite (h.offerRequest u _) ?_) (related_ite ?_ (forwarded u _)))
    · exact h.withLink u _
    · exact h.trans (h.offerRequest u _) (forwarded _ _)

/-! ### Marking, detector, composer -/

theorem dropMark : R s (dropMark s) :=
  h.trans (h.trans (h.tally s { s.run.tallies with marksDropped := s.run.tallies.marksDropped + 1 } rfl) (h.withMark _ _))
    (h.setEvent _ _)

theorem scheduleMark (queue : List Mark) : R s (scheduleMark s queue) :=
  h.trans (h.tally s { s.run.tallies with marksScheduled := s.run.tallies.marksScheduled + 1 } rfl) (h.withMark _ _)

theorem requestMark (q : MarkRequest) : R s (requestMark s q) := by
  unfold Machine.requestMark
  refine related_ite (h.dropMark s) ?_
  split
  · exact h.scheduleMark s _
  · exact related_ite (h.dropMark s) (h.scheduleMark s _)


theorem offerException (ch : Channel) (x : OpenException) (cause : CloseCause) (last : Place) :
    R s (offerException s ch x cause last) := by
  refine related_ite (h.trans (h.withDet s _) (h.tally _ (s.run.tallies.emit x.severity) ?_))
    (h.trans (h.trans (h.withDet s _) (h.tally _ (s.run.tallies.lose x.severity) ?_)) (h.setEvent _ _))
  · exact emit_stations _ _
  · exact lose_stations _ _

theorem closeException (ch : Channel) (x : OpenException) (cause : CloseCause) (last : Place) :
    R s (closeException s ch x cause last) :=
  h.trans (h.withOpened s ch none) (related_ite (h.offerException _ _ _ _ _)
    (h.tally _ { s.run.tallies with discardedShort := s.run.tallies.discardedShort + 1 } rfl))

theorem closeOpened (cause : CloseCause) (ch : Channel) : R s (closeOpened s cause ch) := by
  unfold Machine.closeOpened
  split
  · exact h.closeException s _ _ _ _
  · exact h.refl s

theorem closeAll (cause : CloseCause) : R s (closeAll s cause) := h.foldl (fun s ch => h.closeOpened s cause ch) _ s

theorem judgeChannel (e : EvaluatedStation) (ch : Channel) : R s (judgeChannel e s ch) := by
  unfold Machine.judgeChannel
  split
  · exact h.closeOpened s _ _
  · exact h.refl s
  · exact related_ite (h.withOpened s _ _) (h.refl s)
  · exact related_ite (h.closeException s _ _ _ _) (h.withOpened s _ _)
  · exact related_ite (h.withOpened s _ _) (related_ite (h.closeException s _ _ _ _) (h.withOpened s _ _))

theorem triggerMark (e : EvaluatedStation) (ch : Channel) : R s (triggerMark e s ch) := by
  unfold Machine.triggerMark
  split
  · exact h.refl s
  · exact related_ite (h.trans (h.withOpened s _ _) (h.requestMark _ _)) (h.refl s)

theorem judgeStation (e : EvaluatedStation) : R s (judgeStation s e) := by
  unfold Machine.judgeStation
  dsimp only
  refine h.trans (h.trans (h.trans ?_ (h.foldl (fun s ch => h.judgeChannel s e ch) _ _))
    (h.foldl (fun s ch => h.triggerMark s e ch) _ _)) (h.withDet _ _)
  split
  · exact related_ite (h.closeAll s _) (h.refl s)
  · exact h.refl s

theorem offerBatch (b : Batch) : R s (offerBatch s b) :=
  related_ite (h.withOut s _) (h.trans (h.withOut s _) (h.setEvent _ _))

theorem flushBatch : R s (flushBatch s) := by
  unfold Machine.flushBatch
  split
  · exact h.refl s
  · exact h.trans (h.trans (h.withOut s _) (h.offerBatch _ _)) (h.frame (stopIdleTimer_changes _) (by decide))

theorem openBatch (e : EvaluatedStation) : R s (openBatch s e) :=
  h.trans (h.withOut s _) (h.frame (startFlushTimer_changes _) (by decide))

theorem addStation (e : EvaluatedStation) : R s (addStation s e) := by
  unfold Machine.addStation
  split
  · exact h.openBatch s e
  · split
    · exact h.withOut s _
    · exact h.trans (h.flushBatch s) (h.openBatch _ e)

theorem composeStation (e : EvaluatedStation) : R s (composeStation s e) := by
  have last : ∀ u : State, R u (match u.out.batch with
      | some b => if batchFull b.entries then Machine.flushBatch u else u
      | none => u) := by
    intro u
    split
    · exact related_ite (h.flushBatch u) (h.refl u)
    · exact h.refl u
  unfold Machine.composeStation
  refine h.trans (h.trans ?_ (h.addStation _ e)) (last _)
  split
  · exact related_ite (h.flushBatch s) (h.refl s)
  · exact h.refl s

/-! ### Evaluation -/

theorem handOn (e : EvaluatedStation) : R s (handOn s e) := by
  refine h.trans (related_ite ?_ (h.refl s)) (h.trans (h.judgeStation _ e) (h.composeStation _ e))
  exact h.tally s { s.run.tallies with voidStations := s.run.tallies.voidStations + 1 } rfl

theorem evaluateNext : R s (evaluateNext s) := by
  unfold Machine.evaluateNext
  split
  · exact h.withRing s _
  · exact h.trans (h.trans (h.apply s) (h.handOn _ _)) (h.withRing _ _)

theorem evaluateRest (count : Nat) : R s (evaluateRest s count) := by
  induction count generalizing s with
  | zero => exact h.refl s
  | succ n ih => exact h.trans (h.evaluateNext s) (ih _)

/-- The drain completes (R27). -/
theorem completeDrain : R s (completeDrain s) :=
  h.trans (h.trans (h.trans (h.trans (h.trans (h.trans (h.evaluateRest s _) (h.closeAll _ _)) (h.flushBatch _))
    (h.offerNote _ _)) (h.withRing _ _)) (h.withLoc _ _)) (h.withRunState _ _)

/-! ### Heads -/

theorem judgeHead (n : Nat) (m : Member) : R s (judgeHead n s m) := by
  have updated : ∀ (u : State) f, (∀ x : Head, (f x).cfg = x.cfg) → R u (u.updateHead m.addr f) :=
    fun u f hf => h.head u _ f hf
  unfold Machine.judgeHead
  split
  · exact h.refl s
  · refine related_ite (updated s _ ?_) (h.trans (updated s _ ?_)
      (related_ite (updated _ _ ?_) (related_ite (h.trans (h.trans (updated _ _ ?_) (h.offerNote _ _)) (h.setEvent _ _))
        (h.refl _)))) <;> exact fun _ => rfl

theorem advanceRecovery (n : Nat) (x : Head) : R s (advanceRecovery s n x) := by
  refine related_ite (h.refl s) (related_ite (h.trans (h.head s _ _ ?_) (h.offerNote _ _)) (h.head s _ _ ?_)) <;>
    exact fun _ => rfl

/-! ### Location -/

theorem tagIntake (payload : List Byte) : R s (tagIntake s payload) := by
  have counted : ∀ c, R s (s.withTagCounters c) := fun c => h.withLoc s _
  unfold Machine.tagIntake
  split
  · exact counted _
  · refine related_ite (counted _) (related_ite (counted _) ?_)
    split
    · exact h.trans (counted _) (h.setEvent _ _)
    · exact related_ite (h.trans (h.withLoc s _) (h.offerNote _ _))
        (h.trans (h.trans (h.withLoc s _) (h.setEvent _ _)) (h.offerNote _ _))

/-! ### Distance -/

theorem takeDue (d : Due) : R s (takeDue s d) := by
  refine related_ite (h.trans (h.withTable s _) (h.withDist _ _)) ?_
  exact h.trans (h.trans (h.trans (related_ite (h.setEvent s _) (h.refl s)) (h.withTable _ _)) (h.withDist _ _))
    (h.frame (issueFire_changes _ _) (by decide))

theorem dueStations (highWater : Int) (fuel : Nat) : R s (dueStations s highWater fuel) := by
  induction fuel generalizing s with
  | zero => exact h.refl s
  | succ fuel ih =>
    exact related_ite (h.trans (h.trans (h.takeDue s _) (h.withDist _ _)) (ih (dueStation s))) (h.refl s)

theorem testDue : R s (testDue s) :=
  h.trans (h.dueStations s _ _) (h.frame (withHighWater_changes _ _) (by decide))

theorem forwardCount : R s (forwardCount s) := by
  by_cases counts : s.Counts
  · rw [forwardCount_of_counts counts]
    exact h.trans (h.trans (h.trans (h.withDist s _) (h.withRunState _ _)) (h.testDue _)) (h.withMark _ _)
  · rw [forwardCount_of_not_counts counts]
    exact h.trans (h.withDist s _) (h.withMark _ _)

theorem encoderChange {wait : Nat} {a b : Bool} {t : State} (e : exec (.encoderChange wait a b) s = .next t) :
    R (s.after wait) t := by
  have held := h.withDist (s.after wait) { (s.after wait).dist with heldA := a, heldB := b }
  obtain rfl | rfl | rfl | rfl := encoderChange_cases e
  · exact h.trans held (h.settle _)
  · exact h.trans held (h.trans (h.forwardCount _) (h.settle _))
  · exact h.trans held (h.trans (h.frame (reverseCount_changes _) (by decide)) (h.settle _))
  · exact h.trans held (h.trans (h.withDist _ _) (h.settle _))

end Carried

namespace CarriedOn

variable {R : State → State → Prop} (h : CarriedOn R) (s : State)
include h

/-! ### Assembly -/

theorem enterRing (e : Entering) : R s (enterRing s e) := by
  have entered := h.trans (h.trans (h.withRing s { s.ring with stations := s.ring.stations ++ [s.recordOf e] })
    (h.withLoc _ { s.loc with entryNumber := s.loc.entryNumber + 1 }))
    (h.tallies _ { s.run.tallies with stations := s.run.tallies.stations + 1 })
  exact related_ite (h.trans entered (h.evaluateNext _)) entered

theorem enterSkipped (number count : Nat) : R s (enterSkipped s number count) := by
  induction count generalizing s number with
  | zero => exact h.refl s
  | succ n ih => exact h.trans (h.enterRing s _) (ih _ _)

theorem enterClosed (fuel : Nat) : R s (enterClosed s fuel) := by
  induction fuel generalizing s with
  | zero => exact h.refl s
  | succ n ih =>
    unfold Machine.enterClosed
    split
    · exact h.refl s
    · split
      · exact h.refl s
      · exact h.trans (h.trans (h.withTable s _) (h.trans (h.enterRing _ _) (h.enterSkipped _ _ _))) (ih _)

theorem closeStation (p : PendingStation) : R s (closeStation s p) :=
  h.trans (h.trans (h.foldl (fun s m => h.judgeHead s _ m) _ s) (h.withTable _ _)) (h.enterClosed _ _)

theorem closeAnswered (fuel : Nat) : R s (closeAnswered s fuel) := by
  induction fuel generalizing s with
  | zero => exact h.refl s
  | succ n ih =>
    unfold Machine.closeAnswered
    split
    · exact h.refl s
    · exact h.trans (h.closeStation s _) (ih _)

theorem sampleIntake (x : Head) (payload : List Byte) : R s (sampleIntake s x payload) := by
  have counted : ∀ f, (∀ y : Head, (f y).cfg = y.cfg) → R s (s.updateHead x.cfg.addr f) := fun f hf => h.head s _ f hf
  have late : ∀ n, R s (lateSample s x n payload) := by
    intro n
    refine h.trans (related_ite (h.trans (counted _ ?_) (h.advanceRecovery _ n x)) (counted _ ?_)) (h.closeAnswered _ _) <;>
      exact fun _ => rfl
  have accepted : ∀ n status, R s (acceptSample s x n status payload) := by
    intro n status
    refine h.trans (h.trans (h.trans (counted _ ?_) (h.withTable _ _)) (h.advanceRecovery _ _ _)) (h.closeAnswered _ _)
    exact fun _ => rfl
  unfold Machine.sampleIntake
  refine related_ite (counted _ fun _ => rfl) ?_
  split
  · exact counted _ fun _ => rfl
  · refine related_ite (counted _ fun _ => rfl) (related_ite (late _) ?_)
    split
    · exact counted _ fun _ => rfl
    · split
      · exact counted _ fun _ => rfl
      · exact related_ite (counted _ fun _ => rfl) (related_ite (accepted _ _) (counted _ fun _ => rfl))

theorem receiveA (bytes : List Byte) : R s (receiveA s bytes) := by
  refine h.trans (t := countReceivedA s) (h.withLink s _) ?_
  unfold Machine.receiveA
  dsimp only
  generalize countReceivedA s = u
  have dropped : R u (dropUnknownSource u) := h.withLink u _
  split
  · exact h.errorA u
  · refine related_ite ?_ (related_ite ?_ (h.frame (offerForwardAB_changes u _) (by decide)))
    · split
      · exact dropped
      · exact related_ite dropped (h.sampleIntake u _ _)
    · split
      · exact dropped
      · exact related_ite (h.tagIntake u _) dropped

/-! ### The passing of time -/

theorem takeOwn (e : OwnEvent) : R s (takeOwn s e) := by
  cases e with
  | pauseEnd => exact h.trans (h.withLink s _) (h.settle _)
  | flush => exact h.trans (h.trans (h.trans (h.apply s) (h.flushBatch _)) (h.withOut _ _)) (h.settle _)
  | pulseEnd side => cases side <;> exact h.trans (h.withMark s _) (h.settle _)
  | deadline station =>
    unfold Machine.takeOwn
    dsimp only
    split
    · exact h.refl s
    · exact h.trans (h.trans (h.closeStation s _) (h.closeAnswered _ _)) (h.settle _)
  | stampTimeout => exact h.trans (h.withDist s _) (h.settle _)
  | drain => exact h.trans (h.completeDrain s) (h.settle _)

theorem after (n : Nat) : R s (s.after n) := by
  refine after_induction (P := fun s _ r => R s r) (fun s n _ => h.frame (elapse_changes n s) (by decide))
    (fun s n t e k r _ _ _ rest => ?_) s n
  exact h.trans (h.trans (h.frame (elapse_changes t s) (by decide)) (h.frame (withDraws_changes _ k) (by decide)))
    (h.trans (h.takeOwn _ e) rest)

theorem before (c : Instr) : R s (s.before c) := by
  obtain e | ⟨n, e⟩ := before_cases s c
  · exact e.symm ▸ h.refl s
  · exact e.symm ▸ h.after s n

theorem awaitOwn (e : OwnEvent) : R (s.atMoment e) (awaitOwn e s) := related_ite (h.takeOwn _ e) (h.refl _)

/-- Every command but a request and hardware reset carries the relation over from its moment on. -/
theorem exec_input {c : Instr} {t : State} (e : exec c s = .next t) (notRequest : ∀ kind : RequestKind, c ≠ kind.command)
    (notReset : ∀ straps a b, c ≠ .hardwareReset straps a b) : R (s.before c) t := by
  cases c with
  | hardwareReset straps a b => exact (notReset straps a b rfl).elim
  | portUp wait port => cases e; cases port <;> exact h.trans (h.withLink _ _) (h.settle _)
  | portDown wait port partly =>
    cases e
    cases port with
    | A => exact h.trans (related_ite (h.downA _ partly) (h.refl _)) (h.settle _)
    | B => exact h.trans (related_ite (h.downB _ partly) (h.refl _)) (h.settle _)
  | portAReceive wait bytes =>
    simp only [exec, execPortAReceive] at e
    split at e <;> cases e
    · exact h.trans (h.receiveA _ bytes) (h.settle _)
    · exact h.settle _
  | portBReceive wait bytes =>
    simp only [exec, execPortBReceive] at e
    split at e <;> cases e
    · exact h.trans (h.receiveB _ bytes) (h.settle _)
    · exact h.settle _
  | portATransmitEnd wait => cases e; exact h.trans (h.withLink _ _) (h.settle _)
  | portBTransmitEnd wait => cases e; exact h.trans (h.withLink _ _) (h.settle _)
  | encoderChange wait a b => exact h.encoderChange s e
  | pauseExpiry => cases e; exact h.awaitOwn s .pauseEnd
  | stampValidTimeout => cases e; exact h.awaitOwn s .stampTimeout
  | deadlineExpiry station => cases e; exact h.awaitOwn s (.deadline station)
  | markPulseExpiry side => cases e; exact h.awaitOwn s (.pulseEnd side)
  | flushTimerExpiry => cases e; exact h.awaitOwn s .flush
  | drainComplete =>
    obtain rfl | ⟨-, rfl⟩ := exec_drainComplete_cases e
    · exact h.refl _
    · exact h.takeOwn _ .drain
  | queryStatus => exact (notRequest .queryStatus rfl).elim
  | clearStatus => exact (notRequest .clearStatus rfl).elim
  | setParam => exact (notRequest .setParam rfl).elim
  | getParam => exact (notRequest .getParam rfl).elim
  | tableOpen => exact (notRequest .tableOpen rfl).elim
  | tableLine => exact (notRequest .tableLine rfl).elim
  | tableApply => exact (notRequest .tableApply rfl).elim
  | tableAbort => exact (notRequest .tableAbort rfl).elim
  | readEntry => exact (notRequest .readEntry rfl).elim
  | runStart => exact (notRequest .runStart rfl).elim
  | runStop => exact (notRequest .runStop rfl).elim
  | setChainage => exact (notRequest .setChainage rfl).elim
  | readCounters => exact (notRequest .readCounters rfl).elim
  | softReset => exact (notRequest .softReset rfl).elim
  | unknownRequest => exact (notRequest .unknown rfl).elim

end CarriedOn
end Sys2Proof.Machine
end

section
/-! # Set events: a bit that is set stays set (R164, R165, R173) -/

namespace Sys2Proof.Machine

/-! ### One set event -/

theorem setEvent_has (s : State) (b : StickyBit) : (setEvent s b).status.has b = true := by
  obtain ⟨-, e⟩ | ⟨-, -, e⟩ := setEvent_cases s b
  · simp [e, has_raise]
  · obtain ⟨-, e'⟩ | ⟨-, e'⟩ := offerNote_cases (s.withStatus (s.status.raise b)) (.status b (s.status.raise b))
    · simp [e, e', has_raise]
    · simp [e, e', has_raise]

/-- A set event leaves every other bit but NOTE_LOST as it was. -/
theorem setEvent_has_other (s : State) {b b' : StickyBit} (other : b' ≠ b) (notLost : b' ≠ .noteLost) :
    (setEvent s b).status.has b' = s.status.has b' := by
  obtain ⟨-, e⟩ | ⟨-, -, e⟩ := setEvent_cases s b
  · simp [e, has_raise, other.symm]
  · obtain ⟨-, e'⟩ | ⟨-, e'⟩ := offerNote_cases (s.withStatus (s.status.raise b)) (.status b (s.status.raise b))
    · simp [e, e', has_raise, other.symm]
    · simp [e, e', has_raise, other.symm, notLost.symm]

theorem setEvent_of_set {s : State} {b : StickyBit} (h : b = .noteLost ∨ s.status.has b = true) :
    setEvent s b = s.withStatus (s.status.raise b) := by
  obtain ⟨-, e⟩ | ⟨notLost, clear, -⟩ := setEvent_cases s b
  · exact e
  · obtain lost | set := h
    · exact (notLost lost).elim
    · exact nomatch clear.symm.trans set

theorem setEvent_of_clear {s : State} {b : StickyBit} (notLost : b ≠ .noteLost) (clear : s.status.has b = false) :
    setEvent s b = offerNote (s.withStatus (s.status.raise b)) (.status b (s.status.raise b)) := by
  obtain ⟨lost | set, -⟩ | ⟨-, -, e⟩ := setEvent_cases s b
  · exact (notLost lost).elim
  · exact nomatch clear.symm.trans set
  · exact e

/-! ### Every command -/

/-- Every bit set in the first state is set in the second. -/
def State.KeepsBits (s t : State) : Prop := ∀ b, s.status.has b = true → t.status.has b = true

theorem keepsBits_of_changes {s t : State} {l : List Region} (h : s.ChangesOnly l t) (hl : .status ∉ l) : s.KeepsBits t := by
  have status : t.status = s.status := h .status hl
  exact fun b set => status ▸ set

theorem keepsBits_carriedOn : CarriedOn State.KeepsBits where
  trans h h' b set := h' b (h b set)
  frame h hl := keepsBits_of_changes h (hl _ (by decide))
  raise s b b' set := by simp [has_raise, set]
  tally s x _ := keepsBits_of_changes (withTallies_changes s x) (by decide)
  head s a f _ := keepsBits_of_changes (updateHead_changes s a f) (by decide)
  apply s := keepsBits_of_changes (completeApply_changes s) (by decide)
  tallies s x := keepsBits_of_changes (withTallies_changes s x) (by decide)

theorem runStart_keepsBits (r : Frame) (s : State) : s.KeepsBits (runStart r s) := by
  have answered : ∀ (u : State) code, u.KeepsBits (respond u r code []) :=
    fun u code => keepsBits_of_changes (respond_changes u r code []) (by decide)
  obtain ⟨code, e⟩ | ⟨-, direction, c, -, e⟩ := runStart_cases r s
  · exact e ▸ answered s code
  · have set := keepsBits_of_changes (setUpRun_changes s (wordAt r.payload 3) direction (halfAt r.payload 8) c) (by decide)
    exact e ▸ keepsBits_carriedOn.trans (keepsBits_carriedOn.trans set (keepsBits_carriedOn.offerNote _ _)) (answered _ _)

theorem setChainage_keepsBits (r : Frame) (s : State) : s.KeepsBits (setChainage r s) := by
  have answered : ∀ (u : State) code, u.KeepsBits (respond u r code []) :=
    fun u code => keepsBits_of_changes (respond_changes u r code []) (by decide)
  have placed : s.KeepsBits (placeChainage s (wordAt r.payload 3)) :=
    keepsBits_carriedOn.trans (keepsBits_carriedOn.withLoc s _) (keepsBits_carriedOn.offerNote _ _)
  exact related_ite (answered s _) (keepsBits_carriedOn.trans placed (answered _ _))

theorem handleRequest_keepsBits {kind : RequestKind} {handling : Frame → State → State}
    (hh : ∀ (r : Frame) (s : State), s.KeepsBits (handling r s)) {s t : State}
    (e : handleRequest kind handling s = .next t) : s.KeepsBits t := by
  obtain ⟨r, rest, -, rfl⟩ | ⟨-, rfl⟩ := handleRequest_cases e
  · have taken := keepsBits_of_changes (takeRequest_changes s rest) (by decide)
    exact keepsBits_carriedOn.trans taken (keepsBits_carriedOn.trans (hh r _) (keepsBits_carriedOn.settle _))
  · exact keepsBits_carriedOn.refl _

theorem handleConsistent_keepsBits {kind : RequestKind} {handling : Frame → State → State}
    (hh : ∀ (r : Frame) (s : State), s.KeepsBits (handling r s)) {s t : State}
    (e : handleRequest kind (ifConsistent kind handling) s = .next t) : s.KeepsBits t :=
  handleRequest_keepsBits (fun r u => related_ite (hh r u) (keepsBits_of_changes (respond_changes u r _ _) (by decide))) e

theorem exec_keepsBits {c : Instr} {s t : State} (e : exec c s = .next t) (notClear : c ≠ .clearStatus)
    (notSoft : c ≠ .softReset) (notReset : ∀ straps a b, c ≠ .hardwareReset straps a b) : s.KeepsBits t := by
  have framed : ∀ {handling : Frame → State → State} {l : List Region},
      (∀ (r : Frame) (s : State), s.ChangesOnly l (handling r s)) → .status ∉ l →
      ∀ (r : Frame) (s : State), s.KeepsBits (handling r s) :=
    fun frame hl r s => keepsBits_of_changes (frame r s) hl
  cases c with
  | queryStatus => exact handleConsistent_keepsBits (framed queryStatus_changes (by decide)) e
  | clearStatus => exact (notClear rfl).elim
  | setParam => exact handleConsistent_keepsBits (framed setParam_changes (by decide)) e
  | getParam => exact handleConsistent_keepsBits (framed getParam_changes (by decide)) e
  | tableOpen => exact handleConsistent_keepsBits (framed tableOpen_changes (by decide)) e
  | tableLine => exact handleRequest_keepsBits (framed tableLine_changes (by decide)) e
  | tableApply => exact handleConsistent_keepsBits (framed tableApply_changes (by decide)) e
  | tableAbort => exact handleConsistent_keepsBits (framed tableAbort_changes (by decide)) e
  | readEntry => exact handleConsistent_keepsBits (framed readEntry_changes (by decide)) e
  | runStart => exact handleConsistent_keepsBits runStart_keepsBits e
  | runStop => exact handleConsistent_keepsBits (framed runStop_changes (by decide)) e
  | setChainage => exact handleConsistent_keepsBits setChainage_keepsBits e
  | readCounters => exact handleConsistent_keepsBits (framed readCounters_changes (by decide)) e
  | softReset => exact (notSoft rfl).elim
  | unknownRequest => exact handleRequest_keepsBits (framed unknownRequest_changes (by decide)) e
  | _ =>
    refine keepsBits_carriedOn.trans (keepsBits_carriedOn.before s _) (keepsBits_carriedOn.exec_input s e ?_ notReset)
    intro kind
    cases kind <;> exact Instr.noConfusion

/-- Settles O22: `setEvent_of_set` and `setEvent_of_clear` say what one set event does, and every operation carries the bits
over (`keepsBits_carriedOn`). -/
theorem setEventRaisesAndNotes : Obligations.SetEventRaisesAndNotes := by
  refine ⟨fun s n => ⟨fun room => offerNote_of_room room n, fun full => ?_⟩, fun s b b' => ⟨rfl, ?_⟩, fun s b =>
    ⟨setEvent_has s b, fun b' => setEvent_has_other s, fun set => ?_, fun notLost clear room => ?_,
      fun notLost clear full => ?_, setEvent_changes s b⟩,
    fun c s t b e notClear notSoft notReset => exec_keepsBits e notClear notSoft notReset b⟩
  · rw [offerNote_of_full full]
    refine ⟨rfl, fun r hr => ?_⟩
    cases r <;> simp_all [State.Agrees]
  · rw [has_raise, Bool.or_eq_true, decide_eq_true_eq, or_comm, eq_comm (a := b)]
  · rw [setEvent_of_set set]
    exact ⟨rfl, rfl⟩
  · rw [setEvent_of_clear notLost clear, offerNote_of_room (s := s.withStatus (s.status.raise b)) room]
    refine ⟨rfl, ?_, rfl⟩
    simp [has_raise, notLost]
  · rw [setEvent_of_clear notLost clear, offerNote_of_full (s := s.withStatus (s.status.raise b)) full]
    refine ⟨rfl, ?_, ?_⟩
    · simp [has_raise]
    · show s.status.generation + 1 + 1 = _
      rw [BitVec.add_assoc]
      rfl

end Sys2Proof.Machine
end

section
/-! # What a run fixes (R18, R36, R81, R172, R178) -/

namespace Sys2Proof.Machine

/-! ### The completion of a pending apply (R179) -/

theorem completeApply_of_not_pending {s : State} (h : s.req.staging.isPending = false) : completeApply s = s := by
  unfold completeApply
  split
  · rename_i pending
    simp [pending, Staging.isPending] at h
  · rfl

/-- The judged table is swapped in and answered, and staging closes. -/
theorem completeApply_of_pending {s : State} {t : Table} {entries : List (List Byte)} {requester : Byte} {tag : Half}
    (h : s.req.staging = .pending t entries requester tag) :
    (swapTable s t entries).ChangesOnly [.responses, .flushTimer] (completeApply s) := by
  unfold completeApply
  rw [h]
  exact .then ((respond_changes _ _ _ _).mono (by decide)) (stopIdleTimer_changes _) (by decide)

theorem swapTable_staging (s : State) (t : Table) (entries : List (List Byte)) :
    (swapTable s t entries).req.staging = .closed := by cases t <;> rfl

theorem swapTable_heads (s : State) {t : Table} (h : t ≠ .roster) (entries : List (List Byte)) :
    (swapTable s t entries).heads = s.heads := by
  cases t with
  | roster => exact (h rfl).elim
  | _ => rfl

/-- No apply is pending once a pending apply has completed. -/
theorem completeApply_staging (s : State) : (completeApply s).req.staging.isPending = false := by
  cases pending : s.req.staging with
  | pending t entries requester tag =>
    have kept : (completeApply s).req.staging = _ := completeApply_of_pending pending .staging (by decide)
    rw [kept, swapTable_staging]
    rfl
  | _ => rw [completeApply_of_not_pending (by rw [pending]; rfl), pending]; rfl

/-! ### The roster -/

/-- No roster waits for its apply: a roster's apply is never pending (R178, step 9). -/
def State.NoRosterPending (s : State) : Prop :=
  ∀ entries requester tag, s.req.staging ≠ .pending .roster entries requester tag

/-- Where no roster waits for its apply, none does afterwards, and the roster's entries are the same. -/
def State.KeepsRoster (s t : State) : Prop :=
  s.NoRosterPending → t.NoRosterPending ∧ t.heads.map (·.cfg) = s.heads.map (·.cfg)

theorem keepsRoster_of_eq {s t : State} (staging : t.req.staging = s.req.staging)
    (heads : t.heads.map (·.cfg) = s.heads.map (·.cfg)) : s.KeepsRoster t :=
  fun none' => ⟨by unfold State.NoRosterPending; rwa [staging], heads⟩

theorem keepsRoster_of_changes {s t : State} {l : List Region} (h : s.ChangesOnly l t) (heads : .heads ∉ l)
    (staging : .staging ∉ l) : s.KeepsRoster t :=
  keepsRoster_of_eq (h .staging staging) (congrArg (List.map (·.cfg)) (h .heads heads))

theorem completeApply_keepsRoster (s : State) : s.KeepsRoster (completeApply s) := by
  intro none'
  cases pending : s.req.staging with
  | pending t entries requester tag =>
    have other : t ≠ .roster := by
      rintro rfl
      exact none' _ _ _ pending
    have frame := completeApply_of_pending pending
    have heads : (completeApply s).heads = s.heads :=
      Eq.trans (frame .heads (by decide)) (swapTable_heads s other entries)
    refine ⟨fun _ _ _ still => ?_, by rw [heads]⟩
    have closed := completeApply_staging s
    rw [still] at closed
    cases closed
  | _ =>
    rw [completeApply_of_not_pending (by rw [pending]; rfl)]
    exact ⟨none', rfl⟩

theorem keepsRoster_carriedOn : CarriedOn State.KeepsRoster where
  trans h h' none' :=
    let ⟨still, roster⟩ := h none'
    let ⟨last, roster'⟩ := h' still
    ⟨last, roster'.trans roster⟩
  frame h hl := keepsRoster_of_changes h (hl _ (by decide)) (hl _ (by decide))
  raise s b := keepsRoster_of_changes (withStatus_changes s _) (by decide) (by decide)
  tally s x _ := keepsRoster_of_changes (withTallies_changes s x) (by decide) (by decide)
  head s a f hf := keepsRoster_of_eq rfl (cfg_updateHead s a f hf)
  apply := completeApply_keepsRoster
  tallies s x := keepsRoster_of_changes (withTallies_changes s x) (by decide) (by decide)

/-- Outside IDLE no TABLE_APPLY swaps the roster in (R178, step 6). -/
theorem tableApply_heads {s : State} (running : s.run.state ≠ .idle) (r : Frame) : (tableApply r s).heads = s.heads := by
  unfold tableApply
  split
  · rfl
  · rfl
  · rename_i t lines entries _
    dsimp only
    split
    · rfl
    · split
      · rfl
      · split
        · rfl
        · split
          · rfl
          · split
            · rfl
            · rename_i notRoster
              have other : t ≠ .roster := fun roster => notRoster ⟨roster, running⟩
              split
              · exact swapTable_heads s other entries
              · exact startFlushTimer_changes _ .heads (by decide)

theorem readCounters_roster (r : Frame) (s : State) :
    (readCounters r s).heads.map (·.cfg) = s.heads.map (·.cfg) := by
  unfold readCounters
  split
  · rfl
  · rename_i g _
    have cleared : (clearGroup s g).heads.map (·.cfg) = s.heads.map (·.cfg) := by
      cases g with
      | heads => exact List.map_map
      | _ => rfl
    dsimp only
    split
    · exact cleared
    · rfl

/-- The commands whose event can change the heads, but for those that no request brings. -/
theorem heads_mem_event {c : Instr} (h : .heads ∈ Region.event c) :
    (∀ kind : RequestKind, c ≠ kind.command) ∨ c = .tableApply ∨ c = .runStart ∨ c = .readCounters ∨ c = .softReset := by
  cases c with
  | tableApply => exact .inr (.inl rfl)
  | runStart => exact .inr (.inr (.inl rfl))
  | readCounters => exact .inr (.inr (.inr (.inl rfl)))
  | softReset => exact .inr (.inr (.inr (.inr rfl)))
  | portAReceive | deadlineExpiry | flushTimerExpiry | drainComplete | hardwareReset =>
    refine .inl fun kind => ?_
    cases kind <;> exact Instr.noConfusion
  | _ => simp [Region.event] at h

/-- In a run the roster's entries stay through every command but hardware reset. -/
theorem exec_roster {c : Instr} {s t : State} (running : (s.before c).run.state ≠ .idle) (e : exec c s = .next t)
    (notReset : ∀ straps a b, c ≠ .hardwareReset straps a b) (none' : (s.before c).NoRosterPending) :
    t.heads.map (·.cfg) = (s.before c).heads.map (·.cfg) := by
  have settled : ∀ u, (settle u).heads = u.heads := fun u => settle_changes u .heads (by decide)
  by_cases mem : .heads ∈ Region.event c
  · obtain input | rfl | rfl | rfl | rfl := heads_mem_event mem
    · exact (keepsRoster_carriedOn.exec_input s e input notReset none').2
    · obtain answered | ⟨r, rest, -, rfl⟩ := request_cases e
      · exact congrArg _ (answered .heads (by decide))
      · rw [settled, tableApply_heads (s := s.takeRequest rest) running]
        rfl
    · obtain answered | ⟨idle, -⟩ := exec_runStart_cases e
      · exact congrArg _ (answered .heads (by decide))
      · exact (running idle).elim
    · obtain answered | ⟨r, rest, -, rfl⟩ := request_cases e
      · exact congrArg _ (answered .heads (by decide))
      · rw [settled, readCounters_roster]
        rfl
    · obtain answered | ⟨rest, reset⟩ := exec_softReset_cases e
      · exact congrArg _ (answered .heads (by decide))
      · have fresh : t.heads = s.heads.map Head.fresh := reset .heads (by decide)
        rw [fresh]
        exact List.map_map
  · exact congrArg _ ((exec_event e notReset).agrees mem (by decide))

theorem noRosterPending_of_sound {s : State} (h : s.req.staging.Sound) : s.NoRosterPending := by
  intro entries requester tag pending
  rw [pending] at h
  obtain ⟨route | thresholds, -⟩ := h
  · cases route
  · cases thresholds

/-! ### The run-locked parameters, the run record, the count length, k, K and t -/

/-- In a run no command but hardware reset changes a run-locked parameter (R172). -/
theorem exec_runLocked {c : Instr} {s t : State} (running : (s.before c).run.state ≠ .idle) (e : exec c s = .next t)
    (notReset : ∀ straps a b, c ≠ .hardwareReset straps a b) {id : ParamId} (locked : id.runLocked = true) :
    t.params.get id = (s.before c).params.get id := by
  by_cases mem : .params ∈ Region.event c
  · obtain rfl : c = .setParam := by
      cases c with
      | setParam => rfl
      | hardwareReset straps a b => exact (notReset straps a b rfl).elim
      | _ => simp [Region.event] at mem
    obtain answered | ⟨rest, id', v, -, unlocked, set⟩ := exec_setParam_cases e
    · have kept : t.params = s.params := answered .params (by decide)
      rw [kept]
      rfl
    · have kept : t.params = s.params.set id' v := set .params (by decide)
      have other : id ≠ id' := by
        rintro rfl
        exact running (unlocked locked)
      rw [kept]
      exact s.params.get_set_other v other
  · have kept : t.params = _ := (exec_event e notReset).agrees mem (by decide)
    rw [kept]

/-- The commands whose event can change what the start of a run fixes. -/
theorem fixed_mem_event {c : Instr} {r : Region} (fixed : r ∈ [Region.runRecord, .countLength, .chords])
    (h : r ∈ Region.event c) : c = .runStart ∨ ∃ straps a b, c = .hardwareReset straps a b := by
  simp only [List.mem_cons, List.not_mem_nil, or_false] at fixed
  obtain rfl | rfl | rfl := fixed
  · cases c <;> simp_all [Region.event]
  · cases c <;> simp_all [Region.event]
  · cases c <;> simp_all [Region.event]

/-- In a run no command but hardware reset changes what the start of a run fixes. -/
theorem exec_fixed {c : Instr} {s t : State} (running : (s.before c).run.state ≠ .idle) (e : exec c s = .next t)
    (notReset : ∀ straps a b, c ≠ .hardwareReset straps a b) {r : Region}
    (fixed : r ∈ [Region.runRecord, .countLength, .chords]) : (s.before c).Agrees t r := by
  have notSent : r ∉ Region.answered := by revert r; decide
  by_cases mem : r ∈ Region.event c
  · obtain rfl | ⟨straps, a, b, rfl⟩ := fixed_mem_event fixed mem
    · obtain answered | ⟨idle, -⟩ := exec_runStart_cases e
      · exact answered r notSent
      · exact (running idle).elim
    · exact (notReset straps a b rfl).elim
  · exact (exec_event e notReset).agrees mem fun sent => notSent (List.mem_cons_of_mem _ sent)

/-- Settles O13: up to its moment a command finds what the run fixes as it was, and outside IDLE SET_PARAM, TABLE_APPLY and
RUN_START are refused where they would change it. -/
theorem runConfigurationIsFixed : Obligations.RunConfigurationIsFixed := by
  intro c s t running e notReset
  have before := before_changes s c
  have params : (s.before c).params = s.params := before .params (by decide)
  have fixed : ∀ r ∈ [Region.runRecord, .countLength, .chords], s.Agrees t r := fun r hr =>
    State.Agrees.trans (before r (by revert r; decide)) (exec_fixed running e notReset hr)
  refine ⟨fun id locked => ?_, fun sound => ?_, fixed _ (by decide), fixed _ (by decide), fixed _ (by decide)⟩
  · rw [exec_runLocked running e notReset locked, params]
  · obtain ⟨none', roster⟩ := keepsRoster_carriedOn.before s c (noRosterPending_of_sound sound)
    exact (exec_roster running e notReset none').trans roster

end Sys2Proof.Machine
end

section
/-! # A closed exception (R137 to R140, Table 11-8) -/

namespace Sys2Proof.Machine

/-! ### The minimum length (R137) -/

/-- The channels are numbered in their order (Table 5-4). -/
theorem Channel.listed_iff {i : Nat} {ch : Channel} :
    ([.gauge, .xlevel, .twist, .topL, .topR, .alignL, .alignR, .curv] : List Channel)[i]? = some ch ↔ i = ch.code := by
  constructor
  · intro h
    obtain ⟨hi, rfl⟩ := List.getElem?_eq_some_iff.mp h
    simp only [List.length_cons, List.length_nil] at hi
    interval_cases i <;> rfl
  · rintro rfl
    cases ch <;> rfl

theorem minLength_of_no_entry {s : State} {ch : Channel} {last : Place}
    (h : ∀ th ∈ s.det.thresholds, th.speedClass = last.speedClass → th.channel ≠ ch.code) : s.minLength ch last = 0 := by
  have none' : s.threshold last.speedClass ch = none := by
    simpa [State.threshold, List.find?_eq_none] using h
  simp [State.minLength, none']

theorem minLength_of_entry {s : State} {ch : Channel} {last : Place} {th : Threshold}
    (own : s.det.thresholds.Pairwise fun x y => x.speedClass ≠ y.speedClass ∨ x.channel ≠ y.channel)
    (mem : th ∈ s.det.thresholds) (speedClass : th.speedClass = last.speedClass) (channel : th.channel = ch.code) :
    s.minLength ch last = if th.enabled then th.minLength else 0 := by
  have found : s.threshold last.speedClass ch = some th := by
    rw [State.threshold, ← speedClass, ← channel]
    exact threshold_of_mem own mem
  simp [State.minLength, found]

/-! ### The record (Table 11-8) -/

theorem exceptionFlags_bits (cause : CloseCause) (doubtful lineCode : Bool) :
    (List.range 8).map (exceptionFlags cause doubtful lineCode).getLsbD = [cause == .voidEnd, cause == .locationStep,
      cause == .runEnd, cause == .suppressedEnd, doubtful, lineCode, false, false] := by
  simp [exceptionFlags, List.range_succ, flagByte_bit]

theorem exceptionPayload_layout (ch : Channel) (x : OpenException) (cause : CloseCause) (last : Place) :
    let p := exceptionPayload ch x cause last
    p.length = 42 ∧ byteAt p 0 = 1 ∧ halfAt p 1 = x.runId ∧ byteAt p 3 = BitVec.ofNat 8 ch.code
    ∧ byteAt p 4 = BitVec.ofNat 8 x.severity ∧ byteAt p 5 = x.epoch
    ∧ byteAt p 6 = exceptionFlags cause x.doubtful x.peak.lineCode.isSome
    ∧ wordAt p 7 = BitVec.ofNat 32 x.start.number ∧ wordAt p 11 = x.start.chainage
    ∧ wordAt p 15 = BitVec.ofNat 32 last.number ∧ wordAt p 19 = last.chainage
    ∧ wordAt p 23 = BitVec.ofNat 32 (x.lengthTo last)
    ∧ halfAt p 27 = BitVec.ofInt 16 x.peak.value ∧ wordAt p 29 = BitVec.ofNat 32 x.peak.number
    ∧ wordAt p 33 = x.peak.chainage ∧ halfAt p 37 = BitVec.ofNat 16 x.peak.speed
    ∧ byteAt p 39 = BitVec.ofNat 8 x.start.speedClass ∧ halfAt p 40 = x.peak.lineCode.getD 0 := by
  simp [exceptionPayload, nat8, nat16, nat32, int16]

/-! ### Offered or discarded (R139, R140) -/

theorem det_of_changes {s t : State} {l : List Region} (h : s.ChangesOnly l t)
    (hl : ∀ r ∈ [Region.thresholds, .exceptions, .exceptionQueue, .overflow], r ∉ l) : t.det = s.det := by
  have thresholds : t.det.thresholds = s.det.thresholds := h .thresholds (hl _ (by decide))
  obtain ⟨opened, previous⟩ := h .exceptions (hl _ (by decide))
  have queue : t.det.queue = s.det.queue := h .exceptionQueue (hl _ (by decide))
  have overflow : t.det.overflow = s.det.overflow := h .overflow (hl _ (by decide))
  cases hs : s.det
  cases ht : t.det
  simp_all

section Closing

variable {s : State} {ch : Channel} {x : OpenException} {cause : CloseCause} {last : Place}

/-- The record joins the exception queue and is tallied as emitted. -/
theorem offerException_of_room (room : s.det.queue.length < 64) (empty : s.det.overflow.counts = 0) :
    offerException s ch x cause last =
      (s.withDet { s.det with
        queue := s.det.queue ++ [s.frame s.params.recorder kindException (exceptionPayload ch x cause last)] }).withTallies
        (s.run.tallies.emit x.severity) := if_pos ⟨room, empty⟩

/-- The record is refused into the summary and tallied as lost, with EXCEPTION_OVERFLOW. -/
theorem offerException_of_full (full : 64 ≤ s.det.queue.length ∨ s.det.overflow.counts ≠ 0) :
    offerException s ch x cause last =
      setEvent ((s.withDet { s.det with
        overflow := s.det.overflow.refuse x.severity x.runId x.start.number last.number }).withTallies
        (s.run.tallies.lose x.severity)) .exceptionOverflow :=
  if_neg fun free => full.elim (Nat.not_le.mpr free.1) fun held => held free.2

theorem closeException_of_short (severity : x.severity ≠ 3) (short : x.lengthTo last < s.minLength ch last) :
    closeException s ch x cause last = (s.withOpened ch none).withTallies
      { s.run.tallies with discardedShort := s.run.tallies.discardedShort + 1 } :=
  if_neg fun offered => offered.elim severity (Nat.not_le.mpr short)

theorem closeException_of_offered (h : x.severity = 3 ∨ s.minLength ch last ≤ x.lengthTo last) :
    closeException s ch x cause last = offerException (s.withOpened ch none) ch x cause last := if_pos h

/-- However it is settled, a closed exception leaves the list, and no other does. -/
theorem closeException_opened : (closeException s ch x cause last).det.opened = s.det.opened.set ch none := by
  have settled : ∀ u : State, (offerException u ch x cause last).det.opened = u.det.opened :=
    fun u => (offerException_changes u ch x cause last .exceptions (by decide)).1
  unfold closeException
  dsimp only
  split
  · exact settled _
  · rfl

end Closing

/-! ### The summary after a refusal (R140) -/

theorem refuse_last (o : Overflow) (severity : Nat) (runId : Half) (start last : Nat) :
    (o.refuse severity runId start last).lastRun = runId ∧ (o.refuse severity runId start last).lastStation = last := by
  unfold Overflow.refuse
  dsimp only
  split
  · exact ⟨rfl, rfl⟩
  · split <;> exact ⟨rfl, rfl⟩

theorem refuse_first (o : Overflow) (severity : Nat) (runId : Half) (start last : Nat) :
    (o.refuse severity runId start last).firstRun = (if o.counts = 0 then runId else o.firstRun)
      ∧ (o.refuse severity runId start last).firstStation = if o.counts = 0 then start else o.firstStation := by
  unfold Overflow.refuse
  dsimp only
  by_cases empty : o.counts = 0 <;> simp only [empty, if_true, if_false] <;> split
  · exact ⟨rfl, rfl⟩
  · split <;> exact ⟨rfl, rfl⟩
  · exact ⟨rfl, rfl⟩
  · split <;> exact ⟨rfl, rfl⟩

/-- The count of the record's own severity goes up, as far as it can. -/
theorem refuse_counts (o : Overflow) (severity : Nat) (runId : Half) (start last : Nat) :
    let u := o.refuse severity runId start last
    (u.notice, u.action, u.urgent) =
      if severity = 3 then (o.notice, o.action, min 65535 (o.urgent + 1))
      else if severity = 2 then (o.notice, min 65535 (o.action + 1), o.urgent)
      else (min 65535 (o.notice + 1), o.action, o.urgent) := by
  unfold Overflow.refuse
  dsimp only
  by_cases empty : o.counts = 0 <;> simp only [empty, if_true, if_false] <;> split
  · rfl
  · split <;> rfl
  · rfl
  · split <;> rfl

/-- Settles O51: the clauses are the cases of `closeException`, each with the record or the summary it leaves. -/
theorem closedExceptionIsSettled : Obligations.ClosedExceptionIsSettled := by
  refine ⟨fun s ch last => ⟨fun none' => ?_, fun own th ⟨mem, speedClass, channel⟩ => ?_⟩, fun o => rfl,
    fun ch x cause last => ?_, fun s ch x cause last => ⟨?_, fun ch' other => ?_, fun severity short => ?_, fun offered =>
      ⟨fun room empty => ?_, fun full => ?_⟩⟩⟩
  · refine minLength_of_no_entry fun th mem speedClass channel => none' th ⟨mem, speedClass, ?_⟩
    exact Channel.listed_iff.mpr channel
  · rw [minLength_of_entry own mem speedClass (Channel.listed_iff.mp channel)]
    exact ⟨fun enabled => if_pos enabled, fun disabled => by simp [disabled]⟩
  · obtain ⟨length, b0, h1, b3, b4, b5, b6, w7, w11, w15, w19, w23, h27, w29, w33, h37, b39, h40⟩ :=
      exceptionPayload_layout ch x cause last
    refine ⟨length, b0, h1, ?_, b4, b5, ?_, w7, w11, w15, w19, w23, h27, w29, w33, h37, b39, h40.trans ?_⟩
    · rw [b3]
      cases ch <;> rfl
    · rw [b6, exceptionFlags_bits]
    · cases x.peak.lineCode <;> rfl
  · rw [closeException_opened, PerChannel.get_set_self]
  · rw [closeException_opened, PerChannel.get_set_other _ _ other]
  · rw [closeException_of_short severity short]
    exact ⟨rfl, rfl, rfl, rfl⟩
  · rw [closeException_of_offered offered, offerException_of_room (s := s.withOpened ch none) room empty]
    refine ⟨rfl, rfl, rfl, fun notice => ?_, fun action => ?_, fun urgent => ?_⟩
    · simp [notice, Tallies.emit, State.withOpened]
    · simp [action, Tallies.emit, State.withOpened]
    · simp [urgent, Tallies.emit, State.withOpened]
  · rw [closeException_of_offered offered, offerException_of_full (s := s.withOpened ch none) full]
    have det : ∀ u b, (setEvent u b).det = u.det := fun u b => det_of_changes (setEvent_changes u b) (by decide)
    have run : ∀ u b, (setEvent u b).run = u.run := fun u b => run_of_changes (setEvent_changes u b) (by decide)
    have has := setEvent_has (((s.withOpened ch none).withDet { (s.withOpened ch none).det with
      overflow := s.det.overflow.refuse x.severity x.runId x.start.number last.number }).withTallies
        (s.run.tallies.lose x.severity)) .exceptionOverflow
    have counts := refuse_counts s.det.overflow x.severity x.runId x.start.number last.number
    obtain ⟨firstRun, firstStation⟩ := refuse_first s.det.overflow x.severity x.runId x.start.number last.number
    obtain ⟨lastRun, lastStation⟩ := refuse_last s.det.overflow x.severity x.runId x.start.number last.number
    rw [det, run]
    refine ⟨rfl, has, lastRun, lastStation, fun empty => ⟨firstRun.trans (if_pos empty), firstStation.trans (if_pos empty)⟩,
      fun held => ⟨firstRun.trans (if_neg held), firstStation.trans (if_neg held)⟩, fun notice => ⟨counts.trans ?_, ?_⟩,
      fun action => ⟨counts.trans ?_, ?_⟩, fun urgent => ⟨counts.trans ?_, ?_⟩⟩
    · simp [notice]
    · simp [notice, Tallies.lose, State.withOpened]
    · simp [action]
    · simp [action, Tallies.lose, State.withOpened]
    · simp [urgent]
    · simp [urgent, Tallies.lose, State.withOpened]

end Sys2Proof.Machine
end

section
/-! # Ring entry and evaluation (R74, R79, R80, R86, R88, R89) -/

namespace Sys2Proof.Machine

/-! ### The evaluation of station E -/

theorem completeApply_ring (s : State) : (completeApply s).ring = s.ring :=
  ring_of_changes (completeApply_changes s) (by decide)

theorem handOn_ring (s : State) (e : EvaluatedStation) : (handOn s e).ring = s.ring :=
  ring_of_changes (handOn_changes s e) (by decide)

/-- The station that is evaluated with a record, E (R89). -/
def State.evaluated (s : State) (x : StationRecord) : EvaluatedStation :=
  evaluate s.params s.run.direction s.loc.route s.ring s.lastEntered x

/-- A pending apply completes, the station is evaluated and handed on, E advances (R86, R89). -/
theorem evaluateNext_of_record {s : State} {x : StationRecord}
    (h : s.ring.stations.find? (·.number == s.ring.next) = some x) :
    evaluateNext s = (handOn (completeApply s) ((completeApply s).evaluated x)).withRing s.ring.advance := by
  have ring : (handOn (completeApply s) ((completeApply s).evaluated x)).ring = s.ring :=
    (handOn_ring _ _).trans (completeApply_ring s)
  rw [← ring]
  simp only [evaluateNext, h]
  rfl

theorem evaluateNext_of_none {s : State} (h : s.ring.stations.find? (·.number == s.ring.next) = none) :
    evaluateNext s = s.withRing s.ring.advance := by
  simp only [evaluateNext, h]

/-- Whether or not the ring holds station E, E advances past it. -/
theorem evaluateNext_ring (s : State) : (evaluateNext s).ring = s.ring.advance := by
  cases h : s.ring.stations.find? (·.number == s.ring.next) with
  | none => rw [evaluateNext_of_none h, State.withRing_ring]
  | some x => rw [evaluateNext_of_record h, State.withRing_ring]

theorem evaluateRest_ring_next (s : State) (count : Nat) : (evaluateRest s count).ring.next = s.ring.next + count := by
  induction count generalizing s with
  | zero => rfl
  | succ n ih =>
    rw [evaluateRest, ih, evaluateNext_ring]
    simp only [Ring.advance]
    omega

theorem allVoid_iff (e : EvaluatedStation) : e.allVoid = true ↔ ∀ ch, e.values.get ch = none := by
  simp only [EvaluatedStation.allVoid, PerChannel.toList, List.all_map, List.all_eq_true, Function.comp_apply,
    Option.isNone_iff_eq_none]
  exact ⟨fun h ch => h ch (by cases ch <;> decide), fun h ch _ => h ch⟩

/-- The state with a station whose channels are all void tallied (R28). -/
def State.tallied (s : State) (e : EvaluatedStation) : State :=
  if e.allVoid then s.withTallies { s.run.tallies with voidStations := s.run.tallies.voidStations + 1 } else s

theorem handOn_eq (s : State) (e : EvaluatedStation) :
    handOn s e = composeStation (judgeStation (s.tallied e) e) e := rfl

theorem completeApply_route {s : State} {entries : List (List Byte)} {requester : Byte} {tag : Half}
    (h : s.req.staging = .pending .route entries requester tag) :
    (completeApply s).loc.route = entries.map Segment.read := completeApply_of_pending h .route (by decide)

theorem completeApply_thresholds {s : State} {entries : List (List Byte)} {requester : Byte} {tag : Half}
    (h : s.req.staging = .pending .thresholds entries requester tag) :
    (completeApply s).det.thresholds = thresholdTable (entries.map Threshold.read) :=
  completeApply_of_pending h .thresholds (by decide)

/-! ### A station that enters -/

/-- The state with a station's record in the ring, counted and tallied (R79, R105, R28). -/
def State.entered (s : State) (e : Entering) : State :=
  ((s.withRing { s.ring with stations := s.ring.stations ++ [s.recordOf e] }).withLoc
    { s.loc with entryNumber := s.loc.entryNumber + 1 }).withTallies
    { s.run.tallies with stations := s.run.tallies.stations + 1 }

theorem enterRing_of_last {s : State} {e : Entering} (h : e.number = s.ring.next + s.ring.long) :
    enterRing s e = evaluateNext (s.entered e) := if_pos h

theorem enterRing_of_other {s : State} {e : Entering} (h : e.number ≠ s.ring.next + s.ring.long) :
    enterRing s e = s.entered e := if_neg h

/-- A station's chainage lies its number of spacings from the start, in the run's direction, with the correction (R106). -/
theorem stationChainage_eq (s : State) (n : Nat) : s.stationChainage n = s.run.startChainage
    + BitVec.ofInt 32 ((if s.run.direction = .increasing then 1 else -1) * (n * (s.params.spacing / 1000 : Nat)))
    + s.loc.correction := by
  unfold State.stationChainage State.chainageAt Params.spacingMm
  cases s.run.direction <;> simp [Direction.sign]

theorem enterClosed_of_waiting {s : State} (h : s.table = [] ∨ ∃ p rest, s.table = p :: rest ∧ p.closed = none) (n : Nat) :
    enterClosed s n = s := by
  cases n with
  | zero => rfl
  | succ n =>
    unfold enterClosed
    obtain empty | ⟨p, rest, table, waits⟩ := h
    · simp [empty]
    · simp [table, waits]

theorem enterClosed_of_closed {s : State} {p : PendingStation} {rest : List PendingStation} {i : Inputs}
    (table : s.table = p :: rest) (closed : p.closed = some i) (n : Nat) :
    enterClosed s (n + 1) = enterClosed (enterPending (s.withTable rest) p i) n := by
  rw [enterClosed]
  simp [table, closed]

/-- Settles O40: the entry of the oldest CLOSED entry is `enterClosed_of_closed` and `State.entered`, the evaluation of
station E is `evaluateNext_of_record`. -/
theorem stationsEnterTheRingAndAreEvaluated : Obligations.StationsEnterTheRingAndAreEvaluated := by
  refine ⟨⟨fun s n waiting => enterClosed_of_waiting waiting n,
    fun s n p rest i table closed => enterClosed_of_closed table closed n, fun _ _ => rfl, fun _ _ _ => rfl, fun s e => ?_⟩,
    fun s x found => ?_⟩
  · dsimp only
    rw [← stationChainage_eq]
    exact ⟨fun last => enterRing_of_last last, fun other => enterRing_of_other other⟩
  · have e := evaluateNext_of_record found
    have ring := evaluateNext_ring s
    have entered : (completeApply s).loc.entryNumber = s.loc.entryNumber := completeApply_changes s .entryNumber (by decide)
    have eval : evaluate (completeApply s).params (completeApply s).run.direction (completeApply s).loc.route
        (completeApply s).ring ((s.loc.entryNumber : Int) - 1) x = (completeApply s).evaluated x := by
      rw [← entered]
      rfl
    dsimp only
    rw [eval]
    refine ⟨(completeApply s).tallied ((completeApply s).evaluated x), fun void => ?_, fun notVoid => ?_,
      ⟨s.ring.advance, ?_⟩, by rw [ring]; rfl, by rw [ring]; rfl, by rw [ring]; rfl,
      by rw [ring]; rfl, by rw [ring]; rfl, completeApply_staging s, completeApply_ring s,
      completeApply_of_not_pending, fun _ _ _ => completeApply_route, fun _ _ _ => completeApply_thresholds⟩
    · exact if_pos ((allVoid_iff _).mpr void)
    · exact if_neg fun allVoid => notVoid ((allVoid_iff _).mp allVoid)
    · rw [← handOn_eq]
      exact e

/-! ### The flush timer serves through an evaluation (R157) -/

theorem timerServes_of_changes {s t : State} (serves : s.TimerServes) {l : List Region} (h : s.ChangesOnly l t)
    (hl : ∀ r ∈ [Region.flushTimer, .batch, .staging], r ∉ l) : t.TimerServes := by
  have flush : t.out.flush = s.out.flush := h .flushTimer (hl _ (by decide))
  have batch : t.out.batch = s.out.batch := h .batch (hl _ (by decide))
  have staging : t.req.staging = s.req.staging := h .staging (hl _ (by decide))
  unfold State.TimerServes
  rw [flush, batch, staging]
  exact serves

/-- A running timer is turned off exactly where there is nothing left for it to serve. -/
theorem stopIdleTimer_timerServes {s : State} (running : s.out.flush.isSome = true) : (stopIdleTimer s).TimerServes := by
  unfold stopIdleTimer
  split
  · rename_i idle
    simpa [State.TimerServes] using idle
  · rename_i serving
    unfold State.TimerServes
    cases batch : s.out.batch <;> simp_all

theorem flushBatch_timerServes {s : State} (serves : s.TimerServes) : (flushBatch s).TimerServes := by
  cases batch : s.out.batch with
  | none =>
    have same : flushBatch s = s := by simp [flushBatch, batch]
    exact same.symm ▸ serves
  | some b =>
    have running : s.out.flush.isSome = true := by simpa [State.TimerServes, batch] using serves
    have offered : (offerBatch (s.withOut { s.out with batch := none }) b).out.flush = s.out.flush :=
      offerBatch_changes _ b .flushTimer (by decide)
    have same : flushBatch s = stopIdleTimer (offerBatch (s.withOut { s.out with batch := none }) b) := by
      simp [flushBatch, batch]
    rw [same]
    exact stopIdleTimer_timerServes (by rw [offered]; exact running)

theorem flushBatch_batch (s : State) : (flushBatch s).out.batch = none := by
  cases batch : s.out.batch with
  | none => simp [flushBatch, batch]
  | some b =>
    have same : flushBatch s = stopIdleTimer (offerBatch (s.withOut { s.out with batch := none }) b) := by
      simp [flushBatch, batch]
    rw [same]
    exact Eq.trans (stopIdleTimer_changes _ .batch (by decide)) (offerBatch_changes _ b .batch (by decide))

theorem openBatch_timerServes (s : State) (e : EvaluatedStation) : (openBatch s e).TimerServes := by
  unfold openBatch startFlushTimer State.TimerServes
  split <;> simp_all

theorem addStation_timerServes {s : State} (serves : s.TimerServes) (e : EvaluatedStation) :
    (addStation s e).TimerServes := by
  unfold addStation
  split
  · exact openBatch_timerServes s e
  · rename_i b batch
    split
    · simpa [State.TimerServes, batch] using serves
    · exact openBatch_timerServes _ e

theorem composeStation_timerServes {s : State} (serves : s.TimerServes) (e : EvaluatedStation) :
    (composeStation s e).TimerServes := by
  have last : ∀ u : State, u.TimerServes → (match u.out.batch with
      | some b => if batchFull b.entries then flushBatch u else u
      | none => u).TimerServes := by
    intro u hu
    split
    · split
      · exact flushBatch_timerServes hu
      · exact hu
    · exact hu
  unfold composeStation
  refine last _ (addStation_timerServes ?_ e)
  split
  · split
    · exact flushBatch_timerServes serves
    · exact serves
  · exact serves

theorem completeApply_timerServes {s : State} (serves : s.TimerServes) : (completeApply s).TimerServes := by
  cases pending : s.req.staging with
  | pending t entries requester tag =>
    have running : s.out.flush.isSome = true := by simpa [State.TimerServes, pending, Staging.isPending] using serves
    have swapped : (swapTable s t entries).out.flush = s.out.flush := swapTable_changes s t entries .flushTimer (by decide)
    unfold completeApply
    rw [pending]
    exact stopIdleTimer_timerServes (by rw [← swapped] at running; exact running)
  | _ =>
    rw [completeApply_of_not_pending (by rw [pending]; rfl)]
    exact serves

theorem evaluateNext_timerServes {s : State} (serves : s.TimerServes) : (evaluateNext s).TimerServes := by
  cases h : s.ring.stations.find? (·.number == s.ring.next) with
  | none =>
    rw [evaluateNext_of_none h]
    exact serves
  | some x =>
    rw [evaluateNext_of_record h, handOn_eq]
    have tallied : ((completeApply s).tallied ((completeApply s).evaluated x)).TimerServes := by
      unfold State.tallied
      split
      · exact completeApply_timerServes serves
      · exact completeApply_timerServes serves
    have judged := timerServes_of_changes tallied (judgeStation_changes _ ((completeApply s).evaluated x)) (by decide)
    exact composeStation_timerServes judged _

theorem evaluateRest_timerServes {s : State} (serves : s.TimerServes) (count : Nat) :
    (evaluateRest s count).TimerServes := by
  induction count generalizing s with
  | zero => exact serves
  | succ n ih => exact ih (evaluateNext_timerServes serves)

/-! ### The completion of a drain (R27) -/

theorem closeOpened_opened (s : State) (cause : CloseCause) (ch : Channel) :
    (closeOpened s cause ch).det.opened = s.det.opened.set ch none := by
  unfold closeOpened
  split
  · exact closeException_opened
  · rename_i empty
    cases ch <;> (rw [← empty]; rfl)

/-- No exception is left open (R136). -/
theorem closeAll_opened (s : State) (cause : CloseCause) (ch : Channel) : (closeAll s cause).det.opened.get ch = none := by
  simp only [closeAll, List.foldl_cons, List.foldl_nil, closeOpened_opened]
  cases ch <;> rfl

/-- The state of a drain before its note: every station evaluated, every exception closed, the batch flushed. -/
def State.drained (s : State) : State :=
  flushBatch (closeAll (evaluateRest s (s.loc.entryNumber - s.ring.next)) .runEnd)

theorem drained_changes (s : State) : s.ChangesOnly (.ring :: Region.evaluated) s.drained :=
  .then (.then (evaluateRest_changes _ s) (closeAll_changes _ _) (by decide)) (flushBatch_changes _) (by decide)

theorem drained_opened (s : State) (ch : Channel) : s.drained.det.opened.get ch = none := by
  obtain ⟨opened, -⟩ := flushBatch_changes (closeAll (evaluateRest s (s.loc.entryNumber - s.ring.next)) .runEnd) .exceptions
    (by decide)
  exact (congrArg (PerChannel.get · ch) opened).trans (closeAll_opened _ _ ch)

theorem drained_timerServes {s : State} (serves : s.TimerServes) : s.drained.TimerServes :=
  flushBatch_timerServes (timerServes_of_changes (evaluateRest_timerServes serves _) (closeAll_changes _ _) (by decide))

/-- The five stages of R27. -/
theorem completeDrain_eq (s : State) :
    completeDrain s =
      let v := offerNote s.drained (.runEnd s.run.id s.run.distanceAtStop s.drained.run.tallies)
      ((v.withRing { v.ring with stations := [] }).withLoc { v.loc with status := .none }).withRun { v.run with state := .idle }
    := by
  obtain ⟨id, -⟩ := drained_changes s .runRecord (by decide)
  have atStop : s.drained.run.distanceAtStop = s.run.distanceAtStop := drained_changes s .distanceAtStop (by decide)
  rw [← id, ← atStop]
  rfl

/-- Settles O29: the stages are `completeDrain_eq`; the ring, the list of exceptions, the batch and the timer are read off
`State.drained`. -/
theorem drainCompletes : Obligations.DrainCompletes := by
  refine ⟨fun _ _ => ⟨rfl, rfl⟩, fun s => ⟨fun draining empty => ?_, fun notReady => ?_⟩⟩
  · have noted := (drained_changes s).then
      (offerNote_changes s.drained (.runEnd s.run.id s.run.distanceAtStop s.drained.run.tallies)) (by decide)
    have ring : s.drained.ring.next = s.ring.next + (s.loc.entryNumber - s.ring.next) := by
      rw [← evaluateRest_ring_next]
      exact congrArg Ring.next ((ring_of_changes (flushBatch_changes _) (by decide)).trans
        (ring_of_changes (closeAll_changes _ _) (by decide)))
    refine ⟨?_, ring, drained_opened s, flushBatch_batch _, fun serves => ?_, noted .runRecord (by decide),
      noted .distanceAtStop (by decide), Eq.trans (noted .table (by decide)) empty, noted .time (by decide)⟩
    · have ready : s.DrainReady := ⟨draining, empty⟩
      rw [exec, execDrainComplete, if_pos ready, completeDrain_eq]
      rfl
    · have batch : s.drained.out.batch = none := flushBatch_batch _
      have served := drained_timerServes serves
      rw [State.TimerServes, batch] at served
      exact served
  · have notReady : ¬ s.DrainReady := fun ready => notReady.elim (· ready.1) (· ready.2)
    rw [exec, execDrainComplete, if_neg notReady]

end Sys2Proof.Machine
end

section
/-! # The stations of a run: each in one place, in order (R60, R74, R79, R80, R86, R155) -/

namespace Sys2Proof.Machine

/-! ### The clauses of the order -/

/-- In IDLE no station is in any place. -/
structure State.AtRest (s : State) : Prop where
  table : s.table = []
  ring : s.ring.stations = []
  batch : s.out.batch = none
  opened : ∀ ch, s.det.opened.get ch = none

/-- The batch under construction ends just before a station. -/
def State.BatchEndsBefore (s : State) (n : Nat) : Prop := ∀ b, s.out.batch = some b → b.first + covered b.entries = n

/-- The ring holds the stations from E − R to the entry number, and the batch ends just before E. -/
structure State.RingHolds (s : State) : Prop where
  records : s.ring.stations.map (·.number) = .Ico (s.ring.next - s.ring.reach) s.loc.entryNumber
  entered : s.ring.next ≤ s.loc.entryNumber
  capacity : s.ring.long + s.ring.reach + 1 ≤ Config.ringCapacity
  batch : s.BatchEndsBefore s.ring.next
  tally : s.run.tallies.stations = BitVec.ofNat 32 s.loc.entryNumber

/-- The ring holds its stations, and E is at most kmax behind. -/
structure State.RingInOrder (s : State) : Prop extends s.RingHolds where
  evaluated : s.loc.entryNumber ≤ s.ring.next + s.ring.long

/-- The pending table holds the stations from the entry number to N, the ring those before. -/
structure State.RunInOrder (s : State) : Prop extends s.RingInOrder where
  waiting : stationsFrom s.loc.entryNumber s.table s.dist.next

theorem stationsInOrder_of_idle {s : State} (idle : s.run.state = .idle) : s.StationsInOrder ↔ s.AtRest := by
  rw [State.StationsInOrder, if_pos idle]
  exact ⟨fun ⟨table, ring, batch, opened⟩ => ⟨table, ring, batch, opened⟩,
    fun ⟨table, ring, batch, opened⟩ => ⟨table, ring, batch, opened⟩⟩

theorem stationsInOrder_of_run {s : State} (inRun : s.run.state ≠ .idle) : s.StationsInOrder ↔ s.RunInOrder := by
  rw [State.StationsInOrder, if_neg inRun]
  exact ⟨fun ⟨waiting, records, entered, evaluated, capacity, batch, tally⟩ =>
      ⟨⟨⟨records, entered, capacity, batch, tally⟩, evaluated⟩, waiting⟩,
    fun ⟨⟨⟨records, entered, capacity, batch, tally⟩, evaluated⟩, waiting⟩ =>
      ⟨waiting, records, entered, evaluated, capacity, batch, tally⟩⟩

/-- With an entry in the pending table there is a run, and its stations are in order. -/
theorem State.StationsInOrder.run_of_mem {s : State} (h : s.StationsInOrder) {p : PendingStation} (listed : p ∈ s.table) :
    s.run.state ≠ .idle ∧ s.RunInOrder := by
  have inRun : s.run.state ≠ .idle := fun idle => by
    rw [((stationsInOrder_of_idle idle).mp h).table] at listed
    cases listed
  exact ⟨inRun, (stationsInOrder_of_run inRun).mp h⟩

/-! ### What keeps them -/

/-- What the places of a run's stations are read from. -/
abbrev Region.places : List Region := [.table, .nextStation, .ring, .chords, .entryNumber, .batch, .exceptions, .tallies]

theorem atRest_of_changes {s t : State} (h : s.AtRest) {l : List Region} (frame : s.ChangesOnly l t)
    (hl : ∀ r ∈ Region.places, r ∉ l) : t.AtRest := by
  have table : t.table = s.table := frame .table (hl _ (by decide))
  have batch : t.out.batch = s.out.batch := frame .batch (hl _ (by decide))
  obtain ⟨ring, -⟩ := frame .ring (hl _ (by decide))
  obtain ⟨opened, -⟩ := frame .exceptions (hl _ (by decide))
  exact ⟨table.trans h.table, ring.trans h.ring, batch.trans h.batch, fun ch => opened ▸ h.opened ch⟩

/-- The ring keeps its order where it and the entry number stay and the batch stays or is flushed. -/
theorem ringInOrder_of_kept {s t : State} (h : s.RingInOrder) {l : List Region} (frame : s.ChangesOnly l t)
    (hl : ∀ r ∈ [Region.ring, .chords, .entryNumber, .tallies], r ∉ l)
    (batch : t.out.batch = s.out.batch ∨ t.out.batch = none) : t.RingInOrder := by
  have ring : t.ring = s.ring := ring_of_changes frame (fun r hr => hl r (by revert hr r; decide))
  have entryNumber : t.loc.entryNumber = s.loc.entryNumber := frame .entryNumber (hl _ (by decide))
  have tallies : t.run.tallies = s.run.tallies := frame .tallies (hl _ (by decide))
  obtain ⟨⟨records, entered, capacity, ends, tally⟩, evaluated⟩ := h
  refine ⟨⟨?_, ?_, ?_, ?_, ?_⟩, ?_⟩
  · rwa [ring, entryNumber]
  · rwa [ring, entryNumber]
  · rwa [ring]
  · obtain same | flushed := batch
    · rwa [State.BatchEndsBefore, same, ring]
    · exact fun b isOpen => nomatch flushed.symm.trans isOpen
  · rwa [tallies, entryNumber]
  · rwa [ring, entryNumber]

theorem runInOrder_of_kept {s t : State} (h : s.RunInOrder) {l : List Region} (frame : s.ChangesOnly l t)
    (hl : ∀ r ∈ [Region.table, .nextStation, .ring, .chords, .entryNumber, .tallies], r ∉ l)
    (batch : t.out.batch = s.out.batch ∨ t.out.batch = none) : t.RunInOrder := by
  have table : t.table = s.table := frame .table (hl _ (by decide))
  have next : t.dist.next = s.dist.next := frame .nextStation (hl _ (by decide))
  have entryNumber : t.loc.entryNumber = s.loc.entryNumber := frame .entryNumber (hl _ (by decide))
  refine ⟨ringInOrder_of_kept h.toRingInOrder frame (fun r hr => hl r (by revert hr r; decide)) batch, ?_⟩
  rw [entryNumber, table, next]
  exact h.waiting

theorem runInOrder_of_changes {s t : State} (h : s.RunInOrder) {l : List Region} (frame : s.ChangesOnly l t)
    (hl : ∀ r ∈ Region.places, r ∉ l) : t.RunInOrder :=
  runInOrder_of_kept h frame (fun r hr => hl r (by revert hr r; decide)) (.inl (frame .batch (hl _ (by decide))))

/-- The order is kept where neither the run state nor a place changes. -/
theorem stationsInOrder_of_changes {s t : State} (h : s.StationsInOrder) {l : List Region} (frame : s.ChangesOnly l t)
    (hl : ∀ r ∈ Region.runState :: Region.places, r ∉ l) : t.StationsInOrder := by
  have state : t.run.state = s.run.state := frame .runState (hl _ (by decide))
  have places : ∀ r ∈ Region.places, r ∉ l := fun r hr => hl r (List.mem_cons_of_mem _ hr)
  by_cases idle : s.run.state = .idle
  · rw [stationsInOrder_of_idle idle] at h
    exact (stationsInOrder_of_idle (state.trans idle)).mpr (atRest_of_changes h frame places)
  · rw [stationsInOrder_of_run idle] at h
    exact (stationsInOrder_of_run (state ▸ idle)).mpr (runInOrder_of_changes h frame places)

theorem settle_stationsInOrder {s : State} (h : s.StationsInOrder) : (settle s).StationsInOrder :=
  stationsInOrder_of_changes h (settle_changes s) (by decide)

/-! ### The batch -/

section Batch

variable {s : State} {n : Nat}

theorem batchEndsBefore_of_none (none' : s.out.batch = none) : s.BatchEndsBefore n :=
  fun _ isOpen => nomatch none'.symm.trans isOpen

theorem batchEndsBefore_of_changes {t : State} (h : s.BatchEndsBefore n) {l : List Region} (frame : s.ChangesOnly l t)
    (hl : .batch ∉ l) : t.BatchEndsBefore n := by
  have batch : t.out.batch = s.out.batch := frame .batch hl
  rwa [State.BatchEndsBefore, batch]

theorem openBatch_ends (s : State) (e : EvaluatedStation) : (openBatch s e).BatchEndsBefore (e.number + 1) := by
  have opened : (openBatch s e).out.batch
      = some { runId := s.run.id, epoch := e.epoch, first := e.number, entries := [e.entry] } :=
    startFlushTimer_changes _ .batch (by decide)
  intro b isOpen
  cases opened.symm.trans isOpen
  simp [covered, entry_covers]

theorem addStation_ends {e : EvaluatedStation} (h : s.BatchEndsBefore e.number) :
    (addStation s e).BatchEndsBefore (e.number + 1) := by
  unfold addStation
  split
  · exact openBatch_ends s e
  · rename_i b isOpen
    split
    · rename_i entries joins
      intro b' extended
      cases extended
      have ends := h b isOpen
      show b.first + covered entries = e.number + 1
      rw [covered_addEntry joins]
      omega
    · exact openBatch_ends _ e

theorem composeStation_ends {e : EvaluatedStation} (h : s.BatchEndsBefore e.number) :
    (composeStation s e).BatchEndsBefore (e.number + 1) := by
  have flushed : ∀ (u : State) m, (flushBatch u).BatchEndsBefore m := fun u _ => batchEndsBefore_of_none (flushBatch_batch u)
  have last : ∀ u : State, u.BatchEndsBefore (e.number + 1) → (match u.out.batch with
      | some b => if batchFull b.entries then flushBatch u else u
      | none => u).BatchEndsBefore (e.number + 1) := by
    intro u hu
    split
    · split
      · exact flushed u _
      · exact hu
    · exact hu
  unfold composeStation
  refine last _ (addStation_ends ?_)
  split
  · split
    · exact flushed s _
    · exact h
  · exact h

end Batch

/-! ### The evaluation of station E, and the entry of a station -/

/-- The operations that evaluate stations leave the tally of those that entered as it stands. -/
theorem carried_stations : Carried fun s t => t.run.tallies.stations = s.run.tallies.stations where
  trans h h' := h'.trans h
  frame h hl := congrArg Tallies.stations (h .tallies (hl _ (by decide)))
  raise _ _ := rfl
  tally _ _ h := h
  head _ _ _ _ := rfl
  apply s := congrArg Tallies.stations (completeApply_changes s .tallies (by decide))

/-- The ring's records that an advance of E keeps are those within the reach of the new E. -/
theorem advance_records {g : Ring} {n : Nat} (h : g.stations.map (·.number) = .Ico (g.next - g.reach) n) :
    g.advance.stations.map (·.number) = .Ico (g.next + 1 - g.reach) n := by
  have within : (fun x : Nat => decide (g.next + 1 ≤ x + g.reach)) = fun x => decide (g.next + 1 - g.reach ≤ x) := by
    funext x
    simp only [decide_eq_decide]
    omega
  calc g.advance.stations.map (·.number)
      = (g.stations.map (·.number)).filter fun x => decide (g.next + 1 ≤ x + g.reach) := by
        rw [List.filter_map]
        rfl
    _ = List.Ico (max (g.next - g.reach) (g.next + 1 - g.reach)) n := by rw [h, within, List.Ico.filter_le]
    _ = .Ico (g.next + 1 - g.reach) n := by rw [max_eq_right (by omega)]

/-- Station E has a record in the ring once it has entered. -/
theorem State.RingHolds.find_next {s : State} (h : s.RingHolds) (waits : s.ring.next < s.loc.entryNumber) :
    ∃ x, s.ring.stations.find? (·.number == s.ring.next) = some x ∧ x.number = s.ring.next := by
  have mem : s.ring.next ∈ s.ring.stations.map (·.number) := by
    rw [h.records]
    exact List.Ico.mem.mpr ⟨Nat.sub_le _ _, waits⟩
  obtain ⟨x, hx, number⟩ := List.mem_map.mp mem
  obtain ⟨y, found⟩ := Option.isSome_iff_exists.mp
    (List.find?_isSome (p := fun r : StationRecord => r.number == s.ring.next).mpr ⟨x, hx, by simpa using number⟩)
  exact ⟨y, found, by simpa using List.find?_some found⟩

theorem evaluateNext_holds {s : State} (h : s.RingHolds) (waits : s.ring.next < s.loc.entryNumber) :
    (evaluateNext s).RingHolds := by
  have entryNumber : (evaluateNext s).loc.entryNumber = s.loc.entryNumber :=
    evaluateNext_changes s .entryNumber (by decide)
  have ring := evaluateNext_ring s
  have batch : (evaluateNext s).BatchEndsBefore (s.ring.next + 1) := by
    obtain ⟨x, found, number⟩ := h.find_next waits
    have ends : ((completeApply s).tallied ((completeApply s).evaluated x)).BatchEndsBefore s.ring.next := by
      have applied := batchEndsBefore_of_changes h.batch (completeApply_changes s) (by decide)
      unfold State.tallied
      split
      · exact applied
      · exact applied
    have judged := batchEndsBefore_of_changes ends (judgeStation_changes _ ((completeApply s).evaluated x)) (by decide)
    rw [evaluateNext_of_record found, handOn_eq, ← number]
    exact composeStation_ends (e := (completeApply s).evaluated x) (by rw [← number] at judged; exact judged)
  refine ⟨?_, ?_, ?_, ?_, ?_⟩
  · rw [ring, entryNumber]
    exact advance_records h.records
  · rw [ring, entryNumber]
    exact waits
  · rw [ring]
    exact h.capacity
  · rw [ring]
    exact batch
  · rw [entryNumber]
    exact (carried_stations.evaluateNext s).trans h.tally

theorem entered_holds {s : State} (h : s.RingHolds) {e : Entering} (next : e.number = s.loc.entryNumber) :
    (s.entered e).RingHolds := by
  refine ⟨?_, Nat.le_succ_of_le h.entered, h.capacity, h.batch, ?_⟩
  · show (s.ring.stations ++ [s.recordOf e]).map (·.number) = .Ico (s.ring.next - s.ring.reach) (s.loc.entryNumber + 1)
    rw [List.Ico.succ_top (by have := h.entered; omega), List.map_append, h.records]
    exact congrArg (_ ++ [·]) next
  · show s.run.tallies.stations + 1 = BitVec.ofNat 32 (s.loc.entryNumber + 1)
    rw [BitVec.ofNat_add, h.tally]
    rfl

theorem enterRing_inOrder {s : State} (h : s.RingInOrder) {e : Entering} (next : e.number = s.loc.entryNumber) :
    (enterRing s e).RingInOrder ∧ (enterRing s e).loc.entryNumber = s.loc.entryNumber + 1 := by
  have entered := entered_holds h.toRingHolds next
  have behind := h.entered
  have evaluated := h.evaluated
  by_cases last : e.number = s.ring.next + s.ring.long
  · have entryNumber : (evaluateNext (s.entered e)).loc.entryNumber = s.loc.entryNumber + 1 :=
      evaluateNext_changes (s.entered e) .entryNumber (by decide)
    rw [enterRing_of_last last]
    refine ⟨⟨evaluateNext_holds entered (Nat.lt_succ_of_le behind), ?_⟩, entryNumber⟩
    rw [evaluateNext_ring, entryNumber]
    show s.loc.entryNumber + 1 ≤ s.ring.next + 1 + s.ring.long
    omega
  · rw [enterRing_of_other last]
    refine ⟨⟨entered, ?_⟩, rfl⟩
    show s.loc.entryNumber + 1 ≤ s.ring.next + s.ring.long
    omega

theorem enterSkipped_inOrder {s : State} (h : s.RingInOrder) (count : Nat) :
    (enterSkipped s s.loc.entryNumber count).RingInOrder
      ∧ (enterSkipped s s.loc.entryNumber count).loc.entryNumber = s.loc.entryNumber + count := by
  induction count generalizing s with
  | zero => exact ⟨h, rfl⟩
  | succ count ih =>
    let e : Entering := { number := s.loc.entryNumber, nominal := s.loc.entryNumber * s.params.spacing, speed := 0,
                          speedUnknown := true, skipped := true, inputs := {} }
    obtain ⟨entered, entryNumber⟩ := enterRing_inOrder h (e := e) rfl
    obtain ⟨rest, last⟩ := ih entered
    rw [entryNumber] at rest last
    exact ⟨rest, last.trans (by omega)⟩

theorem enterPending_inOrder {s : State} (h : s.RingInOrder) {p : PendingStation} (next : p.number = s.loc.entryNumber)
    (i : Inputs) : (enterPending s p i).RingInOrder
      ∧ (enterPending s p i).loc.entryNumber = s.loc.entryNumber + 1 + p.skips := by
  let e : Entering := { number := p.number, nominal := p.nominal, speed := p.speed, speedUnknown := p.speedUnknown,
                        skipped := false, inputs := i }
  obtain ⟨entered, entryNumber⟩ := enterRing_inOrder h (e := e) next
  have skipped := enterSkipped_inOrder entered p.skips
  rw [entryNumber, ← next] at skipped
  rw [← next]
  exact skipped

theorem enterClosed_inOrder {s : State} (h : s.RunInOrder) (fuel : Nat) : (enterClosed s fuel).RunInOrder := by
  induction fuel generalizing s with
  | zero => exact h
  | succ fuel ih =>
    cases table : s.table with
    | nil =>
      rw [enterClosed_of_waiting (.inl table)]
      exact h
    | cons p rest =>
      cases closed : p.closed with
      | none =>
        rw [enterClosed_of_waiting (.inr ⟨p, rest, table, closed⟩)]
        exact h
      | some i =>
        rw [enterClosed_of_closed table closed]
        have waiting := h.waiting
        rw [table] at waiting
        obtain ⟨first, waiting⟩ := waiting
        have taken : (s.withTable rest).RingInOrder :=
          ⟨⟨h.records, h.entered, h.capacity, h.batch, h.tally⟩, h.evaluated⟩
        obtain ⟨inOrder, entryNumber⟩ := enterPending_inOrder taken first i
        have left : (enterPending (s.withTable rest) p i).table = rest := enterPending_changes _ p i .table (by decide)
        have next : (enterPending (s.withTable rest) p i).dist.next = s.dist.next :=
          enterPending_changes _ p i .nextStation (by decide)
        refine ih ⟨inOrder, ?_⟩
        rw [entryNumber, left, next]
        exact waiting

/-! ### The pending table -/

theorem stationsFrom_append (first rest : List PendingStation) (n last : Nat) :
    stationsFrom n (first ++ rest) last ↔ ∃ m, stationsFrom n first m ∧ stationsFrom m rest last := by
  induction first generalizing n with
  | nil => simp [stationsFrom]
  | cons p first ih => simp [stationsFrom, ih, and_assoc]

/-- An entry rewritten with its number and its skips keeps its place. -/
theorem stationsFrom_map {f : PendingStation → PendingStation} (number : ∀ p, (f p).number = p.number)
    (skips : ∀ p, (f p).skips = p.skips) (l : List PendingStation) (n last : Nat) :
    stationsFrom n (l.map f) last ↔ stationsFrom n l last := by
  induction l generalizing n with
  | nil => exact Iff.rfl
  | cons p l ih => simp [stationsFrom, ih, number, skips]

theorem updateEntry_inOrder {s : State} (h : s.StationsInOrder) (n : Nat) {f : PendingStation → PendingStation}
    (number : ∀ p, (f p).number = p.number) (skips : ∀ p, (f p).skips = p.skips) : (s.updateEntry n f).StationsInOrder := by
  by_cases idle : s.run.state = .idle
  · obtain ⟨table, ring, batch, opened⟩ := (stationsInOrder_of_idle idle).mp h
    exact (stationsInOrder_of_idle (s := s.updateEntry n f) idle).mpr
      ⟨by rw [State.updateEntry, State.withTable_table, table, List.map_nil], ring, batch, opened⟩
  · obtain ⟨⟨⟨records, entered, capacity, batch, tally⟩, evaluated⟩, waiting⟩ := (stationsInOrder_of_run idle).mp h
    refine (stationsInOrder_of_run (s := s.updateEntry n f) idle).mpr
      ⟨⟨⟨records, entered, capacity, batch, tally⟩, evaluated⟩,
        (stationsFrom_map (fun p => ?_) (fun p => ?_) _ _ _).mpr waiting⟩
    · split
      · exact number p
      · rfl
    · split
      · exact skips p
      · rfl

theorem closeStation_inOrder {s : State} (h : s.StationsInOrder) {p : PendingStation} (listed : p ∈ s.table) :
    (closeStation s p).StationsInOrder := by
  have inRun := (h.run_of_mem listed).1
  have judges : s.ChangesOnly (.heads :: Region.noted) (p.members.foldl (judgeHead p.number) s) :=
    .foldl _ (fun s m => judgeHead_changes p.number s m) _ _
  have state : (closeStation s p).run.state = s.run.state := closeStation_changes s p .runState (by decide)
  have judged := stationsInOrder_of_changes h judges (by decide)
  have judging : (p.members.foldl (judgeHead p.number) s).run.state ≠ .idle := by
    rw [judges .runState (by decide)]
    exact inRun
  refine (stationsInOrder_of_run (state ▸ inRun)).mpr (enterClosed_inOrder ?_ _)
  generalize p.members.foldl (judgeHead p.number) s = u at judged judging
  have marked := updateEntry_inOrder judged p.number (f := fun q => { q with closed := some (u.inputsOf p.members) })
    (fun _ => rfl) fun _ => rfl
  exact (stationsInOrder_of_run (s := u.updateEntry _ _) judging).mp marked

theorem closeAnswered_inOrder {s : State} (h : s.StationsInOrder) (fuel : Nat) : (closeAnswered s fuel).StationsInOrder := by
  induction fuel generalizing s with
  | zero => exact h
  | succ fuel ih =>
    unfold closeAnswered
    split
    · exact h
    · rename_i p answered
      exact ih (closeStation_inOrder h (List.mem_of_find?_eq_some answered))

/-! ### Reception at port A -/

theorem lateSample_inOrder {s : State} (h : s.StationsInOrder) (x : Head) (n : Nat) (payload : List Byte) :
    (lateSample s x n payload).StationsInOrder := by
  have counted := stationsInOrder_of_changes h
    (updateHead_changes s x.cfg.addr fun h => { h with late := h.late + 1 }) (by decide)
  refine closeAnswered_inOrder ?_ _
  split
  · exact stationsInOrder_of_changes counted (advanceRecovery_changes _ n x) (by decide)
  · exact counted

theorem acceptSample_inOrder {s : State} (h : s.StationsInOrder) (x : Head) (n : Nat) (status : SampleStatus)
    (payload : List Byte) : (acceptSample s x n status payload).StationsInOrder := by
  have counted := stationsInOrder_of_changes h
    (updateHead_changes s x.cfg.addr fun h => { h with accepted := h.accepted + 1 }) (by decide)
  refine closeAnswered_inOrder (stationsInOrder_of_changes ?_ (advanceRecovery_changes _ n x) (by decide)) _
  exact updateEntry_inOrder counted n (fun _ => rfl) fun _ => rfl

theorem sampleIntake_inOrder {s : State} (h : s.StationsInOrder) (x : Head) (payload : List Byte) :
    (sampleIntake s x payload).StationsInOrder := by
  have counted : ∀ f, (s.updateHead x.cfg.addr f).StationsInOrder :=
    fun f => stationsInOrder_of_changes h (updateHead_changes s _ f) (by decide)
  unfold sampleIntake
  dsimp only
  split
  · exact counted _
  · split
    · exact counted _
    · split
      · exact counted _
      · split
        · exact lateSample_inOrder h x _ payload
        · split
          · exact counted _
          · split
            · exact counted _
            · split
              · exact counted _
              · split
                · exact acceptSample_inOrder h x _ _ payload
                · exact counted _

theorem receiveA_inOrder {s : State} (h : s.StationsInOrder) (bytes : List Byte) : (receiveA s bytes).StationsInOrder := by
  have received := stationsInOrder_of_changes h (countReceivedA_changes s) (by decide)
  unfold receiveA
  dsimp only
  generalize countReceivedA s = u at received
  have dropped := stationsInOrder_of_changes received (dropUnknownSource_changes u) (by decide)
  split
  · exact stationsInOrder_of_changes received (errorA_changes u) (by decide)
  · rename_i f _
    unfold classifyA
    split
    · split
      · exact dropped
      · split
        · exact dropped
        · exact sampleIntake_inOrder received _ _
    · split
      · split
        · exact dropped
        · split
          · exact stationsInOrder_of_changes received (tagIntake_changes u _) (by decide)
          · exact dropped
      · exact stationsInOrder_of_changes received (offerForwardAB_changes u f) (by decide)

/-! ### The encoder -/

/-- A fired station's entry is the newest of the table. -/
theorem fireStation_table (s : State) (d : Due) :
    ∃ p, (fireStation s d).table = s.table ++ [p] ∧ p.number = d.number ∧ p.skips = 0 := by
  have checked : (if rateShortfall s.heads d.rate (answerSet s.heads d.number d.rate) then setEvent s .rateExceeded
      else s).table = s.table := by
    split
    · exact setEvent_changes s .rateExceeded .table (by decide)
    · rfl
  unfold fireStation
  dsimp only
  refine ⟨_, Eq.trans (issueFire_changes _ _ .table (by decide)) (congrArg (· ++ [_]) checked), rfl, rfl⟩

/-- The next station takes its place in the pending table by an entry or, with the table full, as a skip of the newest. -/
theorem takeDue_waiting {s : State} {n : Nat} {d : Due} (number : d.number = s.dist.next)
    (waiting : stationsFrom n s.table s.dist.next) : stationsFrom n (takeDue s d).table (s.dist.next + 1) := by
  unfold takeDue
  split
  · rename_i full
    have listed : s.table ≠ [] := fun empty => by rw [empty] at full; exact absurd full (by decide)
    obtain ⟨old, p, table⟩ := (List.eq_nil_or_concat' s.table).resolve_left listed
    rw [table, stationsFrom_append] at waiting
    obtain ⟨m, before, first, last⟩ := waiting
    show stationsFrom n (skipNewest s.table) _
    rw [table, skipNewest_append, stationsFrom_append, ← last]
    exact ⟨m, before, first, rfl⟩
  · obtain ⟨p, table, first, skips⟩ := fireStation_table s d
    rw [table, stationsFrom_append]
    exact ⟨_, waiting, first.trans number, by rw [skips]; rfl⟩

theorem dueStation_inOrder {s : State} (h : s.RunInOrder) : (dueStation s).RunInOrder := by
  have frame := dueStation_changes s
  have entryNumber : (dueStation s).loc.entryNumber = s.loc.entryNumber := frame .entryNumber (by decide)
  refine ⟨ringInOrder_of_kept h.toRingInOrder frame (by decide) (.inl (frame .batch (by decide))), ?_⟩
  rw [entryNumber, dueStation_next]
  exact takeDue_waiting (d := s.dueRecord) rfl h.waiting

theorem dueStations_inOrder {s : State} (h : s.RunInOrder) (highWater : Int) (fuel : Nat) :
    (dueStations s highWater fuel).RunInOrder := by
  induction fuel generalizing s with
  | zero => exact h
  | succ fuel ih =>
    unfold dueStations
    split
    · exact ih (dueStation_inOrder h)
    · exact h

/-- A count of a run in order leaves it in order. -/
theorem forwardCount_inOrder {s : State} (h : s.StationsInOrder) : (forwardCount s).StationsInOrder := by
  by_cases counts : s.Counts
  · have inRun : s.run.state ≠ .idle := by obtain running | ⟨suspended, -⟩ := counts <;> simp [*]
    obtain ⟨⟨⟨records, entered, capacity, batch, tally⟩, evaluated⟩, waiting⟩ := (stationsInOrder_of_run inRun).mp h
    have resumed : (s.advanced.withRunState .running).RunInOrder :=
      ⟨⟨⟨records, entered, capacity, batch, tally⟩, evaluated⟩, waiting⟩
    have due : (testDue (s.advanced.withRunState .running)).RunInOrder :=
      runInOrder_of_changes (dueStations_inOrder resumed _ _) (withHighWater_changes _ _) (by decide)
    have state : (forwardCount s).run.state ≠ .idle := by simp [forwardCount_run_of_counts counts]
    rw [stationsInOrder_of_run state, forwardCount_of_counts counts]
    exact runInOrder_of_changes due (reachMarks_changes _) (by decide)
  · rw [forwardCount_of_not_counts counts]
    have advanced : s.advanced.StationsInOrder := stationsInOrder_of_changes h (withOdometer_changes s _) (by decide)
    exact stationsInOrder_of_changes advanced (reachMarks_changes _) (by decide)

theorem reverseCount_inOrder {s : State} (h : s.StationsInOrder) : (reverseCount s).StationsInOrder := by
  by_cases running : s.run.state = .running
  · have inRun : s.run.state ≠ .idle := by simp [running]
    have state : (reverseCount s).run.state ≠ .idle := by simp [reverseCount_of_running running]
    rw [stationsInOrder_of_run inRun] at h
    exact (stationsInOrder_of_run state).mpr (runInOrder_of_changes h (reverseCount_changes s) (by decide))
  · rw [reverseCount_of_not_running running]
    exact stationsInOrder_of_changes h (withOdometer_changes s _) (by decide)

/-! ### The part's own events, and the passing of time -/

/-- A completed drain leaves no station in any place. -/
theorem completeDrain_inOrder {s : State} (ready : s.DrainReady) : (completeDrain s).StationsInOrder := by
  have table : (completeDrain s).table = [] := Eq.trans (completeDrain_changes s .table (by decide)) ready.2
  rw [completeDrain_eq] at table ⊢
  have noted := offerNote_changes s.drained (.runEnd s.run.id s.run.distanceAtStop s.drained.run.tallies)
  obtain ⟨opened, -⟩ := noted .exceptions (by decide)
  have batch := Eq.trans (noted .batch (by decide)) (flushBatch_batch _)
  refine (stationsInOrder_of_idle rfl).mpr ⟨table, rfl, batch, fun ch => ?_⟩
  exact (congrArg (PerChannel.get · ch) opened).trans (drained_opened s ch)

theorem flushBatch_inOrder {s : State} (h : s.StationsInOrder) : (flushBatch s).StationsInOrder := by
  have frame := flushBatch_changes s
  have state : (flushBatch s).run.state = s.run.state := frame .runState (by decide)
  by_cases idle : s.run.state = .idle
  · have none' := ((stationsInOrder_of_idle idle).mp h).batch
    have same : flushBatch s = s := by simp [flushBatch, none']
    rw [same]
    exact h
  · rw [stationsInOrder_of_run idle] at h
    exact (stationsInOrder_of_run (state ▸ idle)).mpr (runInOrder_of_kept h frame (by decide) (.inr (flushBatch_batch s)))

theorem takeOwn_inOrder {s : State} (h : s.StationsInOrder) {e : OwnEvent} (ready : e = .drain → s.DrainReady) :
    (takeOwn s e).StationsInOrder := by
  cases e with
  | flush =>
    have applied := stationsInOrder_of_changes h (completeApply_changes s) (by decide)
    exact settle_stationsInOrder (flushBatch_inOrder applied)
  | deadline station =>
    unfold takeOwn
    dsimp only
    split
    · exact h
    · rename_i p waits
      exact settle_stationsInOrder (closeAnswered_inOrder (closeStation_inOrder h (List.mem_of_find?_eq_some waits)) _)
  | drain => exact settle_stationsInOrder (completeDrain_inOrder (ready rfl))
  | pauseEnd => exact stationsInOrder_of_changes h (takeOwn_changes s .pauseEnd) (by decide)
  | pulseEnd side =>
    exact stationsInOrder_of_changes h (takeOwn_changes s (.pulseEnd side)) (by simp [OwnEvent.command, changedBy])
  | stampTimeout => exact stationsInOrder_of_changes h (takeOwn_changes s .stampTimeout) (by decide)

theorem after_inOrder {s : State} (h : s.StationsInOrder) (n : Nat) : (s.after n).StationsInOrder := by
  refine after_induction (P := fun s _ r => s.StationsInOrder → r.StationsInOrder)
    (fun s n _ h => stationsInOrder_of_changes h (elapse_changes n s) (by decide))
    (fun s n t e k r _ chosen _ rest h => rest (takeOwn_inOrder ?_ ?_)) s n h
  · exact stationsInOrder_of_changes (stationsInOrder_of_changes h (elapse_changes t s) (by decide))
      (withDraws_changes _ k) (by decide)
  · rintro rfl
    exact drainReady_of_timeTo chosen

theorem before_inOrder {s : State} (h : s.StationsInOrder) (c : Instr) : (s.before c).StationsInOrder := by
  obtain same | ⟨n, same⟩ := before_cases s c
  · rw [same]
    exact h
  · rw [same]
    exact after_inOrder h n

theorem awaitOwn_inOrder {s : State} (h : s.StationsInOrder) (e : OwnEvent) : (awaitOwn e s).StationsInOrder := by
  have waited : (s.atMoment e).StationsInOrder := by
    obtain same | ⟨n, same⟩ := atMoment_cases s e
    · rw [same]
      exact h
    · rw [same]
      exact after_inOrder h n
  unfold awaitOwn
  dsimp only
  split
  · rename_i comes
    refine takeOwn_inOrder waited ?_
    rintro rfl
    exact drainReady_of_timeTo comes
  · exact waited

/-! ### Every command -/

/-- The ring holds a run that passed the cross-parameter check (R20). -/
theorem crossCheck_fits {p : Params} {c : Chords} (checked : crossCheck p = some c) :
    c.long + max c.long c.twist + 1 ≤ Config.ringCapacity := by
  unfold crossCheck at checked
  dsimp only at checked
  split at checked
  · rename_i conditions
    obtain ⟨-, -, -, -, -, -, -, -, -, -, fits, -⟩ := conditions
    cases checked
    exact fits
  · cases checked

/-- An accepted RUN_START sets up a run with no station made due. -/
theorem setUpRun_inOrder {s : State} (h : s.AtRest) (c0 : Word) (direction : Direction) (id : Half) {p : Params} {c : Chords}
    (checked : crossCheck p = some c) : (setUpRun s c0 direction id c).StationsInOrder := by
  refine (stationsInOrder_of_run (s := setUpRun s c0 direction id c) nofun).mpr
    ⟨⟨⟨?_, le_refl _, crossCheck_fits checked, ?_, rfl⟩, Nat.zero_le _⟩, ?_⟩
  · show s.ring.stations.map (·.number) = .Ico (0 - _) 0
    rw [h.ring, Nat.zero_sub]
    rfl
  · exact batchEndsBefore_of_none (s := setUpRun s c0 direction id c) h.batch
  · show stationsFrom 0 s.table 0
    rw [h.table]
    rfl

theorem softResetState_inOrder (s : State) : (softResetState s).StationsInOrder :=
  (stationsInOrder_of_idle rfl).mpr ⟨rfl, rfl, rfl, fun ch => by cases ch <;> rfl⟩

theorem encoderChange_inOrder {wait : Nat} {a b : Bool} {s t : State} (h : s.StationsInOrder)
    (e : exec (.encoderChange wait a b) s = .next t) : t.StationsInOrder := by
  have held : ((s.after wait).holdLevels a b).StationsInOrder := after_inOrder h wait
  obtain rfl | rfl | rfl | rfl := encoderChange_cases e
  · exact settle_stationsInOrder held
  · exact settle_stationsInOrder (forwardCount_inOrder held)
  · exact settle_stationsInOrder (reverseCount_inOrder held)
  · exact settle_stationsInOrder held

theorem exec_inOrder {c : Instr} {s t : State} (h : s.StationsInOrder) (e : exec c s = .next t) : t.StationsInOrder := by
  cases c with
  | hardwareReset straps a b =>
    cases e
    exact (stationsInOrder_of_idle rfl).mpr ⟨rfl, rfl, rfl, fun ch => by cases ch <;> rfl⟩
  | portAReceive wait bytes =>
    have waited := after_inOrder h wait
    simp only [exec, execPortAReceive] at e
    split at e <;> cases e
    · exact settle_stationsInOrder (receiveA_inOrder waited bytes)
    · exact settle_stationsInOrder waited
  | encoderChange wait a b => exact encoderChange_inOrder h e
  | deadlineExpiry station => cases e; exact awaitOwn_inOrder h (.deadline station)
  | flushTimerExpiry => cases e; exact awaitOwn_inOrder h .flush
  | drainComplete =>
    obtain rfl | ⟨ready, rfl⟩ := exec_drainComplete_cases e
    · exact h
    · exact settle_stationsInOrder (completeDrain_inOrder ready)
  | runStart =>
    obtain answered | ⟨idle, rest, c0, direction, id, c, checked, set⟩ := exec_runStart_cases e
    · exact stationsInOrder_of_changes h answered (by decide)
    · have atRest := atRest_of_changes ((stationsInOrder_of_idle idle).mp h) (takeRequest_changes s rest) (by decide)
      exact stationsInOrder_of_changes (setUpRun_inOrder atRest c0 direction id checked) set (by decide)
  | runStop =>
    obtain answered | ⟨running, rest, stopped⟩ := exec_runStop_cases e
    · exact stationsInOrder_of_changes h answered (by decide)
    · have inRun : s.run.state ≠ .idle := by obtain running | suspended := running <;> simp [*]
      obtain ⟨⟨⟨records, entered, capacity, batch, tally⟩, evaluated⟩, waiting⟩ := (stationsInOrder_of_run inRun).mp h
      refine stationsInOrder_of_changes ((stationsInOrder_of_run ?_).mpr ?_) stopped (by decide)
      · exact nofun
      · exact ⟨⟨⟨records, entered, capacity, batch, tally⟩, evaluated⟩, waiting⟩
  | softReset =>
    obtain answered | ⟨rest, reset⟩ := exec_softReset_cases e
    · exact stationsInOrder_of_changes h answered (by decide)
    · exact stationsInOrder_of_changes (softResetState_inOrder _) reset (by decide)
  | _ =>
    have event := exec_event e (by simp)
    obtain ⟨v, changes, rfl | rfl⟩ := event
    · exact stationsInOrder_of_changes (before_inOrder h _) changes (by simp [Region.event])
    · exact settle_stationsInOrder (stationsInOrder_of_changes (before_inOrder h _) changes (by simp [Region.event]))

/-- Settles O8: a station takes its place at the end of the pending table (`dueStation_inOrder`), enters the ring from its
front (`enterClosed_inOrder`) and, evaluated, joins the batch (`evaluateNext_holds`); a drain and the resets leave none. -/
theorem stepKeepsStationsInOrder : Obligations.StepKeepsStationsInOrder := by
  intro s t h e
  obtain own | ⟨c, rest, e⟩ := step_cases e
  · exact stationsInOrder_of_changes h own (by decide)
  · exact exec_inOrder (stationsInOrder_of_changes h (withPending_changes s rest) (by decide)) e

end Sys2Proof.Machine
end

section
/-! # An encoder error (R34) -/

namespace Sys2Proof.Machine

theorem decodePhase_of_error {heldA heldB a b : Bool} (hA : a ≠ heldA) (hB : b ≠ heldB) :
    decodePhase heldA heldB a b = .error := by
  revert heldA heldB a b
  decide

/-- Settles O32: the outcome of the levels is an error, and a wait leaves the held levels and the encoder errors. -/
theorem encoderErrorTakesNoCount : Obligations.EncoderErrorTakesNoCount := by
  intro wait a b s hA hB
  have outcome : decodePhase (s.after wait).dist.heldA (s.after wait).dist.heldB a b = .error := by
    rw [after_dist]
    exact decodePhase_of_error hA hB
  have errors : (s.after wait).dist.encoderErrors = s.dist.encoderErrors := by rw [after_dist]
  simp only [exec, execEncoderChange, outcome, State.withDist_dist, State.withDist_withDist, errors]

end Sys2Proof.Machine
end

section
/-! # A due station: fired or skipped (R43, R44, R58 to R61) -/

namespace Sys2Proof.Machine

/-! ### A station fired -/

section Fired

variable (s : State) (d : Due)

/-- The state after the rate check of a station that is fired (R50, R58). -/
def State.rateChecked : State :=
  if rateShortfall s.heads d.rate (answerSet s.heads d.number d.rate) then setEvent s .rateExceeded else s

theorem rateChecked_changes : s.ChangesOnly Region.noted (s.rateChecked d) := .ite (setEvent_changes _ _) (.refl _ _)

/-- The FIRE of a station, to the heads of its answer set (R58, Table 11-3). -/
def State.fireFrame : Frame :=
  s.frame broadcast kindFire (firePayload d.number ((answerSet s.heads d.number d.rate).map (·.addr)))

/-- After the rate check the entry is opened, the station counted and its FIRE issued. -/
theorem fireStation_eq : fireStation s d = issueFire (((s.rateChecked d).withTable (s.table ++ [s.pendingEntry d])).withDist
    { s.dist with fired := s.dist.fired + 1 }) (s.fireFrame d) := by
  have frame := rateChecked_changes s d
  have table : (s.rateChecked d).table = s.table := frame .table (by decide)
  have heads : (s.rateChecked d).heads = s.heads := frame .heads (by decide)
  have params : (s.rateChecked d).params = s.params := frame .params (by decide)
  have own : (s.rateChecked d).link.ownAddr = s.link.ownAddr := frame .address (by decide)
  have dist : (s.rateChecked d).dist = s.dist := dist_of_changes frame (by decide)
  have entry : (s.rateChecked d).pendingEntry d = s.pendingEntry d := by simp only [State.pendingEntry, heads, params]
  have fire : (s.rateChecked d).frame broadcast kindFire
      (firePayload d.number ((answerSet s.heads d.number d.rate).map (·.addr))) = s.fireFrame d := by
    simp only [State.frame, State.fireFrame, own]
  rw [← fire, ← entry, ← table, ← dist]
  rfl

/-- What the FIRE of a station changes is the FIRE queue. -/
theorem fireStation_changes : (((s.rateChecked d).withTable (s.table ++ [s.pendingEntry d])).withDist
    { s.dist with fired := s.dist.fired + 1 }).ChangesOnly [.fires] (fireStation s d) := by
  rw [fireStation_eq]
  exact issueFire_changes _ _

theorem fireStation_entry : (fireStation s d).table = s.table ++ [s.pendingEntry d] :=
  fireStation_changes s d .table (by decide)

theorem fireStation_dist : (fireStation s d).dist = { s.dist with fired := s.dist.fired + 1 } :=
  dist_of_changes (fireStation_changes s d) (by decide)

theorem fireStation_status : (fireStation s d).status = (s.rateChecked d).status :=
  fireStation_changes s d .status (by decide)

/-- The FIRE joins the FIRE queue of a port A that is UP (R11, R12). -/
theorem fireStation_fires : (fireStation s d).link.fires =
    if s.link.upA = true ∧ s.link.fires.length < 8 then s.link.fires ++ [s.fireFrame d] else s.link.fires := by
  have frame := rateChecked_changes s d
  have fires : (s.rateChecked d).link.fires = s.link.fires := frame .fires (by decide)
  obtain ⟨upA, -⟩ := frame .ports (by decide)
  rw [fireStation_eq, ← fires, ← upA]
  obtain ⟨up, room, e⟩ | ⟨discarded, e⟩ := issueFire_cases (((s.rateChecked d).withTable (s.table ++ [s.pendingEntry d])).withDist
    { s.dist with fired := s.dist.fired + 1 }) (s.fireFrame d)
  · rw [e, if_pos ⟨up, room⟩]
    rfl
  · rw [e, if_neg fun free => ?_]
    · rfl
    · obtain down | full := discarded
      · exact nomatch down.symm.trans free.1
      · exact Nat.not_le.mpr free.2 full

/-- A head of the set whose max rate is below the demand on it (R50). -/
theorem rateShortfall_iff {heads : List Head} {rate : Nat} {set : List Member} : rateShortfall heads rate set = true ↔
    ∃ h ∈ heads, (∃ m ∈ set, m.addr = h.cfg.addr) ∧ h.cfg.maxRate < demand heads rate h := by
  simp [rateShortfall]

theorem rateChecked_of_shortfall (short : rateShortfall s.heads d.rate (answerSet s.heads d.number d.rate) = true) :
    (s.rateChecked d).status.has .rateExceeded = true := by
  rw [State.rateChecked, if_pos short]
  exact setEvent_has s .rateExceeded

theorem rateChecked_of_no_shortfall (enough : ¬ rateShortfall s.heads d.rate (answerSet s.heads d.number d.rate) = true) :
    s.rateChecked d = s := if_neg enough

end Fired

/-! ### A station due -/

theorem takeDue_of_room {s : State} (room : s.table.length < 8) (d : Due) : takeDue s d = fireStation s d :=
  if_neg (Nat.not_le.mpr room)

theorem takeDue_of_full {s : State} (full : 8 ≤ s.table.length) (d : Due) : takeDue s d = skipStation s := if_pos full

/-- A due station is counted once, as fired or as skipped (R51). -/
theorem takeDue_counted (s : State) (d : Due) :
    (takeDue s d).dist.fired + (takeDue s d).dist.skipped = s.dist.fired + s.dist.skipped + 1 := by
  by_cases room : s.table.length < 8
  · rw [takeDue_of_room room, fireStation_dist]
    exact add_right_comm _ _ _
  · rw [takeDue_of_full (Nat.not_lt.mp room)]
    exact (BitVec.add_assoc _ _ _).symm

/-! ### Speed and rate (R46, R47, R49) -/

theorem speedOver_of_pos (spacing : Nat) {interval : Nat} (pos : 0 < interval) :
    speedOver spacing interval = min 65535 ((2 * (spacing * 360) + interval) / (2 * interval)) := by
  have rounded : (roundDiv (spacing * 360) interval).toNat = (2 * (spacing * 360) + interval) / (2 * interval) := by
    rw [roundDiv, if_pos (by positivity)]
    exact congrArg Int.toNat (by push_cast; rfl : _ = (((2 * (spacing * 360) + interval) / (2 * interval) : Nat) : Int))
  rw [speedOver, if_neg (by omega), rounded]

theorem speedOver_le (spacing interval : Nat) : speedOver spacing interval ≤ 65535 := by
  unfold speedOver
  split
  · exact Nat.le_refl _
  · exact Nat.min_le_left _ _

/-- The speed lies at most half a unit above the quotient S × 360 / Δt. -/
theorem speedOver_nearest_below (spacing : Nat) {interval : Nat} (pos : 0 < interval) :
    2 * speedOver spacing interval * interval ≤ 2 * (spacing * 360) + interval := by
  calc 2 * speedOver spacing interval * interval
      = speedOver spacing interval * (2 * interval) := by ring
    _ ≤ (2 * (spacing * 360) + interval) / (2 * interval) * (2 * interval) := by
        rw [speedOver_of_pos spacing pos]
        exact Nat.mul_le_mul_right _ (Nat.min_le_right _ _)
    _ ≤ 2 * (spacing * 360) + interval := Nat.div_mul_le_self _ _

/-- Where it does not saturate, the speed lies less than half a unit below the quotient S × 360 / Δt. -/
theorem speedOver_nearest_above {spacing interval : Nat} (below : speedOver spacing interval < 65535) :
    2 * (spacing * 360) + interval < 2 * (speedOver spacing interval + 1) * interval := by
  have pos : 0 < interval := by
    by_contra zero
    simp [speedOver, Nat.eq_zero_of_not_pos zero] at below
  rw [speedOver_of_pos spacing pos] at below ⊢
  rw [Nat.min_eq_right (by omega)]
  calc 2 * (spacing * 360) + interval
      < (2 * (spacing * 360) + interval) / (2 * interval) * (2 * interval) + 2 * interval :=
        Nat.lt_div_mul_add (by omega)
    _ = 2 * ((2 * (spacing * 360) + interval) / (2 * interval) + 1) * interval := by ring

/-- The speed of a due station is known with a valid stamp less than 2^31 µs before it (R47). -/
def State.SpeedKnown (s : State) : Prop := s.dist.stampValid = true ∧ (s.time - s.dist.prevStamp).toNat < 2 ^ 31

theorem dueRecord_of_unknown {s : State} (unknown : ¬ s.SpeedKnown) :
    s.dueRecord.speed = 0 ∧ s.dueRecord.speedUnknown = true ∧ s.dueRecord.rate = 0 := by
  have clear : (s.dist.stampValid && decide ((s.time - s.dist.prevStamp).toNat < 2 ^ 31)) = false := by
    simpa [State.SpeedKnown] using unknown
  simp only [State.dueRecord, clear, requiredRate, Bool.false_eq_true, if_false, Bool.not_false, Nat.zero_mul, Nat.zero_div,
    and_self]

theorem dueRecord_of_known {s : State} (known : s.SpeedKnown) : s.dueRecord.speedUnknown = false
    ∧ s.dueRecord.speed = speedOver s.params.spacing (s.time - s.dist.prevStamp).toNat := by
  obtain ⟨valid, within⟩ := known
  simp only [State.dueRecord, valid, within, decide_true, Bool.and_self, if_true, Bool.not_true, and_self]

/-- The speed saturates at 65535 (R46). -/
theorem dueRecord_speed_le (s : State) : s.dueRecord.speed ≤ 65535 := by
  by_cases known : s.SpeedKnown
  · rw [(dueRecord_of_known known).2]
    exact speedOver_le _ _
  · rw [(dueRecord_of_unknown known).1]
    exact Nat.zero_le _

end Sys2Proof.Machine
end

section
/-! # The due test (R41, R42): every station reached, each once -/

namespace Sys2Proof.Machine

theorem dueStation_counted (s : State) :
    (dueStation s).dist.fired + (dueStation s).dist.skipped = s.dist.fired + s.dist.skipped + 1 :=
  takeDue_counted s s.dueRecord

/-- The stations one count makes due are as many as N advances. -/
theorem dueStations_counted (s : State) (highWater : Int) (fuel : Nat) :
    let r := dueStations s highWater fuel
    r.dist.fired + r.dist.skipped + BitVec.ofNat 32 s.dist.next
      = s.dist.fired + s.dist.skipped + BitVec.ofNat 32 r.dist.next := by
  dsimp only
  induction fuel generalizing s with
  | zero => rfl
  | succ fuel ih =>
    unfold dueStations
    split
    · have rest := ih (dueStation s)
      rw [dueStation_counted, dueStation_next, BitVec.ofNat_add, ← BitVec.add_assoc, add_right_comm _ (1 : Word)] at rest
      exact (BitVec.add_left_inj _).mp rest
    · rfl

/-- Every station made due has been reached. -/
theorem dueStations_all_reached (s : State) (highWater : Int) (fuel : Nat) {n : Nat} (from' : s.dist.next ≤ n)
    (due : n < (dueStations s highWater fuel).dist.next) : (n * s.params.spacing : Int) ≤ s.runDistance := by
  obtain same | reached := dueStations_reached s highWater fuel
  · omega
  · refine le_trans (Int.mul_le_mul_of_nonneg_right ?_ (Int.natCast_nonneg _)) reached
    omega

/-- Not past the high-water mark no station is due. -/
theorem dueStations_of_behind {s : State} {highWater : Int} (behind : s.runDistance ≤ highWater) (fuel : Nat) :
    dueStations s highWater fuel = s := by
  cases fuel with
  | zero => rfl
  | succ fuel => exact if_neg fun due => absurd due.2 (Int.not_lt.mpr behind)

/-- The state a forward count in RUNNING, or one that resumes a run, is tested for due stations in. -/
def State.resumed (s : State) : State := s.advanced.withRunState .running

/-- The state the stations a forward count makes due leave. -/
def State.counted (s : State) : State := dueStations s.resumed s.run.highWater s.resumed.dueBound

/-- The marks and the high-water mark do not touch what the due test leaves of the distance unit and the table. -/
theorem forwardCount_counted {s : State} (counts : s.Counts) :
    (forwardCount s).dist = s.counted.dist ∧ (forwardCount s).table = s.counted.table := by
  rw [forwardCount_of_counts counts]
  exact ⟨rfl, rfl⟩

/-- Settles O35: past the high-water mark the stations made due are those of `dueStations_all_reached`, as many as N advances
(`dueStations_counted`), and the next lies ahead (`dueStations_ahead`); elsewhere the count makes none due. -/
theorem dueTestHandsOnEachStationReached : Obligations.DueTestHandsOnEachStationReached := by
  intro wait a b s t spaced levels e
  cases (exec_encoderChange_of_forward levels).symm.trans e
  clear e
  dsimp only
  obtain ⟨w, hw⟩ : ∃ w, w = (s.after wait).holdLevels a b := ⟨_, rfl⟩
  obtain ⟨valid, waited⟩ := after_dist_stampValid s wait
  have run : w.run = (s.after wait).run := by rw [hw]; rfl
  have table : w.table = (s.after wait).table := by rw [hw]; rfl
  have params : w.params = s.params := by rw [hw]; exact after_params s wait
  have next : w.dist.next = s.dist.next := by simp only [hw, State.holdLevels, State.withDist_dist, waited]
  have fired : w.dist.fired = s.dist.fired := by simp only [hw, State.holdLevels, State.withDist_dist, waited]
  have skipped : w.dist.skipped = s.dist.skipped := by simp only [hw, State.holdLevels, State.withDist_dist, waited]
  have settledTable : (settle (forwardCount w)).table = (forwardCount w).table := settle_changes _ .table (by decide)
  rw [← hw, runDistance_settle, forwardCount_runDistance, settle_dist, settledTable, ← run, ← table, ← params, ← next, ← fired,
    ← skipped]
  refine ⟨fun inRun past => ?_, fun still => ?_⟩
  · have counts : w.Counts := inRun.imp id fun suspended => ⟨suspended, past⟩
    rw [(forwardCount_counted counts).1]
    have counted : w.counted.dist.fired + w.counted.dist.skipped + BitVec.ofNat 32 w.dist.next
        = w.dist.fired + w.dist.skipped + BitVec.ofNat 32 w.counted.dist.next :=
      dueStations_counted w.resumed w.run.highWater w.resumed.dueBound
    refine ⟨next_le_dueStations w.resumed _ _, fun n from' due => dueStations_all_reached w.resumed _ _ from' due,
      dueStations_ahead w.resumed (params ▸ spaced) past _ (Nat.le_refl _), ?_⟩
    simpa [Nat.ModEq, BitVec.toNat_add] using congrArg BitVec.toNat counted
  · by_cases counts : w.Counts
    · have behind : w.advanced.runDistance ≤ w.run.highWater := by
        have inRun : w.run.state = .running ∨ w.run.state = .suspended := counts.imp id And.left
        obtain idle | draining | behind := still
        · simp [idle] at inRun
        · simp [draining] at inRun
        · exact behind
      have none' : w.counted = w.resumed := dueStations_of_behind (s := w.resumed) behind _
      rw [(forwardCount_counted counts).1, (forwardCount_counted counts).2, none']
      exact ⟨rfl, rfl, rfl, rfl⟩
    · rw [forwardCount_of_not_counts counts]
      exact ⟨rfl, rfl, rfl, rfl⟩

end Sys2Proof.Machine
end

section
/-! # The demand on a head (R50), and what a due station does (R43 to R50, R60) -/

namespace Sys2Proof.Machine

/-! ### A head's partner (R53, R54) -/

/-- The heads of one rail are of different phases (R54). -/
theorem nodup_of_railOk {phases : List Phase} (ok : railOk phases = true) : phases.Nodup := by
  match phases with
  | [] => exact List.nodup_nil
  | [p] => exact List.nodup_singleton p
  | [p, q] => cases p <;> cases q <;> simp_all [railOk]
  | _ :: _ :: _ :: _ => cases ok

theorem phasesOf_heads (heads : List Head) (role : Role) :
    phasesOf role (heads.map (·.cfg)) = (heads.filter (·.cfg.role == role)).map (·.cfg.phase) := by
  simp [phasesOf, List.filter_map, Function.comp_def]

/-- In a sound roster a profile head is the only one of its role and phase. -/
theorem profile_phase_unique {heads : List Head} (ok : compositionOk (heads.map (·.cfg)) = true) {g h : Head} (hg : g ∈ heads)
    (hh : h ∈ heads) (rail : h.cfg.role.rail.isSome = true) (role : g.cfg.role = h.cfg.role)
    (phase : g.cfg.phase = h.cfg.phase) : g = h := by
  have rails : railOk (phasesOf h.cfg.role (heads.map (·.cfg))) = true := by
    simp only [compositionOk, Bool.and_eq_true] at ok
    obtain ⟨⟨⟨left, right⟩, -⟩, -⟩ := ok
    cases hr : h.cfg.role with
    | leftProfile => exact left
    | rightProfile => exact right
    | bodyMotion | tagReader => simp [hr, Role.rail] at rail
  have distinct := nodup_of_railOk rails
  rw [phasesOf_heads] at distinct
  exact List.inj_on_of_nodup_map distinct (List.mem_filter.mpr ⟨hg, by simp [role]⟩)
    (List.mem_filter.mpr ⟨hh, by simp⟩) phase

/-- A head of one phase in a sound roster, no TAG_READER, looks at a rail: a body head is of phase BOTH (R54). -/
theorem rail_of_phase {heads : List Head} (ok : compositionOk (heads.map (·.cfg)) = true) {h : Head} (hh : h ∈ heads)
    (notTag : h.cfg.role ≠ .tagReader) (phase : h.cfg.phase ≠ .both) : h.cfg.role.rail.isSome = true := by
  cases role : h.cfg.role with
  | leftProfile | rightProfile => rfl
  | tagReader => exact (notTag role).elim
  | bodyMotion =>
    have mem : h.cfg.phase ∈ phasesOf .bodyMotion (heads.map (·.cfg)) := by
      rw [phasesOf_heads]
      exact List.mem_map.mpr ⟨h, List.mem_filter.mpr ⟨hh, by simp [role]⟩, rfl⟩
    simp only [compositionOk, Bool.and_eq_true] at ok
    obtain ⟨⟨-, body⟩, -⟩ := ok
    split at body
    · rename_i empty
      rw [empty] at mem
      cases mem
    · rename_i p single
      rw [single, List.mem_singleton] at mem
      exact (phase (mem.trans (by simpa using body))).elim
    · cases body

theorem Phase.opposite_eq_some {p q : Phase} :
    p.opposite = some q ↔ (p = .even ∧ q = .odd) ∨ (p = .odd ∧ q = .even) := by
  cases p <;> cases q <;> simp [Phase.opposite]

/-- A head's partner is DEGRADED exactly when the head of its role and the opposite phase is. -/
theorem partnerDegraded_iff {heads : List Head} (ok : compositionOk (heads.map (·.cfg)) = true) {h : Head}
    (rail : h.cfg.role.rail.isSome = true) : partnerDegraded heads h = true ↔
      ∃ g ∈ heads, g.cfg.role = h.cfg.role ∧ g.active = false ∧ h.cfg.phase.opposite = some g.cfg.phase := by
  obtain ⟨side, rail'⟩ := Option.isSome_iff_exists.mp rail
  cases opposite : h.cfg.phase.opposite with
  | none => simp [partnerDegraded, partner, opposite]
  | some phase =>
    have search : partner heads h = heads.find? fun g => g.cfg.role == h.cfg.role && g.cfg.phase == phase := by
      simp [partner, rail', opposite]
    rw [partnerDegraded, search]
    constructor
    · intro degraded
      split at degraded
      · rename_i g found
        have is := List.find?_some found
        simp only [Bool.and_eq_true, beq_iff_eq] at is
        exact ⟨g, List.mem_of_find?_eq_some found, is.1, by simpa using degraded, by rw [is.2]⟩
      · cases degraded
    · rintro ⟨g, hg, role, degraded, ofPhase⟩
      have ofPhase := Option.some.inj ofPhase
      cases found : heads.find? fun g => g.cfg.role == h.cfg.role && g.cfg.phase == phase with
      | none => simpa [role, ofPhase] using List.find?_eq_none.mp found g hg
      | some f =>
        have is := List.find?_some found
        simp only [Bool.and_eq_true, beq_iff_eq] at is
        have same : f = g := profile_phase_unique ok (List.mem_of_find?_eq_some found) hg (role ▸ rail)
          (is.1.trans role.symm) (is.2.trans ofPhase)
        simp [same, degraded]

/-! ### The demand (R50) -/

theorem demand_of_both {heads : List Head} {rate : Nat} {h : Head} (phase : h.cfg.phase = .both) :
    demand heads rate h = rate := if_pos (by simp [phase])

theorem demand_of_alone {heads : List Head} {rate : Nat} {h : Head} (active : h.active = true)
    (degraded : partnerDegraded heads h = true) : demand heads rate h = rate := if_pos (by simp [active, degraded])

theorem demand_of_shared {heads : List Head} {rate : Nat} {h : Head} (phase : h.cfg.phase ≠ .both)
    (shared : ¬ (h.active = true ∧ partnerDegraded heads h = true)) : demand heads rate h = (rate + 1) / 2 :=
  if_neg (by simpa [phase] using shared)

/-- Settles O36: the demand by the partner of `partnerDegraded_iff`, the two cases of `takeDue`, and the speed and rate of
`dueRecord_of_known` and `dueRecord_of_unknown`. -/
theorem dueStationIsFiredOrSkipped : Obligations.DueStationIsFiredOrSkipped := by
  refine ⟨fun heads h rate notTag hh ok => ⟨demand_of_both, fun phase alone => ?_, fun phase notAlone => ?_⟩,
    fun s spaced => ⟨dueStation_next s, rfl, rfl, rfl, rfl, fun room => ?_, fun old p table full => ?_, fun unknown => ?_,
      fun valid within => ?_⟩⟩
  · obtain ⟨active, g, hg, role, degraded, opposite⟩ := alone
    exact demand_of_alone active ((partnerDegraded_iff ok (rail_of_phase ok hh notTag phase)).mpr
      ⟨g, hg, role, degraded, Phase.opposite_eq_some.mpr opposite⟩)
  · have shared : ¬ (h.active = true ∧ partnerDegraded heads h = true) := fun ⟨active, degraded⟩ => by
      obtain ⟨g, hg, role, degraded, opposite⟩ :=
        (partnerDegraded_iff ok (rail_of_phase ok hh notTag phase)).mp degraded
      exact notAlone ⟨active, g, hg, role, degraded, Phase.opposite_eq_some.mp opposite⟩
    rw [demand_of_shared phase shared]
    omega
  · have taken := takeDue_of_room room s.dueRecord
    have fires : (dueStation s).link.fires = _ := (congrArg (·.link.fires) taken).trans (fireStation_fires s s.dueRecord)
    have status : (dueStation s).status = _ := (congrArg State.status taken).trans (fireStation_status s s.dueRecord)
    have dist : (takeDue s s.dueRecord).dist = _ := (congrArg State.dist taken).trans (fireStation_dist s s.dueRecord)
    have fired : (dueStation s).dist.fired = s.dist.fired + 1 := (congrArg Distance.fired dist :)
    have skipped : (dueStation s).dist.skipped = s.dist.skipped := (congrArg Distance.skipped dist :)
    refine ⟨(congrArg State.table taken).trans (fireStation_entry s s.dueRecord), fired, skipped, fun up free => ?_, fun down => ?_, fun short => ?_, fun enough => ?_⟩
    · rw [fires, if_pos ⟨up, free⟩, State.fireFrame, firePayload, List.length_map, List.append_assoc]
      rfl
    · rw [fires, if_neg (by simp [down])]
    · rw [status]
      exact rateChecked_of_shortfall s s.dueRecord (rateShortfall_iff.mpr short)
    · rw [status, rateChecked_of_no_shortfall s s.dueRecord fun short => ?_]
      obtain ⟨h, hh, inSet, below⟩ := rateShortfall_iff.mp short
      exact absurd (enough h hh inSet) (Nat.not_le.mpr below)
  · have taken := takeDue_of_full full s.dueRecord
    have skipped : skipNewest s.table = old ++ [{ p with skips := p.skips + 1 }] := by rw [table, skipNewest_append]
    have status : (dueStation s).status = s.status := (congrArg State.status taken :)
    have fires : (dueStation s).link.fires = s.link.fires := (congrArg (·.link.fires) taken :)
    exact ⟨(congrArg State.table taken).trans skipped, congrArg (·.dist.skipped) taken, congrArg (·.dist.fired) taken,
      fires, status⟩
  · exact dueRecord_of_unknown fun ⟨valid, within⟩ => unknown.elim (fun clear => nomatch clear.symm.trans valid)
      fun long => absurd within (Nat.not_lt.mpr long)
  · obtain ⟨known, speed⟩ := dueRecord_of_known ⟨valid, within⟩
    refine ⟨known, dueRecord_speed_le s, fun zero => ?_, fun pos => ?_, ?_, Nat.div_mul_le_self _ _, ?_⟩
    · rw [speed, zero]
      rfl
    · rw [speed]
      exact speedOver_nearest_below _ pos
    · rw [speed]
      exact speedOver_nearest_above
    · have rate := Nat.lt_div_mul_add (a := s.dueRecord.speed * 1000) (b := 360 * s.params.spacingMm) (by omega)
      rw [Nat.add_one_mul]
      exact rate

end Sys2Proof.Machine
end

section
/-! # Values in range: the parameters, and the timers, counts and severities that depend on them (R46, R55, R131, R151, R157)

`State.ValuesInRange` read unit by unit, and one lemma for each operation that acts on a unit it reads: it leaves a state in
range where it finds one. -/

namespace Sys2Proof.Machine

/-! ### The ranges of each unit -/

/-- A head's counts of misses and of recovery (R55). -/
structure Head.InRange (h : Head) : Prop where
  misses : h.misses ≤ 255
  recovery : h.recovery ≤ 255

/-- An open exception's severity and void count (R131). -/
structure OpenException.InRange (x : OpenException) : Prop where
  low : 1 ≤ x.severity
  high : x.severity ≤ 3
  voids : x.voidCount ≤ 64

/-- Every unit within its ranges. -/
structure State.InRange (s : State) : Prop where
  params : ∀ id, ParamId.accepts id (s.params.get id) = true
  pulseL : ∀ n, s.mark.pulseL = some n → n ≤ 500000
  pulseR : ∀ n, s.mark.pulseR = some n → n ≤ 500000
  flush : ∀ n, s.out.flush = some n → n ≤ 1000000
  heads : ∀ h ∈ s.heads, h.InRange
  lastSpeed : s.dist.lastSpeed ≤ 65535
  opened : ∀ ch x, s.det.opened.get ch = some x → x.InRange

/-- The ranges of the statements are those of the units. -/
theorem valuesInRange_iff_inRange (s : State) : s.ValuesInRange ↔ s.InRange := by
  constructor
  · rintro ⟨params, pulseL, pulseR, flush, heads, lastSpeed, opened⟩
    exact ⟨params, pulseL, pulseR, flush, fun h mem => let ⟨misses, recovery⟩ := heads h mem; ⟨misses, recovery⟩, lastSpeed,
      fun ch x isOpen => let ⟨low, high, voids⟩ := opened ch x isOpen; ⟨low, high, voids⟩⟩
  · rintro ⟨params, pulseL, pulseR, flush, heads, lastSpeed, opened⟩
    exact ⟨params, pulseL, pulseR, flush, fun h mem => ⟨(heads h mem).misses, (heads h mem).recovery⟩, lastSpeed,
      fun ch x isOpen => let f := opened ch x isOpen; ⟨f.low, f.high, f.voids⟩⟩

/-- An accepted value lies between the ends of its range (R172). -/
theorem range_of_accepts {id : ParamId} {v : Int} (accepted : id.accepts v = true) : id.range.1 ≤ v ∧ v ≤ id.range.2 :=
  of_decide_eq_true (Bool.and_eq_true_iff.mp accepted).1

theorem countDown_le {limit : Nat} {timer : Option Nat} (h : ∀ n, timer = some n → n ≤ limit) (k : Nat) :
    ∀ n, countDown k timer = some n → n ≤ limit := by
  intro n left
  obtain ⟨m, running, rfl⟩ := Option.map_eq_some_iff.mp left
  exact (Nat.sub_le m k).trans (h m running)

/-! ### Exceptions -/

theorem severity_low (e : Threshold) (v : Int) : 1 ≤ e.severity v := by
  unfold Threshold.severity
  split
  · decide
  · split <;> decide

theorem severity_high (e : Threshold) (v : Int) : e.severity v ≤ 3 := by
  unfold Threshold.severity
  split
  · decide
  · split <;> decide

theorem openException_inRange (s : State) (e : EvaluatedStation) (t : Threshold) (v : Int) :
    (openException s e t v).InRange := ⟨severity_low t v, severity_high t v, Nat.zero_le _⟩

namespace OpenException.InRange

variable {x : OpenException}

theorem extend (h : x.InRange) (e : EvaluatedStation) : (x.extend e).InRange := ⟨h.low, h.high, Nat.zero_le _⟩

theorem exceed (h : x.InRange) (e : EvaluatedStation) (t : Threshold) (v : Int) : (x.exceed e t v).InRange :=
  ⟨h.low.trans (Nat.le_max_left _ _), Nat.max_le.mpr ⟨h.high, severity_high t v⟩, Nat.zero_le _⟩

end OpenException.InRange

/-- A head at the start of a run and after SOFT_RESET has its counts at 0 (R55). -/
theorem fresh_inRange (l : List Head) : ∀ x ∈ l.map Head.fresh, x.InRange := by
  intro x mem
  obtain ⟨y, -, rfl⟩ := List.mem_map.mp mem
  exact ⟨Nat.zero_le _, Nat.zero_le _⟩

/-- What the ranges are read from. -/
abbrev Region.ranged : List Region := [.params, .pulses, .flushTimer, .heads, .lastSpeed, .exceptions]

namespace State.InRange

variable {s t : State}

/-! ### What a frame keeps -/

theorem of_changes (h : s.InRange) {l : List Region} (frame : s.ChangesOnly l t) (hl : ∀ r ∈ Region.ranged, r ∉ l) :
    t.InRange := by
  have params : t.params = s.params := frame .params (hl _ (by decide))
  obtain ⟨pulseL, pulseR⟩ := frame .pulses (hl _ (by decide))
  have flush : t.out.flush = s.out.flush := frame .flushTimer (hl _ (by decide))
  have heads : t.heads = s.heads := frame .heads (hl _ (by decide))
  obtain ⟨lastSpeed, -⟩ := frame .lastSpeed (hl _ (by decide))
  obtain ⟨opened, -⟩ := frame .exceptions (hl _ (by decide))
  exact ⟨params ▸ h.params, pulseL ▸ h.pulseL, pulseR ▸ h.pulseR, flush ▸ h.flush, heads ▸ h.heads, lastSpeed ▸ h.lastSpeed,
    opened ▸ h.opened⟩

theorem settle (h : s.InRange) : (settle s).InRange := h.of_changes (settle_changes s) (by decide)
theorem offerNote (h : s.InRange) (n : Note) : (offerNote s n).InRange := h.of_changes (offerNote_changes s n) (by decide)
theorem setEvent (h : s.InRange) (b : StickyBit) : (setEvent s b).InRange := h.of_changes (setEvent_changes s b) (by decide)
theorem withTallies (h : s.InRange) (x : Tallies) : (s.withTallies x).InRange := { h with }
theorem withRing (h : s.InRange) (x : Ring) : (s.withRing x).InRange := { h with }
theorem withLoc (h : s.InRange) (x : Location) : (s.withLoc x).InRange := { h with }
theorem respond (h : s.InRange) (r : Frame) (code : ResultCode) (fields : List Byte) : (respond s r code fields).InRange :=
  { h with }

/-! ### The parameters -/

theorem voidClose_le (h : s.InRange) : s.params.voidClose ≤ 64 := Int.ofNat_le.mp (range_of_accepts (h.params .voidClose)).2
theorem markPulse_le (h : s.InRange) : s.params.markPulse ≤ 500 := Int.ofNat_le.mp (range_of_accepts (h.params .markPulse)).2
theorem flushTime_le (h : s.InRange) : s.params.flushTime ≤ 1000 := Int.ofNat_le.mp (range_of_accepts (h.params .flushTime)).2
theorem recoverCount_le (h : s.InRange) : s.params.recoverCount ≤ 255 :=
  Int.ofNat_le.mp (range_of_accepts (h.params .recoverCount)).2

/-- A parameter set to an accepted value (R172). -/
theorem setParams (h : s.InRange) {id : ParamId} {v : Int} (accepted : id.accepts v = true) :
    (s.withParams (s.params.set id v)).InRange := by
  refine { h with params := fun id' => ?_ }
  show id'.accepts ((s.params.set id v).get id') = true
  by_cases same : id' = id
  · rw [same, s.params.get_set_self accepted]
    exact accepted
  · rw [s.params.get_set_other v same]
    exact h.params id'

/-! ### The exception detector -/

theorem withOpened (h : s.InRange) (ch : Channel) {x : Option OpenException} (hx : ∀ y, x = some y → y.InRange) :
    (s.withOpened ch x).InRange := by
  refine { h with opened := fun ch' y isOpen => ?_ }
  have isOpen : (s.det.opened.set ch x).get ch' = some y := isOpen
  by_cases same : ch' = ch
  · rw [same, PerChannel.get_set_self] at isOpen
    exact hx y isOpen
  · rw [PerChannel.get_set_other _ _ same] at isOpen
    exact h.opened ch' y isOpen

theorem openedAt (h : s.InRange) (ch : Channel) {x : OpenException} (hx : x.InRange) : (s.withOpened ch (some x)).InRange :=
  h.withOpened ch fun _ same => Option.some.inj same ▸ hx

theorem closeException (h : s.InRange) (ch : Channel) (x : OpenException) (cause : CloseCause) (last : Place) :
    (closeException s ch x cause last).InRange := by
  have closed : (s.withOpened ch none).InRange := h.withOpened ch nofun
  unfold Machine.closeException
  dsimp only
  split
  · exact closed.of_changes (offerException_changes _ ch x cause last) (by decide)
  · exact closed.withTallies _

theorem closeOpened (h : s.InRange) (cause : CloseCause) (ch : Channel) : (closeOpened s cause ch).InRange := by
  unfold Machine.closeOpened
  split
  · exact h.closeException _ _ _ _
  · exact h

theorem closeAll (h : s.InRange) (cause : CloseCause) : (closeAll s cause).InRange :=
  List.foldlRecOn _ _ h fun _ hs ch _ => hs.closeOpened cause ch

/-- A void count that does not close the exception stays below VOID_CLOSE (R134). -/
theorem judgeChannel (h : s.InRange) (e : EvaluatedStation) (ch : Channel) : (judgeChannel e s ch).InRange := by
  unfold Machine.judgeChannel
  split
  · exact h.closeOpened _ ch
  · exact h
  · split
    · exact h.openedAt ch (openException_inRange s e _ _)
    · exact h
  · rename_i t x _ isOpen _
    have range := h.opened ch x isOpen
    dsimp only
    split
    · exact h.closeException _ _ _ _
    · rename_i stays
      have voids : (x.extendVoid e).voidCount ≤ 64 := (Nat.not_le.mp stays).le.trans h.voidClose_le
      exact h.openedAt ch ⟨range.low, range.high, voids⟩
  · rename_i t x v _ isOpen _
    have range := h.opened ch x isOpen
    split
    · exact h.openedAt ch (range.exceed e _ _)
    · split
      · exact h.closeException _ _ _ _
      · exact h.openedAt ch (range.extend e)

theorem triggerMark (h : s.InRange) (e : EvaluatedStation) (ch : Channel) : (triggerMark e s ch).InRange := by
  unfold Machine.triggerMark
  split
  · exact h
  · rename_i x isOpen
    have range := h.opened ch x isOpen
    split
    · exact (h.openedAt ch (x := { x with markAsked := true }) ⟨range.low, range.high, range.voids⟩).of_changes
        (requestMark_changes _ _) (by decide)
    · exact h

theorem judgeStation (h : s.InRange) (e : EvaluatedStation) : (judgeStation s e).InRange := by
  have stepped : (match s.det.previous with
      | some q => if q.epoch ≠ e.epoch then Machine.closeAll s .locationStep else s
      | none => s).InRange := by
    split
    · split
      · exact h.closeAll _
      · exact h
    · exact h
  have judged := List.foldlRecOn Channel.all (Machine.judgeChannel e) stepped fun _ hs ch _ => hs.judgeChannel e ch
  have marked := List.foldlRecOn Channel.all (Machine.triggerMark e) judged fun _ hs ch _ => hs.triggerMark e ch
  exact { marked with }

/-! ### The output composer -/

theorem withFlush (h : s.InRange) {x : Option Nat} (hx : ∀ n, x = some n → n ≤ 1000000) :
    (s.withOut { s.out with flush := x }).InRange := { h with flush := hx }

theorem startFlushTimer (h : s.InRange) : (startFlushTimer s).InRange := by
  unfold Machine.startFlushTimer
  split
  · refine h.withFlush fun n started => ?_
    have started := Option.some.inj started
    have := h.flushTime_le
    omega
  · exact h

theorem stopIdleTimer (h : s.InRange) : (stopIdleTimer s).InRange := by
  unfold Machine.stopIdleTimer
  split
  · exact h.withFlush nofun
  · exact h

theorem withBatch (h : s.InRange) (b : Option Batch) : (s.withOut { s.out with batch := b }).InRange := { h with }

theorem flushBatch (h : s.InRange) : (flushBatch s).InRange := by
  unfold Machine.flushBatch
  split
  · exact h
  · exact ((h.withBatch none).of_changes (offerBatch_changes _ _) (by decide)).stopIdleTimer

theorem openBatch (h : s.InRange) (e : EvaluatedStation) : (openBatch s e).InRange := (h.withBatch _).startFlushTimer

theorem addStation (h : s.InRange) (e : EvaluatedStation) : (addStation s e).InRange := by
  unfold Machine.addStation
  split
  · exact h.openBatch e
  · split
    · exact h.withBatch _
    · exact h.flushBatch.openBatch e

theorem composeStation (h : s.InRange) (e : EvaluatedStation) : (composeStation s e).InRange := by
  have first : (match s.out.batch with
      | some b => if b.epoch ≠ e.epoch then Machine.flushBatch s else s
      | none => s).InRange := by
    split
    · split
      · exact h.flushBatch
      · exact h
    · exact h
  have added := first.addStation e
  unfold Machine.composeStation
  dsimp only
  split
  · split
    · exact added.flushBatch
    · exact added
  · exact added

/-! ### Evaluation and ring entry -/

/-- A roster swapped in starts with its counts at 0 (R54). -/
theorem swapTable (h : s.InRange) (table : Table) (entries : List (List Byte)) : (swapTable s table entries).InRange := by
  cases table with
  | roster =>
    refine { h with heads := fun x mem => ?_ }
    obtain ⟨e, -, rfl⟩ := List.mem_map.mp mem
    exact ⟨Nat.zero_le _, Nat.zero_le _⟩
  | markerTags => exact { h with }
  | route => exact { h with }
  | thresholds => exact { h with }

theorem completeApply (h : s.InRange) : (completeApply s).InRange := by
  unfold Machine.completeApply
  split
  · exact ((h.swapTable _ _).respond _ _ _).stopIdleTimer
  · exact h

theorem handOn (h : s.InRange) (e : EvaluatedStation) : (handOn s e).InRange := by
  have tallied : (s.tallied e).InRange := by
    unfold State.tallied
    split
    · exact h.withTallies _
    · exact h
  exact (tallied.judgeStation e).composeStation e

theorem evaluateNext (h : s.InRange) : (evaluateNext s).InRange := by
  cases found : s.ring.stations.find? (·.number == s.ring.next) with
  | none =>
    rw [evaluateNext_of_none found]
    exact h.withRing _
  | some x =>
    rw [evaluateNext_of_record found]
    exact (h.completeApply.handOn _).withRing _

theorem evaluateRest (h : s.InRange) (count : Nat) : (evaluateRest s count).InRange := by
  induction count generalizing s with
  | zero => exact h
  | succ n ih => exact ih h.evaluateNext

theorem enterRing (h : s.InRange) (e : Entering) : (enterRing s e).InRange := by
  have entered : (s.entered e).InRange := { h with }
  by_cases last : e.number = s.ring.next + s.ring.long
  · rw [enterRing_of_last last]
    exact entered.evaluateNext
  · rw [enterRing_of_other last]
    exact entered

theorem enterSkipped (h : s.InRange) (number count : Nat) : (enterSkipped s number count).InRange := by
  induction count generalizing s number with
  | zero => exact h
  | succ n ih => exact ih (h.enterRing _) _

theorem withTable (h : s.InRange) (x : List PendingStation) : (s.withTable x).InRange := { h with }

theorem enterClosed (h : s.InRange) (fuel : Nat) : (enterClosed s fuel).InRange := by
  induction fuel generalizing s with
  | zero => exact h
  | succ n ih =>
    unfold Machine.enterClosed
    split
    · exact h
    · split
      · exact h
      · exact ih (((h.withTable _).enterRing _).enterSkipped _ _)

/-! ### Heads -/

/-- A change of one head's runtime record. -/
theorem updateHead (h : s.InRange) (a : Byte) {f : Head → Head}
    (hf : ∀ x ∈ s.heads, x.cfg.addr = a → (f x).InRange) : (s.updateHead a f).InRange := by
  refine { h with heads := fun y mem => ?_ }
  obtain ⟨x, listed, rfl⟩ := List.mem_map.mp mem
  split
  · rename_i addr
    exact hf x listed addr
  · exact h.heads x listed

/-- A change that keeps the two counts, as every counter's does. -/
theorem countHead (h : s.InRange) (a : Byte) {f : Head → Head} (misses : ∀ x, (f x).misses = x.misses)
    (recovery : ∀ x, (f x).recovery = x.recovery) : (s.updateHead a f).InRange :=
  h.updateHead a fun x mem _ => ⟨(misses x).trans_le (h.heads x mem).misses, (recovery x).trans_le (h.heads x mem).recovery⟩

/-- The misses saturate at 255 (R70). -/
theorem judgeHead (h : s.InRange) (n : Nat) (m : Member) : (judgeHead n s m).InRange := by
  unfold Machine.judgeHead
  split
  · exact h
  · rename_i x _
    split
    · exact h.updateHead _ fun y mem _ => ⟨Nat.zero_le _, (h.heads y mem).recovery⟩
    · have saturates := Nat.min_le_left 255 (x.misses + 1)
      dsimp only
      generalize min 255 (x.misses + 1) = misses at saturates
      have missed := h.updateHead m.addr (f := fun y => { y with missed := y.missed + 1, misses := misses })
        fun y mem _ => ⟨saturates, (h.heads y mem).recovery⟩
      generalize s.updateHead m.addr (fun y => { y with missed := y.missed + 1, misses := misses }) = u at missed
      split
      · exact missed.updateHead _ fun y mem _ => ⟨(missed.heads y mem).misses, Nat.zero_le _⟩
      · split
        · have degraded := missed.updateHead m.addr (f := fun y => { y with active := false, recovery := 0 })
            fun y mem _ => ⟨(missed.heads y mem).misses, Nat.zero_le _⟩
          exact (degraded.offerNote _).setEvent _
        · exact missed

theorem closeStation (h : s.InRange) (p : PendingStation) : (closeStation s p).InRange := by
  have judged := List.foldlRecOn p.members (Machine.judgeHead p.number) h fun _ hs m _ => hs.judgeHead _ m
  exact (judged.withTable _).enterClosed _

theorem closeAnswered (h : s.InRange) (fuel : Nat) : (closeAnswered s fuel).InRange := by
  induction fuel generalizing s with
  | zero => exact h
  | succ n ih =>
    unfold Machine.closeAnswered
    split
    · exact h
    · exact ih (h.closeStation _)

end State.InRange

/-- The heads of an address hold a head's recovery count. -/
def State.HoldsRecovery (s : State) (x : Head) : Prop := ∀ y ∈ s.heads, y.cfg.addr = x.cfg.addr → y.recovery = x.recovery

/-- With an address of its own for each head, the head found by its address is the only one of it. -/
theorem holdsRecovery_of_findHead {s : State} {a : Byte} {x : Head} (own : (s.heads.map (·.cfg.addr)).Nodup)
    (found : s.findHead a = some x) : s.HoldsRecovery x := fun _ mem addr =>
  congrArg Head.recovery (List.inj_on_of_nodup_map own mem (List.mem_of_find?_eq_some found) addr)

theorem State.HoldsRecovery.count {s : State} {x : Head} (h : s.HoldsRecovery x) (a : Byte) {f : Head → Head}
    (cfg : ∀ y, (f y).cfg = y.cfg) (recovery : ∀ y, (f y).recovery = y.recovery) : (s.updateHead a f).HoldsRecovery x := by
  intro z mem addr
  obtain ⟨y, listed, rfl⟩ := List.mem_map.mp mem
  by_cases here : y.cfg.addr = a
  · rw [if_pos here] at addr ⊢
    rw [recovery]
    exact h y listed (by rwa [cfg] at addr)
  · rw [if_neg here] at addr ⊢
    exact h y listed addr

namespace State.InRange

variable {s t : State}

/-- A recovery count that does not make its head ACTIVE stays below RECOVER_COUNT (R72). -/
theorem advanceRecovery (h : s.InRange) (n : Nat) {x : Head} (held : s.HoldsRecovery x) :
    (advanceRecovery s n x).InRange := by
  unfold Machine.advanceRecovery
  split
  · exact h
  · split
    · exact (h.updateHead _ fun _ _ _ => ⟨Nat.zero_le _, Nat.zero_le _⟩).offerNote _
    · rename_i below
      refine h.updateHead _ fun y mem addr => ⟨(h.heads y mem).misses, ?_⟩
      have same : y.recovery = x.recovery := held y mem addr
      have := h.recoverCount_le
      show y.recovery + 1 ≤ 255
      omega

theorem lateSample (h : s.InRange) {x : Head} (held : s.HoldsRecovery x) (n : Nat) (payload : List Byte) :
    (lateSample s x n payload).InRange := by
  have counted := h.countHead x.cfg.addr (f := fun y => { y with late := y.late + 1 }) (fun _ => rfl) fun _ => rfl
  refine closeAnswered ?_ _
  split
  · exact counted.advanceRecovery n (held.count _ (fun _ => rfl) fun _ => rfl)
  · exact counted

theorem acceptSample (h : s.InRange) {x : Head} (held : s.HoldsRecovery x) (n : Nat) (status : SampleStatus)
    (payload : List Byte) : (acceptSample s x n status payload).InRange := by
  have counted := h.countHead x.cfg.addr (f := fun y => { y with accepted := y.accepted + 1 }) (fun _ => rfl) fun _ => rfl
  refine closeAnswered ((counted.withTable _).advanceRecovery n ?_) _
  exact held.count (f := fun y => { y with accepted := y.accepted + 1 }) _ (fun _ => rfl) fun _ => rfl

theorem sampleIntake (h : s.InRange) {x : Head} (held : s.HoldsRecovery x) (payload : List Byte) :
    (sampleIntake s x payload).InRange := by
  have malformed : (countMalformed s x).InRange := h.countHead _ (fun _ => rfl) fun _ => rfl
  have unasked : (countUnasked s x).InRange := h.countHead _ (fun _ => rfl) fun _ => rfl
  have duplicate : (countDuplicate s x).InRange := h.countHead _ (fun _ => rfl) fun _ => rfl
  unfold Machine.sampleIntake
  dsimp only
  split
  · exact malformed
  · split
    · exact malformed
    · split
      · exact malformed
      · split
        · exact h.lateSample held _ _
        · split
          · exact unasked
          · split
            · exact unasked
            · split
              · exact duplicate
              · split
                · exact h.acceptSample held _ _ _
                · exact malformed

theorem receiveA (h : s.InRange) (own : (s.heads.map (·.cfg.addr)).Nodup) (bytes : List Byte) : (receiveA s bytes).InRange := by
  have received : (countReceivedA s).InRange := { h with }
  unfold Machine.receiveA
  dsimp only
  split
  · exact received.of_changes (errorA_changes _) (by decide)
  · rename_i f _
    have dropped := received.of_changes (dropUnknownSource_changes _) (by decide)
    unfold Machine.classifyA
    split
    · split
      · exact dropped
      · rename_i x found
        split
        · exact dropped
        · exact received.sampleIntake (holdsRecovery_of_findHead own found) _
    · split
      · split
        · exact dropped
        · split
          · exact received.of_changes (tagIntake_changes _ _) (by decide)
          · exact dropped
      · exact received.of_changes (offerForwardAB_changes _ f) (by decide)

/-! ### The distance unit and the marks -/

theorem dueStation (h : s.InRange) : (dueStation s).InRange := by
  have taken := h.of_changes (takeDue_changes s s.dueRecord) (by decide)
  exact { taken with lastSpeed := dueRecord_speed_le s }

theorem dueStations (h : s.InRange) (highWater : Int) (fuel : Nat) : (dueStations s highWater fuel).InRange := by
  induction fuel generalizing s with
  | zero => exact h
  | succ n ih =>
    unfold Machine.dueStations
    split
    · exact ih h.dueStation
    · exact h

/-- A mark's output goes HIGH for MARK_PULSE (R151). -/
theorem reachMarks (h : s.InRange) : (reachMarks s).InRange := by
  have pulse : ∀ (c : Bool) {old : Option Nat}, (∀ n, old = some n → n ≤ 500000) →
      ∀ n, (if c then some (s.params.markPulse * 1000) else old) = some n → n ≤ 500000 := by
    intro c _ within n left
    have := h.markPulse_le
    split at left
    · have left := Option.some.inj left
      omega
    · exact within n left
  exact { h with pulseL := pulse _ h.pulseL, pulseR := pulse _ h.pulseR }

theorem forwardCount (h : s.InRange) : (forwardCount s).InRange := by
  have advanced : s.advanced.InRange := h.of_changes (withOdometer_changes s _) (by decide)
  by_cases counts : s.Counts
  · rw [forwardCount_of_counts counts]
    have resumed := advanced.of_changes (withRunState_changes _ .running) (by decide)
    have due : (testDue (s.advanced.withRunState .running)).InRange :=
      (resumed.dueStations _ _).of_changes (withHighWater_changes _ _) (by decide)
    exact due.reachMarks
  · rw [forwardCount_of_not_counts counts]
    exact advanced.reachMarks

theorem encoderChange {wait : Nat} {a b : Bool} (waited : (s.after wait).InRange)
    (e : exec (.encoderChange wait a b) s = .next t) : t.InRange := by
  have held : ((s.after wait).holdLevels a b).InRange := { waited with }
  obtain rfl | rfl | rfl | rfl := encoderChange_cases e
  · exact held.settle
  · exact held.forwardCount.settle
  · exact (held.of_changes (reverseCount_changes _) (by decide)).settle
  · exact settle { held with }

/-! ### The part's own events, and the passing of time -/

theorem elapse (h : s.InRange) (n : Nat) : (elapse n s).InRange :=
  { h with pulseL := countDown_le h.pulseL n, pulseR := countDown_le h.pulseR n, flush := countDown_le h.flush n }

theorem completeDrain (h : s.InRange) : (completeDrain s).InRange := by
  have drained : s.drained.InRange := ((h.evaluateRest _).closeAll .runEnd).flushBatch
  have noted := drained.offerNote (.runEnd s.run.id s.run.distanceAtStop s.drained.run.tallies)
  rw [completeDrain_eq]
  generalize Machine.offerNote s.drained _ = v at noted
  exact { noted with }

theorem takeOwn (h : s.InRange) (e : OwnEvent) : (takeOwn s e).InRange := by
  cases e with
  | pauseEnd => exact settle { h with }
  | flush => exact (h.completeApply.flushBatch.withFlush (x := none) nofun).settle
  | pulseEnd side =>
    cases side with
    | left =>
      have low : (s.withMark { s.mark with pulseL := none }).InRange := { h with pulseL := nofun }
      exact low.settle
    | right =>
      have low : (s.withMark { s.mark with pulseR := none }).InRange := { h with pulseR := nofun }
      exact low.settle
  | deadline station =>
    unfold Machine.takeOwn
    dsimp only
    split
    · exact h
    · exact ((h.closeStation _).closeAnswered _).settle
  | stampTimeout => exact settle { h with }
  | drain => exact h.completeDrain.settle

theorem after (h : s.InRange) (n : Nat) : (s.after n).InRange := by
  refine after_induction (P := fun s _ r => s.InRange → r.InRange) (fun s n _ h => h.elapse n)
    (fun s n t e k r _ _ _ rest h => rest (takeOwn ?_ e)) s n h
  exact { h.elapse t with }

theorem atMoment (h : s.InRange) (e : OwnEvent) : (s.atMoment e).InRange := by
  obtain same | ⟨n, same⟩ := atMoment_cases s e
  · rwa [same]
  · rw [same]
    exact h.after n

theorem awaitOwn (h : s.InRange) (e : OwnEvent) : (awaitOwn e s).InRange := by
  unfold Machine.awaitOwn
  dsimp only
  split
  · exact (h.atMoment e).takeOwn e
  · exact h.atMoment e

theorem before (h : s.InRange) (c : Instr) : (s.before c).InRange := by
  obtain same | ⟨n, same⟩ := before_cases s c
  · rwa [same]
  · rw [same]
    exact h.after n

/-- With no command waiting only time passes. -/
theorem idle (h : s.InRange) : (idle s).InRange := by
  unfold Machine.idle
  split
  · exact h.elapse 1
  · rename_i c rest _
    have picked := h.of_changes (pick_changes s c rest) (by decide)
    exact { picked with }

/-! ### The requests that act on a unit in range -/

theorem takeRequest (h : s.InRange) (rest : List Frame) : (s.takeRequest rest).InRange := { h with }

theorem tableApply (h : s.InRange) (r : Frame) : (tableApply r s).InRange := by
  have answered : ∀ code, (Machine.respond s r code []).InRange := fun code => h.respond r code []
  unfold Machine.tableApply
  split
  · exact answered _
  · exact answered _
  · dsimp only
    split
    · exact answered _
    · split
      · exact answered _
      · split
        · exact answered _
        · split
          · exact answered _
          · split
            · exact answered _
            · split
              · exact (h.swapTable _ _).respond _ _ _
              · exact startFlushTimer { h with }

theorem clearGroup (h : s.InRange) (g : Group) : (clearGroup s g).InRange := by
  cases g with
  | heads =>
    refine { h with heads := fun x mem => ?_ }
    obtain ⟨y, listed, rfl⟩ := List.mem_map.mp mem
    exact ⟨(h.heads y listed).misses, (h.heads y listed).recovery⟩
  | portA => exact { h with }
  | portB => exact { h with }
  | run => exact { h with }

theorem readCounters (h : s.InRange) (r : Frame) : (readCounters r s).InRange := by
  unfold Machine.readCounters
  split
  · exact h.respond _ _ _
  · dsimp only
    split
    · exact (h.clearGroup _).respond _ _ _
    · exact h.respond _ _ _

theorem setUpRun (h : s.InRange) (c0 : Word) (direction : Direction) (id : Half) (c : Chords) :
    (setUpRun s c0 direction id c).InRange := { h with heads := fresh_inRange _, pulseL := nofun, pulseR := nofun }

theorem softResetState (h : s.InRange) : (softResetState s).InRange :=
  { h with
    heads := fresh_inRange _, pulseL := nofun, pulseR := nofun, flush := nofun
    opened := fun ch x isOpen => by cases ch <;> cases isOpen }

end State.InRange

/-! ### Every command -/

/-- The heads of a sound roster each have an address of their own, after any wait too (R54, R178). -/
theorem after_ownAddresses {s : State} (sound : s.TablesSound) (n : Nat) : ((s.after n).heads.map (·.cfg.addr)).Nodup := by
  obtain ⟨-, ordered, -, -, -, -, -, -, -, -, -, staging⟩ := sound
  have roster : (s.after n).heads.map (·.cfg) = s.heads.map (·.cfg) :=
    (keepsRoster_carriedOn.after s n (noRosterPending_of_sound staging)).2
  have addrs : (s.after n).heads.map (·.cfg.addr) = s.heads.map (·.cfg.addr) := by
    simpa [Function.comp_def] using congrArg (List.map RosterEntry.addr) roster
  rw [addrs]
  refine List.Nodup.of_map BitVec.toNat ?_
  rw [List.map_map]
  exact ordered.imp fun below => Nat.ne_of_lt below

theorem exec_inRange {c : Instr} {s t : State} (sound : s.TablesSound) (h : s.InRange) (e : exec c s = .next t) :
    t.InRange := by
  cases c with
  | hardwareReset straps a b =>
    cases e
    exact { (valuesInRange_iff_inRange _).mp reset_valuesInRange with }
  | portAReceive wait bytes =>
    simp only [exec, execPortAReceive] at e
    split at e <;> cases e
    · exact ((h.after wait).receiveA (after_ownAddresses sound wait) bytes).settle
    · exact (h.after wait).settle
  | encoderChange wait a b => exact (h.after wait).encoderChange e
  | deadlineExpiry station => cases e; exact h.awaitOwn (.deadline station)
  | markPulseExpiry side => cases e; exact h.awaitOwn (.pulseEnd side)
  | flushTimerExpiry => cases e; exact h.awaitOwn .flush
  | drainComplete =>
    obtain rfl | ⟨-, rfl⟩ := exec_drainComplete_cases e
    · exact h
    · exact h.completeDrain.settle
  | setParam =>
    obtain answered | ⟨rest, id, v, accepted, -, set⟩ := exec_setParam_cases e
    · exact h.of_changes answered (by decide)
    · exact ((h.takeRequest rest).setParams accepted).of_changes set (by decide)
  | tableApply =>
    obtain answered | ⟨r, rest, -, rfl⟩ := request_cases e
    · exact h.of_changes answered (by decide)
    · exact ((h.takeRequest rest).tableApply r).settle
  | readCounters =>
    obtain answered | ⟨r, rest, -, rfl⟩ := request_cases e
    · exact h.of_changes answered (by decide)
    · exact ((h.takeRequest rest).readCounters r).settle
  | runStart =>
    obtain answered | ⟨-, rest, c0, direction, id, c, -, set⟩ := exec_runStart_cases e
    · exact h.of_changes answered (by decide)
    · exact ((h.takeRequest rest).setUpRun c0 direction id c).of_changes set (by decide)
  | softReset =>
    obtain answered | ⟨rest, reset⟩ := exec_softReset_cases e
    · exact h.of_changes answered (by decide)
    · exact (h.takeRequest rest).softResetState.of_changes reset (by decide)
  | _ =>
    obtain ⟨v, changes, rfl | rfl⟩ := exec_event e (by simp)
    · exact (h.before _).of_changes changes (by simp [Region.event])
    · exact ((h.before _).of_changes changes (by simp [Region.event])).settle

/-- Settles O7: each operation on a timer, a count, a severity or the last speed bounds it by a parameter in range or
saturates (`State.InRange`); a head's recovery count is the one its sample was judged by, its address being its own. -/
theorem stepKeepsValuesInRange : Obligations.StepKeepsValuesInRange := by
  intro s t sound h e
  rw [valuesInRange_iff_inRange] at h ⊢
  cases pending : s.pending with
  | nil =>
    rw [step, pending] at e
    cases e
    exact h.idle
  | cons c rest =>
    rw [step, pending] at e
    exact exec_inRange (s := s.withPending rest) sound { h with } e

end Sys2Proof.Machine
end

section
/-! # What the reading requests report (R48, R109, R125, R171, R172, R175, R181, Tables 11-6 and 11-10) -/

namespace Sys2Proof.Machine

/-! ### A field of a part of a report -/

theorem byteAt_add (p : List Byte) (n k : Nat) : byteAt p (n + k) = byteAt (p.drop n) k := by
  simp [byteAt, List.getD_eq_getElem?_getD]

theorem halfAt_add (p : List Byte) (n k : Nat) : halfAt p (n + k) = halfAt (p.drop n) k := by
  simp only [halfAt, Nat.add_assoc, byteAt_add]

theorem wordAt_add (p : List Byte) (n k : Nat) : wordAt p (n + k) = wordAt (p.drop n) k := by
  simp only [wordAt, Nat.add_assoc, halfAt_add]

/-- In pieces of one size behind each other, a piece stands at its number of sizes. -/
theorem drop_flatMap {α : Type} {f : α → List Byte} {size : Nat} (sized : ∀ a, (f a).length = size) {l : List α} {i : Nat}
    {a : α} (listed : l[i]? = some a) : ∃ rest, (l.flatMap f).drop (size * i) = f a ++ rest := by
  induction l generalizing i with
  | nil => cases listed
  | cons b l ih =>
    cases i with
    | zero =>
      cases listed
      exact ⟨l.flatMap f, rfl⟩
    | succ i =>
      obtain ⟨rest, behind⟩ := ih listed
      refine ⟨rest, ?_⟩
      rw [List.flatMap_cons, Nat.mul_succ, Nat.add_comm, ← List.drop_drop, ← sized b, List.drop_left, sized b]
      exact behind

/-! ### The entries of the active tables (Table 11-10) -/

theorem rosterEntry_layout (x : RosterEntry) : let e := x.bytes
    e.length = 19 ∧ byteAt e 0 = x.addr
    ∧ byteAt e 1 = (match x.role with | .leftProfile => 1 | .rightProfile => 2 | .bodyMotion => 3 | .tagReader => 4)
    ∧ byteAt e 2 = (match x.phase with | .even => 0 | .odd => 1 | .both => 2)
    ∧ halfAt e 3 = BitVec.ofNat 16 x.maxRate ∧ byteAt e 5 = BitVec.ofNat 8 x.maxReturns
    ∧ byteAt e 6 = BitVec.ofNat 8 x.minStrength
    ∧ [7, 11, 15].map (wordAt e) = [x.lateralOffset, x.verticalOffset, x.rollOffset].map (BitVec.ofInt 32) := by
  simp only [RosterEntry.bytes, nat8, nat16, int32]
  exact ⟨by simp, by simp, by cases x.role <;> simp [Role.code], by cases x.phase <;> simp [Phase.code], by simp, by simp,
    by simp, by simp⟩

theorem segment_layout (x : Segment) : let e := x.bytes
    e.length = 20 ∧ wordAt e 0 = BitVec.ofInt 32 x.start ∧ wordAt e 4 = BitVec.ofNat 32 x.length
    ∧ [8, 10, 12, 14].map (halfAt e) = [x.cantStart, x.cantEnd, x.curvStart, x.curvEnd].map (BitVec.ofInt 16)
    ∧ byteAt e 16 = BitVec.ofNat 8 x.speedClass
    ∧ (List.range 8).map (byteAt e 17).getLsbD = [x.suppressGauge, x.suppressAll, false, false, false, false, false, false]
    ∧ halfAt e 18 = x.lineCode := by
  simp [Segment.bytes, nat8, nat32, int32, int16, List.range_succ, flagByte_bit]

theorem threshold_layout (x : Threshold) : let e := x.bytes
    e.length = 18 ∧ byteAt e 0 = BitVec.ofNat 8 x.speedClass ∧ byteAt e 1 = BitVec.ofNat 8 x.channel
    ∧ (List.range 8).map (byteAt e 2).getLsbD =
        [x.enabled, x.level1.used, x.level2.used, x.level3.used, false, false, false, false]
    ∧ [3, 5, 7, 9, 11, 13, 15].map (halfAt e) = [x.level1.lower, x.level1.upper, x.level2.lower, x.level2.upper,
        x.level3.lower, x.level3.upper, x.hysteresis].map (BitVec.ofInt 16)
    ∧ byteAt e 17 = BitVec.ofNat 8 x.minLength := by
  simp [Threshold.bytes, nat8, int16, List.range_succ, flagByte_bit]

theorem disabled_bytes (speedClass channel : Nat) : (Threshold.disabled speedClass channel).bytes
    = [BitVec.ofNat 8 speedClass, BitVec.ofNat 8 channel] ++ List.replicate 16 0 := by
  have zero : int16 0 = [0, 0] := by decide
  simp [Threshold.bytes, Threshold.disabled, nat8, zero, flagByte, List.replicate]

/-- The thresholds are 48 whatever the table holds; of another table those it holds are read (R181). -/
theorem activeEntry_of_beyond {s : State} {T : Table} {i : Nat}
    (beyond : if T = .thresholds then 47 < i else s.activeCount T ≤ i) : s.activeEntry T i = none := by
  cases T with
  | thresholds => exact if_neg (Nat.not_le.mpr (by simpa using beyond))
  | roster | markerTags | route => simpa [State.activeEntry, State.activeCount] using beyond

/-! ### The fields of QUERY_STATUS (R171) -/

theorem staging_report_length (x : Staging) : x.report.length = 6 := by
  cases x <;> simp [Staging.report, nat8, nat16]

/-- The report before its staging fields. -/
theorem statusReport_head_layout (s : State) (rest : List Byte) :
    let q := nat8 s.run.state.code ++ halfBytes s.run.id ++ nat32 s.dist.next ++ wordBytes s.currentChainage
      ++ nat8 s.loc.status.code ++ nat16 (if s.dist.lastUnknown then 0 else s.dist.lastSpeed)
      ++ [flagByte [s.link.upA, s.link.upB]] ++ s.status.field ++ wordBytes s.status.generation ++ rest
    byteAt q 0 = (match s.run.state with | .idle => 0 | .running => 1 | .suspended => 2 | .draining => 3)
    ∧ halfAt q 1 = s.run.id ∧ wordAt q 3 = BitVec.ofNat 32 s.dist.next ∧ wordAt q 7 = s.currentChainage
    ∧ byteAt q 11 = (match s.loc.status with | .none => 0 | .set => 1 | .confirmed => 2 | .doubtful => 3)
    ∧ halfAt q 12 = (if s.dist.lastUnknown then 0 else BitVec.ofNat 16 s.dist.lastSpeed)
    ∧ byteAt q 14 = BitVec.ofNat 8 (s.link.upA.toNat + 2 * s.link.upB.toNat)
    ∧ halfAt q 15 = s.status.bits.setWidth 16 ∧ wordAt q 17 = s.status.generation ∧ q.drop 21 = rest := by
  simp only [nat8, nat16, nat32, Status.field]
  exact ⟨by cases s.run.state <;> simp [RunState.code], by simp, by simp, by simp,
    by cases s.loc.status <;> simp [LocationStatus.code], by cases s.dist.lastUnknown <;> simp, by simp [flagByte], by simp,
    by simp, by simp [halfBytes_eq, wordBytes_eq]⟩

theorem currentChainage_eq (s : State) : s.currentChainage = s.run.startChainage
    + BitVec.ofInt 32 ((if s.run.direction = .increasing then 1 else -1) * roundDiv s.runDistance 1000)
    + s.loc.correction := by
  unfold State.currentChainage State.chainageAt
  cases s.run.direction <;> simp [Direction.sign]

/-- What QUERY_STATUS reports, at the offsets of Table 11-6. -/
theorem statusReport_layout (s : State) : let q := s.statusReport
    q.length = 29
    ∧ byteAt q 0 = (match s.run.state with | .idle => 0 | .running => 1 | .suspended => 2 | .draining => 3)
    ∧ halfAt q 1 = s.run.id ∧ wordAt q 3 = BitVec.ofNat 32 s.dist.next ∧ wordAt q 7 = s.currentChainage
    ∧ byteAt q 11 = (match s.loc.status with | .none => 0 | .set => 1 | .confirmed => 2 | .doubtful => 3)
    ∧ halfAt q 12 = (if s.dist.lastUnknown then 0 else BitVec.ofNat 16 s.dist.lastSpeed)
    ∧ byteAt q 14 = BitVec.ofNat 8 (s.link.upA.toNat + 2 * s.link.upB.toNat)
    ∧ halfAt q 15 = s.status.bits.setWidth 16 ∧ wordAt q 17 = s.status.generation
    ∧ q.drop 21 = s.req.staging.report ++ nat16 Config.partRevision := by
  have layout := statusReport_head_layout s (s.req.staging.report ++ nat16 Config.partRevision)
  dsimp only at layout ⊢
  rw [← List.append_assoc] at layout
  exact ⟨by simp [State.statusReport, staging_report_length, nat8, nat16, nat32, Status.field], layout⟩

/-- The staging fields and the revision behind them. -/
theorem staging_layout (x : Staging) (revision : Nat) : let q := x.report ++ nat16 revision
    (x = .closed → byteAt q 0 = 0 ∧ byteAt q 1 = 0 ∧ halfAt q 2 = 0 ∧ halfAt q 4 = 0)
    ∧ (∀ T lines entries, x = .opened T lines entries → byteAt q 0 = 1 ∧ byteAt q 1 = BitVec.ofNat 8 T.code
        ∧ halfAt q 2 = BitVec.ofNat 16 lines ∧ halfAt q 4 = BitVec.ofNat 16 entries.length)
    ∧ (∀ T entries requester tag, x = .pending T entries requester tag → byteAt q 0 = 2
        ∧ byteAt q 1 = BitVec.ofNat 8 T.code ∧ halfAt q 2 = 0 ∧ halfAt q 4 = 0)
    ∧ halfAt q 6 = BitVec.ofNat 16 revision := by
  refine ⟨?_, ?_, ?_, ?_⟩
  · rintro rfl
    simp [Staging.report, nat8, nat16]
  · rintro T lines entries rfl
    simp [Staging.report, nat8, nat16]
  · rintro T entries requester tag rfl
    simp [Staging.report, nat8, nat16]
  · cases x <;> simp [Staging.report, nat8, nat16]

/-! ### The counters (R175) -/

theorem headReport_length (h : Head) : h.report.length = 28 := by simp [Head.report, nat8]

theorem headReport_layout (h : Head) (rest : List Byte) : let c := h.report ++ rest
    [0, 1, 2, 3].map (byteAt c) =
        [h.cfg.addr, if h.active then 0 else 1, BitVec.ofNat 8 h.misses, BitVec.ofNat 8 h.recovery]
    ∧ [4, 8, 12, 16, 20, 24].map (wordAt c) = [h.accepted, h.late, h.duplicate, h.unasked, h.malformed, h.missed] := by
  cases active : h.active <;> simp [Head.report, nat8, active]

theorem headsReport_layout (s : State) : let c := s.counterReport .heads
    c.length = 1 + 28 * s.heads.length ∧ byteAt c 0 = BitVec.ofNat 8 s.heads.length
    ∧ ∀ (i : Nat) (h : Head), s.heads[i]? = some h → let o := 1 + 28 * i
        [0, 1, 2, 3].map (fun k => byteAt c (o + k)) =
            [h.cfg.addr, if h.active then 0 else 1, BitVec.ofNat 8 h.misses, BitVec.ofNat 8 h.recovery]
        ∧ [4, 8, 12, 16, 20, 24].map (fun k => wordAt c (o + k)) =
            [h.accepted, h.late, h.duplicate, h.unasked, h.malformed, h.missed] := by
  refine ⟨?_, rfl, fun i h listed => ?_⟩
  · simp [State.counterReport, nat8, headReport_length, Nat.mul_comm, Nat.add_comm]
  · obtain ⟨rest, behind⟩ := drop_flatMap headReport_length listed
    have own : (s.counterReport .heads).drop (1 + 28 * i) = h.report ++ rest := by
      rw [← List.drop_drop]
      exact behind
    dsimp only
    simp only [byteAt_add _ (1 + 28 * i), wordAt_add _ (1 + 28 * i), own]
    exact headReport_layout h rest

/-! ### The handling of each request -/

theorem halfBytes_halfAt (p : List Byte) (i : Nat) : halfBytes (halfAt p i) = [byteAt p i, byteAt p (i + 1)] := by
  simp only [halfBytes, halfAt, List.cons.injEq, and_true]
  exact ⟨BitVec.extractLsb'_append_eq_left, BitVec.extractLsb'_append_eq_right⟩

theorem Table.ofCode_eq_none {b : Byte} (h : b = 0 ∨ 4 < b.toNat) : Table.ofCode b = none := by
  have other : ∀ n : Byte, n ≠ 0 → n.toNat ≤ 4 → b ≠ n := by
    rintro n positive low rfl
    exact h.elim positive low.not_gt
  rw [Table.ofCode, if_neg (other 1 (by decide) (by decide)), if_neg (other 2 (by decide) (by decide)),
    if_neg (other 3 (by decide) (by decide)), if_neg (other 4 (by decide) (by decide))]

theorem Group.ofCode_eq_none {b : Byte} (h : b = 0 ∨ 4 < b.toNat) : Group.ofCode b = none := by
  have other : ∀ n : Byte, n ≠ 0 → n.toNat ≤ 4 → b ≠ n := by
    rintro n positive low rfl
    exact h.elim positive low.not_gt
  rw [Group.ofCode, if_neg (other 1 (by decide) (by decide)), if_neg (other 2 (by decide) (by decide)),
    if_neg (other 3 (by decide) (by decide)), if_neg (other 4 (by decide) (by decide))]

section Handling

variable {s : State} {r : Frame}

theorem getParam_of_unknown (h : ParamId.ofCode (byteAt r.payload 3) = none) : getParam r s = respond s r .badParam [] := by
  simp only [getParam, h]

theorem getParam_of_known {id : ParamId} (h : ParamId.ofCode (byteAt r.payload 3) = some id) :
    getParam r s = respond s r .done (byteAt r.payload 3 :: wordBytes (BitVec.ofInt 32 (s.params.get id))) := by
  simp only [getParam, h]
  rfl

theorem readEntry_of_noTable (h : Table.ofCode (byteAt r.payload 3) = none) : readEntry r s = respond s r .badParam [] := by
  simp only [readEntry, h]

theorem readEntry_of_noEntry {T : Table} (h : Table.ofCode (byteAt r.payload 3) = some T)
    (none' : s.activeEntry T (halfAt r.payload 4).toNat = none) : readEntry r s = respond s r .badParam [] := by
  simp only [readEntry, h, none']

theorem readEntry_of_entry {T : Table} (code : byteAt r.payload 3 = BitVec.ofNat 8 T.code) {entry : List Byte}
    (held : s.activeEntry T (halfAt r.payload 4).toNat = some entry) : readEntry r s = respond s r .done
      ([byteAt r.payload 3, byteAt r.payload 4, byteAt r.payload 5] ++ nat16 (s.activeCount T) ++ entry) := by
  simp only [readEntry, code, Table.ofCode_code, held, halfBytes_halfAt]
  rfl

theorem readCounters_of_noGroup (h : Group.ofCode (byteAt r.payload 3) = none) :
    readCounters r s = respond s r .badParam [] := by
  simp only [readCounters, h]

theorem readCounters_of_group {g : Group} (h : Group.ofCode (byteAt r.payload 3) = some g) : readCounters r s =
    respond (if (byteAt r.payload 4).getLsbD 0 then clearGroup s g else s) r .done
      (byteAt r.payload 3 :: s.counterReport g) := by
  simp only [readCounters, h]
  rfl

end Handling

/-- Settles O56: each request finds its report in the state it is taken from, laid out as the `_layout` lemmas say. -/
theorem readingRequestsReport : Obligations.ReadingRequestsReport := by
  refine ⟨fun _ => rfl, fun s i h held => ⟨h.cfg.bytes, ?_, rosterEntry_layout h.cfg⟩,
    fun s i x held => ⟨x.bytes, ?_, ?_⟩, fun s i x held => ⟨x.bytes, ?_, segment_layout x⟩, fun s i within => ?_,
    fun s r rest => ⟨fun handles length => ?_, fun handles length => ⟨fun unknown => ?_, fun id known => ?_⟩,
      fun handles length => ⟨fun noTable => ?_, fun T code => ⟨fun beyond => ?_, fun entry held => ?_⟩⟩,
      fun handles length => ?_⟩, fun s => ⟨?_, ?_, ?_, ?_, headsReport_layout s⟩⟩
  · simp only [State.activeEntry, held, Option.map_some]
  · simp only [State.activeEntry, held, Option.map_some]
  · simp [TagEntry.bytes]
  · simp only [State.activeEntry, held, Option.map_some]
  · obtain ⟨length, layout⟩ := threshold_layout ((s.det.thresholds[i]?).getD (Threshold.disabled (i / 8 + 1) (i % 8)))
    refine ⟨_, if_pos within, length, fun lacks => ?_, fun x held => ?_⟩
    · rw [lacks]
      exact disabled_bytes _ _
    · rw [held] at layout ⊢
      exact layout
  · exact handleRequest_of_consistent handles (by simp [requestConsistent, length]) queryStatus
  · have handled : exec .getParam s = _ := handleRequest_of_consistent handles (by simp [requestConsistent, length]) getParam
    rw [handled, getParam_of_unknown unknown]
  · have handled : exec .getParam s = _ := handleRequest_of_consistent handles (by simp [requestConsistent, length]) getParam
    rw [handled, getParam_of_known known]
    rfl
  · have handled : exec .readEntry s = _ :=
      handleRequest_of_consistent handles (by simp [requestConsistent, length]) readEntry
    rw [handled, readEntry_of_noTable (Table.ofCode_eq_none noTable)]
  · have handled : exec .readEntry s = _ :=
      handleRequest_of_consistent handles (by simp [requestConsistent, length]) readEntry
    rw [handled, readEntry_of_noEntry (s := s.takeRequest rest) (code ▸ T.ofCode_code) (activeEntry_of_beyond (s := s) beyond)]
  · have handled : exec .readEntry s = _ :=
      handleRequest_of_consistent handles (by simp [requestConsistent, length]) readEntry
    rw [handled, readEntry_of_entry (s := s.takeRequest rest) code held]
    rfl
  · have handled : exec .readCounters s = _ :=
      handleRequest_of_consistent handles (by simp [requestConsistent, length]) readCounters
    rw [handled]
    refine ⟨fun noGroup => ?_, fun code => ?_, fun code => ?_, fun code => ?_, fun code => ?_⟩
    · rw [readCounters_of_noGroup (Group.ofCode_eq_none noGroup)]
    · rw [readCounters_of_group (g := .portA) (by rw [code]; rfl), code]
      rfl
    · rw [readCounters_of_group (g := .portB) (by rw [code]; rfl), code]
      rfl
    · rw [readCounters_of_group (g := .heads) (by rw [code]; rfl), code]
      rfl
    · rw [readCounters_of_group (g := .run) (by rw [code]; rfl), code]
      rfl
  · obtain ⟨length, state, id, next, chainage, location, speed, ports, bits, generation, behind⟩ := statusReport_layout s
    obtain ⟨closed, opened, pending, revision⟩ := staging_layout s.req.staging Config.partRevision
    rw [← behind] at closed opened pending revision
    simp only [← byteAt_add, ← halfAt_add] at closed opened pending revision
    exact ⟨length, state, id, next, chainage.trans (currentChainage_eq s), location, speed, ports, bits, generation, closed,
      opened, pending, revision⟩
  · simp [State.counterReport]
  · simp [State.counterReport]
  · simp [State.counterReport]

end Sys2Proof.Machine
end

section
/-! # The judgements of the tables (R54, R118, R119, R126), and the tables that pass them -/

namespace Sys2Proof.Machine

/-! ### The order judgements -/

theorem orderJudged_roster (entries : List (List Byte)) :
    orderJudged .roster entries = true ↔ entries.Pairwise fun a b => (byteAt a 0).toNat < (byteAt b 0).toNat := by
  rw [orderJudged, neighbours_iff_pairwise]
  · simp only [decide_eq_true_eq]
  · simp only [decide_eq_true_eq]
    omega

theorem orderJudged_markerTags (entries : List (List Byte)) :
    orderJudged .markerTags entries = true ↔ entries.Pairwise fun a b => (wordAt a 0).toNat < (wordAt b 0).toNat := by
  rw [orderJudged, neighbours_iff_pairwise]
  · simp only [decide_eq_true_eq]
  · simp only [decide_eq_true_eq]
    omega

/-- Each segment ends at or before the start of every later one. -/
theorem orderJudged_route (entries : List (List Byte)) : orderJudged .route entries = true ↔
    (entries.map Segment.read).Pairwise fun (a b : Segment) => a.start < b.start ∧ a.start + a.length ≤ b.start := by
  rw [orderJudged, neighbours_iff_pairwise]
  · simp only [decide_eq_true_eq]
  · simp only [decide_eq_true_eq]
    omega

/-! ### Sound tables -/

/-- A roster within its capacity that passes its judgements (R53, R54). -/
structure RosterSound (entries : List RosterEntry) : Prop where
  capacity : entries.length ≤ Table.roster.capacity
  ordered : (entries.map (·.addr.toNat)).Pairwise (· < ·)
  ranges : ∀ e ∈ entries, e.rangeOk = true
  composed : compositionOk entries = true

/-- The same of a marker tag table (R118). -/
structure TagsSound (tags : List TagEntry) : Prop where
  capacity : tags.length ≤ Table.markerTags.capacity
  ordered : (tags.map (·.id.toNat)).Pairwise (· < ·)

/-- The same of a route table (R119). -/
structure RouteSound (route : List Segment) : Prop where
  capacity : route.length ≤ Table.route.capacity
  apart : route.Pairwise fun (a b : Segment) => a.start + a.length ≤ b.start
  ranges : ∀ g ∈ route, g.rangeOk = true

/-- An active threshold table: empty, or an entry for each pair of class and channel, in order (R125, R126). -/
structure ThresholdsSound (thresholds : List Threshold) : Prop where
  pairs : thresholds = [] ∨ thresholds.map (fun e => (e.speedClass, e.channel)) = (List.range 48).map fun i => (i / 8 + 1, i % 8)
  ranges : ∀ e ∈ thresholds, e.rangeOk = true

/-- `State.TablesSound`, table by table. -/
structure State.SoundTables (s : State) : Prop where
  roster : RosterSound (s.heads.map (·.cfg))
  tags : TagsSound s.loc.tags
  route : RouteSound s.loc.route
  thresholds : ThresholdsSound s.det.thresholds
  staging : s.req.staging.Sound

theorem tablesSound_iff (s : State) : s.TablesSound ↔ s.SoundTables := by
  constructor
  · rintro ⟨rosterSize, rosterOrder, rosterRange, composed, tagSize, tagOrder, routeSize, routeApart, routeRange, pairs,
      thresholdRange, staging⟩
    refine ⟨⟨?_, ?_, ?_, composed⟩, ⟨tagSize, tagOrder⟩, ⟨routeSize, routeApart, routeRange⟩, ⟨pairs, thresholdRange⟩, staging⟩
    · rwa [List.length_map]
    · rwa [List.map_map]
    · exact List.forall_mem_map.mpr rosterRange
  · rintro ⟨⟨rosterSize, rosterOrder, rosterRange, composed⟩, ⟨tagSize, tagOrder⟩, ⟨routeSize, routeApart, routeRange⟩,
      ⟨pairs, thresholdRange⟩, staging⟩
    refine ⟨?_, ?_, List.forall_mem_map.mp rosterRange, composed, tagSize, tagOrder, routeSize, routeApart, routeRange, pairs,
      thresholdRange, staging⟩
    · rwa [List.length_map] at rosterSize
    · rwa [List.map_map] at rosterOrder

/-! ### A judged table is sound -/

theorem RosterEntry.read_addr {b : List Byte} {e : RosterEntry} (h : RosterEntry.read b = some e) : e.addr = byteAt b 0 := by
  unfold RosterEntry.read at h
  dsimp only at h
  split at h <;> cases h <;> rfl

theorem rosterSound_of_judged {entries : List (List Byte)} (capacity : entries.length ≤ Table.roster.capacity)
    (ordered : orderJudged .roster entries = true) (ranged : rangeJudged .roster entries = true) :
    RosterSound (entries.filterMap RosterEntry.read) := by
  simp only [rangeJudged, Bool.and_eq_true, List.all_eq_true] at ranged
  obtain ⟨fields, composed⟩ := ranged
  refine ⟨(List.length_filterMap_le _ _).trans capacity, ?_, fun e mem => ?_, composed⟩
  · rw [List.pairwise_map, List.pairwise_filterMap]
    refine ((orderJudged_roster entries).mp ordered).imp fun below e read e' read' => ?_
    rwa [RosterEntry.read_addr read, RosterEntry.read_addr read']
  · obtain ⟨b, listed, read⟩ := List.mem_filterMap.mp mem
    simpa [read] using fields b listed

theorem tagsSound_of_judged {entries : List (List Byte)} (capacity : entries.length ≤ Table.markerTags.capacity)
    (ordered : orderJudged .markerTags entries = true) : TagsSound (entries.map TagEntry.read) := by
  refine ⟨by rwa [List.length_map], ?_⟩
  rw [List.map_map, List.pairwise_map]
  exact (orderJudged_markerTags entries).mp ordered

theorem routeSound_of_judged {entries : List (List Byte)} (capacity : entries.length ≤ Table.route.capacity)
    (ordered : orderJudged .route entries = true) (ranged : rangeJudged .route entries = true) :
    RouteSound (entries.map Segment.read) := by
  refine ⟨by rwa [List.length_map], ((orderJudged_route entries).mp ordered).imp And.right, ?_⟩
  refine List.forall_mem_map.mpr fun b listed => ?_
  have judged := List.all_eq_true.mp ranged b listed
  exact (Bool.and_eq_true_iff.mp judged).1

/-- The entry a swap puts in a place of the threshold table: the staged one of its pair, or a disabled one (R125). -/
def thresholdAt (staged : List Threshold) (i : Nat) : Threshold :=
  (staged.find? fun e => e.speedClass == i / 8 + 1 && e.channel == i % 8).getD (Threshold.disabled (i / 8 + 1) (i % 8))

theorem thresholdTable_of_ne_nil {staged : List Threshold} (h : staged ≠ []) :
    thresholdTable staged = (List.range 48).map (thresholdAt staged) := by
  cases staged with
  | nil => exact (h rfl).elim
  | cons x rest => rfl

theorem thresholdAt_cases (staged : List Threshold) (i : Nat) :
    (thresholdAt staged i ∈ staged ∧ (thresholdAt staged i).speedClass = i / 8 + 1 ∧ (thresholdAt staged i).channel = i % 8)
      ∨ thresholdAt staged i = Threshold.disabled (i / 8 + 1) (i % 8) := by
  unfold thresholdAt
  cases found : staged.find? fun e => e.speedClass == i / 8 + 1 && e.channel == i % 8 with
  | none => exact .inr rfl
  | some x =>
    have is := List.find?_some found
    simp only [Bool.and_eq_true, beq_iff_eq] at is
    exact .inl ⟨List.mem_of_find?_eq_some found, is⟩

theorem thresholdAt_pair (staged : List Threshold) (i : Nat) :
    ((thresholdAt staged i).speedClass, (thresholdAt staged i).channel) = (i / 8 + 1, i % 8) := by
  obtain ⟨-, speedClass, channel⟩ | disabled := thresholdAt_cases staged i
  · rw [speedClass, channel]
  · rw [disabled]
    rfl

theorem disabled_rangeOk {i : Nat} (h : i < 48) : (Threshold.disabled (i / 8 + 1) (i % 8)).rangeOk = true := by
  have speedClass : i / 8 + 1 ≤ 6 := by omega
  have channel : i % 8 ≤ 7 := by omega
  simp [Threshold.disabled, Threshold.rangeOk, Level.rangeOk, speedClass, channel]

theorem thresholdsSound_of_judged {entries : List (List Byte)} (ranged : rangeJudged .thresholds entries = true) :
    ThresholdsSound (thresholdTable (entries.map Threshold.read)) := by
  have staged : ∀ e ∈ entries.map Threshold.read, e.rangeOk = true :=
    List.forall_mem_map.mpr (List.all_eq_true.mp ranged)
  generalize entries.map Threshold.read = loaded at staged
  by_cases empty : loaded = []
  · rw [empty]
    exact ⟨.inl rfl, List.forall_mem_nil _⟩
  · rw [thresholdTable_of_ne_nil empty]
    refine ⟨.inr ?_, List.forall_mem_map.mpr fun i listed => ?_⟩
    · rw [List.map_map]
      exact List.map_congr_left fun i _ => thresholdAt_pair loaded i
    · obtain ⟨mem, -⟩ | disabled := thresholdAt_cases loaded i
      · exact staged _ mem
      · rw [disabled]
        exact disabled_rangeOk (List.mem_range.mp listed)

end Sys2Proof.Machine
end

section
/-! # Every step keeps the active tables and staging sound (R53, R54, R118, R119, R125, R126, R176 to R179) -/

namespace Sys2Proof.Machine

/-! ### A list cut into pieces -/

theorem chunks_length (size count : Nat) (p : List Byte) : (chunks size count p).length = count := by
  induction count generalizing p with
  | zero => rfl
  | succ n ih => exact congrArg (· + 1) (ih _)

theorem chunks_getElem? {size count i : Nat} (h : i < count) (p : List Byte) :
    (chunks size count p)[i]? = some ((p.drop (size * i)).take size) := by
  induction count generalizing p i with
  | zero => omega
  | succ n ih =>
    cases i with
    | zero => rfl
    | succ i =>
      rw [chunks, List.getElem?_cons_succ, ih (by omega), List.drop_drop, Nat.mul_succ, Nat.add_comm]

theorem length_of_mem_chunks {size count : Nat} {p : List Byte} (fits : size * count ≤ p.length) {b : List Byte}
    (mem : b ∈ chunks size count p) : b.length = size := by
  obtain ⟨i, found⟩ := List.mem_iff_getElem?.mp mem
  have within : i < count := by
    have := (List.getElem?_eq_some_iff.mp found).1
    rwa [chunks_length] at this
  rw [chunks_getElem? within] at found
  cases found
  have : size * (i + 1) ≤ size * count := Nat.mul_le_mul_left size within
  rw [List.length_take, List.length_drop]
  rw [Nat.mul_succ] at this
  omega

namespace State.SoundTables

variable {s t : State}

/-! ### What keeps the tables sound -/

/-- The tables stay sound where the roster's entries and the other tables stay. -/
theorem of_roster (h : s.SoundTables) (roster : s.KeepsRoster t) {l : List Region} (frame : s.ChangesOnly l t)
    (kept : ∀ r ∈ [Region.tags, .route, .thresholds, .staging], r ∉ l) : t.SoundTables where
  roster := (roster (noRosterPending_of_sound h.staging)).2 ▸ h.roster
  tags := by
    have tags : t.loc.tags = s.loc.tags := frame .tags (kept _ (by decide))
    exact tags ▸ h.tags
  route := by
    have route : t.loc.route = s.loc.route := frame .route (kept _ (by decide))
    exact route ▸ h.route
  thresholds := by
    have thresholds : t.det.thresholds = s.det.thresholds := frame .thresholds (kept _ (by decide))
    exact thresholds ▸ h.thresholds
  staging := by
    have staging : t.req.staging = s.req.staging := frame .staging (kept _ (by decide))
    exact staging ▸ h.staging

theorem of_changes (h : s.SoundTables) {l : List Region} (frame : s.ChangesOnly l t)
    (kept : ∀ r ∈ [Region.heads, .tags, .route, .thresholds, .staging], r ∉ l) : t.SoundTables :=
  h.of_roster (keepsRoster_of_changes frame (kept _ (by decide)) (kept _ (by decide))) frame
    fun r mem => kept r (List.mem_cons_of_mem _ mem)

theorem settle (h : s.SoundTables) : (settle s).SoundTables := h.of_changes (settle_changes s) (by decide)

theorem respond (h : s.SoundTables) (r : Frame) (code : ResultCode) (fields : List Byte) :
    (respond s r code fields).SoundTables := h.of_changes (respond_changes s r code fields) (by decide)

theorem takeRequest (h : s.SoundTables) (rest : List Frame) : (s.takeRequest rest).SoundTables :=
  h.of_changes (takeRequest_changes s rest) (by decide)

theorem withTable (h : s.SoundTables) (x : List PendingStation) : (s.withTable x).SoundTables := { h with }

theorem withStaging (h : s.SoundTables) (x : Staging) (sound : x.Sound) :
    (s.withReq { s.req with staging := x }).SoundTables := { h with staging := sound }

/-! ### The swap (R178) and the completion of a pending apply (R179) -/

theorem swapTable (h : s.SoundTables) {table : Table} {entries : List (List Byte)}
    (capacity : entries.length ≤ table.capacity) (ordered : orderJudged table entries = true)
    (ranged : rangeJudged table entries = true) : (swapTable s table entries).SoundTables := by
  have closed := h.withStaging .closed trivial
  cases table with
  | roster =>
    refine { closed with roster := ?_ }
    show RosterSound (((entries.filterMap RosterEntry.read).map fun e => ({ cfg := e } : Head)).map (·.cfg))
    rw [List.map_map, show ((·.cfg) ∘ fun e => ({ cfg := e } : Head)) = id from rfl, List.map_id]
    exact rosterSound_of_judged capacity ordered ranged
  | markerTags => exact { closed with tags := tagsSound_of_judged capacity ordered }
  | route => exact { closed with route := routeSound_of_judged capacity ordered ranged }
  | thresholds => exact { closed with thresholds := thresholdsSound_of_judged ranged }

theorem completeApply (h : s.SoundTables) : (completeApply s).SoundTables := by
  cases pending : s.req.staging with
  | pending table entries requester tag =>
    have staged := h.staging
    rw [pending] at staged
    obtain ⟨-, capacity, ordered, ranged⟩ := staged
    exact (h.swapTable capacity ordered ranged).of_changes (completeApply_of_pending pending) (by decide)
  | _ =>
    rw [completeApply_of_not_pending (by rw [pending]; rfl)]
    exact h

/-! ### Evaluation and ring entry -/

theorem withRing (h : s.SoundTables) (g : Ring) : (s.withRing g).SoundTables := { h with }

theorem handOn (h : s.SoundTables) (e : EvaluatedStation) : (handOn s e).SoundTables := by
  have tallied : (s.tallied e).SoundTables := by
    unfold State.tallied
    split
    · exact { h with }
    · exact h
  have judged := tallied.of_changes (judgeStation_changes _ e) (by decide)
  rw [handOn_eq]
  exact judged.of_changes (composeStation_changes _ e) (by decide)

theorem evaluateNext (h : s.SoundTables) : (evaluateNext s).SoundTables := by
  unfold Machine.evaluateNext
  split
  · exact h.withRing _
  · exact (h.completeApply.handOn _).withRing _

theorem evaluateRest (h : s.SoundTables) (count : Nat) : (evaluateRest s count).SoundTables := by
  induction count generalizing s with
  | zero => exact h
  | succ n ih => exact ih h.evaluateNext

theorem enterRing (h : s.SoundTables) (e : Entering) : (enterRing s e).SoundTables := by
  have entered : (s.entered e).SoundTables := { h with }
  unfold Machine.enterRing
  dsimp only
  split
  · exact entered.evaluateNext
  · exact entered

theorem enterSkipped (h : s.SoundTables) (number count : Nat) : (enterSkipped s number count).SoundTables := by
  induction count generalizing s number with
  | zero => exact h
  | succ n ih => exact ih (h.enterRing _) _

theorem enterClosed (h : s.SoundTables) (fuel : Nat) : (enterClosed s fuel).SoundTables := by
  induction fuel generalizing s with
  | zero => exact h
  | succ n ih =>
    unfold Machine.enterClosed
    split
    · exact h
    · split
      · exact h
      · exact ih (((h.withTable _).enterRing _).enterSkipped _ _)

/-! ### Heads -/

/-- The judgement of the heads changes their runtime records alone. -/
theorem closeStation (h : s.SoundTables) (p : PendingStation) : (closeStation s p).SoundTables := by
  have roster := keepsRoster_carriedOn.foldl (fun u m => keepsRoster_carriedOn.judgeHead u p.number m) p.members s
  have frame := State.ChangesOnly.foldl _ (judgeHead_changes p.number) p.members s
  have judged := h.of_roster roster frame (by decide)
  exact (judged.withTable _).enterClosed _

theorem closeAnswered (h : s.SoundTables) (fuel : Nat) : (closeAnswered s fuel).SoundTables := by
  induction fuel generalizing s with
  | zero => exact h
  | succ n ih =>
    unfold Machine.closeAnswered
    split
    · exact h
    · exact ih (h.closeStation _)

theorem updateHead (h : s.SoundTables) (a : Byte) {f : Head → Head} (cfg : ∀ x, (f x).cfg = x.cfg) :
    (s.updateHead a f).SoundTables :=
  h.of_roster (keepsRoster_of_eq rfl (cfg_updateHead s a f cfg)) (updateHead_changes s a f) (by decide)

theorem advanceRecovery (h : s.SoundTables) (n : Nat) (x : Head) : (advanceRecovery s n x).SoundTables :=
  h.of_roster (keepsRoster_carriedOn.advanceRecovery s n x) (advanceRecovery_changes s n x) (by decide)

theorem sampleIntake (h : s.SoundTables) (x : Head) (payload : List Byte) : (sampleIntake s x payload).SoundTables := by
  have late : ∀ n, (lateSample s x n payload).SoundTables := by
    intro n
    have counted := h.updateHead x.cfg.addr (f := fun y => { y with late := y.late + 1 }) fun _ => rfl
    refine closeAnswered ?_ _
    split
    · exact counted.advanceRecovery n x
    · exact counted
  have accepted : ∀ n status, (acceptSample s x n status payload).SoundTables := by
    intro n status
    have counted := h.updateHead x.cfg.addr (f := fun y => { y with accepted := y.accepted + 1 }) fun _ => rfl
    exact ((counted.withTable _).advanceRecovery n x).closeAnswered _
  unfold Machine.sampleIntake
  dsimp only
  split
  · exact h.updateHead _ fun _ => rfl
  · split
    · exact h.updateHead _ fun _ => rfl
    · split
      · exact h.updateHead _ fun _ => rfl
      · split
        · exact late _
        · split
          · exact h.updateHead _ fun _ => rfl
          · split
            · exact h.updateHead _ fun _ => rfl
            · split
              · exact h.updateHead _ fun _ => rfl
              · split
                · exact accepted _ _
                · exact h.updateHead _ fun _ => rfl

theorem receiveA (h : s.SoundTables) (bytes : List Byte) : (receiveA s bytes).SoundTables := by
  have received := h.of_changes (countReceivedA_changes s) (by decide)
  unfold Machine.receiveA
  dsimp only
  generalize countReceivedA s = u at received
  have dropped := received.of_changes (dropUnknownSource_changes u) (by decide)
  split
  · exact received.of_changes (errorA_changes u) (by decide)
  · unfold Machine.classifyA
    split
    · split
      · exact dropped
      · split
        · exact dropped
        · exact received.sampleIntake _ _
    · split
      · split
        · exact dropped
        · split
          · exact received.of_changes (tagIntake_changes u _) (by decide)
          · exact dropped
      · exact received.of_changes (offerForwardAB_changes u _) (by decide)

/-! ### The part's own events, and the passing of time -/

theorem completeDrain (h : s.SoundTables) : (completeDrain s).SoundTables := by
  have drained : s.drained.SoundTables := by
    have closed := (h.evaluateRest (s.loc.entryNumber - s.ring.next)).of_changes (closeAll_changes _ .runEnd) (by decide)
    exact closed.of_changes (flushBatch_changes _) (by decide)
  have noted := drained.of_changes
    (offerNote_changes s.drained (.runEnd s.run.id s.run.distanceAtStop s.drained.run.tallies)) (by decide)
  rw [completeDrain_eq]
  generalize offerNote s.drained _ = v at noted
  exact { noted with }

theorem takeOwn (h : s.SoundTables) (e : OwnEvent) : (takeOwn s e).SoundTables := by
  cases e with
  | pauseEnd => exact settle { h with }
  | flush => exact settle { h.completeApply.of_changes (flushBatch_changes _) (by decide) with }
  | pulseEnd side => cases side <;> exact settle { h with }
  | deadline station =>
    unfold Machine.takeOwn
    dsimp only
    split
    · exact h
    · exact ((h.closeStation _).closeAnswered _).settle
  | stampTimeout => exact settle { h with }
  | drain => exact h.completeDrain.settle

theorem after (h : s.SoundTables) (n : Nat) : (s.after n).SoundTables := by
  refine after_induction (P := fun s _ r => s.SoundTables → r.SoundTables)
    (fun s n _ h => h.of_changes (elapse_changes n s) (by decide)) (fun s n t e k r _ _ _ rest h => rest (takeOwn ?_ e)) s n h
  exact { h.of_changes (elapse_changes t s) (by decide) with }

theorem before (h : s.SoundTables) (c : Instr) : (s.before c).SoundTables := by
  obtain same | ⟨n, same⟩ := before_cases s c
  · rwa [same]
  · rw [same]
    exact h.after n

theorem awaitOwn (h : s.SoundTables) (e : OwnEvent) : (awaitOwn e s).SoundTables := by
  have moment : (s.atMoment e).SoundTables := by
    obtain same | ⟨n, same⟩ := atMoment_cases s e
    · rwa [same]
    · rw [same]
      exact h.after n
  unfold Machine.awaitOwn
  dsimp only
  split
  · exact moment.takeOwn e
  · exact moment

/-! ### The requests that act on tables and staging -/

theorem tableOpen (h : s.SoundTables) (r : Frame) : (tableOpen r s).SoundTables := by
  unfold Machine.tableOpen
  split
  · exact h.respond _ _ _
  · split
    · exact h.respond _ _ _
    · split
      · exact h.respond _ _ _
      · exact (h.withStaging (.opened _ 0 []) ⟨Nat.zero_le _, List.forall_mem_nil _⟩).respond _ _ _

/-- A line taken joins whole entries to the load, within the table's capacity (R177). -/
theorem tableLine (h : s.SoundTables) (r : Frame) : (tableLine r s).SoundTables := by
  have answered : ∀ code, (respondLine s r code).SoundTables := fun code => h.respond r code _
  unfold Machine.tableLine
  split
  · exact answered _
  · split
    · exact answered _
    · exact answered _
    · rename_i table lines entries opened
      have load := h.staging
      rw [opened] at load
      obtain ⟨-, whole⟩ := load
      dsimp only
      split
      · exact answered _
      · split
        · exact answered _
        · split
          · exact answered _
          · rename_i sized _ room
            refine (h.withStaging (.opened table (lines + 1) _) ⟨?_, List.forall_mem_append.mpr ⟨whole, fun b mem => ?_⟩⟩).respond _ _ _
            · rw [List.length_append, chunks_length]
              exact Nat.le_of_not_lt room
            · refine length_of_mem_chunks ?_ mem
              rw [List.length_drop, Nat.mul_comm]
              omega

theorem tableAbort (h : s.SoundTables) (r : Frame) : (tableAbort r s).SoundTables := by
  unfold Machine.tableAbort
  split
  · exact h.respond _ _ _
  · exact h.respond _ _ _
  · exact (h.withStaging .closed trivial).respond _ _ _

/-- Only a table that passed its judgements is swapped in or waits, and a waiting one is no roster and no marker tag
table (R178). -/
theorem tableApply (h : s.SoundTables) (r : Frame) : (tableApply r s).SoundTables := by
  have answered : ∀ code, (Machine.respond s r code []).SoundTables := fun code => h.respond r code []
  unfold Machine.tableApply
  split
  · exact answered _
  · exact answered _
  · rename_i table lines entries opened
    have load := h.staging
    rw [opened] at load
    obtain ⟨capacity, -⟩ := load
    dsimp only
    split
    · exact answered _
    · split
      · exact answered _
      · split
        · exact answered _
        · rename_i ordered
          split
          · exact answered _
          · rename_i ranged
            simp only [Bool.not_eq_true', Bool.not_eq_false] at ordered ranged
            split
            · exact answered _
            · split
              · exact (h.swapTable capacity ordered ranged).respond _ _ _
              · rename_i waits
                have later : table = .route ∨ table = .thresholds := by
                  cases table with
                  | roster | markerTags => exact (waits rfl).elim
                  | route => exact .inl rfl
                  | thresholds => exact .inr rfl
                have waiting := h.withStaging (.pending table entries r.src (halfAt r.payload 0)) ⟨later, capacity, ordered, ranged⟩
                exact waiting.of_changes (startFlushTimer_changes _) (by decide)

theorem readCounters (h : s.SoundTables) (r : Frame) : (readCounters r s).SoundTables :=
  h.of_roster (keepsRoster_of_eq (readCounters_changes r s .staging (by decide)) (readCounters_roster r s))
    (readCounters_changes r s) (by decide)

end State.SoundTables

/-! ### Every command -/

theorem fresh_roster (heads : List Head) : (heads.map Head.fresh).map (·.cfg) = heads.map (·.cfg) := List.map_map

theorem exec_soundTables {c : Instr} {s t : State} (h : s.SoundTables) (e : exec c s = .next t) : t.SoundTables := by
  have request : ∀ {kind : RequestKind} {handling : Frame → State → State} {s t : State},
      (∀ {u : State}, u.SoundTables → ∀ r, (handling r u).SoundTables) → s.SoundTables →
      handleRequest kind (ifConsistent kind handling) s = .next t → t.SoundTables := by
    intro kind handling s t keeps h e
    obtain answered | ⟨r, rest, -, rfl⟩ := request_cases e
    · exact h.of_changes answered (by decide)
    · exact (keeps (h.takeRequest rest) r).settle
  cases c with
  | hardwareReset straps a b =>
    cases e
    exact { (tablesSound_iff _).mp reset_tablesSound with }
  | portAReceive wait bytes =>
    simp only [exec, execPortAReceive] at e
    split at e <;> cases e
    · exact ((h.after wait).receiveA bytes).settle
    · exact (h.after wait).settle
  | deadlineExpiry station => cases e; exact h.awaitOwn (.deadline station)
  | flushTimerExpiry => cases e; exact h.awaitOwn .flush
  | drainComplete =>
    obtain rfl | ⟨-, rfl⟩ := exec_drainComplete_cases e
    · exact h
    · exact h.completeDrain.settle
  | tableOpen => exact request State.SoundTables.tableOpen h e
  | tableLine =>
    obtain ⟨r, rest, -, rfl⟩ | ⟨-, rfl⟩ := handleRequest_cases e
    · exact ((h.takeRequest rest).tableLine r).settle
    · exact h
  | tableApply => exact request State.SoundTables.tableApply h e
  | tableAbort => exact request State.SoundTables.tableAbort h e
  | readCounters => exact request State.SoundTables.readCounters h e
  | runStart =>
    obtain answered | ⟨-, rest, c0, direction, id, c, -, set⟩ := exec_runStart_cases e
    · exact h.of_changes answered (by decide)
    · have fresh : (setUpRun (s.takeRequest rest) c0 direction id c).SoundTables :=
        { h.takeRequest rest with roster := (fresh_roster s.heads).symm ▸ h.roster }
      exact fresh.of_changes set (by decide)
  | softReset =>
    obtain answered | ⟨rest, reset⟩ := exec_softReset_cases e
    · exact h.of_changes answered (by decide)
    · have fresh : (softResetState (s.takeRequest rest)).SoundTables :=
        { h.takeRequest rest with roster := (fresh_roster s.heads).symm ▸ h.roster, staging := trivial }
      exact fresh.of_changes reset (by decide)
  | _ =>
    obtain ⟨v, changes, rfl | rfl⟩ := exec_event e (by simp)
    · exact (h.before _).of_changes changes (by simp [Region.event])
    · exact ((h.before _).of_changes changes (by simp [Region.event])).settle

/-- Settles O10: a table becomes active only by a swap of judged entries (`State.SoundTables.swapTable`), and between swaps
a head's runtime record alone changes. -/
theorem stepKeepsTablesSound : Obligations.StepKeepsTablesSound := by
  intro s t h e
  rw [tablesSound_iff] at h ⊢
  cases pending : s.pending with
  | nil =>
    rw [step, pending] at e
    cases e
    exact h.of_changes (idle_changes s) (by decide)
  | cons c rest =>
    rw [step, pending] at e
    exact exec_soundTables (s := s.withPending rest) { h with } e

end Sys2Proof.Machine
end

section
/-! # The judgements of TABLE_APPLY, field by field (R54, R118, R119, R126, Table 11-10) -/

namespace Sys2Proof.Machine

/-! ### The order judgements -/

theorem halfAt_toNat (p : List Byte) (i : Nat) :
    (halfAt p i).toNat = (byteAt p i).toNat * 256 + (byteAt p (i + 1)).toNat := by
  have low := (byteAt p (i + 1)).isLt
  rw [halfAt, BitVec.toNat_append, ← Nat.shiftLeft_add_eq_or_of_lt low, Nat.shiftLeft_eq]

/-- The pair of class and channel is ordered by class first. -/
theorem orderJudged_thresholds (entries : List (List Byte)) : orderJudged .thresholds entries = true ↔
    entries.Pairwise fun a b => (byteAt a 0).toNat < (byteAt b 0).toNat
      ∨ ((byteAt a 0).toNat = (byteAt b 0).toNat ∧ (byteAt a 1).toNat < (byteAt b 1).toNat) := by
  have pair : ∀ a b : List Byte, (halfAt a 0).toNat < (halfAt b 0).toNat ↔ (byteAt a 0).toNat < (byteAt b 0).toNat
      ∨ ((byteAt a 0).toNat = (byteAt b 0).toNat ∧ (byteAt a 1).toNat < (byteAt b 1).toNat) := by
    intro a b
    have := (byteAt a 1).isLt
    have := (byteAt b 1).isLt
    rw [halfAt_toNat, halfAt_toNat, Nat.zero_add]
    omega
  rw [orderJudged, neighbours_iff_pairwise]
  · simp only [decide_eq_true_eq, pair]
  · simp only [decide_eq_true_eq]
    omega

/-- Each segment against the one behind it. -/
theorem orderJudged_route_neighbours (entries : List (List Byte)) : orderJudged .route entries = true ↔
    ∀ i a b, entries[i]? = some a → entries[i + 1]? = some b →
      (wordAt a 0).toInt < (wordAt b 0).toInt ∧ (wordAt a 0).toInt + (wordAt a 4).toNat ≤ (wordAt b 0).toInt := by
  rw [orderJudged, neighbours_iff]
  simp only [List.getElem?_map, decide_eq_true_eq]
  constructor
  · intro apart i a b ha hb
    exact apart i (Segment.read a) (Segment.read b) (by rw [ha]; rfl) (by rw [hb]; rfl)
  · intro apart i x y hx hy
    obtain ⟨a, ha, rfl⟩ := Option.map_eq_some_iff.mp hx
    obtain ⟨b, hb, rfl⟩ := Option.map_eq_some_iff.mp hy
    exact apart i a b ha hb

/-! ### Reading a roster entry -/

/-- The entry of a TAG_READER. -/
def RosterEntry.tagReaderOf (b : List Byte) : RosterEntry :=
  { addr := byteAt b 0, role := .tagReader, phase := .even, maxRate := 0, maxReturns := 0, minStrength := 0,
    lateralOffset := 0, verticalOffset := 0, rollOffset := 0 }

/-- The entry of a BODY_MOTION head. -/
def RosterEntry.bodyOf (b : List Byte) (phase : Phase) : RosterEntry :=
  { addr := byteAt b 0, role := .bodyMotion, phase := phase, maxRate := (halfAt b 3).toNat, maxReturns := 0, minStrength := 0,
    lateralOffset := (wordAt b 7).toInt, verticalOffset := (wordAt b 11).toInt, rollOffset := (wordAt b 15).toInt }

/-- The entry of a profile head. -/
def RosterEntry.profileOf (b : List Byte) (role : Role) (phase : Phase) : RosterEntry :=
  { addr := byteAt b 0, role := role, phase := phase, maxRate := (halfAt b 3).toNat, maxReturns := (byteAt b 5).toNat
    minStrength := (byteAt b 6).toNat, lateralOffset := (wordAt b 7).toInt, verticalOffset := (wordAt b 11).toInt
    rollOffset := 0 }

theorem Role.ofCode_eq_some {b : Byte} {r : Role} : Role.ofCode b = some r ↔ b.toNat = r.code := by
  simp only [Role.ofCode, ← BitVec.toNat_inj, BitVec.ofNat_eq_ofNat, BitVec.reduceToNat]
  cases r <;> simp only [Role.code] <;> split_ifs <;> simp <;> omega

theorem Role.ofCode_eq_none {b : Byte} : Role.ofCode b = none ↔ b.toNat = 0 ∨ 4 < b.toNat := by
  simp only [Role.ofCode, ← BitVec.toNat_inj, BitVec.ofNat_eq_ofNat, BitVec.reduceToNat]
  split_ifs <;> simp <;> omega

theorem Phase.ofCode_eq_some {b : Byte} {p : Phase} : Phase.ofCode b = some p ↔ b.toNat = p.code := by
  simp only [Phase.ofCode, ← BitVec.toNat_inj, BitVec.ofNat_eq_ofNat, BitVec.reduceToNat]
  cases p <;> simp only [Phase.code] <;> split_ifs <;> simp <;> omega

theorem Phase.ofCode_of_listed {code : Byte} {phase : Phase}
    (h : (code, phase) ∈ [((0 : Byte), Phase.even), (1, .odd), (2, .both)]) : Phase.ofCode code = some phase := by
  simp only [List.mem_cons, List.not_mem_nil, or_false, Prod.mk.injEq] at h
  obtain ⟨rfl, rfl⟩ | ⟨rfl, rfl⟩ | ⟨rfl, rfl⟩ := h <;> rfl

theorem Phase.ofCode_eq_none {b : Byte} : Phase.ofCode b = none ↔ 2 < b.toNat := by
  simp only [Phase.ofCode, ← BitVec.toNat_inj, BitVec.ofNat_eq_ofNat, BitVec.reduceToNat]
  split_ifs <;> simp <;> omega

section Reading

variable {b : List Byte} {role : Role} {phase : Phase}

theorem RosterEntry.read_of_noRole (h : Role.ofCode (byteAt b 1) = none) : RosterEntry.read b = none := by
  simp [RosterEntry.read, h]

theorem RosterEntry.read_of_noPhase (h : Role.ofCode (byteAt b 1) = some role) (used : role ≠ .tagReader)
    (code : Phase.ofCode (byteAt b 2) = none) : RosterEntry.read b = none := by
  cases role with
  | tagReader => exact (used rfl).elim
  | _ => simp [RosterEntry.read, h, code]

theorem RosterEntry.read_tagReader (h : Role.ofCode (byteAt b 1) = some .tagReader) :
    RosterEntry.read b = some (.tagReaderOf b) := by
  simp [RosterEntry.read, h, tagReaderOf]

theorem RosterEntry.read_body (h : Role.ofCode (byteAt b 1) = some .bodyMotion)
    (code : Phase.ofCode (byteAt b 2) = some phase) : RosterEntry.read b = some (.bodyOf b phase) := by
  simp [RosterEntry.read, h, code, bodyOf]

theorem RosterEntry.read_profile (h : Role.ofCode (byteAt b 1) = some role) (rail : role.rail.isSome = true)
    (code : Phase.ofCode (byteAt b 2) = some phase) : RosterEntry.read b = some (.profileOf b role phase) := by
  cases role with
  | leftProfile | rightProfile => simp [RosterEntry.read, h, code, profileOf]
  | bodyMotion | tagReader => cases rail

/-- What an entry that can be read tells of its role and phase. -/
theorem RosterEntry.codes_of_read {e : RosterEntry} (h : RosterEntry.read b = some e) :
    (byteAt b 1).toNat = e.role.code ∧ (e.role ≠ .tagReader → (byteAt b 2).toNat = e.phase.code) := by
  cases hr : Role.ofCode (byteAt b 1) with
  | none => exact nomatch (read_of_noRole hr).symm.trans h
  | some role =>
    have roleCode := Role.ofCode_eq_some.mp hr
    by_cases tag : role = .tagReader
    · subst tag
      cases (read_tagReader hr).symm.trans h
      exact ⟨roleCode, fun used => (used rfl).elim⟩
    · cases hp : Phase.ofCode (byteAt b 2) with
      | none => exact nomatch (read_of_noPhase hr tag hp).symm.trans h
      | some phase =>
        have phaseCode := Phase.ofCode_eq_some.mp hp
        cases role with
        | tagReader => exact (tag rfl).elim
        | bodyMotion => cases (read_body hr hp).symm.trans h; exact ⟨roleCode, fun _ => phaseCode⟩
        | leftProfile | rightProfile => cases (read_profile hr rfl hp).symm.trans h; exact ⟨roleCode, fun _ => phaseCode⟩

/-! ### The range judgement of a roster (R54) -/

/-- The bytes of a roster entry whose fields lie within their values. -/
def rosterBytesOk (b : List Byte) : Prop :=
  0x20 ≤ (byteAt b 0).toNat ∧ (byteAt b 0).toNat ≤ 0x7F ∧ 1 ≤ (byteAt b 1).toNat ∧ (byteAt b 1).toNat ≤ 4
    ∧ ((byteAt b 1).toNat ≠ 4 → (byteAt b 2).toNat ≤ 2 ∧ 50 ≤ (halfAt b 3).toNat ∧ (halfAt b 3).toNat ≤ 2000
        ∧ (wordAt b 7).toInt.natAbs ≤ 50000 ∧ (wordAt b 11).toInt.natAbs ≤ 50000)
    ∧ ((byteAt b 1).toNat = 3 → (wordAt b 15).toInt.natAbs ≤ 50000)
    ∧ ((byteAt b 1).toNat = 1 ∨ (byteAt b 1).toNat = 2 → 1 ≤ (byteAt b 5).toNat ∧ (byteAt b 5).toNat ≤ 8)

theorem rosterBytesOk_iff : rosterBytesOk b ↔ ∃ e, RosterEntry.read b = some e ∧ e.rangeOk = true := by
  unfold rosterBytesOk
  cases hr : Role.ofCode (byteAt b 1) with
  | none =>
    have := Role.ofCode_eq_none.mp hr
    simp only [RosterEntry.read_of_noRole hr, reduceCtorEq, false_and, exists_false, iff_false]
    omega
  | some role =>
    have code := Role.ofCode_eq_some.mp hr
    by_cases tag : role = .tagReader
    · subst tag
      rw [code, RosterEntry.read_tagReader hr]
      simp [RosterEntry.rangeOk, RosterEntry.tagReaderOf, Role.code]
    · cases hp : Phase.ofCode (byteAt b 2) with
      | none =>
        have := Phase.ofCode_eq_none.mp hp
        rw [code]
        simp only [RosterEntry.read_of_noPhase hr tag hp, reduceCtorEq, false_and, exists_false, iff_false]
        cases role with
        | tagReader => exact (tag rfl).elim
        | _ => simp only [Role.code]; omega
      | some phase =>
        have phaseCode : (byteAt b 2).toNat ≤ 2 := by
          rw [Phase.ofCode_eq_some.mp hp]
          cases phase <;> decide
        have strength : (byteAt b 6).toNat ≤ 255 := Nat.le_of_lt_succ (byteAt b 6).isLt
        rw [code]
        cases role with
        | tagReader => exact (tag rfl).elim
        | bodyMotion =>
          rw [RosterEntry.read_body hr hp]
          simp [RosterEntry.rangeOk, RosterEntry.bodyOf, Role.code, phaseCode, and_assoc]
        | leftProfile | rightProfile =>
          rw [RosterEntry.read_profile hr rfl hp]
          simp only [RosterEntry.rangeOk, RosterEntry.profileOf, Role.code, Option.some.injEq, Bool.and_eq_true, exists_eq_left',
            decide_eq_true_eq, true_or, or_true, forall_const]
          omega

end Reading

theorem rangeJudged_roster (entries : List (List Byte)) : rangeJudged .roster entries = true ↔
    (∀ b ∈ entries, rosterBytesOk b) ∧ compositionOk (entries.filterMap RosterEntry.read) = true := by
  rw [rangeJudged, Bool.and_eq_true, List.all_eq_true]
  refine and_congr_left fun _ => forall₂_congr fun b _ => ?_
  rw [rosterBytesOk_iff]
  cases RosterEntry.read b <;> simp

/-- The phase codes of the entries of one role. -/
def phaseCodes (code : Nat) (entries : List (List Byte)) : List Nat :=
  (entries.filter fun b => (byteAt b 1).toNat == code).map fun b => (byteAt b 2).toNat

theorem Role.code_inj {r r' : Role} : r.code = r'.code ↔ r = r' := by cases r <;> cases r' <;> decide

/-- The entries of one role, as they are read. -/
theorem filter_role_read {entries : List (List Byte)} (readable : ∀ b ∈ entries, rosterBytesOk b) (role : Role) :
    (entries.filterMap RosterEntry.read).filter (·.role == role)
      = (entries.filter fun b => (byteAt b 1).toNat == role.code).filterMap RosterEntry.read := by
  induction entries with
  | nil => rfl
  | cons b rest ih =>
    obtain ⟨e, read, -⟩ := rosterBytesOk_iff.mp (readable b List.mem_cons_self)
    have same : ((byteAt b 1).toNat == role.code) = (e.role == role) := by
      rw [(RosterEntry.codes_of_read read).1, Bool.eq_iff_iff, beq_iff_eq, beq_iff_eq, Role.code_inj]
    have ih := ih fun x mem => readable x (List.mem_cons_of_mem _ mem)
    rw [List.filterMap_cons_some read, List.filter_cons, List.filter_cons, same, ih]
    split
    · rw [List.filterMap_cons_some read]
    · rfl

theorem phaseCodes_eq {entries : List (List Byte)} (readable : ∀ b ∈ entries, rosterBytesOk b) {role : Role}
    (used : role ≠ .tagReader) :
    (phasesOf role (entries.filterMap RosterEntry.read)).map Phase.code = phaseCodes role.code entries := by
  rw [phasesOf, filter_role_read readable, phaseCodes]
  have listed : ∀ b ∈ entries.filter fun b => (byteAt b 1).toNat == role.code,
      rosterBytesOk b ∧ (byteAt b 1).toNat = role.code := fun b mem => by
    obtain ⟨mem, code⟩ := List.mem_filter.mp mem
    exact ⟨readable b mem, by simpa using code⟩
  generalize entries.filter (fun b => (byteAt b 1).toNat == role.code) = ofRole at listed
  induction ofRole with
  | nil => rfl
  | cons b rest ih =>
    obtain ⟨ok, code⟩ := listed b List.mem_cons_self
    obtain ⟨e, read, -⟩ := rosterBytesOk_iff.mp ok
    obtain ⟨roleCode, phaseCode⟩ := RosterEntry.codes_of_read read
    have ofRole : e.role = role := Role.code_inj.mp (roleCode.symm.trans code)
    rw [List.filterMap_cons_some read, List.map_cons, List.map_cons, List.map_cons, phaseCode (ofRole ▸ used),
      ih fun x mem => listed x (List.mem_cons_of_mem _ mem)]

theorem tagReaders_length {entries : List (List Byte)} (readable : ∀ b ∈ entries, rosterBytesOk b) :
    (phasesOf .tagReader (entries.filterMap RosterEntry.read)).length = (phaseCodes 4 entries).length := by
  rw [phasesOf, filter_role_read readable, phaseCodes, List.length_map, List.length_map, List.length_filterMap_eq_countP]
  refine List.countP_eq_length.mpr fun b mem => ?_
  obtain ⟨e, read, -⟩ := rosterBytesOk_iff.mp (readable b (List.mem_filter.mp mem).1)
  rw [read]
  rfl

theorem railOk_iff (phases : List Phase) : railOk phases = true ↔ phases.map Phase.code ∈ [[], [2], [0, 1], [1, 0]] := by
  match phases with
  | [] => simp [railOk]
  | [p] => cases p <;> simp [railOk, Phase.code]
  | [p, q] => cases p <;> cases q <;> simp [railOk, Phase.code]
  | _ :: _ :: _ :: _ => simp [railOk]

/-- The composition of a roster by its phase codes: a rail has one head of phase BOTH or two of opposite phases. -/
theorem compositionOk_iff_codes (entries : List RosterEntry) : compositionOk entries = true ↔
    (phasesOf .leftProfile entries).map Phase.code ∈ [[], [2], [0, 1], [1, 0]]
      ∧ (phasesOf .rightProfile entries).map Phase.code ∈ [[], [2], [0, 1], [1, 0]]
      ∧ (phasesOf .bodyMotion entries).map Phase.code ∈ [[], [2]] ∧ (phasesOf .tagReader entries).length ≤ 1 := by
  rw [compositionOk, Bool.and_eq_true, Bool.and_eq_true, Bool.and_eq_true, decide_eq_true_eq, railOk_iff, railOk_iff, and_assoc,
    and_assoc]
  refine and_congr_right fun _ => and_congr_right fun _ => and_congr_left fun _ => ?_
  generalize phasesOf .bodyMotion entries = body
  match body with
  | [] => simp
  | [p] => cases p <;> simp [Phase.code]
  | _ :: _ :: _ => simp

theorem compositionOk_iff {entries : List (List Byte)} (readable : ∀ b ∈ entries, rosterBytesOk b) :
    compositionOk (entries.filterMap RosterEntry.read) = true ↔
      (∀ rail ∈ [1, 2], phaseCodes rail entries ∈ [[], [2], [0, 1], [1, 0]]) ∧ phaseCodes 3 entries ∈ [[], [2]]
        ∧ (phaseCodes 4 entries).length ≤ 1 := by
  rw [compositionOk_iff_codes, phaseCodes_eq readable (by decide), phaseCodes_eq readable (by decide),
    phaseCodes_eq readable (by decide), tagReaders_length readable, List.forall_mem_cons, List.forall_mem_singleton, and_assoc]
  rfl

/-! ### The other range judgements (R119, R126) -/

theorem rangeJudged_route (entries : List (List Byte)) : rangeJudged .route entries = true ↔ ∀ b ∈ entries,
    1 ≤ (wordAt b 4).toNat ∧ (wordAt b 4).toNat ≤ 10000000
      ∧ (∀ o ∈ [8, 10, 12, 14], -20000 ≤ (halfAt b o).toInt ∧ (halfAt b o).toInt ≤ 20000)
      ∧ 1 ≤ (byteAt b 16).toNat ∧ (byteAt b 16).toNat ≤ 6 ∧ (∀ i < 8, 2 ≤ i → (byteAt b 17).getLsbD i = false)
      ∧ (wordAt b 0).toInt + (wordAt b 4).toNat ≤ 2147483648 := by
  have flags : ∀ x : Byte, x.toNat ≤ 3 ↔ ∀ i < 8, 2 ≤ i → x.getLsbD i = false := by
    intro x
    constructor
    · intro small i _ high
      refine Nat.testBit_lt_two_pow (Nat.lt_of_le_of_lt small ?_)
      exact Nat.lt_of_lt_of_le (by decide : 3 < 2 ^ 2) (Nat.pow_le_pow_right (by decide) high)
    · intro clear
      refine Nat.le_of_lt_succ (Nat.lt_pow_two_of_testBit (n := 2) _ fun i high => ?_)
      by_cases within : i < 8
      · exact clear i within high
      · exact BitVec.getLsbD_of_ge x i (Nat.le_of_not_lt within)
  rw [rangeJudged, List.all_eq_true]
  refine forall₂_congr fun b _ => ?_
  simp only [segmentRangeOk, Segment.rangeOk, Bool.and_eq_true, decide_eq_true_eq, ← flags, List.forall_mem_cons]
  simp only [Segment.read, List.not_mem_nil, IsEmpty.forall_iff, implies_true, and_true]
  omega

theorem rangeJudged_thresholds (entries : List (List Byte)) : rangeJudged .thresholds entries = true ↔ ∀ b ∈ entries,
    1 ≤ (byteAt b 0).toNat ∧ (byteAt b 0).toNat ≤ 6 ∧ (byteAt b 1).toNat ≤ 7 ∧ (halfAt b 15).toNat ≤ 32767
      ∧ (∀ o ∈ [3, 5, 7, 9, 11, 13], -32767 ≤ (halfAt b o).toInt)
      ∧ ((byteAt b 2).getLsbD 0 = true → (Threshold.read b).bandsOk = true) := by
  have high : ∀ h : Half, h.toInt ≤ 32767 := fun h => by
    have := BitVec.toInt_lt (x := h)
    omega
  rw [rangeJudged, List.all_eq_true]
  refine forall₂_congr fun b _ => ?_
  have minLength : (byteAt b 17).toNat ≤ 255 := Nat.le_of_lt_succ (byteAt b 17).isLt
  have := high (halfAt b 3)
  have := high (halfAt b 5)
  have := high (halfAt b 7)
  have := high (halfAt b 9)
  have := high (halfAt b 11)
  have := high (halfAt b 13)
  simp only [Threshold.rangeOk, Level.rangeOk, Bool.and_eq_true, decide_eq_true_eq, Bool.or_eq_true, Bool.not_eq_true',
    ← Bool.not_eq_true, ← imp_iff_not_or, List.forall_mem_cons]
  have enabled : (Threshold.read b).enabled = (byteAt b 2).getLsbD 0 := rfl
  rw [enabled]
  generalize ((byteAt b 2).getLsbD 0 = true → (Threshold.read b).bandsOk = true) = banded
  by_cases hb : banded
  · simp only [hb, and_true]
    simp only [Threshold.read, List.not_mem_nil, IsEmpty.forall_iff, implies_true, and_true]
    omega
  · simp only [hb, and_false]

/-- The bands of a staged entry, by the flags and limits of its bytes. -/
theorem bandsOk_read (b : List Byte) : (Threshold.read b).bandsOk = true ↔
    let used := fun level : Nat => (byteAt b 2).getLsbD level = true
    let lower := fun level : Nat => (halfAt b (4 * level - 1)).toInt
    let upper := fun level : Nat => (halfAt b (4 * level + 1)).toInt
    used 1 ∧ (used 3 → used 2) ∧ lower 1 < upper 1 ∧ (used 2 → lower 2 ≤ lower 1 ∧ upper 1 ≤ upper 2)
      ∧ (used 3 → lower 3 ≤ lower 2 ∧ upper 2 ≤ upper 3) ∧ 2 * (halfAt b 15).toNat < upper 1 - lower 1 := by
  simp only [Threshold.bandsOk, Bool.and_eq_true, Bool.or_eq_true, Bool.not_eq_true', ← Bool.not_eq_true, ← imp_iff_not_or,
    decide_eq_true_eq, and_assoc]
  rfl

end Sys2Proof.Machine
end

section
/-! # TABLE_APPLY (R178, R179) -/

namespace Sys2Proof.Machine

/-! ### The threshold table after a swap (R125) -/

theorem thresholdTable_getElem? {staged : List Threshold} (loaded : staged ≠ []) {i : Nat} (h : i < 48) :
    (thresholdTable staged)[i]? = some (thresholdAt staged i) := by
  rw [thresholdTable_of_ne_nil loaded, List.getElem?_map, List.getElem?_range h]
  rfl

theorem thresholdAt_of_staged {staged : List Threshold} {i : Nat} {x : Threshold}
    (own : staged.Pairwise fun x y => x.speedClass ≠ y.speedClass ∨ x.channel ≠ y.channel) (listed : x ∈ staged)
    (speedClass : x.speedClass = i / 8 + 1) (channel : x.channel = i % 8) : thresholdAt staged i = x := by
  rw [thresholdAt, ← speedClass, ← channel, threshold_of_mem own listed]
  rfl

theorem thresholdAt_of_none {staged : List Threshold} {i : Nat}
    (none' : ∀ x ∈ staged, ¬(x.speedClass = i / 8 + 1 ∧ x.channel = i % 8)) :
    thresholdAt staged i = Threshold.disabled (i / 8 + 1) (i % 8) := by
  obtain ⟨listed, pair⟩ | disabled := thresholdAt_cases staged i
  · exact (none' _ listed pair).elim
  · exact disabled

/-! ### The steps of R178 -/

section Steps

variable {s : State} {r : Frame} {T : Table} {lines : Nat} {entries : List (List Byte)}

theorem tableApply_of_closed (closed : s.req.staging = .closed) : tableApply r s = respond s r .noLoad [] := by
  simp [tableApply, closed]

theorem tableApply_of_pending {requester : Byte} {tag : Half} (pending : s.req.staging = .pending T entries requester tag) :
    tableApply r s = respond s r .busy [] := by
  simp [tableApply, pending]

/-- A load whose number of entries is the expected one, where steps 3 and 4 of R178 do not hold. -/
def Counted (r : Frame) (lines : Nat) (entries : List (List Byte)) : Prop :=
  (lines = 0 → (halfAt r.payload 3).toNat = 0) ∧ (halfAt r.payload 3).toNat = entries.length

variable (opened : s.req.staging = .opened T lines entries)
include opened

theorem tableApply_of_empty (empty : lines = 0) (expected : (halfAt r.payload 3).toNat ≠ 0) :
    tableApply r s = respond s r .empty [] := by
  simp [tableApply, opened, empty, expected]

theorem tableApply_of_count (started : lines = 0 → (halfAt r.payload 3).toNat = 0)
    (other : (halfAt r.payload 3).toNat ≠ entries.length) : tableApply r s = respond s r .countError [] := by
  unfold tableApply
  rw [opened]
  dsimp only
  rw [if_neg fun h => h.2 (started h.1), if_pos other]

theorem tableApply_of_counted (counted : Counted r lines entries) : tableApply r s =
    if orderJudged T entries = false then respond s r .orderError []
    else if rangeJudged T entries = false then respond s r .rangeError []
    else if T = .roster ∧ s.run.state ≠ .idle then respond s r .refusedRunning []
    else if appliesAtOnce T s.run.state then
      respond (swapTable s T entries) r .applied (nat8 T.code ++ nat16 ((swapTable s T entries).activeCount T))
    else startFlushTimer (s.withReq { s.req with staging := .pending T entries r.src (halfAt r.payload 0) }) := by
  obtain ⟨started, count⟩ := counted
  unfold tableApply
  rw [opened]
  dsimp only
  rw [if_neg fun h => h.2 (started h.1), if_neg fun h => h count]
  simp only [Bool.not_eq_true']

theorem tableApply_of_order (counted : Counted r lines entries) (disordered : orderJudged T entries = false) :
    tableApply r s = respond s r .orderError [] := by
  rw [tableApply_of_counted opened counted, if_pos disordered]

theorem tableApply_of_range (counted : Counted r lines entries) (ordered : orderJudged T entries = true)
    (outside : rangeJudged T entries = false) : tableApply r s = respond s r .rangeError [] := by
  rw [tableApply_of_counted opened counted, if_neg (by simp [ordered]), if_pos outside]

theorem tableApply_of_running (counted : Counted r lines entries) (ordered : orderJudged T entries = true)
    (ranged : rangeJudged T entries = true) (roster : T = .roster) (running : s.run.state ≠ .idle) :
    tableApply r s = respond s r .refusedRunning [] := by
  rw [tableApply_of_counted opened counted, if_neg (by simp [ordered]), if_neg (by simp [ranged]), if_pos ⟨roster, running⟩]

/-- A load that passes steps 3 to 7. -/
theorem tableApply_of_passing (counted : Counted r lines entries) (ordered : orderJudged T entries = true)
    (ranged : rangeJudged T entries = true) (still : T = .roster → s.run.state = .idle) : tableApply r s =
    if appliesAtOnce T s.run.state then
      respond (swapTable s T entries) r .applied (nat8 T.code ++ nat16 ((swapTable s T entries).activeCount T))
    else startFlushTimer (s.withReq { s.req with staging := .pending T entries r.src (halfAt r.payload 0) }) := by
  rw [tableApply_of_counted opened counted, if_neg (by simp [ordered]), if_neg (by simp [ranged]),
    if_neg fun h => h.2 (still h.1)]

end Steps

theorem appliesAtOnce_iff (T : Table) (state : RunState) : appliesAtOnce T state = true ↔
    T = .roster ∨ T = .markerTags ∨ state = .idle ∨ state = .suspended := by
  cases T <;> simp [appliesAtOnce]

/-! ### What a swap leaves -/

theorem swapTable_req (s : State) (T : Table) (entries : List (List Byte)) :
    (swapTable s T entries).req = { s.req with staging := .closed } := by cases T <;> rfl

section Swap

variable (s : State) (entries : List (List Byte))

theorem swapTable_roster_changes : s.ChangesOnly [.staging, .heads] (swapTable s .roster entries) := by
  intro r hr
  cases r <;> simp_all [State.Agrees, swapTable]

theorem swapTable_markerTags_changes : s.ChangesOnly [.staging, .tags] (swapTable s .markerTags entries) := by
  intro r hr
  cases r <;> simp_all [State.Agrees, swapTable]

theorem swapTable_route_changes : s.ChangesOnly [.staging, .route] (swapTable s .route entries) := by
  intro r hr
  cases r <;> simp_all [State.Agrees, swapTable]

theorem swapTable_thresholds_changes : s.ChangesOnly [.staging, .thresholds] (swapTable s .thresholds entries) := by
  intro r hr
  cases r <;> simp_all [State.Agrees, swapTable]

/-- The heads of a roster swapped in start afresh. -/
theorem swapTable_roster_heads : (swapTable s .roster entries).heads.map (·.cfg) = entries.filterMap RosterEntry.read
    ∧ ∀ h ∈ (swapTable s .roster entries).heads, h = { cfg := h.cfg } := by
  have heads : (swapTable s .roster entries).heads = (entries.filterMap RosterEntry.read).map fun e => { cfg := e } := rfl
  rw [heads]
  refine ⟨?_, List.forall_mem_map.mpr fun _ _ => rfl⟩
  rw [List.map_map]
  exact List.map_id _

end Swap

/-- The flush timer that runs keeps its time; one that is off starts at FLUSH_TIME (R157). -/
theorem startFlushTimer_eq (s : State) :
    startFlushTimer s = s.withOut { s.out with flush := some (s.out.flush.getD (s.params.flushTime * 1000)) } := by
  cases timer : s.out.flush with
  | none => simp [startFlushTimer, timer]
  | some n =>
    simp only [startFlushTimer, timer, Option.getD_some]
    rw [← timer]
    rfl

/-- Settles O60: the judgements and the reading of entries clause by clause, and the steps of R178 in their order. -/
theorem tableApplyIsJudgedInOrder : Obligations.TableApplyIsJudgedInOrder := by
  refine ⟨fun entries => ⟨orderJudged_roster entries, orderJudged_markerTags entries, orderJudged_route_neighbours entries,
    orderJudged_thresholds entries⟩, fun entries => ?_, fun entries => ⟨rfl, rangeJudged_route entries, ?_⟩, fun b => ?_,
    fun staged => ⟨?_, fun loaded => ⟨?_, fun i hi => ⟨fun own x listed same => ?_, fun none' => ?_⟩⟩⟩,
    fun s r rest handles length => ?_⟩
  · exact (rangeJudged_roster entries).trans (and_congr_right fun readable => compositionOk_iff readable)
  · rw [rangeJudged_thresholds]
    simp only [bandsOk_read]
  · refine ⟨fun role => RosterEntry.read_tagReader (by rw [role]; rfl), fun code phase listed atTwo => ?_, rfl, rfl, rfl⟩
    have coded : Phase.ofCode (byteAt b 2) = some phase := atTwo ▸ Phase.ofCode_of_listed listed
    refine ⟨fun role => ?_, fun role => ?_, fun role => RosterEntry.read_body (by rw [role]; rfl) coded⟩
    · exact RosterEntry.read_profile (role := .leftProfile) (by rw [role]; rfl) rfl coded
    · exact RosterEntry.read_profile (role := .rightProfile) (by rw [role]; rfl) rfl coded
  · rintro rfl
    rfl
  · rw [thresholdTable_of_ne_nil loaded, List.length_map, List.length_range]
  · rw [thresholdTable_getElem? loaded hi, thresholdAt_of_staged own listed same.1 same.2]
  · rw [thresholdTable_getElem? loaded hi, thresholdAt_of_none none']
    rfl
  · have run : ∀ u, tableApply r (s.takeRequest rest) = u → exec .tableApply s = .next (settle u) := by
      rintro _ rfl
      exact handleRequest_of_consistent handles (by simp [requestConsistent, length]) tableApply
    refine ⟨fun closed => run _ (tableApply_of_closed closed),
      fun T entries requester tag pending => run _ (tableApply_of_pending pending), fun T lines entries opened => ?_⟩
    have opened : (s.takeRequest rest).req.staging = .opened T lines entries := opened
    refine ⟨fun empty expected => run _ (tableApply_of_empty opened empty expected),
      fun started other => run _ (tableApply_of_count opened started other),
      fun started count disordered => run _ (tableApply_of_order opened ⟨started, count⟩ disordered),
      fun started count ordered outside => run _ (tableApply_of_range opened ⟨started, count⟩ ordered outside),
      fun started count ordered ranged roster running =>
        run _ (tableApply_of_running opened ⟨started, count⟩ ordered ranged roster running), ?_, ?_⟩
    · rintro ⟨started, count, ordered, ranged, still⟩ atOnce
      have now : appliesAtOnce T (s.takeRequest rest).run.state = true := (appliesAtOnce_iff _ _).mpr atOnce
      refine ⟨swapTable (s.takeRequest rest) T entries, run _ ?_, swapTable_req _ T entries, ?_, ?_, ?_, ?_⟩
      · rw [tableApply_of_passing opened ⟨started, count⟩ ordered ranged still, if_pos now]
        rfl
      · rintro rfl
        obtain ⟨roster, fresh⟩ := swapTable_roster_heads (s.takeRequest rest) entries
        exact ⟨roster, fresh, swapTable_roster_changes _ entries⟩
      · rintro rfl
        exact ⟨rfl, swapTable_markerTags_changes _ entries⟩
      · rintro rfl
        exact ⟨rfl, swapTable_route_changes _ entries⟩
      · rintro rfl
        exact ⟨rfl, swapTable_thresholds_changes _ entries⟩
    · rintro ⟨started, count, ordered, ranged, still⟩ configured running
      have later : ¬ appliesAtOnce T (s.takeRequest rest).run.state = true := by
        have state : (s.takeRequest rest).run.state = s.run.state := rfl
        rw [appliesAtOnce_iff, state]
        obtain rfl | rfl := configured <;> obtain e | e := running <;> simp [e]
      refine run _ ?_
      rw [tableApply_of_passing opened ⟨started, count⟩ ordered ranged still, if_neg later, startFlushTimer_eq]
      rfl

end Sys2Proof.Machine
end

section
/-! # The answer set of a station (R56, R57, R59) -/

namespace Sys2Proof.Machine

theorem Phase.covers_iff {p : Phase} {n : Nat} : p.covers n = true ↔
    p = .both ∨ (p = .even ∧ n % 2 = 0) ∨ (p = .odd ∧ n % 2 = 1) := by
  cases p <;> simp [Phase.covers]

/-- A station is not covered by a phase exactly when it is covered by the opposite one. -/
theorem Phase.covers_eq_false {p : Phase} {n : Nat} : p.covers n = false ↔
    (p = .even ∧ n % 2 = 1) ∨ (p = .odd ∧ n % 2 = 0) := by
  cases p <;> simp [Phase.covers]

/-- A head takes its partner's stations over while the partner is DEGRADED, and its rate allows it (R57). -/
def TakesOver (heads : List Head) (rate : Nat) (h : Head) : Prop :=
  partnerDegraded heads h = true ∧ h.active = true ∧ rate ≤ h.cfg.maxRate

/-- The part of a head of a rail. -/
theorem partIn_of_rail {heads : List Head} {n rate : Nat} {h : Head} {side : Side} (rail : h.cfg.role.rail = some side)
    (part : Part) : partIn heads n rate h = some part ↔
      (h.cfg.phase.covers n = true ∧ part = .regular side)
        ∨ (h.cfg.phase.covers n = false ∧ TakesOver heads rate h ∧ part = .taker side) := by
  have split : partIn heads n rate h = if h.cfg.phase.covers n then some (.regular side)
      else if partnerDegraded heads h && h.active && decide (rate ≤ h.cfg.maxRate) then some (.taker side) else none := by
    cases role : h.cfg.role <;> rw [role] at rail <;> cases rail <;> simp [partIn, role]
  rw [split]
  unfold TakesOver
  cases h.cfg.phase.covers n with
  | true => simp [eq_comm (a := part)]
  | false =>
    simp only [Bool.false_eq_true, if_false, false_and, true_and, false_or, Option.ite_none_right_eq_some, Bool.and_eq_true,
      decide_eq_true_eq, Option.some.injEq, and_assoc, eq_comm (a := part)]

theorem partIn_of_body {heads : List Head} {n rate : Nat} {h : Head} (body : h.cfg.role = .bodyMotion) (part : Part) :
    partIn heads n rate h = some part ↔ h.cfg.phase.covers n = true ∧ part = .body := by
  simp [partIn, body, eq_comm (a := part)]

theorem mem_answerSet {heads : List Head} {n rate : Nat} {m : Member} : m ∈ answerSet heads n rate ↔
    ∃ h ∈ heads, m.addr = h.cfg.addr ∧ m.sample = none ∧ partIn heads n rate h = some m.part := by
  unfold answerSet
  rw [List.mem_filterMap]
  refine exists_congr fun h => and_congr_right fun _ => ?_
  rw [Option.map_eq_some_iff]
  constructor
  · rintro ⟨part, found, rfl⟩
    exact ⟨rfl, rfl, found⟩
  · rintro ⟨addr, sample, found⟩
    exact ⟨m.part, found, by rw [← addr, ← sample]⟩

/-- The addresses of an answer set in the order of the roster. -/
theorem answerSet_sublist (heads : List Head) (n rate : Nat) :
    ((answerSet heads n rate).map (·.addr)).Sublist (heads.map (·.cfg.addr)) := by
  unfold answerSet
  generalize partIn heads n rate = part
  induction heads with
  | nil => exact .slnil
  | cons h rest ih =>
    rw [List.filterMap_cons]
    cases part h with
    | none => exact ih.cons _
    | some p => exact ih.cons_cons _

/-- A rail with a head of one phase has none of phase BOTH (R54). -/
theorem both_notMem_of_single {phases : List Phase} (ok : railOk phases = true) {p : Phase} (listed : p ∈ phases)
    (single : p ≠ .both) : .both ∉ phases := by
  match phases with
  | [] => cases listed
  | [q] => simp_all [railOk]
  | [q, q'] => cases q <;> cases q' <;> simp_all [railOk]
  | _ :: _ :: _ :: _ => cases ok

theorem railOk_of_composed {entries : List RosterEntry} (ok : compositionOk entries = true) {role : Role}
    (rail : role.rail.isSome = true) : railOk (phasesOf role entries) = true := by
  simp only [compositionOk, Bool.and_eq_true] at ok
  obtain ⟨⟨⟨left, right⟩, -⟩, -⟩ := ok
  cases role with
  | leftProfile => exact left
  | rightProfile => exact right
  | bodyMotion | tagReader => cases rail

/-- In a sound roster the partner of a head of one phase is the head of its role and another phase. -/
theorem partnerDegraded_of_composed {heads : List Head} (ok : compositionOk (heads.map (·.cfg)) = true) {h : Head}
    (listed : h ∈ heads) (rail : h.cfg.role.rail.isSome = true) (single : h.cfg.phase ≠ .both) :
    partnerDegraded heads h = true ↔
      ∃ g ∈ heads, g.cfg.role = h.cfg.role ∧ g.cfg.phase ≠ h.cfg.phase ∧ g.active = false := by
  rw [partnerDegraded_iff ok rail]
  have phases := phasesOf_heads heads h.cfg.role
  have mem : ∀ g ∈ heads, g.cfg.role = h.cfg.role → g.cfg.phase ∈ phasesOf h.cfg.role (heads.map (·.cfg)) := by
    intro g hg role
    rw [phases]
    exact List.mem_map.mpr ⟨g, List.mem_filter.mpr ⟨hg, by simp [role]⟩, rfl⟩
  have noBoth := both_notMem_of_single (railOk_of_composed ok rail) (mem h listed rfl) single
  refine exists_congr fun g => and_congr_right fun hg => and_congr_right fun role => ?_
  have gSingle : g.cfg.phase ≠ .both := fun both => noBoth (both ▸ mem g hg role)
  rw [and_comm]
  refine and_congr_left fun _ => ?_
  cases hp : h.cfg.phase <;> cases gp : g.cfg.phase <;> simp_all [Phase.opposite]

theorem takesOver_of_composed {heads : List Head} (ok : compositionOk (heads.map (·.cfg)) = true) {h : Head}
    (listed : h ∈ heads) (rail : h.cfg.role.rail.isSome = true) (single : h.cfg.phase ≠ .both) (rate : Nat) :
    TakesOver heads rate h ↔ h.active = true ∧ rate ≤ h.cfg.maxRate
      ∧ ∃ g ∈ heads, g.cfg.role = h.cfg.role ∧ g.cfg.phase ≠ h.cfg.phase ∧ g.active = false := by
  rw [TakesOver, partnerDegraded_of_composed ok listed rail single, and_comm, and_assoc]

/-- Settles O37: `partIn`, role by role; in a sound roster a partner is the one other head of its rail. -/
theorem answerSetIsRegularAndTakers : Obligations.AnswerSetIsRegularAndTakers := by
  intro heads n rate ok
  refine ⟨answerSet_sublist heads n rate, fun m => ?_⟩
  rw [mem_answerSet]
  refine exists_congr fun h => and_congr_right fun listed => and_congr_right fun _ => and_congr_right fun _ => ?_
  rw [← Phase.covers_iff, ← Phase.covers_eq_false]
  have profile : ∀ {side}, h.cfg.role.rail = some side → (partIn heads n rate h = some m.part ↔
      (h.cfg.phase.covers n = true ∧ m.part = .regular side) ∨ (h.cfg.phase.covers n = false
        ∧ h.active = true ∧ rate ≤ h.cfg.maxRate
        ∧ (∃ g ∈ heads, g.cfg.role = h.cfg.role ∧ g.cfg.phase ≠ h.cfg.phase ∧ g.active = false)
        ∧ m.part = .taker side)) := by
    intro side rail
    rw [partIn_of_rail rail]
    refine or_congr_right (and_congr_right fun uncovered => ?_)
    have single : h.cfg.phase ≠ .both := fun both => by simp [both, Phase.covers] at uncovered
    rw [takesOver_of_composed ok listed (by rw [rail]; rfl) single, and_assoc, and_assoc]
  cases role : h.cfg.role with
  | bodyMotion => simp [partIn_of_body role]
  | tagReader => simp [partIn, role]
  | leftProfile => simp [profile (side := .left) (by rw [role]; rfl), role]
  | rightProfile => simp [profile (side := .right) (by rw [role]; rfl), role]

end Sys2Proof.Machine
end

section
/-! # The health of a head (R55, R70 to R72) -/

namespace Sys2Proof.Machine

theorem findHead_of_heads {s t : State} (h : t.heads = s.heads) (a : Byte) : t.findHead a = s.findHead a := by
  unfold State.findHead
  rw [h]

theorem offerNote_heads (s : State) (n : Note) : (offerNote s n).heads = s.heads := offerNote_changes s n .heads (by decide)

theorem setEvent_heads (s : State) (b : StickyBit) : (setEvent s b).heads = s.heads := setEvent_changes s b .heads (by decide)

/-- A set event takes no note out of the event queue. -/
theorem mem_events_setEvent {s : State} {f : Frame} (h : f ∈ s.out.events) (b : StickyBit) : f ∈ (setEvent s b).out.events := by
  have offered : ∀ (u : State) n, f ∈ u.out.events → f ∈ (offerNote u n).out.events := by
    intro u n h
    obtain ⟨-, e⟩ | ⟨-, e⟩ := offerNote_cases u n
    · rw [e]
      exact List.mem_append_left _ h
    · rw [e]
      exact h
  obtain ⟨-, e⟩ | ⟨-, -, e⟩ := setEvent_cases s b
  · rw [e]
    exact h
  · rw [e]
    exact offered _ _ h

/-- A head whose record changes twice. -/
theorem findHead_updateHead_twice {s : State} {a : Byte} {h : Head} (found : s.findHead a = some h) {f g : Head → Head}
    (hf : ∀ x, (f x).cfg = x.cfg) (hg : ∀ x, (g x).cfg = x.cfg) :
    ((s.updateHead a f).updateHead a g).findHead a = some (g (f h)) :=
  findHead_updateHead_self (findHead_updateHead_self found f hf) g hg

/-! ### The judgement at a close (R70, R71) -/

/-- A head with one more miss, its consecutive misses counted up to 255. -/
def Head.miss (h : Head) (misses : Nat) : Head := { h with missed := h.missed + 1, misses := misses }

/-- A head that becomes DEGRADED. -/
def Head.degrade (h : Head) : Head := { h with active := false, recovery := 0 }

section Judging

variable {n : Nat} {s : State} {m : Member} {h : Head} (found : s.findHead m.addr = some h)
include found

theorem judgeHead_of_answer (answered : m.sample ≠ none) :
    judgeHead n s m = s.updateHead m.addr fun h => { h with misses := 0 } := by
  simp [judgeHead, found, Option.isSome_iff_ne_none.mpr answered]

theorem judgeHead_of_degraded (unanswered : m.sample = none) (degraded : h.active = false) : judgeHead n s m =
    (s.updateHead m.addr fun x => x.miss (min 255 (h.misses + 1))).updateHead m.addr fun x => { x with recovery := 0 } := by
  simp only [judgeHead, found, unanswered, degraded]
  rfl

theorem judgeHead_of_few_misses (unanswered : m.sample = none) (active : h.active = true)
    (few : min 255 (h.misses + 1) < s.params.degradeCount) :
    judgeHead n s m = s.updateHead m.addr fun x => x.miss (min 255 (h.misses + 1)) := by
  unfold judgeHead
  rw [found]
  dsimp only
  rw [if_neg (by simp [unanswered]), if_neg (by simp [active]), if_neg]
  · rfl
  · exact Nat.not_le.mpr few

/-- The state of a degradation, before its note and its set event. -/
theorem judgeHead_of_many_misses (unanswered : m.sample = none) (active : h.active = true)
    (many : s.params.degradeCount ≤ min 255 (h.misses + 1)) :
    judgeHead n s m = setEvent (offerNote
      ((s.updateHead m.addr fun x => x.miss (min 255 (h.misses + 1))).updateHead m.addr Head.degrade)
      (.headDegraded s.run.id m.addr h.cfg.role h.cfg.phase n)) .headDegraded := by
  unfold judgeHead
  rw [found]
  dsimp only
  rw [if_neg (by simp [unanswered]), if_neg (by simp [active]), if_pos]
  · rfl
  · exact many

/-- The judgement of a head touches no other. -/
theorem judgeHead_other {a : Byte} (other : a ≠ m.addr) : (judgeHead n s m).findHead a = s.findHead a := by
  have updated : ∀ (u : State) f, (∀ x : Head, (f x).cfg = x.cfg) → (u.updateHead m.addr f).findHead a = u.findHead a :=
    fun u f hf => findHead_updateHead_other u other f hf
  by_cases answered : m.sample = none
  · cases active : h.active with
    | false =>
      rw [judgeHead_of_degraded found answered active, updated, updated]
      · exact fun _ => rfl
      · exact fun _ => rfl
    | true =>
      by_cases many : s.params.degradeCount ≤ min 255 (h.misses + 1)
      · rw [judgeHead_of_many_misses found answered active many, findHead_of_heads (setEvent_heads _ _),
          findHead_of_heads (offerNote_heads _ _), updated, updated]
        · exact fun _ => rfl
        · exact fun _ => rfl
      · rw [judgeHead_of_few_misses found answered active (Nat.not_le.mp many), updated]
        exact fun _ => rfl
  · rw [judgeHead_of_answer found answered, updated]
    exact fun _ => rfl

end Judging

/-! ### Recovery (R72) -/

section Recovery

variable {s : State} {n : Nat} {h : Head}

theorem advanceRecovery_of_active (active : h.active = true) : advanceRecovery s n h = s := if_pos active

theorem advanceRecovery_of_few (degraded : h.active = false) (few : h.recovery + 1 < s.params.recoverCount) :
    advanceRecovery s n h = s.updateHead h.cfg.addr fun h => { h with recovery := h.recovery + 1 } := by
  rw [advanceRecovery, if_neg (by simp [degraded]), if_neg (Nat.not_le.mpr few)]

theorem advanceRecovery_of_enough (degraded : h.active = false) (enough : s.params.recoverCount ≤ h.recovery + 1) :
    advanceRecovery s n h
      = offerNote (s.updateHead h.cfg.addr fun h => { h with active := true, recovery := 0, misses := 0 })
        (.headRecovered s.run.id h.cfg.addr h.cfg.role h.cfg.phase n) := by
  rw [advanceRecovery, if_neg (by simp [degraded]), if_pos enough]
  rfl

theorem advanceRecovery_other {a : Byte} (other : a ≠ h.cfg.addr) : (advanceRecovery s n h).findHead a = s.findHead a := by
  cases active : h.active with
  | true => rw [advanceRecovery_of_active active]
  | false =>
    by_cases enough : s.params.recoverCount ≤ h.recovery + 1
    · rw [advanceRecovery_of_enough active enough, findHead_of_heads (offerNote_heads _ _)]
      exact findHead_updateHead_other s other _ fun _ => rfl
    · rw [advanceRecovery_of_few active (Nat.not_le.mp enough)]
      exact findHead_updateHead_other s other _ fun _ => rfl

end Recovery

/-- Settles O39: the branches of `judgeHead` and `advanceRecovery`, each a change of the one head's record. -/
theorem headsDegradeAndRecover : Obligations.HeadsDegradeAndRecover := by
  refine ⟨fun n s m h found => ⟨fun a => judgeHead_other found, fun answered => ?_, fun unanswered degraded => ?_,
    fun unanswered active few => ?_, fun unanswered active many => ?_⟩, fun s n h found =>
    ⟨advanceRecovery_of_active, fun degraded few => ?_, fun degraded enough => ?_, fun a => advanceRecovery_other⟩⟩
  · rw [judgeHead_of_answer found answered]
    exact ⟨findHead_updateHead_self found _ fun _ => rfl, rfl, rfl⟩
  · rw [judgeHead_of_degraded found unanswered degraded]
    refine ⟨?_, rfl, rfl⟩
    refine findHead_updateHead_twice found ?_ ?_
    · exact fun _ => rfl
    · exact fun _ => rfl
  · rw [judgeHead_of_few_misses found unanswered active few]
    exact ⟨findHead_updateHead_self found _ fun _ => rfl, rfl, rfl⟩
  · rw [judgeHead_of_many_misses found unanswered active many]
    refine ⟨?_, setEvent_has _ _, fun room => mem_events_setEvent ?_ _⟩
    · rw [findHead_of_heads (setEvent_heads _ _), findHead_of_heads (offerNote_heads _ _)]
      refine findHead_updateHead_twice found ?_ ?_
      · exact fun _ => rfl
      · exact fun _ => rfl
    · rw [offerNote_of_room]
      · exact List.mem_append_right _ List.mem_cons_self
      · exact room
  · rw [advanceRecovery_of_few degraded few]
    exact ⟨findHead_updateHead_self found _ fun _ => rfl, rfl⟩
  · rw [advanceRecovery_of_enough degraded enough]
    refine ⟨?_, fun room => ?_⟩
    · rw [findHead_of_heads (offerNote_heads _ _)]
      exact findHead_updateHead_self found _ fun _ => rfl
    · rw [offerNote_of_room]
      · rfl
      · exact room

end Sys2Proof.Machine
end

section
/-! # The gauge point (R68) -/

namespace Sys2Proof.Machine

/-- One candidate as good as another: the other is not to be chosen over it (R68 step 4). -/
def AsGood (rail : Side) (a b : Int × Nat) : Prop := betterCandidate rail b a = false

theorem asGood_iff {rail : Side} {a b : Int × Nat} : AsGood rail a b ↔ a.2 < b.2 ∨ (a.2 = b.2 ∧ match rail with
    | .left => b.1 ≤ a.1
    | .right => a.1 ≤ b.1) := by
  cases rail <;> simp [AsGood, betterCandidate] <;> omega

theorem AsGood.refl (rail : Side) (a : Int × Nat) : AsGood rail a a := by
  cases rail <;> simp [asGood_iff]

theorem AsGood.trans {rail : Side} {a b c : Int × Nat} (h : AsGood rail a b) (h' : AsGood rail b c) : AsGood rail a c := by
  cases rail <;> simp only [asGood_iff] at * <;> omega

theorem AsGood.of_better {rail : Side} {a b : Int × Nat} (h : betterCandidate rail a b = true) : AsGood rail a b := by
  cases rail <;> simp [asGood_iff, betterCandidate] at * <;> omega

/-- The comparison of one more candidate with the best of those before. -/
def pickCandidate (rail : Side) (best : Option (Int × Nat)) (c : Int × Nat) : Option (Int × Nat) :=
  match best with
  | none => some c
  | some b => if betterCandidate rail c b then some c else best

theorem gaugePoint_eq (p : Params) (rail : Side) (minStrength : Nat) (returns : List Return) :
    gaugePoint p rail minStrength returns
      = ((returns.filterMap (candidate p minStrength)).foldl (pickCandidate rail) none).map (·.1) := rfl

/-- The candidate chosen from a list and a first one is one of them, and as good as each. -/
theorem foldl_pickCandidate (rail : Side) (l : List (Int × Nat)) (first : Int × Nat) :
    ∃ x ∈ first :: l, l.foldl (pickCandidate rail) (some first) = some x ∧ ∀ c ∈ first :: l, AsGood rail x c := by
  induction l generalizing first with
  | nil => exact ⟨first, List.mem_cons_self, rfl, by simp [AsGood.refl]⟩
  | cons c rest ih =>
    rw [List.foldl_cons]
    cases better : betterCandidate rail c first with
    | true =>
      have picked : pickCandidate rail (some first) c = some c := by simp [pickCandidate, better]
      obtain ⟨x, mem, chosen, best⟩ := ih c
      refine ⟨x, List.mem_cons_of_mem _ mem, by rw [picked]; exact chosen, List.forall_mem_cons.mpr ⟨?_, best⟩⟩
      exact (best c List.mem_cons_self).trans (.of_better better)
    | false =>
      have picked : pickCandidate rail (some first) c = some first := by simp [pickCandidate, better]
      obtain ⟨x, mem, chosen, best⟩ := ih first
      obtain ⟨bestFirst, bestRest⟩ := List.forall_mem_cons.mp best
      refine ⟨x, ?_, by rw [picked]; exact chosen, List.forall_mem_cons.mpr ⟨bestFirst, List.forall_mem_cons.mpr ⟨?_, bestRest⟩⟩⟩
      · obtain rfl | mem := List.mem_cons.mp mem
        · exact List.mem_cons_self
        · exact List.mem_cons_of_mem _ (List.mem_cons_of_mem _ mem)
      · exact bestFirst.trans better

/-- The candidates are the returns that qualify (R68 step 2). -/
theorem candidate_eq_some {p : Params} {minStrength : Nat} {r : Return} {lateral : Int} {off : Nat} :
    candidate p minStrength r = some (lateral, off) ↔ ∃ depth, r.lateral = some lateral ∧ r.depth = some depth
      ∧ minStrength ≤ r.strength ∧ (depth - p.gaugeDepth).natAbs ≤ p.gaugeWindow ∧ off = (depth - p.gaugeDepth).natAbs := by
  obtain ⟨l, d, strength⟩ := r
  cases l <;> cases d <;> simp [candidate, and_assoc, eq_comm]
  tauto

/-- Settles O41: the fold of `gaugePoint` keeps a candidate as good as all before it (`foldl_pickCandidate`). -/
theorem gaugePointIsTheBestReturn : Obligations.GaugePointIsTheBestReturn := by
  intro p rail minStrength returns qualifies
  have listed : ∀ {lateral off}, (lateral, off) ∈ returns.filterMap (candidate p minStrength) ↔
      ∃ x depth, qualifies x lateral depth ∧ off = (depth - p.gaugeDepth).natAbs := by
    intro lateral off
    rw [List.mem_filterMap]
    refine exists_congr fun x => ?_
    rw [candidate_eq_some]
    constructor
    · rintro ⟨mem, depth, hl, hd, strong, near, rfl⟩
      exact ⟨depth, ⟨mem, hl, hd, strong, near⟩, rfl⟩
    · rintro ⟨depth, ⟨mem, hl, hd, strong, near⟩, rfl⟩
      exact ⟨mem, depth, hl, hd, strong, near, rfl⟩
  rw [gaugePoint_eq]
  generalize returns.filterMap (candidate p minStrength) = candidates at listed
  cases candidates with
  | nil =>
    refine ⟨⟨fun _ x lateral depth q => ?_, fun _ => rfl⟩, nofun⟩
    exact List.not_mem_nil (listed.mpr ⟨x, depth, q, rfl⟩)
  | cons c rest =>
    obtain ⟨best, mem, chosen, asGood⟩ := foldl_pickCandidate rail rest c
    obtain ⟨x, depth, q, off⟩ := listed.mp mem
    have result : (c :: rest).foldl (pickCandidate rail) none = some best := chosen
    rw [result]
    refine ⟨⟨nofun, fun none' => (none' x _ depth q).elim⟩, fun lateral is => ?_⟩
    cases is
    refine ⟨x, depth, q, fun y lateral' depth' q' => ?_⟩
    have good := asGood_iff.mp (asGood _ (listed.mpr ⟨y, depth', q', rfl⟩))
    rw [off] at good
    cases rail <;> exact good

end Sys2Proof.Machine
end

section
/-! # A SAMPLE judged and taken (R62 to R67, R72, R185) -/

namespace Sys2Proof.Machine

/-! ### Readings (R65) -/

/-- A reading of a payload is void by the no-value code, or outside its range with the head's offset. -/
theorem convert_eq (w : Word) (offset lo hi : Int) : convert w offset lo hi =
    if w = 0x7FFFFFFF ∨ w.toInt + offset < lo ∨ hi < w.toInt + offset then none else some (w.toInt + offset) := by
  unfold convert inRange
  by_cases void : w = 0x7FFFFFFF
  · rw [if_pos void, if_pos (.inl void)]
  · rw [if_neg void]
    by_cases within : lo ≤ w.toInt + offset ∧ w.toInt + offset ≤ hi
    · rw [if_pos within, if_neg]
      rintro (h | h | h)
      · exact void h
      · omega
      · omega
    · rw [if_neg within, if_pos]
      refine .inr ?_
      omega

/-! ### The returns of a profile payload (R66) -/

theorem byteAt_drop (p : List Byte) (n i : Nat) : byteAt (p.drop n) i = byteAt p (n + i) := (byteAt_add p n i).symm

theorem byteAt_take (p : List Byte) {n i : Nat} (h : i < n) : byteAt (p.take n) i = byteAt p i := by
  simp [byteAt, List.getD_eq_getElem?_getD, List.getElem?_take_of_lt h]

theorem wordAt_take (p : List Byte) {n i : Nat} (h : i + 3 < n) : wordAt (p.take n) i = wordAt p i := by
  simp only [wordAt, halfAt]
  rw [byteAt_take p (by omega), byteAt_take p (by omega), byteAt_take p (by omega), byteAt_take p (by omega)]

theorem readReturns_length (e : RosterEntry) (payload : List Byte) :
    (readReturns e payload).length = (byteAt payload 10).toNat := by
  rw [readReturns, List.length_map, chunks_length]

/-- The i-th return lies 9 bytes behind the one before it. -/
theorem readReturns_getElem? (e : RosterEntry) (payload : List Byte) {i : Nat} (h : i < (byteAt payload 10).toNat) :
    (readReturns e payload)[i]? = some
      { lateral := convert (wordAt payload (11 + 9 * i)) e.lateralOffset (-100000) 100000
        depth := if wordAt payload (15 + 9 * i) = 0x7FFFFFFF then none else some (wordAt payload (15 + 9 * i)).toInt
        strength := (byteAt payload (19 + 9 * i)).toNat } := by
  have word : ∀ j, j + 3 < 9 → wordAt (((payload.drop 11).drop (9 * i)).take 9) j = wordAt payload (11 + 9 * i + j) := by
    intro j hj
    rw [wordAt_take _ hj, List.drop_drop, ← wordAt_add]
  have byte : byteAt (((payload.drop 11).drop (9 * i)).take 9) 8 = byteAt payload (11 + 9 * i + 8) := by
    rw [byteAt_take _ (by omega), List.drop_drop, ← byteAt_add]
  rw [readReturns, List.getElem?_map, chunks_getElem? h, Option.map_some, word 0 (by omega), word 4 (by omega), byte,
    show 11 + 9 * i + 4 = 15 + 9 * i by omega, show 11 + 9 * i + 8 = 19 + 9 * i by omega, Nat.add_zero]

/-! ### The form of a payload (R185) -/

theorem wellFormedFor_of_rail {e : RosterEntry} (rail : e.role.rail.isSome = true) (payload : List Byte) :
    wellFormedFor e payload = true ↔ 11 ≤ payload.length ∧ (byteAt payload 10).toNat ≤ 8
      ∧ payload.length = 11 + 9 * (byteAt payload 10).toNat ∧ (byteAt payload 10).toNat ≤ e.maxReturns := by
  obtain ⟨side, rail⟩ := Option.isSome_iff_exists.mp rail
  simp [wellFormedFor, rail]

theorem wellFormedFor_of_body {e : RosterEntry} (body : e.role = .bodyMotion) (payload : List Byte) :
    wellFormedFor e payload = true ↔ payload.length = 17 := by
  simp [wellFormedFor, body, Role.rail]

/-! ### The steps of R62 -/

theorem SampleStatus.ofCode_eq_none {b : Byte} : SampleStatus.ofCode b = none ↔ 3 < b.toNat := by
  simp only [SampleStatus.ofCode, ← BitVec.toNat_inj, BitVec.ofNat_eq_ofNat, BitVec.reduceToNat]
  split_ifs <;> simp <;> omega

/-- A station whose entry has left the table, or stands in it CLOSED (R62 step 3). -/
theorem isLate_iff (s : State) (n : Nat) : s.isLate n = true ↔ s.table = [] ∨ (∃ p rest, s.table = p :: rest ∧ n < p.number)
    ∨ ∃ p ∈ s.table, p.number = n ∧ p.closed ≠ none := by
  unfold State.isLate
  cases s.table with
  | nil => simp
  | cons p rest =>
    simp only [Bool.or_eq_true, decide_eq_true_eq, List.any_eq_true, Bool.and_eq_true, beq_iff_eq, Option.isSome_iff_ne_none]
    simp

section Steps

variable {s : State} {h : Head} {payload : List Byte}

theorem sampleIntake_of_malformed
    (bad : payload.length < 5 ∨ 3 < (byteAt payload 4).toNat ∨ s.dist.next ≤ (wordAt payload 0).toNat) :
    sampleIntake s h payload = countMalformed s h := by
  unfold sampleIntake
  dsimp only
  split
  · rfl
  · rename_i long
    split
    · rfl
    · rename_i status code
      have known : ¬ 3 < (byteAt payload 4).toNat := fun high =>
        nomatch (SampleStatus.ofCode_eq_none.mpr high).symm.trans code
      rw [if_pos]
      omega

/-- A payload that passes steps 1 and 2, of a status and a station fired. -/
structure Readable (s : State) (payload : List Byte) (status : SampleStatus) : Prop where
  long : 5 ≤ payload.length
  code : SampleStatus.ofCode (byteAt payload 4) = some status
  fired : (wordAt payload 0).toNat < s.dist.next

variable {status : SampleStatus} (read : Readable s payload status)
include read

theorem sampleIntake_of_late (late : s.isLate (wordAt payload 0).toNat = true) :
    sampleIntake s h payload = lateSample s h (wordAt payload 0).toNat payload := by
  simp [sampleIntake, Nat.not_lt.mpr read.long, read.code, Nat.not_le.mpr read.fired, late]

variable (open' : s.isLate (wordAt payload 0).toNat = false)
include open'

theorem sampleIntake_of_noEntry (none' : ∀ p ∈ s.table, p.number ≠ (wordAt payload 0).toNat) :
    sampleIntake s h payload = countUnasked s h := by
  have missing : s.table.find? (·.number == (wordAt payload 0).toNat) = none := by simpa using none'
  simp [sampleIntake, Nat.not_lt.mpr read.long, read.code, Nat.not_le.mpr read.fired, open', missing]

variable {p : PendingStation} (entry : s.table.find? (·.number == (wordAt payload 0).toNat) = some p)
include entry

theorem sampleIntake_of_noMember (none' : ∀ m ∈ p.members, m.addr ≠ h.cfg.addr) :
    sampleIntake s h payload = countUnasked s h := by
  have missing : p.members.find? (·.addr == h.cfg.addr) = none := by simpa using none'
  simp [sampleIntake, Nat.not_lt.mpr read.long, read.code, Nat.not_le.mpr read.fired, open', entry, missing]

variable {m : Member} (member : p.members.find? (·.addr == h.cfg.addr) = some m)
include member

theorem sampleIntake_of_answered (answered : m.sample ≠ none) : sampleIntake s h payload = countDuplicate s h := by
  simp [sampleIntake, Nat.not_lt.mpr read.long, read.code, Nat.not_le.mpr read.fired, open', entry, member,
    Option.isSome_iff_ne_none.mpr answered]

theorem sampleIntake_of_badForm (asked : m.sample = none) (bad : wellFormedFor h.cfg payload = false) :
    sampleIntake s h payload = countMalformed s h := by
  simp [sampleIntake, Nat.not_lt.mpr read.long, read.code, Nat.not_le.mpr read.fired, open', entry, member, asked, bad]

theorem sampleIntake_of_accepted (asked : m.sample = none) (form : wellFormedFor h.cfg payload = true) :
    sampleIntake s h payload = acceptSample s h (wordAt payload 0).toNat status payload := by
  simp [sampleIntake, Nat.not_lt.mpr read.long, read.code, Nat.not_le.mpr read.fired, open', entry, member, asked, form]

end Steps

/-! ### What an accepted and a late sample leave (R63, R64) -/

theorem advanceRecovery_table (s : State) (n : Nat) (h : Head) : (advanceRecovery s n h).table = s.table :=
  advanceRecovery_changes s n h .table (by decide)

theorem acceptSample_eq (s : State) (h : Head) (n : Nat) (st : SampleStatus) (payload : List Byte) :
    acceptSample s h n st payload = closeAnswered (advanceRecovery
      ((s.updateHead h.cfg.addr fun h => { h with accepted := h.accepted + 1 }).withTable
        (s.table.map fun p => if p.number = n then { p with members := p.members.map fun m =>
          if m.addr = h.cfg.addr then { m with sample := some (convertSample s.params h.cfg st payload) } else m } else p)) n h)
      s.table.length := by
  unfold acceptSample
  dsimp only
  rw [advanceRecovery_table]
  simp only [State.updateEntry, State.withTable_table, List.length_map]
  rfl

theorem lateSample_eq (s : State) (h : Head) (n : Nat) (payload : List Byte) : lateSample s h n payload =
    closeAnswered (if wellFormedFor h.cfg payload
        then advanceRecovery (s.updateHead h.cfg.addr fun h => { h with late := h.late + 1 }) n h
        else s.updateHead h.cfg.addr fun h => { h with late := h.late + 1 }) s.table.length := by
  unfold lateSample
  dsimp only
  split
  · rw [advanceRecovery_table]
    rfl
  · rfl

/-- A profile sample without a top is void whole (R66). -/
theorem convertProfile_eq (p : Params) (e : RosterEntry) (rail : Side) (status : SampleStatus) (payload : List Byte)
    {top : Option Int}
    (is : (if (byteAt payload 5).getLsbD 0 then convert (wordAt payload 6) e.verticalOffset (-150000) 0 else none) = top) :
    convertProfile p e rail status payload =
      if status = .ok ∧ top ≠ none then
        .profile status (gaugePoint p rail e.minStrength (readReturns e payload)) top
      else .profile status none none := by
  unfold convertProfile
  rw [is]
  by_cases ok : status = .ok
  · cases top <;> simp [ok]
  · simp [ok]

/-- Settles O38: `sampleIntake` branch by branch, and the conversion of each reading (`convert_eq`). -/
theorem sampleIsJudgedInOrder : Obligations.SampleIsJudgedInOrder := by
  refine ⟨rfl, fun _ _ _ => rfl, fun s a => ⟨fun h found => ⟨List.mem_of_find?_eq_some found, addr_of_findHead found⟩, ?_⟩,
    fun s h payload => ⟨sampleIntake_of_malformed, fun long known fired => ?_⟩, fun s h n st payload => ?_⟩
  · simp [State.findHead]
  · obtain ⟨status, code⟩ : ∃ status, SampleStatus.ofCode (byteAt payload 4) = some status := by
      refine Option.ne_none_iff_exists'.mp fun none' => ?_
      exact Nat.not_lt.mpr known (SampleStatus.ofCode_eq_none.mp none')
    have read : Readable s payload status := ⟨long, code, fired⟩
    rw [← isLate_iff, Bool.not_eq_true]
    refine ⟨sampleIntake_of_late read, fun open' => ⟨sampleIntake_of_noEntry read open', fun p entry =>
      ⟨sampleIntake_of_noMember read open' entry, fun m member => ⟨sampleIntake_of_answered read open' entry member,
        sampleIntake_of_badForm read open' entry member, fun asked form st is => ?_⟩⟩⟩⟩
    exact sampleIntake_of_accepted ⟨long, is, fired⟩ open' entry member asked form
  · intro reading top profile stored accepted late
    have read : ∀ at_ offset lo hi, convert (wordAt payload at_) offset lo hi = reading at_ offset lo hi :=
      fun at_ => convert_eq (wordAt payload at_)
    have topIs : (if (byteAt payload 5).getLsbD 0 then convert (wordAt payload 6) h.cfg.verticalOffset (-150000) 0
        else none) = top := by rw [read]
    have profileIs : ∀ rail, convertProfile s.params h.cfg rail st payload = profile rail := fun rail =>
      convertProfile_eq s.params h.cfg rail st payload topIs
    have storedIs : convertSample s.params h.cfg st payload = stored := by
      cases role : h.cfg.role <;> simp only [stored, convertSample, role, Role.rail, profileIs, convertBody, read]
    refine ⟨?_, lateSample_eq s h n payload, fun rail => wellFormedFor_of_rail ?_ payload,
      fun body => wellFormedFor_of_body body payload, readReturns_length h.cfg payload, fun i below => ?_⟩
    · rw [acceptSample_eq, storedIs]
    · rcases rail with left | right
      · rw [left]; rfl
      · rw [right]; rfl
    · rw [readReturns_getElem? h.cfg payload below, read]

end Sys2Proof.Machine
end

section
/-! # A station closes: its deadline, the answered entries, and its inputs (R61, R69 to R74) -/

namespace Sys2Proof.Machine

/-! ### The OPEN entry of a station -/

theorem openEntry_eq_some {s : State} {n : Nat} {p : PendingStation} (h : s.openEntry n = some p) :
    p ∈ s.table ∧ p.number = n ∧ p.closed = none := by
  have holds := List.find?_some h
  simp only [Bool.and_eq_true, beq_iff_eq, Option.isNone_iff_eq_none] at holds
  exact ⟨List.mem_of_find?_eq_some h, holds⟩

theorem openEntry_eq_none {s : State} {n : Nat} :
    s.openEntry n = none ↔ ∀ p ∈ s.table, p.number = n → p.closed ≠ none := by
  simp [State.openEntry]

theorem openEntry_of_table {s t : State} (h : t.table = s.table) (n : Nat) : t.openEntry n = s.openEntry n := by
  unfold State.openEntry
  rw [h]

theorem openEntry_of_head {s : State} {p : PendingStation} (head : s.table.head? = some p) (isOpen : p.closed = none) :
    s.openEntry p.number = some p := by
  obtain ⟨rest, table⟩ := List.head?_eq_some_iff.mp head
  simp [State.openEntry, table, isOpen]

/-! ### What entering and closing leave of the table and of the count of stations entered -/

theorem enterPending_table (s : State) (p : PendingStation) (i : Inputs) : (enterPending s p i).table = s.table :=
  enterPending_changes s p i .table (by decide)

theorem enterRing_entryNumber (s : State) (e : Entering) : (enterRing s e).loc.entryNumber = s.loc.entryNumber + 1 := by
  by_cases last : e.number = s.ring.next + s.ring.long
  · rw [enterRing_of_last last]
    exact evaluateNext_changes (s.entered e) .entryNumber (by decide)
  · rw [enterRing_of_other last]
    rfl

theorem enterSkipped_entryNumber (count : Nat) (s : State) (n : Nat) :
    (enterSkipped s n count).loc.entryNumber = s.loc.entryNumber + count := by
  induction count generalizing s n with
  | zero => rfl
  | succ count ih => rw [enterSkipped, ih, enterRing_entryNumber, Nat.add_assoc, Nat.add_comm 1]

theorem enterPending_entryNumber (s : State) (p : PendingStation) (i : Inputs) :
    (enterPending s p i).loc.entryNumber = s.loc.entryNumber + 1 + p.skips := by
  rw [enterPending, enterSkipped_entryNumber, enterRing_entryNumber]

theorem enterClosed_entryNumber_le (fuel : Nat) (s : State) : s.loc.entryNumber ≤ (enterClosed s fuel).loc.entryNumber := by
  induction fuel generalizing s with
  | zero => exact Nat.le_refl _
  | succ fuel ih =>
    unfold enterClosed
    split
    · exact Nat.le_refl _
    · split
      · exact Nat.le_refl _
      · refine Nat.le_trans ?_ (ih _)
        rw [enterPending_entryNumber, Nat.add_assoc]
        exact Nat.le_add_right _ _

/-- Entering takes CLOSED entries out of the table only. -/
theorem enterClosed_openEntry (fuel : Nat) (s : State) (n : Nat) : (enterClosed s fuel).openEntry n = s.openEntry n := by
  induction fuel generalizing s with
  | zero => rfl
  | succ fuel ih =>
    unfold enterClosed
    split
    · rfl
    · rename_i p rest table
      split
      · rfl
      · rename_i inputs closed
        rw [ih, openEntry_of_table (enterPending_table _ _ _)]
        simp [State.openEntry, table, closed]

/-- The state in which the heads of an entry's set have been judged (R70). -/
def State.judged (s : State) (p : PendingStation) : State := p.members.foldl (judgeHead p.number) s

/-- The state in which an entry's heads have been judged and it is CLOSED with its inputs (R69, R73). -/
def State.marked (s : State) (p : PendingStation) : State :=
  (s.judged p).withTable (s.table.map fun q =>
    if q.number = p.number then { q with closed := some ((s.judged p).inputsOf p.members) } else q)

theorem judged_changes (s : State) (p : PendingStation) : s.ChangesOnly (.heads :: Region.noted) (s.judged p) :=
  .foldl _ (fun s m => judgeHead_changes _ s m) _ _

theorem judged_table (s : State) (p : PendingStation) : (s.judged p).table = s.table :=
  judged_changes s p .table (by decide)

theorem marked_entryNumber (s : State) (p : PendingStation) : (s.marked p).loc.entryNumber = s.loc.entryNumber :=
  judged_changes s p .entryNumber (by decide)

theorem closeStation_eq (s : State) (p : PendingStation) : closeStation s p = enterClosed (s.marked p) s.table.length := by
  have updated : (s.judged p).updateEntry p.number (fun q => { q with closed := some ((s.judged p).inputsOf p.members) })
      = s.marked p := by
    rw [State.updateEntry, judged_table, State.marked]
  have length : (s.marked p).table.length = s.table.length := by simp [State.marked]
  calc closeStation s p = enterClosed (s.marked p) (s.marked p).table.length := by rw [← updated]; rfl
    _ = enterClosed (s.marked p) s.table.length := by rw [length]

theorem closeStation_openEntry (s : State) (p : PendingStation) (n : Nat) :
    (closeStation s p).openEntry n = if p.number = n then none else s.openEntry n := by
  rw [closeStation_eq, enterClosed_openEntry]
  simp only [State.openEntry, State.marked, State.withTable_table]
  generalize State.inputsOf _ _ = inputs
  rw [List.find?_map]
  split
  · rename_i same
    simp only [Option.map_eq_none_iff, List.find?_eq_none, Function.comp_apply]
    intro q _
    by_cases hq : q.number = p.number
    · simp [hq]
    · simp [hq, ← same]
  · rename_i other
    have asked : ((fun q : PendingStation => q.number == n && q.closed.isNone)
        ∘ fun q => if q.number = p.number then { q with closed := some inputs } else q)
        = fun q => q.number == n && q.closed.isNone := by
      funext q
      by_cases hq : q.number = p.number
      · simp [hq, other]
      · simp [hq]
    rw [asked]
    cases found : s.table.find? fun q => q.number == n && q.closed.isNone with
    | none => rfl
    | some q =>
      have number := (openEntry_eq_some found).2.1
      rw [Option.map_some, if_neg (number ▸ Ne.symm other)]

/-- The close of the oldest entry's station lets it enter, followed by its skipped stations (R74). -/
theorem closeStation_enters_head {s : State} {p q : PendingStation} (head : s.table.head? = some q)
    (same : q.number = p.number) : s.loc.entryNumber + 1 + q.skips ≤ (closeStation s p).loc.entryNumber := by
  obtain ⟨rest, table⟩ := List.head?_eq_some_iff.mp head
  have marked : ∃ rest', (s.marked p).table =
      { q with closed := some ((s.judged p).inputsOf p.members) } :: rest' := by
    simp [State.marked, table, same]
  obtain ⟨rest', marked⟩ := marked
  rw [closeStation_eq, table, List.length_cons, enterClosed_of_closed marked rfl]
  refine Nat.le_trans ?_ (enterClosed_entryNumber_le _ _)
  rw [enterPending_entryNumber]
  exact Nat.le_of_eq (congrArg (· + 1 + q.skips) (marked_entryNumber s p).symm)

theorem closeStation_entryNumber_le (s : State) (p : PendingStation) :
    s.loc.entryNumber ≤ (closeStation s p).loc.entryNumber := by
  rw [closeStation_eq]
  exact Nat.le_trans (Nat.le_of_eq (marked_entryNumber s p).symm) (enterClosed_entryNumber_le _ _)

/-- The close of another station leaves the oldest entry, if OPEN, the oldest. -/
theorem closeStation_keeps_head {s : State} {p q : PendingStation} (head : s.table.head? = some q) (isOpen : q.closed = none)
    (other : q.number ≠ p.number) : (closeStation s p).table.head? = some q := by
  obtain ⟨rest, table⟩ := List.head?_eq_some_iff.mp head
  have marked : ∃ rest', (s.marked p).table = q :: rest' := by simp [State.marked, table, other]
  obtain ⟨rest', marked⟩ := marked
  rw [closeStation_eq, enterClosed_of_waiting (.inr ⟨q, rest', marked, isOpen⟩), marked]
  rfl

/-! ### What any closes leave -/

/-- From `s` to `t` OPEN entries close or stay, and stations enter; the oldest entry, if OPEN, stays the oldest or enters,
followed by its skipped stations. -/
structure State.Closes (s t : State) : Prop where
  openEntry : ∀ n, t.openEntry n = none ∨ t.openEntry n = s.openEntry n
  entered : s.loc.entryNumber ≤ t.loc.entryNumber
  head : ∀ p, s.table.head? = some p → p.closed = none →
    t.table.head? = some p ∨ s.loc.entryNumber + 1 + p.skips ≤ t.loc.entryNumber

namespace State.Closes

theorem of_same {s t : State} (table : t.table = s.table) (entered : t.loc.entryNumber = s.loc.entryNumber) : s.Closes t where
  openEntry n := .inr (openEntry_of_table table n)
  entered := Nat.le_of_eq entered.symm
  head p first _ := .inl (by rw [table, first])

theorem trans {s t u : State} (h : s.Closes t) (h' : t.Closes u) : s.Closes u where
  openEntry n := by
    rcases h'.openEntry n with closed | same
    · exact .inl closed
    · rw [same]
      exact h.openEntry n
  entered := Nat.le_trans h.entered h'.entered
  head p first isOpen := by
    rcases h.head p first isOpen with stays | enters
    · have := h.entered
      exact (h'.head p stays isOpen).imp_right fun enters => by omega
    · exact .inr (Nat.le_trans enters h'.entered)

theorem closeStation (s : State) (p : PendingStation) : s.Closes (closeStation s p) where
  openEntry n := by
    rw [closeStation_openEntry]
    split
    · exact .inl rfl
    · exact .inr rfl
  entered := closeStation_entryNumber_le s p
  head q first isOpen := by
    by_cases same : q.number = p.number
    · exact .inr (closeStation_enters_head first same)
    · exact .inl (closeStation_keeps_head first isOpen same)

theorem closeAnswered (fuel : Nat) (s : State) : s.Closes (closeAnswered s fuel) := by
  induction fuel generalizing s with
  | zero => exact of_same rfl rfl
  | succ fuel ih =>
    unfold Machine.closeAnswered
    split
    · exact of_same rfl rfl
    · exact (closeStation s _).trans (ih _)

theorem settle (s : State) : s.Closes (settle s) :=
  of_same (settle_changes s .table (by decide)) (settle_changes s .entryNumber (by decide))

theorem takeOwn (s : State) (e : OwnEvent) : s.Closes (takeOwn s e) := by
  by_cases h : ∃ station, e = .deadline station
  · obtain ⟨station, rfl⟩ := h
    unfold Machine.takeOwn
    dsimp only
    split
    · exact of_same rfl rfl
    · exact ((closeStation s _).trans (closeAnswered _ _)).trans (settle _)
  · have other : ∀ r ∈ [Region.table, Region.entryNumber], r ∉ changedBy e.command := by
      cases e with
      | deadline station => exact (h ⟨station, rfl⟩).elim
      | pulseEnd side => cases side <;> decide
      | _ => decide
    exact of_same (takeOwn_changes s e .table (other _ (by simp))) (takeOwn_changes s e .entryNumber (other _ (by simp)))

theorem after (s : State) (n : Nat) : s.Closes (s.after n) :=
  after_induction (P := fun s _ r => s.Closes r) (fun _ _ _ => of_same rfl rfl)
    (fun s _ t e k _ _ _ _ rest =>
      (of_same (s := s) (t := (elapse t s).withDraws k) rfl rfl).trans ((takeOwn _ e).trans rest)) s n

end State.Closes

/-! ### The expiry of a deadline (R61) -/

section Deadline

variable {s : State} {station : Nat} {p : PendingStation} (entry : s.openEntry station = some p)
include entry

theorem atMoment_deadline : s.atMoment (.deadline station) = s.after (timeUntil s.time p.deadline) := by
  simp [State.atMoment, State.timeTo, entry]

/-- The time base has reached the deadline then. -/
theorem timeUntil_atMoment_deadline : timeUntil (s.atMoment (.deadline station)).time p.deadline = 0 := by
  rw [atMoment_deadline entry, after_time, timeUntil_later (Nat.le_refl _), Nat.sub_self]

theorem time_atMoment_deadline : (s.atMoment (.deadline station)).time =
    if (s.time - p.deadline).toNat < 2 ^ 31 then s.time else p.deadline := by
  rw [atMoment_deadline entry, after_time]
  unfold timeUntil
  split
  · exact BitVec.add_zero _
  · rw [BitVec.ofNat_toNat, BitVec.setWidth_eq, BitVec.add_comm, BitVec.sub_add_cancel]

theorem closes_atMoment_deadline : s.Closes (s.atMoment (.deadline station)) :=
  atMoment_deadline entry ▸ .after s _

end Deadline

theorem takeOwn_deadline {w : State} {station : Nat} {q : PendingStation} (entry : w.openEntry station = some q) :
    takeOwn w (.deadline station)
      = settle (closeAnswered (closeStation w q) (closeStation w q).table.length) := by
  simp [takeOwn, entry]

/-- The wait leaves the entry as it was, and the expiry closes it; or it has closed in the wait, and nothing comes. -/
theorem awaitOwn_deadline_cases {s : State} {station : Nat} {p : PendingStation} (entry : s.openEntry station = some p) :
    let w := s.atMoment (.deadline station)
    (w.openEntry station = some p ∧ awaitOwn (.deadline station) s = takeOwn w (.deadline station))
      ∨ (w.openEntry station = none ∧ awaitOwn (.deadline station) s = w) := by
  intro w
  rcases (closes_atMoment_deadline entry).openEntry station with closed | same
  · refine .inr ⟨closed, if_neg ?_⟩
    simp [State.timeTo, closed]
  · have stays : w.openEntry station = some p := same.trans entry
    refine .inl ⟨stays, ?_⟩
    have comes : w.timeTo (.deadline station) = some 0 := by
      simp only [State.timeTo, stays, Option.map_some, w, timeUntil_atMoment_deadline entry]
    exact if_pos comes

theorem awaitOwn_deadline_closes {s : State} {station : Nat} {p : PendingStation} (entry : s.openEntry station = some p) :
    (awaitOwn (.deadline station) s).openEntry station = none := by
  rcases awaitOwn_deadline_cases entry with ⟨stays, taken⟩ | ⟨closed, nothing⟩
  · rw [taken, takeOwn_deadline stays, openEntry_of_table (settle_changes _ .table (by decide))]
    have shut : (closeStation (s.atMoment (.deadline station)) p).openEntry station = none := by
      rw [closeStation_openEntry, if_pos (openEntry_eq_some entry).2.1]
    exact ((State.Closes.closeAnswered _ _).openEntry station).elim id (·.trans shut)
  · rw [nothing, closed]

theorem awaitOwn_deadline_time {s : State} {station : Nat} {p : PendingStation} (entry : s.openEntry station = some p) :
    (awaitOwn (.deadline station) s).time = if (s.time - p.deadline).toNat < 2 ^ 31 then s.time else p.deadline := by
  rw [← time_atMoment_deadline entry]
  rcases awaitOwn_deadline_cases entry with ⟨-, taken⟩ | ⟨-, nothing⟩
  · rw [taken, takeOwn_time]
  · rw [nothing]

theorem closes_awaitOwn_deadline {s : State} {station : Nat} {p : PendingStation} (entry : s.openEntry station = some p) :
    s.Closes (awaitOwn (.deadline station) s) := by
  have waits := closes_atMoment_deadline entry
  rcases awaitOwn_deadline_cases entry with ⟨-, taken⟩ | ⟨-, nothing⟩
  · exact taken ▸ waits.trans (.takeOwn _ _)
  · exact nothing ▸ waits

/-- The oldest entry enters the ring. -/
theorem awaitOwn_deadline_enters {s : State} {station : Nat} {p : PendingStation} (entry : s.openEntry station = some p)
    (head : s.table.head? = some p) :
    s.loc.entryNumber + 1 + p.skips ≤ (awaitOwn (.deadline station) s).loc.entryNumber := by
  obtain ⟨-, rfl, isOpen⟩ := openEntry_eq_some entry
  refine ((closes_awaitOwn_deadline entry).head p head isOpen).elim (fun stays => ?_) id
  have shut := awaitOwn_deadline_closes entry
  rw [openEntry_of_head stays isOpen] at shut
  exact nomatch shut

/-! ### The entries answered (R69) -/

theorem answered_iff (s : State) (p : PendingStation) : s.answered p = true ↔
    (∀ m ∈ p.members, m.sample ≠ none)
      ∨ ((∃ m ∈ p.members, s.isActive m.addr = true) ∧ ∀ m ∈ p.members, s.isActive m.addr = true → m.sample ≠ none) := by
  simp [State.answered, Option.isSome_iff_ne_none, imp_iff_not_or]

theorem isActive_iff (s : State) (a : Byte) : s.isActive a = true ↔ ∃ h, s.findHead a = some h ∧ h.active = true := by
  unfold State.isActive
  cases s.findHead a <;> simp

theorem firstAnswered_eq_none {s : State} :
    s.firstAnswered = none ↔ ∀ p ∈ s.table, p.closed = none → s.answered p = false := by
  simp [State.firstAnswered]

theorem firstAnswered_of_split {s : State} {p : PendingStation} {older newer : List PendingStation}
    (table : s.table = older ++ p :: newer) (before : ∀ q ∈ older, q.closed ≠ none ∨ s.answered q = false)
    (isOpen : p.closed = none) (answered : s.answered p = true) : s.firstAnswered = some p := by
  have passed : older.find? (fun q => q.closed.isNone && s.answered q) = none := by
    refine List.find?_eq_none.mpr fun q hq => ?_
    rcases before q hq with closed | waits
    · simp [closed]
    · simp [waits]
  rw [State.firstAnswered, table, List.find?_append, passed, Option.none_or,
    List.find?_cons_of_pos (by simp [isOpen, answered])]

theorem closeAnswered_of_none {s : State} (none' : s.firstAnswered = none) (fuel : Nat) : closeAnswered s fuel = s := by
  cases fuel with
  | zero => rfl
  | succ fuel => simp [closeAnswered, none']

theorem closeAnswered_of_first {s : State} {p : PendingStation} (first : s.firstAnswered = some p) (fuel : Nat) :
    closeAnswered s (fuel + 1) = closeAnswered (closeStation s p) fuel := by
  simp [closeAnswered, first]

theorem firstAnswered_eq_some {s : State} {p : PendingStation} (h : s.firstAnswered = some p) :
    p ∈ s.table ∧ p.closed.isNone = true := by
  have holds := List.find?_some h
  simp only [Bool.and_eq_true] at holds
  exact ⟨List.mem_of_find?_eq_some h, holds.1⟩

/-- As many closes as there are OPEN entries leave none answered, for each leaves fewer OPEN. -/
theorem firstAnswered_closeAnswered (fuel : Nat) (s : State) (enough : s.openCount ≤ fuel) :
    (closeAnswered s fuel).firstAnswered = none := by
  induction fuel generalizing s with
  | zero =>
    have closed := List.countP_eq_zero.mp (Nat.le_zero.mp enough)
    refine firstAnswered_eq_none.mpr fun p mem isOpen => ?_
    exact (closed p mem (by simp [isOpen])).elim
  | succ fuel ih =>
    cases first : s.firstAnswered with
    | none => rw [closeAnswered_of_none first, first]
    | some p =>
      obtain ⟨mem, isOpen⟩ := firstAnswered_eq_some first
      have fewer := openCount_closeStation mem isOpen
      rw [closeAnswered_of_first first]
      exact ih _ (by omega)

/-! ### The inputs of a station (R73) -/

theorem sampleOf_eq_none {members : List Member} {part : Part}
    (lacks : ∀ a x, (⟨a, part, some x⟩ : Member) ∉ members) : sampleOf members part = none := by
  have missing : members.find? (fun m => m.part == part && m.sample.isSome) = none := by
    refine List.find?_eq_none.mpr fun m mem holds => ?_
    simp only [Bool.and_eq_true, beq_iff_eq, Option.isSome_iff_exists] at holds
    obtain ⟨rfl, x, sample⟩ := holds
    exact lacks m.addr x (by rw [← sample]; exact mem)
  rw [sampleOf, missing, Option.bind_none]

theorem sampleOf_eq_some {members : List Member} (distinct : members.Pairwise fun x y => x.part ≠ y.part) {part : Part}
    {a : Byte} {x : Sample} (held : (⟨a, part, some x⟩ : Member) ∈ members) : sampleOf members part = some (a, x) := by
  have found : members.find? (fun m => m.part == part && m.sample.isSome) = some ⟨a, part, some x⟩ := by
    cases first : members.find? fun m => m.part == part && m.sample.isSome with
    | none => simpa using List.find?_eq_none.mp first _ held
    | some m =>
      have holds := List.find?_some first
      simp only [Bool.and_eq_true, beq_iff_eq] at holds
      exact congrArg some (List.inj_on_of_nodup_map (List.pairwise_map.mpr distinct) (List.mem_of_find?_eq_some first) held
        holds.1)
  rw [sampleOf, found]
  rfl

theorem inputsOf_left (s : State) (members : List Member) :
    ((s.inputsOf members).aL, (s.inputsOf members).hL) = Sample.rail (s.railSample members .left) := by
  unfold State.inputsOf
  dsimp only
  split <;> rfl

theorem inputsOf_right (s : State) (members : List Member) :
    ((s.inputsOf members).aR, (s.inputsOf members).hR) = Sample.rail (s.railSample members .right) := by
  unfold State.inputsOf
  dsimp only
  split <;> rfl

theorem inputsOf_of_body {s : State} {members : List Member} {a : Byte} {st : SampleStatus} {yb zb r : Option Int}
    (body : sampleOf members .body = some (a, .body st yb zb r)) :
    (s.inputsOf members).yb = yb ∧ (s.inputsOf members).zb = zb ∧ (s.inputsOf members).r = r := by
  simp [State.inputsOf, body]

theorem inputsOf_of_noBody {s : State} {members : List Member} (body : sampleOf members .body = none) :
    (s.inputsOf members).yb = none ∧ (s.inputsOf members).zb = none ∧ (s.inputsOf members).r = none := by
  simp [State.inputsOf, body]

section Rail

variable {s : State} {members : List Member} {side : Side} {a b : Byte} {x y : Sample}

theorem railSample_of_none (regular : sampleOf members (.regular side) = none)
    (taker : sampleOf members (.taker side) = none) : s.railSample members side = none := by
  simp [State.railSample, regular, taker]

theorem railSample_of_regular (regular : sampleOf members (.regular side) = some (a, x))
    (taker : sampleOf members (.taker side) = none) : s.railSample members side = some x := by
  simp [State.railSample, regular, taker]

theorem railSample_of_taker (regular : sampleOf members (.regular side) = none)
    (taker : sampleOf members (.taker side) = some (b, y)) : s.railSample members side = some y := by
  simp [State.railSample, regular, taker]

/-- With both samples the rail takes the OK one; with like statuses the regular head's, unless only the taker is ACTIVE. -/
theorem railSample_of_both (regular : sampleOf members (.regular side) = some (a, x))
    (taker : sampleOf members (.taker side) = some (b, y)) : s.railSample members side =
      if x.status = .ok ∧ y.status ≠ .ok then some x
      else if x.status ≠ .ok ∧ y.status = .ok then some y
      else if s.isActive b && !s.isActive a then some y else some x := by
  simp [State.railSample, regular, taker]

end Rail

/-- Lateral and top of a side in a station's inputs (R73). -/
def Inputs.ofSide (i : Inputs) : Side → Option Int × Option Int
  | .left => (i.aL, i.hL)
  | .right => (i.aR, i.hR)

theorem inputsOf_ofSide (s : State) (members : List Member) (side : Side) :
    (s.inputsOf members).ofSide side = Sample.rail (s.railSample members side) := by
  cases side with
  | left => exact inputsOf_left s members
  | right => exact inputsOf_right s members

/-- The table of R73 for a rail whose both heads have answered. -/
theorem ofSide_of_both {s : State} {members : List Member} {side : Side} {a b : Byte} {st st' : SampleStatus}
    {lateral top lateral' top' : Option Int}
    (regular : sampleOf members (.regular side) = some (a, .profile st lateral top))
    (taker : sampleOf members (.taker side) = some (b, .profile st' lateral' top')) :
    let rail := (s.inputsOf members).ofSide side
    (st = .ok → st' ≠ .ok → rail = (lateral, top))
    ∧ (st ≠ .ok → st' = .ok → rail = (lateral', top'))
    ∧ (st = st' → s.isActive a = false → s.isActive b = true → rail = (lateral', top'))
    ∧ (st = st' → (s.isActive a = true ∨ s.isActive b = false) → rail = (lateral, top)) := by
  have used := railSample_of_both (s := s) regular taker
  simp only [Sample.status] at used
  dsimp only
  rw [inputsOf_ofSide]
  refine ⟨fun ok notOk => ?_, fun notOk ok => ?_, fun same spare active => ?_, fun same prefers => ?_⟩
  · rw [used.trans (if_pos ⟨ok, notOk⟩)]
    rfl
  · rw [used.trans ((if_neg fun h => notOk h.1).trans (if_pos ⟨notOk, ok⟩))]
    rfl
  · subst same
    rw [used.trans ((if_neg fun h => h.2 h.1).trans ((if_neg fun h => h.1 h.2).trans (if_pos (by simp [spare, active]))))]
    rfl
  · subst same
    have regularServes : ¬ (s.isActive b && !s.isActive a) = true := by
      rcases prefers with active | idle
      · simp [active]
      · simp [idle]
    rw [used.trans ((if_neg fun h => h.2 h.1).trans ((if_neg fun h => h.1 h.2).trans (if_neg regularServes)))]
    rfl

/-- Settles O42: the wait for the deadline and the closes in it are summed up in `State.Closes`, the table of R73 in
`ofSide_of_both`. -/
theorem deadlineClosesTheStation : Obligations.DeadlineClosesTheStation := by
  refine ⟨fun s station p entry => ⟨awaitOwn (.deadline station) s, rfl,
      openEntry_eq_none.mp (awaitOwn_deadline_closes entry), fun late => ?_, fun past => ?_,
      (closes_awaitOwn_deadline entry).entered, awaitOwn_deadline_enters entry, fun q => ?_⟩,
    ⟨answered_iff, isActive_iff, fun s n quiet => closeAnswered_of_none (firstAnswered_eq_none.mpr quiet) n,
      fun s n p older newer table before isOpen answered =>
        closeAnswered_of_first (firstAnswered_of_split table before isOpen answered) n,
      fun s => firstAnswered_eq_none.mp (firstAnswered_closeAnswered _ s List.countP_le_length), closeStation_eq⟩,
    fun s members distinct => ?_⟩
  · rw [awaitOwn_deadline_time entry, if_neg (Nat.not_lt.mpr late)]
  · rw [awaitOwn_deadline_time entry, if_pos past]
  · intro w stays due
    have comes : w.timeTo (.deadline station) = some 0 := by simp [State.timeTo, stays, due]
    exact congrArg Host.Outcome.next ((if_pos comes).trans (takeOwn_deadline stays))
  · intro held lacks i rail
    have railIs : ∀ side, rail side = Sample.rail (s.railSample members side) := fun side => by
      rw [← inputsOf_ofSide]
      cases side <;> rfl
    refine ⟨fun none' => inputsOf_of_noBody (sampleOf_eq_none none'),
      fun a st yb zb r body => inputsOf_of_body (sampleOf_eq_some distinct body),
      fun side => ⟨fun noRegular noTaker => ?_, fun a st lateral top regular => ⟨fun noTaker => ?_,
        fun b st' lateral' top' taker => ?_⟩, fun b st lateral top noRegular taker => ?_⟩⟩
    · rw [railIs, railSample_of_none (sampleOf_eq_none noRegular) (sampleOf_eq_none noTaker)]
      rfl
    · rw [railIs, railSample_of_regular (sampleOf_eq_some distinct regular) (sampleOf_eq_none noTaker)]
      rfl
    · rw [railIs, ← inputsOf_ofSide]
      exact ofSide_of_both (sampleOf_eq_some distinct regular) (sampleOf_eq_some distinct taker)
    · rw [railIs, railSample_of_taker (sampleOf_eq_none noRegular) (sampleOf_eq_some distinct taker)]
      rfl

end Sys2Proof.Machine
end

section
/-! # The derived values of a station (R82 to R85) -/

namespace Sys2Proof.Machine

/-! ### Values formed from values that may be void -/

theorem void2_of_some {f : Int → Int → Int} {a b : Option Int} {x y : Int} (ha : a = some x) (hb : b = some y) :
    void2 f a b = some (f x y) := by
  rw [ha, hb, void2]

theorem void2_eq_none {f : Int → Int → Int} {a b : Option Int} : void2 f a b = none ↔ a = none ∨ b = none := by
  cases a <;> cases b <;> simp [void2]

theorem void3_of_some {f : Int → Int → Int → Int} {a b c : Option Int} {x y z : Int} (ha : a = some x) (hb : b = some y)
    (hc : c = some z) : void3 f a b c = some (f x y z) := by
  rw [ha, hb, hc, void3]

theorem void3_eq_none {f : Int → Int → Int → Int} {a b c : Option Int} :
    void3 f a b c = none ↔ a = none ∨ b = none ∨ c = none := by
  cases a <;> cases b <;> cases c <;> simp [void3]

/-! ### The lateral position of the track centre (R84) -/

theorem derive_yc (p : Params) (i : Inputs) :
    (derive p i).yc = void2 (fun l r => roundDiv (l + r) 2) (derive p i).yl (derive p i).yr := rfl

/-- What the two rails need together: the body's lateral and roll serve both. -/
theorem derive_yc_eq_none (p : Params) (i : Inputs) :
    (derive p i).yc = none ↔ i.yb = none ∨ i.aL = none ∨ i.aR = none ∨ i.r = none := by
  have left : (derive p i).yl = none ↔ i.yb = none ∨ i.aL = none ∨ i.r = none := void3_eq_none
  have right : (derive p i).yr = none ↔ i.yb = none ∨ i.aR = none ∨ i.r = none := void3_eq_none
  rw [derive_yc, void2_eq_none, left, right]
  tauto

/-- Settles O44: each value of `derive` is a `void2` or a `void3` of the inputs its row names. -/
theorem derivedValues : Obligations.DerivedValues := fun p i =>
  ⟨fun _ _ => void2_of_some, fun _ _ _ => void3_of_some, fun _ _ _ => void3_of_some, fun _ _ _ => void3_of_some,
    fun _ _ _ => void3_of_some, fun _ _ _ => void3_of_some, fun _ _ => void2_of_some,
    void2_eq_none, void3_eq_none, void3_eq_none, void3_eq_none, void3_eq_none, void3_eq_none, derive_yc_eq_none p i⟩

end Sys2Proof.Machine
end

section
/-! # The eight channels of a station (R90 to R98, R102) -/

namespace Sys2Proof.Machine

/-! ### What holds of any channel -/

theorem Channel.mem_all (ch : Channel) : ch ∈ Channel.all := by
  cases ch <;> decide

theorem PerChannel.any_toList {α : Type} (c : PerChannel α) (q : α → Bool) :
    c.toList.any q = true ↔ ∃ ch, q (c.get ch) = true := by
  rw [PerChannel.toList, List.any_map, List.any_eq_true]
  exact ⟨fun ⟨ch, _, h⟩ => ⟨ch, h⟩, fun ⟨ch, h⟩ => ⟨ch, ch.mem_all, h⟩⟩

theorem PerChannel.ext_get {α : Type} {c c' : PerChannel α} (same : ∀ ch, c.get ch = c'.get ch) : c = c' := by
  obtain ⟨_, _, _, _, _, _, _, _⟩ := c
  obtain ⟨_, _, _, _, _, _, _, _⟩ := c'
  rw [PerChannel.mk.injEq]
  exact ⟨same .gauge, same .xlevel, same .twist, same .topL, same .topR, same .alignL, same .alignR,
    same .curv⟩

/-! ### The tests of a channel in their order (R95 to R97) -/

section Tests

variable {m back forward : Nat} {last : Int} {slow : Bool} {value : Option Int}

theorem formChannel_of_window (outside : m < back ∨ (0 < forward ∧ last < m + forward)) :
    formChannel m back forward last slow value
      = { value := none, startOfRun := decide (m < back), endOfRun := decide (0 < forward ∧ last < m + forward) } :=
  if_pos (by simpa using outside)

theorem formChannel_of_slow (inside : ¬(m < back ∨ (0 < forward ∧ last < m + forward))) (isSlow : slow = true) :
    formChannel m back forward last slow value = { value := none, lowSpeed := true } :=
  (if_neg (by simpa using inside)).trans (if_pos isSlow)

theorem formChannel_of_clear (inside : ¬(m < back ∨ (0 < forward ∧ last < m + forward))) (fast : slow ≠ true) :
    formChannel m back forward last slow value = { value := value } :=
  (if_neg (by simpa using inside)).trans (if_neg fast)

theorem formChannel_startOfRun :
    (formChannel m back forward last slow value).startOfRun = decide (m < back) := by
  by_cases window : m < back ∨ (0 < forward ∧ last < m + forward)
  · rw [formChannel_of_window window]
  · have reached : ¬ m < back := fun h => window (.inl h)
    by_cases isSlow : slow = true
    · simp [formChannel_of_slow window isSlow, reached]
    · simp [formChannel_of_clear window isSlow, reached]

theorem formChannel_endOfRun :
    (formChannel m back forward last slow value).endOfRun = decide (0 < forward ∧ last < m + forward) := by
  by_cases window : m < back ∨ (0 < forward ∧ last < m + forward)
  · rw [formChannel_of_window window]
  · have entered : ¬(0 < forward ∧ last < m + forward) := fun h => window (.inr h)
    by_cases isSlow : slow = true
    · rw [formChannel_of_slow window isSlow, decide_eq_false entered]
    · rw [formChannel_of_clear window isSlow, decide_eq_false entered]

theorem formChannel_lowSpeed : (formChannel m back forward last slow value).lowSpeed = true ↔
    ¬(m < back ∨ (0 < forward ∧ last < m + forward)) ∧ slow = true := by
  by_cases window : m < back ∨ (0 < forward ∧ last < m + forward)
  · simp [formChannel_of_window window, window]
  · by_cases isSlow : slow = true
    · rw [formChannel_of_slow window isSlow]
      exact iff_of_true rfl ⟨window, isSlow⟩
    · rw [formChannel_of_clear window isSlow]
      exact iff_of_false Bool.false_ne_true fun h => isSlow h.2

/-- A channel with a cause is void. -/
theorem formChannel_value_of_cause :
    let formed := formChannel m back forward last slow value
    formed.startOfRun = true ∨ formed.endOfRun = true ∨ formed.lowSpeed = true → formed.value = none := by
  intro formed cause
  rw [formChannel_startOfRun, formChannel_endOfRun, formChannel_lowSpeed, decide_eq_true_iff, decide_eq_true_iff] at cause
  by_cases window : m < back ∨ (0 < forward ∧ last < m + forward)
  · exact congrArg Formed.value (formChannel_of_window window)
  · have isSlow : slow = true := by tauto
    exact congrArg Formed.value (formChannel_of_slow window isSlow)

/-- A channel without a cause is what its inputs give. -/
theorem formChannel_value_of_no_cause :
    let formed := formChannel m back forward last slow value
    formed.startOfRun = false → formed.endOfRun = false → formed.lowSpeed = false → formed.value = value := by
  intro formed reached entered notSlow
  rw [formChannel_startOfRun, decide_eq_false_iff_not] at reached
  rw [formChannel_endOfRun, decide_eq_false_iff_not] at entered
  have inside : ¬(m < back ∨ (0 < forward ∧ last < m + forward)) := not_or.mpr ⟨reached, entered⟩
  have fast : slow ≠ true := fun isSlow =>
    Bool.false_ne_true (notSlow.symm.trans (formChannel_lowSpeed.mpr ⟨inside, isSlow⟩))
  exact congrArg Formed.value (formChannel_of_clear inside fast)

end Tests

/-! ### The five chords (R92 to R94) -/

/-- The speed test of R96 on a station's own record. -/
def StationRecord.isSlow (x : StationRecord) (p : Params) : Bool := x.speedUnknown || decide (x.speed < p.vMin)

theorem StationRecord.isSlow_iff (x : StationRecord) (p : Params) :
    x.isSlow p = true ↔ x.speedUnknown = true ∨ x.speed < p.vMin := by
  simp [StationRecord.isSlow]

/-- A channel formed on the chord that reaches `reach` stations either side, from the derived values `f`. -/
def chord (p : Params) (g : Ring) (last : Int) (x : StationRecord) (reach : Nat) (f : Derived → Option Int) : Formed :=
  formChannel x.number reach reach last (x.isSlow p)
    (versine (g.value (x.number - reach) f) (g.value (x.number + reach) f) (f x.derived))

/-- Each chord channel is formed on its chord from its derived value. -/
theorem formChannels_get_chord {p : Params} {g : Ring} {last : Int} {x : StationRecord} {ch : Channel} {reach : Nat}
    {f : Derived → Option Int}
    (mem : (ch, reach) ∈
      [(Channel.topL, g.short), (.topR, g.short), (.alignL, g.short), (.alignR, g.short), (.curv, g.long)])
    (topL : ch = .topL → f = (·.zl)) (topR : ch = .topR → f = (·.zr)) (alignL : ch = .alignL → f = (·.yl))
    (alignR : ch = .alignR → f = (·.yr)) (curv : ch = .curv → f = (·.yc)) :
    (formChannels p g last x).get ch = chord p g last x reach f := by
  simp only [List.mem_cons, List.not_mem_nil, or_false, Prod.mk.injEq] at mem
  rcases mem with ⟨rfl, rfl⟩ | ⟨rfl, rfl⟩ | ⟨rfl, rfl⟩ | ⟨rfl, rfl⟩ | ⟨rfl, rfl⟩
  · rw [topL rfl]; rfl
  · rw [topR rfl]; rfl
  · rw [alignL rfl]; rfl
  · rw [alignR rfl]; rfl
  · rw [curv rfl]; rfl

section Chord

variable {p : Params} {g : Ring} {last : Int} {x : StationRecord} {reach : Nat} {f : Derived → Option Int}

theorem chord_startOfRun : (chord p g last x reach f).startOfRun = true ↔ x.number < reach := by
  rw [chord, formChannel_startOfRun, decide_eq_true_iff]

theorem chord_endOfRun : (chord p g last x reach f).endOfRun = true ↔ 0 < reach ∧ last < x.number + reach := by
  rw [chord, formChannel_endOfRun, decide_eq_true_iff]

theorem chord_lowSpeed : (chord p g last x reach f).lowSpeed = true ↔
    reach ≤ x.number ∧ (reach = 0 ∨ (x.number + reach : Int) ≤ last) ∧ (x.speedUnknown = true ∨ x.speed < p.vMin) := by
  have inside : ¬(x.number < reach ∨ (0 < reach ∧ last < x.number + reach)) ↔
      reach ≤ x.number ∧ (reach = 0 ∨ (x.number + reach : Int) ≤ last) := by omega
  rw [chord, formChannel_lowSpeed, x.isSlow_iff, inside, and_assoc]

end Chord

/-! ### The twist (R91) -/

/-- TWIST looks back only, and no speed test is made for it. -/
def twistOf (g : Ring) (last : Int) (x : StationRecord) : Formed :=
  formChannel x.number g.twist 0 last false (void2 (· - ·) x.derived.x (g.value (x.number - g.twist) (·.x)))

theorem formChannels_get_twist (p : Params) (g : Ring) (last : Int) (x : StationRecord) :
    (formChannels p g last x).get .twist = twistOf g last x := rfl

section Twist

variable (g : Ring) (last : Int) (x : StationRecord)

theorem twistOf_startOfRun : (twistOf g last x).startOfRun = decide (x.number < g.twist) := formChannel_startOfRun

theorem twistOf_endOfRun : (twistOf g last x).endOfRun = false :=
  formChannel_endOfRun.trans (decide_eq_false fun h => Nat.lt_irrefl 0 h.1)

theorem twistOf_lowSpeed : (twistOf g last x).lowSpeed = false :=
  Bool.eq_false_iff.mpr fun h => Bool.false_ne_true (formChannel_lowSpeed.mp h).2

variable {g last x}

theorem twistOf_value_of_lt (before : x.number < g.twist) : (twistOf g last x).value = none :=
  formChannel_value_of_cause (.inl ((twistOf_startOfRun g last x).trans (decide_eq_true before)))

theorem twistOf_value_of_le (reached : g.twist ≤ x.number) :
    (twistOf g last x).value = void2 (· - ·) x.derived.x (g.value (x.number - g.twist) (·.x)) :=
  formChannel_value_of_no_cause ((twistOf_startOfRun g last x).trans (decide_eq_false (Nat.not_lt.mpr reached)))
    (twistOf_endOfRun g last x) (twistOf_lowSpeed g last x)

end Twist

/-- Settles O45: `formChannel` makes the tests in their order; a chord channel is `chord`, the twist `twistOf`. -/
theorem channelsAreFormedOrVoid : Obligations.ChannelsAreFormedOrVoid := by
  intro p d route g last x m slow c e twist
  refine ⟨⟨rfl, rfl⟩, ⟨twistOf_startOfRun g last x, twistOf_endOfRun g last x, twistOf_lowSpeed g last x,
      twistOf_value_of_lt, fun reached => ⟨fun a b own behind => ?_, fun void => ?_⟩⟩,
    fun ch reach f mem topL topR alignL alignR curv => ?_, ⟨rfl, rfl, rfl⟩,
    c.any_toList (·.startOfRun), c.any_toList (·.endOfRun), c.any_toList (·.lowSpeed), rfl⟩
  · exact (twistOf_value_of_le reached).trans (void2_of_some own behind)
  · exact (twistOf_value_of_le reached).trans (void2_eq_none.mpr void)
  · intro formed
    have isChord : formed = chord p g last x reach f := formChannels_get_chord mem topL topR alignL alignR curv
    rw [isChord]
    refine ⟨chord_startOfRun, chord_endOfRun, chord_lowSpeed, formChannel_value_of_cause, fun reached entered fast => ?_⟩
    have value : (chord p g last x reach f).value = versine _ _ _ := formChannel_value_of_no_cause reached entered fast
    rw [value]
    exact ⟨fun _ _ _ => void3_of_some, void3_eq_none.mpr⟩

/-! ### The line frame (R98) -/

/-- Settles O46: the flags come from the channels as they were formed, before the exchange of the sides. -/
theorem lineFrameByDirection : Obligations.LineFrameByDirection :=
  ⟨fun _ => rfl, fun _ => rfl, fun _ _ _ _ _ => rfl⟩

end Sys2Proof.Machine
end

section
/-! # The values of an evaluated station (R99 to R102) -/

namespace Sys2Proof.Machine

/-! ### Clipping (R101) -/

theorem clip_of_gt {v : Int} (above : 32767 < v) : clip v = 32767 := by
  unfold clip
  omega

theorem clip_of_lt {v : Int} (below : v < -32767) : clip v = -32767 := by
  unfold clip
  omega

theorem clip_eq_self_iff {v : Int} : clip v = v ↔ -32767 ≤ v ∧ v ≤ 32767 := by
  unfold clip
  omega

theorem clipChannels_get (c : PerChannel (Option Int)) (ch : Channel) : (clipChannels c).get ch = (c.get ch).map clip := by
  cases ch <;> rfl

theorem map_clip_ne_self_iff (v : Option Int) : v.map clip ≠ v ↔ ∃ w, v = some w ∧ (32767 < w ∨ w < -32767) := by
  cases v with
  | none => simp
  | some w =>
    simp only [Option.map_some, ne_eq, Option.some.injEq, clip_eq_self_iff, exists_eq_left']
    omega

theorem clipChannels_ne_self_iff (c : PerChannel (Option Int)) :
    clipChannels c ≠ c ↔ ∃ ch v, c.get ch = some v ∧ (32767 < v ∨ v < -32767) := by
  have differs : clipChannels c ≠ c ↔ ∃ ch, (clipChannels c).get ch ≠ c.get ch :=
    ⟨fun h => not_forall.mp fun same => h (PerChannel.ext_get same), fun ⟨ch, h⟩ same => h (by rw [same])⟩
  simp only [differs, clipChannels_get, map_clip_ne_self_iff]

/-! ### The design values (R99) -/

section Design

variable (cant versine : Int) (c : PerChannel (Option Int))

theorem subtractDesign_get_xlevel : (subtractDesign cant versine c).get .xlevel = (c.get .xlevel).map (· - cant) := rfl

theorem subtractDesign_get_curv : (subtractDesign cant versine c).get .curv = (c.get .curv).map (· - versine) := rfl

theorem subtractDesign_get_other {ch : Channel} (notXlevel : ch ≠ .xlevel) (notCurv : ch ≠ .curv) :
    (subtractDesign cant versine c).get ch = c.get ch := by
  cases ch with
  | xlevel => exact absurd rfl notXlevel
  | curv => exact absurd rfl notCurv
  | _ => rfl

theorem subtractDesign_get_of_void {ch : Channel} (void : c.get ch = none) : (subtractDesign cant versine c).get ch = none := by
  by_cases isXlevel : ch = .xlevel
  · subst isXlevel
    rw [subtractDesign_get_xlevel, void, Option.map_none]
  · by_cases isCurv : ch = .curv
    · subst isCurv
      rw [subtractDesign_get_curv, void, Option.map_none]
    · rw [subtractDesign_get_other cant versine c isXlevel isCurv, void]

end Design

theorem formedValues_get (c : PerChannel Formed) (ch : Channel) : (formedValues c).get ch = (c.get ch).value := by
  cases ch <;> rfl

/-- Settles O47: the values of the evaluated station are `clipChannels` of the exact ones, and CLIPPED is set where the two
differ. -/
theorem evaluatedValuesAreClipped : Obligations.EvaluatedValuesAreClipped := by
  refine ⟨fun _ _ _ => rfl, fun cant versine c => ⟨fun v xlevel => ?_, fun v curv => ?_, fun ch =>
      ⟨subtractDesign_get_of_void cant versine c, subtractDesign_get_other cant versine c⟩⟩, formedValues_get,
    fun p d route g last x => ?_⟩
  · exact congrArg (Option.map (· - cant)) xlevel
  · exact congrArg (Option.map (· - versine)) curv
  · intro design exact e
    have values : ∀ ch, e.values.get ch = (exact.get ch).map clip := clipChannels_get exact
    refine ⟨fun ch v leaves => ?_, fun ch void => by rw [values, void, Option.map_none],
      decide_eq_true_iff.trans (clipChannels_ne_self_iff exact), rfl, rfl, rfl, rfl, rfl, rfl, rfl, rfl⟩
    rw [values, leaves, Option.map_some]
    exact ⟨fun above => by rw [clip_of_gt above], fun below => by rw [clip_of_lt below],
      fun low high => by rw [clip_eq_self_iff.mpr ⟨low, high⟩]⟩

end Sys2Proof.Machine
end

section
/-! # SET_CHAINAGE (R117), and the route lookup (R119 to R121) -/

namespace Sys2Proof.Machine

/-! ### SET_CHAINAGE -/

/-- A new correction A moves every chainage by the difference (R106). -/
theorem chainageAt_withLoc (s : State) (x : Location) (mm : Int) :
    (s.withLoc x).chainageAt mm = s.chainageAt mm - s.loc.correction + x.correction := by
  simp [State.chainageAt]

/-- The state SET_CHAINAGE leaves before its note: the location unit placed at a chainage (R117). -/
def State.placed (s : State) (c : Word) : State :=
  s.withLoc { s.loc with
    correction := c - (s.stationChainage s.loc.entryNumber - s.loc.correction), epoch := s.loc.epoch + 1, status := .set }

theorem placeChainage_eq (s : State) (c : Word) : placeChainage s c = offerNote (s.placed c)
    (.location s.run.id .byRequest ((s.placed c).loc.correction - s.loc.correction) (some s.loc.entryNumber)
      (s.loc.epoch + 1) .set none) := rfl

theorem placed_stationChainage (s : State) (c : Word) : (s.placed c).stationChainage s.loc.entryNumber = c := by
  let before := s.stationChainage s.loc.entryNumber - s.loc.correction
  calc (s.placed c).stationChainage s.loc.entryNumber
      = before + (c - before) := chainageAt_withLoc s _ _
    _ = c := by rw [BitVec.add_comm, BitVec.sub_add_cancel]

theorem placed_changes (s : State) (c : Word) : s.ChangesOnly [.location] (s.placed c) := by
  intro r outside
  cases r with
  | location => exact absurd List.mem_cons_self outside
  | _ => simp [State.Agrees, State.placed]

theorem setChainage_of_idle {s : State} (idle : s.run.state = .idle) (r : Frame) :
    setChainage r s = respond s r .notRunning [] := if_pos idle

theorem setChainage_of_not_idle {s : State} (run : s.run.state ≠ .idle) (r : Frame) :
    setChainage r s = respond (placeChainage s (wordAt r.payload 3)) r .done [] := if_neg run

/-- Settles O28: in a run the state asked for is `State.placed` of the one without the request; the correction is the
chainage given less that of the next station to enter without its correction (`placed_stationChainage`). -/
theorem setChainagePlacesNextStation : Obligations.SetChainagePlacesNextStation := by
  intro s r rest handles length
  have handled : exec .setChainage s = .next (settle (setChainage r (s.takeRequest rest))) :=
    handleRequest_of_consistent handles (by simp [requestConsistent, length]) setChainage
  refine ⟨fun idle => ?_, fun run => ⟨(s.takeRequest rest).placed (wordAt r.payload 3), ?_, ?_, rfl, placed_changes _ _⟩⟩
  · rw [handled, setChainage_of_idle (s := s.takeRequest rest) idle]
  · rw [handled, setChainage_of_not_idle (s := s.takeRequest rest) run, placeChainage_eq]
    rfl
  · exact placed_stationChainage (s.takeRequest rest) _

/-! ### The route lookup -/

/-- Where a test holds of no two members of a list, the search finds the member it holds of. -/
theorem find?_eq_some_of_pairwise {α : Type} {p : α → Bool} {x : α} : ∀ {l : List α},
    l.Pairwise (fun a b => p a = true → ¬p b = true) → x ∈ l → p x = true → l.find? p = some x
  | [], _, mem, _ => nomatch mem
  | a :: l, apart, mem, holds => by
    obtain ⟨first, apart⟩ := List.pairwise_cons.mp apart
    obtain rfl | mem := List.mem_cons.mp mem
    · exact List.find?_cons_of_pos holds
    · rw [List.find?_cons_of_neg (first x mem · holds), find?_eq_some_of_pairwise apart mem holds]

section Route

variable {route : List Segment} {c : Int}

/-- Of segments that do not overlap, the one that covers a chainage is found (R119). -/
theorem findSegment_of_mem (apart : route.Pairwise fun (a b : Segment) => a.start + a.length ≤ b.start) {g : Segment}
    (mem : g ∈ route) (starts : g.start ≤ c) (ends : c < g.start + g.length) : findSegment route c = some g := by
  refine find?_eq_some_of_pairwise (apart.imp fun {a b} before coversA coversB => ?_) mem (decide_eq_true ⟨starts, ends⟩)
  have endsA := (of_decide_eq_true coversA).2
  have startsB := (of_decide_eq_true coversB).1
  omega

theorem findSegment_of_uncovered (uncovered : ∀ g ∈ route, c < g.start ∨ g.start + g.length ≤ c) :
    findSegment route c = none := by
  refine List.find?_eq_none.mpr fun g mem covers => ?_
  have inside := of_decide_eq_true covers
  have outside := uncovered g mem
  omega

end Route

section Lookup

variable {route : List Segment} {chainage : Word} (defaultClass : Nat)

theorem lookup_of_found {g : Segment} (found : findSegment route chainage.toInt = some g) :
    lookup route defaultClass chainage =
      { cant := interpolate g.cantStart g.cantEnd (chainage.toInt - g.start) g.length
        curvature := interpolate g.curvStart g.curvEnd (chainage.toInt - g.start) g.length
        speedClass := g.speedClass, suppressGauge := g.suppressGauge, suppressAll := g.suppressAll
        lineCode := some g.lineCode } := by
  simp [lookup, found]

theorem lookup_of_not_found (absent : findSegment route chainage.toInt = none) :
    lookup route defaultClass chainage =
      { cant := 0, curvature := 0, speedClass := defaultClass, suppressGauge := false, suppressAll := false
        lineCode := none } := by
  simp [lookup, absent]

end Lookup

/-- Settles O48: on a route of segments that do not overlap the search finds the one that covers the chainage
(`findSegment_of_mem`), and none where none covers it. -/
theorem routeLookupFindsTheSegment : Obligations.RouteLookupFindsTheSegment := fun _ defaultClass _ apart =>
  ⟨fun _ mem starts ends => lookup_of_found defaultClass (findSegment_of_mem apart mem starts ends),
   fun uncovered => lookup_of_not_found defaultClass (findSegment_of_uncovered uncovered)⟩

end Sys2Proof.Machine
end

section
/-! # Marker tags: the intake, the comparison, what is accepted and what rejected (R110 to R115) -/

namespace Sys2Proof.Machine

/-! ### The intake (R110) -/

section Intake

variable {s : State} {payload : List Byte}

theorem readTag_of_fits (fits : payload.length = 9 ∧ (byteAt payload 8).toNat ≤ 2) :
    readTag payload = some (wordAt payload 0, (wordAt payload 4).toNat, (byteAt payload 8).toNat) := if_pos fits

theorem tagIntake_of_malformed (bad : ¬(payload.length = 9 ∧ (byteAt payload 8).toNat ≤ 2)) : tagIntake s payload =
    s.withTagCounters { s.loc.counters with malformed := s.loc.counters.malformed + 1 } := by
  have unread : readTag payload = none := if_neg bad
  simp [tagIntake, unread]

theorem not_stale_of_fresh (ok : byteAt payload 8 = 0) (fresh : (wordAt payload 4).toNat ≤ 100000) :
    ¬((byteAt payload 8).toNat ≠ 0 ∨ 100000 < (wordAt payload 4).toNat) := by
  rw [ok]
  exact not_or.mpr ⟨fun bad => bad rfl, fresh.not_gt⟩

variable (fits : payload.length = 9 ∧ (byteAt payload 8).toNat ≤ 2)
include fits

theorem tagIntake_of_idle (idle : s.run.state = .idle) : tagIntake s payload =
    s.withTagCounters { s.loc.counters with ignored := s.loc.counters.ignored + 1 } := by
  simp [tagIntake, readTag_of_fits fits, idle]

variable (run : s.run.state ≠ .idle)
include run

theorem tagIntake_of_stale (stale : byteAt payload 8 ≠ 0 ∨ 100000 < (wordAt payload 4).toNat) : tagIntake s payload =
    s.withTagCounters { s.loc.counters with stale := s.loc.counters.stale + 1 } := by
  have stale : (byteAt payload 8).toNat ≠ 0 ∨ 100000 < (wordAt payload 4).toNat :=
    stale.imp_left fun bad zero => bad (BitVec.eq_of_toNat_eq zero)
  simp only [tagIntake, readTag_of_fits fits, if_neg run, if_pos stale]

variable (ok : byteAt payload 8 = 0) (fresh : (wordAt payload 4).toNat ≤ 100000)
include ok fresh

theorem tagIntake_of_not_found (absent : s.loc.tags.find? (·.id == wordAt payload 0) = none) : tagIntake s payload =
    setEvent (s.withTagCounters { s.loc.counters with unknown := s.loc.counters.unknown + 1 }) .tagUnknown := by
  simp only [tagIntake, readTag_of_fits fits, if_neg run, if_neg (not_stale_of_fresh ok fresh), absent]

theorem tagIntake_of_found {x : TagEntry} (found : s.loc.tags.find? (·.id == wordAt payload 0) = some x) :
    tagIntake s payload = judgeTag s (wordAt payload 0) (wordAt payload 4).toNat x.chainage := by
  simp only [tagIntake, readTag_of_fits fits, if_neg run, if_neg (not_stale_of_fresh ok fresh), found]

theorem tagIntake_of_unknown (unknown : ∀ x ∈ s.loc.tags, x.id ≠ wordAt payload 0) : tagIntake s payload =
    setEvent (s.withTagCounters { s.loc.counters with unknown := s.loc.counters.unknown + 1 }) .tagUnknown :=
  tagIntake_of_not_found fits run ok fresh (by simpa [List.find?_eq_none] using unknown)

/-- Where every entry has an id of its own, a tag is compared with the entry of its id. -/
theorem tagIntake_of_known (own : s.loc.tags.Pairwise fun x y => x.id ≠ y.id) {x : TagEntry} (mem : x ∈ s.loc.tags)
    (known : x.id = wordAt payload 0) : tagIntake s payload = judgeTag s x.id (wordAt payload 4).toNat x.chainage := by
  have found : s.loc.tags.find? (·.id == wordAt payload 0) = some x :=
    find?_eq_some_of_pairwise (own.imp fun differ a b => differ ((beq_iff_eq.mp a).trans (beq_iff_eq.mp b).symm)) mem
      (beq_iff_eq.mpr known)
  rw [tagIntake_of_found fits run ok fresh found, known]

end Intake

/-! ### What a set event leaves -/

theorem loc_of_changes {s t : State} {l : List Region} (h : s.ChangesOnly l t)
    (hl : ∀ r ∈ [Region.location, .entryNumber, .tags, .route, .tagCounters], r ∉ l) : t.loc = s.loc := by
  obtain ⟨correction, epoch, status, previousTag⟩ := h .location (hl _ (by decide))
  have entryNumber : t.loc.entryNumber = s.loc.entryNumber := h .entryNumber (hl _ (by decide))
  have tags : t.loc.tags = s.loc.tags := h .tags (hl _ (by decide))
  have route : t.loc.route = s.loc.route := h .route (hl _ (by decide))
  have counters : t.loc.counters = s.loc.counters := h .tagCounters (hl _ (by decide))
  cases hs : s.loc
  cases ht : t.loc
  simp_all

theorem setEvent_loc (s : State) (b : StickyBit) : (setEvent s b).loc = s.loc :=
  loc_of_changes (setEvent_changes s b) (by decide)

theorem setEvent_run (s : State) (b : StickyBit) : (setEvent s b).run = s.run :=
  run_of_changes (setEvent_changes s b) (by decide)

/-! ### The comparison (R111, R112, R113) -/

/-- The sign of the direction as a factor (R106). -/
theorem Direction.sign_eq_mul (d : Direction) (v : Int) : d.sign v = (if d = .increasing then 1 else -1) * v := by
  cases d with
  | increasing => exact (Int.one_mul v).symm
  | decreasing => exact (Int.neg_one_mul v).symm

/-- δ: the surveyed chainage less the one predicted at the tag position (R111). -/
def State.tagError (s : State) (age : Nat) (surveyed : Word) : Word :=
  surveyed - s.chainageAt (roundDiv (s.tagPosition age) 1000)

/-- The set event of a rejected tag leaves the run and the epoch that its LOCATION note carries. -/
theorem rejectTag_eq (s : State) (id delta : Word) : rejectTag s id delta = offerNote
    (setEvent (s.withLoc { s.loc with
      status := .doubtful, counters := { s.loc.counters with rejected := s.loc.counters.rejected + 1 } }) .locationRejected)
    (.location s.run.id (.rejected id) delta none s.loc.epoch .doubtful none) := by
  simp only [rejectTag, setEvent_run, setEvent_loc, State.withLoc_run, State.withLoc_loc]

section Judge

variable {s : State} {age : Nat} {surveyed : Word} (id : Word)

theorem judgeTag_of_within (within : (s.tagError age surveyed).toInt.natAbs ≤ s.params.captureWindow) :
    judgeTag s id age surveyed = acceptTag s id surveyed (s.tagPosition age) (s.tagError age surveyed) := if_pos within

theorem judgeTag_of_outside (outside : s.params.captureWindow < (s.tagError age surveyed).toInt.natAbs) :
    judgeTag s id age surveyed = rejectTag s id (s.tagError age surveyed) := if_neg outside.not_ge

end Judge

/-! ### The distance ratio (R115) -/

section Ratio

variable {q : PreviousTag} {position : Int} (surveyed : Word)

theorem distanceRatio_of_near (near : roundDiv (position - q.position) 1000 < 100000) :
    distanceRatio (some q) position surveyed = none := if_neg near.not_ge

theorem distanceRatio_of_far (far : 100000 ≤ roundDiv (position - q.position) 1000) :
    distanceRatio (some q) position surveyed = some (min 2147483647 (roundDiv
      (((surveyed.toInt - q.chainage.toInt).natAbs - roundDiv (position - q.position) 1000) * 1000000)
      (roundDiv (position - q.position) 1000).toNat)) := if_pos far

end Ratio

/-- Settles O49: the intake step by step (`tagIntake_of_malformed` to `tagIntake_of_known`), and the comparison by whether
`State.tagError` lies in the capture window. -/
theorem tagCorrectsOrRaisesDoubt : Obligations.TagCorrectsOrRaisesDoubt := by
  refine ⟨fun s payload => ⟨tagIntake_of_malformed, tagIntake_of_idle, tagIntake_of_stale, fun fits run ok fresh =>
      ⟨tagIntake_of_unknown fits run ok fresh, fun own _ mem known => tagIntake_of_known fits run ok fresh own mem known⟩⟩,
    fun s id surveyed age => ?_⟩
  intro p dir delta c
  have error : s.tagError age surveyed = delta := by
    simp only [State.tagError, State.chainageAt, Direction.sign_eq_mul]
    rfl
  rw [← error]
  refine ⟨fun within => ⟨distanceRatio s.loc.previousTag p surveyed, judgeTag_of_within id within, fun none' => ?_,
    fun q previous => ?_⟩, fun outside => ?_⟩
  · rw [none']
    rfl
  · rw [previous]
    exact ⟨distanceRatio_of_near surveyed, distanceRatio_of_far surveyed⟩
  · rw [judgeTag_of_outside id outside, rejectTag_eq]

end Sys2Proof.Machine
end

section
/-! # The exception detector: a channel judged, a station judged, the marking trigger (R125 to R135, R142) -/

namespace Sys2Proof.Machine

theorem Level.outside_iff (l : Level) (v : Int) : l.outside v = true ↔ l.used = true ∧ (v < l.lower ∨ l.upper < v) := by
  rw [Level.outside, Bool.and_eq_true, decide_eq_true_iff]

/-! ### The entry a channel is judged by (R129) -/

/-- The segment of a station takes a channel out of judging. -/
def EvaluatedStation.Suppresses (e : EvaluatedStation) (ch : Channel) : Prop :=
  e.suppressAll = true ∨ (e.suppressGauge = true ∧ ch = .gauge)

section Active

variable {s : State} {e : EvaluatedStation} {ch : Channel}

theorem activeThreshold_of_suppressed (suppressed : e.Suppresses ch) : s.activeThreshold e ch = none :=
  if_pos (by simpa [EvaluatedStation.Suppresses] using suppressed)

theorem activeThreshold_of_not_suppressed (free : ¬e.Suppresses ch) : s.activeThreshold e ch =
    (s.threshold e.speedClass ch).bind fun th => if th.enabled then some th else none :=
  if_neg (by simpa [EvaluatedStation.Suppresses] using free)

theorem activeThreshold_of_no_entry (absent : ∀ th ∈ s.det.thresholds, th.speedClass = e.speedClass → th.channel ≠ ch.code) :
    s.activeThreshold e ch = none := by
  by_cases suppressed : e.Suppresses ch
  · exact activeThreshold_of_suppressed suppressed
  · have notFound : s.threshold e.speedClass ch = none := by
      simpa [State.threshold, List.find?_eq_none] using absent
    rw [activeThreshold_of_not_suppressed suppressed, notFound]
    rfl

/-- Where every entry has a class and channel of its own, the entry of the station's class and the channel decides. -/
theorem activeThreshold_of_entry {th : Threshold}
    (own : s.det.thresholds.Pairwise fun x y => x.speedClass ≠ y.speedClass ∨ x.channel ≠ y.channel)
    (mem : th ∈ s.det.thresholds) (speedClass : th.speedClass = e.speedClass) (channel : th.channel = ch.code)
    (free : ¬e.Suppresses ch) : s.activeThreshold e ch = if th.enabled then some th else none := by
  have found : s.threshold e.speedClass ch = some th := by
    rw [State.threshold, ← speedClass, ← channel]
    exact threshold_of_mem own mem
  rw [activeThreshold_of_not_suppressed free, found]
  rfl

end Active

/-! ### A channel judged (R129, R132 to R135) -/

theorem withOpened_opened (s : State) (ch : Channel) (x : Option OpenException) :
    (s.withOpened ch x).det.opened.get ch = x := PerChannel.get_set_self _ _ _

theorem withOpened_opened_other (s : State) {ch ch' : Channel} (x : Option OpenException) (other : ch' ≠ ch) :
    (s.withOpened ch x).det.opened.get ch' = s.det.opened.get ch' := PerChannel.get_set_other _ _ other

theorem closeException_opened_other (s : State) {ch ch' : Channel} (x : OpenException) (cause : CloseCause) (last : Place)
    (other : ch' ≠ ch) : (closeException s ch x cause last).det.opened.get ch' = s.det.opened.get ch' := by
  rw [closeException_opened, PerChannel.get_set_other _ _ other]

section Close

variable {s : State} {ch : Channel} (cause : CloseCause)

theorem closeOpened_of_none (shut : s.det.opened.get ch = none) : closeOpened s cause ch = s := by
  simp only [closeOpened, shut]

theorem closeOpened_of_some {x : OpenException} (isOpen : s.det.opened.get ch = some x) :
    closeOpened s cause ch = closeException s ch x cause x.lastIncluded := by
  simp only [closeOpened, isOpen]

end Close

section Channels

variable {e : EvaluatedStation} {s : State} {ch : Channel}

theorem judgeChannel_of_inactive (inactive : s.activeThreshold e ch = none) :
    judgeChannel e s ch = closeOpened s .suppressedEnd ch := by
  simp only [judgeChannel, inactive]

variable {th : Threshold} (active : s.activeThreshold e ch = some th)
include active

theorem judgeChannel_of_shut_void (shut : s.det.opened.get ch = none) (void : e.values.get ch = none) :
    judgeChannel e s ch = s := by
  simp only [judgeChannel, active, shut, void]

theorem judgeChannel_of_shut {v : Int} (shut : s.det.opened.get ch = none) (value : e.values.get ch = some v) :
    judgeChannel e s ch = if th.level1.outside v then s.withOpened ch (some (openException s e th v)) else s := by
  simp only [judgeChannel, active, shut, value]

variable {x : OpenException} (isOpen : s.det.opened.get ch = some x)
include isOpen

theorem judgeChannel_of_open_void (void : e.values.get ch = none) : judgeChannel e s ch =
    if s.params.voidClose ≤ x.voidCount + 1 then closeException s ch (x.extendVoid e) .voidEnd x.lastNonVoid
    else s.withOpened ch (some (x.extendVoid e)) := by
  simp only [judgeChannel, active, isOpen, void]
  rfl

variable {v : Int} (value : e.values.get ch = some v)
include value

theorem judgeChannel_of_exceeding (outside : th.level1.outside v = true) :
    judgeChannel e s ch = s.withOpened ch (some (x.exceed e th v)) := by
  simp only [judgeChannel, active, isOpen, value, if_pos outside]

theorem judgeChannel_of_closing (inside : th.level1.outside v = false)
    (band : th.level1.lower + th.hysteresis ≤ v ∧ v ≤ th.level1.upper - th.hysteresis) :
    judgeChannel e s ch = closeException s ch x .closingBand x.lastIncluded := by
  have closes : th.inClosingBand v = true := decide_eq_true band
  simp only [judgeChannel, active, isOpen, value, inside, closes, if_true, Bool.false_eq_true, if_false]

theorem judgeChannel_of_hovering (inside : th.level1.outside v = false)
    (beyond : v < th.level1.lower + th.hysteresis ∨ th.level1.upper - th.hysteresis < v) :
    judgeChannel e s ch = s.withOpened ch (some (x.extend e)) := by
  have stays : th.inClosingBand v = false := decide_eq_false (by omega)
  simp only [judgeChannel, active, isOpen, value, inside, stays, Bool.false_eq_true, if_false]

end Channels

/-- The judgement of one channel touches no other channel's exception (R128). -/
theorem judgeChannel_opened_other (e : EvaluatedStation) (s : State) {ch ch' : Channel} (other : ch' ≠ ch) :
    (judgeChannel e s ch).det.opened.get ch' = s.det.opened.get ch' := by
  have slot := fun x => withOpened_opened_other s x other
  have closed := fun x cause last => closeException_opened_other s x cause last other
  unfold judgeChannel
  split
  · rw [closeOpened_opened, PerChannel.get_set_other _ _ other]
  · rfl
  · split
    · exact slot _
    · rfl
  · dsimp only
    split
    · exact closed _ _ _
    · exact slot _
  · split
    · exact slot _
    · split
      · exact closed _ _ _
      · exact slot _

/-! ### A station judged (R128, R130) -/

/-- Steps 2 to 4 of R128: the channels judged, the marking trigger tested, the station become the previous one. -/
def judgeChannels (e : EvaluatedStation) (s : State) : State :=
  let t := Channel.all.foldl (triggerMark e) (Channel.all.foldl (judgeChannel e) s)
  t.withDet { t.det with previous := some { number := e.number, chainage := e.chainage, epoch := e.epoch } }

section Station

variable {s : State} {e : EvaluatedStation}

theorem judgeStation_of_first (first : s.det.previous = none) : judgeStation s e = judgeChannels e s := by
  simp only [judgeStation, first, judgeChannels]

variable {q : PreviousStation} (previous : s.det.previous = some q)
include previous

theorem judgeStation_of_same_epoch (same : q.epoch = e.epoch) : judgeStation s e = judgeChannels e s := by
  simp only [judgeStation, previous, if_neg (not_not_intro same), judgeChannels]

theorem judgeStation_of_new_epoch (step : q.epoch ≠ e.epoch) :
    judgeStation s e = judgeChannels e (closeAll s .locationStep) := by
  simp only [judgeStation, previous, if_pos step, judgeChannels]

end Station

/-! ### The marking trigger (R142) -/

/-- An open exception is due to ask for its mark. -/
def OpenException.AsksMark (x : OpenException) (p : Params) : Prop :=
  p.markSeverity ≠ 0 ∧ x.markAsked = false ∧ p.markSeverity ≤ x.severity

section Trigger

variable {s : State} {e : EvaluatedStation} {ch : Channel}

theorem triggerMark_of_none (shut : s.det.opened.get ch = none) : triggerMark e s ch = s := by
  simp only [triggerMark, shut]

variable {x : OpenException} (isOpen : s.det.opened.get ch = some x)
include isOpen

theorem triggerMark_of_silent (silent : ¬x.AsksMark s.params) : triggerMark e s ch = s := by
  simp only [triggerMark, isOpen]
  exact if_neg silent

theorem triggerMark_of_asking (asks : x.AsksMark s.params) : triggerMark e s ch =
    requestMark (s.withOpened ch (some { x with markAsked := true }))
      { number := e.number, nominal := e.nominal, speed := e.speed, channel := ch } := by
  simp only [triggerMark, isOpen]
  exact if_pos asks

/-- The request changes no exception, so the flag set before it stands. -/
theorem triggerMark_opened_of_asking (asks : x.AsksMark s.params) :
    (triggerMark e s ch).det.opened.get ch = some { x with markAsked := true } := by
  rw [triggerMark_of_asking isOpen asks]
  obtain ⟨opened, -⟩ := requestMark_changes (s.withOpened ch (some { x with markAsked := true }))
    { number := e.number, nominal := e.nominal, speed := e.speed, channel := ch } .exceptions (by decide)
  rw [opened, withOpened_opened]

end Trigger

/-- Settles O50: the judgement of a channel by its cases (`judgeChannel_of_inactive` to `judgeChannel_of_hovering`), a
station by the epoch before it, the trigger by `OpenException.AsksMark`. -/
theorem channelIsJudged : Obligations.ChannelIsJudged := by
  refine ⟨Level.outside_iff, fun s e ch => ⟨activeThreshold_of_suppressed, fun absent => ?_,
      fun own th ⟨mem, speedClass, listed⟩ => ?_⟩,
    fun e s ch => ⟨fun _ => judgeChannel_opened_other e s, fun inactive => ?_, fun th active => ⟨?_, ?_, ?_, ?_⟩⟩,
    fun s e => ⟨judgeStation_of_first, fun q previous => ⟨judgeStation_of_same_epoch previous, fun step =>
      ⟨_, judgeStation_of_new_epoch previous step, rfl, closeAll_opened s .locationStep⟩⟩⟩,
    fun s cause ch => ⟨closeOpened_of_none cause, fun _ => closeOpened_of_some cause⟩, fun _ _ => rfl,
    fun s e ch => ⟨triggerMark_of_none, fun x isOpen => ⟨triggerMark_of_silent isOpen, fun asks =>
      ⟨triggerMark_opened_of_asking isOpen asks, triggerMark_of_asking isOpen asks⟩⟩⟩⟩
  · exact activeThreshold_of_no_entry fun th mem speedClass channel =>
      absent th ⟨mem, speedClass, Channel.listed_iff.mpr channel⟩
  · have judgedBy := activeThreshold_of_entry own mem speedClass (Channel.listed_iff.mp listed)
    refine ⟨fun disabled => ?_, fun enabled free => (judgedBy free).trans (if_pos enabled)⟩
    by_cases suppressed : e.Suppresses ch
    · exact activeThreshold_of_suppressed suppressed
    · rw [judgedBy suppressed, disabled]
      rfl
  · rw [judgeChannel_of_inactive inactive, closeOpened_opened]
    exact ⟨PerChannel.get_set_self _ _ _, closeOpened_of_none _, fun _ => closeOpened_of_some _⟩
  · exact judgeChannel_of_shut_void active
  · intro v shut value
    rw [judgeChannel_of_shut active shut value]
    refine ⟨fun inside => by rw [inside]; rfl, fun outside => ?_⟩
    rw [if_pos outside]
    exact withOpened_opened _ _ _
  · intro x isOpen void
    rw [judgeChannel_of_open_void active isOpen void]
    refine ⟨fun few => ?_, fun many => if_pos many⟩
    rw [if_neg few.not_ge]
    exact withOpened_opened _ _ _
  · intro x v isOpen value
    refine ⟨fun outside => ?_, fun inside => ⟨judgeChannel_of_closing active isOpen value inside, fun beyond => ?_⟩⟩
    · rw [judgeChannel_of_exceeding active isOpen value outside]
      exact withOpened_opened _ _ _
    · rw [judgeChannel_of_hovering active isOpen value inside beyond]
      exact withOpened_opened _ _ _

end Sys2Proof.Machine
end

section
/-! # Mark requests: the side set, the nearest entry, the place in target order, and what is scheduled or dropped
(R145 to R149) -/

namespace Sys2Proof.Machine

/-! ### The side set (R147) -/

theorem sidesFor_of_left {ch : Channel} (left : ch = .topL ∨ ch = .alignL) :
    sidesFor ch .increasing = ⟨true, false⟩ ∧ sidesFor ch .decreasing = ⟨false, true⟩ := by
  rcases left with rfl | rfl <;> exact ⟨rfl, rfl⟩

theorem sidesFor_of_right {ch : Channel} (right : ch = .topR ∨ ch = .alignR) :
    sidesFor ch .increasing = ⟨false, true⟩ ∧ sidesFor ch .decreasing = ⟨true, false⟩ := by
  rcases right with rfl | rfl <;> exact ⟨rfl, rfl⟩

theorem sidesFor_of_both {ch : Channel} (both : ch = .gauge ∨ ch = .xlevel ∨ ch = .twist ∨ ch = .curv) (d : Direction) :
    sidesFor ch d = ⟨true, true⟩ := by
  rcases both with rfl | rfl | rfl | rfl <;> rfl

theorem Channel.rail_cases (ch : Channel) : (ch = .topL ∨ ch = .alignL) ∨ (ch = .topR ∨ ch = .alignR)
    ∨ (ch = .gauge ∨ ch = .xlevel ∨ ch = .twist ∨ ch = .curv) := by
  cases ch <;> decide

theorem sidesFor_nonempty (ch : Channel) (d : Direction) : (sidesFor ch d).left = true ∨ (sidesFor ch d).right = true := by
  obtain left | right | both := ch.rail_cases
  · obtain ⟨up, down⟩ := sidesFor_of_left left
    cases d <;> simp [up, down]
  · obtain ⟨up, down⟩ := sidesFor_of_right right
    cases d <;> simp [up, down]
  · simp [sidesFor_of_both both]

/-- Settles O52: the channels of the left rail, of the right rail and of the whole track, each by its rows of R147. -/
theorem markSidesByChannelAndDirection : Obligations.MarkSidesByChannelAndDirection :=
  ⟨fun _ => sidesFor_of_left, fun _ => sidesFor_of_right, fun _ d both => sidesFor_of_both both d, sidesFor_nonempty⟩

/-! ### The entry nearest to a target (R149 step 1) -/

/-- How far an entry lies from a target, to either side. -/
def Mark.offset (target : DWord) (m : Mark) : Nat := (ahead m.target target).natAbs

/-- An entry none is nearer than, and the first such in the queue. -/
def FirstNearest (target : DWord) (queue : List Mark) (n : Mark) : Prop :=
  ∃ before after, queue = before ++ n :: after
    ∧ (∀ m ∈ before, n.offset target < m.offset target) ∧ ∀ m ∈ after, n.offset target ≤ m.offset target

namespace FirstNearest

variable {target : DWord} {queue : List Mark} {n : Mark}

theorem mem (h : FirstNearest target queue n) : n ∈ queue := by
  obtain ⟨before, after, rfl, -⟩ := h
  simp

theorem offset_le (h : FirstNearest target queue n) {m : Mark} (mem : m ∈ queue) : n.offset target ≤ m.offset target := by
  obtain ⟨before, after, rfl, farther, notNearer⟩ := h
  rcases List.mem_append.mp mem with mem | mem
  · exact (farther m mem).le
  · rcases List.mem_cons.mp mem with rfl | mem
    · exact le_rfl
    · exact notNearer m mem

/-- In a queue in target order the first of the nearest is the lowest of them. -/
theorem ahead_nonneg (h : FirstNearest target queue n) (ordered : queue.Pairwise fun x y => 0 < ahead y.target x.target)
    {m : Mark} (mem : m ∈ queue) (tie : m.offset target = n.offset target) : 0 ≤ ahead m.target n.target := by
  obtain ⟨before, after, rfl, farther, -⟩ := h
  rcases List.mem_append.mp mem with mem | mem
  · exact absurd tie (farther m mem).ne'
  · obtain ⟨-, fromHere, -⟩ := List.pairwise_append.mp ordered
    rcases List.mem_cons.mp mem with rfl | mem
    · simp [ahead]
    · exact (List.rel_of_pairwise_cons fromHere mem).le

theorem concat (h : FirstNearest target queue n) {m : Mark} (notNearer : n.offset target ≤ m.offset target) :
    FirstNearest target (queue ++ [m]) n := by
  obtain ⟨before, after, rfl, farther, rest⟩ := h
  refine ⟨before, after ++ [m], by simp, farther, ?_⟩
  simpa [or_imp, forall_and] using ⟨rest, notNearer⟩

theorem concat_self {m : Mark} (farther : ∀ x ∈ queue, m.offset target < x.offset target) :
    FirstNearest target (queue ++ [m]) m :=
  ⟨queue, [], rfl, farther, by simp⟩

end FirstNearest

section Nearest

variable {limit : Int} {target : DWord} {queue : List Mark} {m : Mark}

theorem nearestMark_concat_of_far (far : limit < m.offset target) :
    nearestMark limit target (queue ++ [m]) = nearestMark limit target queue := by
  rw [nearestMark, List.foldl_concat]
  exact if_pos far

theorem nearestMark_concat_of_none (near : ¬ limit < m.offset target) (none' : nearestMark limit target queue = none) :
    nearestMark limit target (queue ++ [m]) = some m.target := by
  rw [nearestMark, List.foldl_concat, ← nearestMark, none']
  exact if_neg near

theorem nearestMark_concat_of_best (near : ¬ limit < m.offset target) {n : Mark}
    (best : nearestMark limit target queue = some n.target) : nearestMark limit target (queue ++ [m]) =
      if m.offset target < n.offset target then some m.target else some n.target := by
  rw [nearestMark, List.foldl_concat, ← nearestMark, best]
  exact if_neg near

theorem nearestMark_cases (limit : Int) (target : DWord) (queue : List Mark) :
    (nearestMark limit target queue = none ∧ ∀ m ∈ queue, limit < m.offset target)
      ∨ ∃ n, nearestMark limit target queue = some n.target ∧ FirstNearest target queue n ∧ n.offset target ≤ limit := by
  induction queue using List.reverseRecOn with
  | nil => exact .inl ⟨rfl, by simp⟩
  | append_singleton queue m ih =>
    by_cases far : limit < m.offset target
    · rw [nearestMark_concat_of_far far]
      obtain ⟨none', allFar⟩ | ⟨n, best, first, near⟩ := ih
      · refine .inl ⟨none', ?_⟩
        simpa [or_imp, forall_and] using ⟨allFar, far⟩
      · exact .inr ⟨n, best, first.concat (by omega), near⟩
    · obtain ⟨none', allFar⟩ | ⟨n, best, first, near⟩ := ih
      · refine .inr ⟨m, nearestMark_concat_of_none far none', .concat_self fun x mem => ?_, not_lt.mp far⟩
        have := allFar x mem
        omega
      · rw [nearestMark_concat_of_best far best]
        by_cases nearer : m.offset target < n.offset target
        · exact .inr ⟨m, if_pos nearer, .concat_self fun x mem => nearer.trans_le (first.offset_le mem), not_lt.mp far⟩
        · exact .inr ⟨n, if_neg nearer, first.concat (not_lt.mp nearer), near⟩

theorem nearestMark_of_near (near : ∃ m ∈ queue, (m.offset target : Int) ≤ limit) :
    ∃ n, nearestMark limit target queue = some n.target ∧ FirstNearest target queue n ∧ n.offset target ≤ limit := by
  obtain ⟨m, mem, near⟩ := near
  obtain ⟨-, allFar⟩ | found := nearestMark_cases limit target queue
  · exact absurd near (allFar m mem).not_ge
  · exact found

theorem nearestMark_of_far (far : ∀ m ∈ queue, ¬ (m.offset target : Int) ≤ limit) : nearestMark limit target queue = none := by
  obtain ⟨none', -⟩ | ⟨n, -, first, near⟩ := nearestMark_cases limit target queue
  · exact none'
  · exact absurd near (far n first.mem)

end Nearest

/-! ### The place in target order (R149 step 3) -/

theorem insertMark_split (new : Mark) (queue : List Mark) :
    ∃ before after, queue = before ++ after ∧ insertMark new queue = before ++ new :: after
      ∧ (∀ m ∈ before, ahead m.target new.target ≤ 0)
      ∧ ∀ m, after.head? = some m → 0 < ahead m.target new.target := by
  induction queue with
  | nil => exact ⟨[], [], rfl, rfl, by simp, by simp⟩
  | cons a queue ih =>
    by_cases beyond : 0 < ahead a.target new.target
    · exact ⟨[], a :: queue, rfl, if_pos beyond, by simp, by simpa using beyond⟩
    · obtain ⟨before, after, split, inserted, reached, next⟩ := ih
      refine ⟨a :: before, after, by rw [split, List.cons_append], (if_neg beyond).trans (by rw [inserted, List.cons_append]),
        ?_, next⟩
      simpa using ⟨not_lt.mp beyond, reached⟩

/-! ### What a request scheduled and a request dropped leave (R146, R149, R154) -/

theorem setEvent_mark (s : State) (b : StickyBit) : (setEvent s b).mark = s.mark :=
  mark_of_changes (setEvent_changes s b) (by decide)

theorem setEvent_tallies (s : State) (b : StickyBit) : (setEvent s b).run.tallies = s.run.tallies :=
  setEvent_changes s b .tallies (by decide)

theorem dropMark_mark (s : State) : (dropMark s).mark = { s.mark with dropped := s.mark.dropped + 1 } := setEvent_mark _ _

theorem dropMark_tallies (s : State) :
    (dropMark s).run.tallies = { s.run.tallies with marksDropped := s.run.tallies.marksDropped + 1 } :=
  setEvent_tallies _ _

theorem dropMark_has (s : State) : (dropMark s).status.has .markDropped = true := setEvent_has _ _

theorem scheduleMark_mark (s : State) (queue : List Mark) : (scheduleMark s queue).mark = { s.mark with queue := queue } := rfl

theorem scheduleMark_tallies (s : State) (queue : List Mark) : (scheduleMark s queue).run.tallies =
    { s.run.tallies with marksScheduled := s.run.tallies.marksScheduled + 1 } := rfl

theorem scheduleMark_status (s : State) (queue : List Mark) : (scheduleMark s queue).status = s.status := rfl

/-! ### The four outcomes of a request (R146, R149) -/

section Request

variable {s : State} {q : MarkRequest}

theorem requestMark_of_behind (behind : ahead (s.markTarget q.nominal q.speed) s.odometerPosition ≤ 0) :
    requestMark s q = dropMark s := if_pos behind

theorem requestMark_of_merged (lead : 0 < ahead (s.markTarget q.nominal q.speed) s.odometerPosition) {t : DWord}
    (found : nearestMark (s.params.markSpacing * 1000) (s.markTarget q.nominal q.speed) s.mark.queue = some t) :
    requestMark s q = scheduleMark s (s.mark.queue.map fun m =>
      if m.target = t then { m with sides := m.sides.union (sidesFor q.channel s.run.direction) } else m) := by
  simp only [requestMark, if_neg lead.not_ge, found]

theorem requestMark_of_full (lead : 0 < ahead (s.markTarget q.nominal q.speed) s.odometerPosition)
    (none' : nearestMark (s.params.markSpacing * 1000) (s.markTarget q.nominal q.speed) s.mark.queue = none)
    (full : Config.markCapacity ≤ s.mark.queue.length) : requestMark s q = dropMark s := by
  simp only [requestMark, if_neg lead.not_ge, none', if_pos full]

theorem requestMark_of_room (lead : 0 < ahead (s.markTarget q.nominal q.speed) s.odometerPosition)
    (none' : nearestMark (s.params.markSpacing * 1000) (s.markTarget q.nominal q.speed) s.mark.queue = none)
    (room : s.mark.queue.length < Config.markCapacity) : requestMark s q = scheduleMark s
      (insertMark ⟨s.markTarget q.nominal q.speed, sidesFor q.channel s.run.direction⟩ s.mark.queue) := by
  simp only [requestMark, if_neg lead.not_ge, none', if_neg room.not_ge]

end Request

/-- Settles O53: the four outcomes of a request (`requestMark_of_behind` to `requestMark_of_room`), with the entry that
`nearestMark` finds as the first of the nearest and the place that `insertMark` gives. -/
theorem markRequestIsAdmittedOrDropped : Obligations.MarkRequestIsAdmittedOrDropped := by
  intro s q t target sides near outputsKept droppedOne scheduledOne
  have dropped (e : requestMark s q = dropMark s) : droppedOne := by
    simp [droppedOne, outputsKept, t, e, dropMark_mark, dropMark_tallies, dropMark_has]
  have scheduled {queue} (e : requestMark s q = scheduleMark s queue) : scheduledOne ∧ t.mark.queue = queue := by
    simp [scheduledOne, outputsKept, t, e, scheduleMark_mark, scheduleMark_tallies, scheduleMark_status]
  have near_iff (m : Mark) : near m ↔ (m.offset target : Int) ≤ s.params.markSpacing * 1000 := by
    simp only [near, Mark.offset]
    omega
  refine ⟨fun behind => dropped (requestMark_of_behind behind), fun lead => ⟨fun someNear => ?_, fun noneNear => ?_⟩⟩
  · obtain ⟨n, found, first, isNear⟩ := nearestMark_of_near (by simpa only [near_iff] using someNear)
    obtain ⟨once, queue⟩ := scheduled (requestMark_of_merged lead found)
    exact ⟨once, n, first.mem, (near_iff n).mpr isNear, fun m => first.offset_le,
      fun ordered m => first.ahead_nonneg ordered, queue⟩
  · have none' := nearestMark_of_far (by simpa only [near_iff] using noneNear)
    refine ⟨fun full => dropped (requestMark_of_full lead none' full), fun room => ?_⟩
    obtain ⟨once, queue⟩ := scheduled (requestMark_of_room lead none' room)
    obtain ⟨before, after, split, inserted, reached, next⟩ := insertMark_split ⟨target, sides⟩ s.mark.queue
    exact ⟨once, before, after, split, queue.trans inserted, reached, next⟩

end Sys2Proof.Machine
end

section
/-! # The flush timer serves through every step (R157, R158, R159, R166, R179) -/

namespace Sys2Proof.Machine

/-! ### What keeps it -/

/-- The invariant reads whether the timer runs, whether there is a batch, and whether an apply is pending. -/
theorem timerServes_of_same {s t : State} (serves : s.TimerServes) (flush : t.out.flush.isSome = s.out.flush.isSome)
    (batch : t.out.batch.isSome = s.out.batch.isSome)
    (staging : t.req.staging.isPending = s.req.staging.isPending) : t.TimerServes := by
  unfold State.TimerServes
  rw [flush, batch, staging]
  exact serves

theorem settle_timerServes {s : State} (serves : s.TimerServes) : (settle s).TimerServes :=
  timerServes_of_changes serves (settle_changes s) (by decide)

/-- A timer that runs down still runs. -/
theorem elapse_timerServes {s : State} (serves : s.TimerServes) (n : Nat) : (elapse n s).TimerServes :=
  timerServes_of_same serves Option.isSome_map rfl rfl

/-- With nothing to serve, the timer is off. -/
theorem timerServes_of_idle {s : State} (flush : s.out.flush = none) (batch : s.out.batch = none)
    (staging : s.req.staging.isPending = false) : s.TimerServes := by
  simp [State.TimerServes, flush, batch, staging]

/-! ### Ring entry, and the close of a station -/

theorem enterRing_timerServes {s : State} (serves : s.TimerServes) (e : Entering) : (enterRing s e).TimerServes := by
  by_cases last : e.number = s.ring.next + s.ring.long
  · rw [enterRing_of_last last]
    exact evaluateNext_timerServes (s := s.entered e) serves
  · rw [enterRing_of_other last]
    exact serves

theorem enterSkipped_timerServes {s : State} (serves : s.TimerServes) (number count : Nat) :
    (enterSkipped s number count).TimerServes := by
  induction count generalizing s number with
  | zero => exact serves
  | succ count ih => exact ih (enterRing_timerServes serves _) _

theorem enterClosed_timerServes {s : State} (serves : s.TimerServes) (fuel : Nat) : (enterClosed s fuel).TimerServes := by
  induction fuel generalizing s with
  | zero => exact serves
  | succ fuel ih =>
    cases table : s.table with
    | nil =>
      rw [enterClosed_of_waiting (.inl table)]
      exact serves
    | cons p rest =>
      cases closed : p.closed with
      | none =>
        rw [enterClosed_of_waiting (.inr ⟨p, rest, table, closed⟩)]
        exact serves
      | some i =>
        rw [enterClosed_of_closed table closed]
        exact ih (enterSkipped_timerServes (enterRing_timerServes (s := s.withTable rest) serves _) _ _)

theorem closeStation_timerServes {s : State} (serves : s.TimerServes) (p : PendingStation) :
    (closeStation s p).TimerServes := by
  have judged := timerServes_of_changes serves (judged_changes s p) (by decide)
  rw [closeStation_eq]
  exact enterClosed_timerServes (s := s.marked p) judged _

theorem closeAnswered_timerServes {s : State} (serves : s.TimerServes) (fuel : Nat) :
    (closeAnswered s fuel).TimerServes := by
  induction fuel generalizing s with
  | zero => exact serves
  | succ fuel ih =>
    unfold closeAnswered
    split
    · exact serves
    · exact ih (closeStation_timerServes serves _)

/-! ### Reception at port A -/

/-- A SAMPLE is counted on its head, or is late, or is accepted (R62). -/
theorem sampleIntake_cases (s : State) (x : Head) (payload : List Byte) :
    (∃ f, sampleIntake s x payload = s.updateHead x.cfg.addr f)
      ∨ (∃ n, sampleIntake s x payload = lateSample s x n payload)
      ∨ ∃ n status, sampleIntake s x payload = acceptSample s x n status payload := by
  unfold sampleIntake
  dsimp only
  split
  · exact .inl ⟨_, rfl⟩
  · split
    · exact .inl ⟨_, rfl⟩
    · split
      · exact .inl ⟨_, rfl⟩
      · split
        · exact .inr (.inl ⟨_, rfl⟩)
        · split
          · exact .inl ⟨_, rfl⟩
          · split
            · exact .inl ⟨_, rfl⟩
            · split
              · exact .inl ⟨_, rfl⟩
              · split
                · exact .inr (.inr ⟨_, _, rfl⟩)
                · exact .inl ⟨_, rfl⟩

theorem sampleIntake_timerServes {s : State} (serves : s.TimerServes) (x : Head) (payload : List Byte) :
    (sampleIntake s x payload).TimerServes := by
  obtain ⟨f, e⟩ | ⟨n, e⟩ | ⟨n, status, e⟩ := sampleIntake_cases s x payload
  · rw [e]
    exact serves
  · rw [e, lateSample_eq]
    refine closeAnswered_timerServes ?_ _
    split
    · exact timerServes_of_changes (s := s.updateHead _ _) serves (advanceRecovery_changes _ n x) (by decide)
    · exact serves
  · rw [e, acceptSample_eq]
    refine closeAnswered_timerServes ?_ _
    exact timerServes_of_changes (s := (s.updateHead _ _).withTable _) serves (advanceRecovery_changes _ n x) (by decide)

/-- What a frame that holds no SAMPLE of a head may change at port A. -/
abbrev Region.receivedA : List Region := [.forwardAB, .countersA, .location, .tagCounters] ++ Region.noted

/-- A frame at port A reaches the sample intake, or touches no station (R6). -/
theorem receiveA_cases (s : State) (bytes : List Byte) : s.ChangesOnly Region.receivedA (receiveA s bytes)
    ∨ ∃ x payload, receiveA s bytes = sampleIntake (countReceivedA s) x payload := by
  have counted : s.ChangesOnly Region.receivedA (countReceivedA s) := (countReceivedA_changes s).mono (by decide)
  unfold receiveA
  dsimp only
  generalize countReceivedA s = u at counted
  have dropped : s.ChangesOnly Region.receivedA (dropUnknownSource u) :=
    counted.then (dropUnknownSource_changes u) (by decide)
  split
  · exact .inl (counted.then (errorA_changes u) (by decide))
  · rename_i f _
    unfold classifyA
    split
    · split
      · exact .inl dropped
      · split
        · exact .inl dropped
        · exact .inr ⟨_, _, rfl⟩
    · split
      · split
        · exact .inl dropped
        · split
          · exact .inl (counted.then (tagIntake_changes u _) (by decide))
          · exact .inl dropped
      · exact .inl (counted.then (offerForwardAB_changes u f) (by decide))

theorem receiveA_timerServes {s : State} (serves : s.TimerServes) (bytes : List Byte) : (receiveA s bytes).TimerServes := by
  obtain changes | ⟨x, payload, e⟩ := receiveA_cases s bytes
  · exact timerServes_of_changes serves changes (by decide)
  · rw [e]
    exact sampleIntake_timerServes (s := countReceivedA s) serves x payload

/-! ### The part's own events, and the passing of time -/

theorem completeDrain_timerServes {s : State} (serves : s.TimerServes) : (completeDrain s).TimerServes := by
  have noted := timerServes_of_changes (drained_timerServes serves)
    (offerNote_changes s.drained (.runEnd s.run.id s.run.distanceAtStop s.drained.run.tallies)) (by decide)
  rw [completeDrain_eq]
  generalize offerNote s.drained _ = v at noted
  exact noted

/-- The expiry of the timer leaves nothing for it to serve (R158, R179). -/
theorem takeOwn_flush_timerServes (s : State) : (takeOwn s .flush).TimerServes := by
  have closed : (flushBatch (completeApply s)).req.staging = (completeApply s).req.staging :=
    flushBatch_changes _ .staging (by decide)
  refine settle_timerServes (timerServes_of_idle rfl ?_ ?_)
  · exact flushBatch_batch _
  · exact (congrArg Staging.isPending closed).trans (completeApply_staging s)

theorem takeOwn_timerServes {s : State} (serves : s.TimerServes) (e : OwnEvent) : (takeOwn s e).TimerServes := by
  cases e with
  | flush => exact takeOwn_flush_timerServes s
  | deadline station =>
    cases entry : s.openEntry station with
    | none => simpa [takeOwn, entry] using serves
    | some p =>
      rw [takeOwn_deadline entry]
      exact settle_timerServes (closeAnswered_timerServes (closeStation_timerServes serves p) _)
  | drain => exact settle_timerServes (completeDrain_timerServes serves)
  | pauseEnd => exact timerServes_of_changes serves (takeOwn_changes s .pauseEnd) (by decide)
  | pulseEnd side =>
    exact timerServes_of_changes serves (takeOwn_changes s (.pulseEnd side)) (by simp [OwnEvent.command, changedBy])
  | stampTimeout => exact timerServes_of_changes serves (takeOwn_changes s .stampTimeout) (by decide)

theorem after_timerServes {s : State} (serves : s.TimerServes) (n : Nat) : (s.after n).TimerServes := by
  refine after_induction (P := fun s _ r => s.TimerServes → r.TimerServes) (fun s n _ serves => elapse_timerServes serves n)
    (fun s n t e k r _ _ _ rest serves => rest (takeOwn_timerServes ?_ e)) s n serves
  exact elapse_timerServes serves t

theorem before_timerServes {s : State} (serves : s.TimerServes) (c : Instr) : (s.before c).TimerServes := by
  obtain same | ⟨n, same⟩ := before_cases s c
  · rwa [same]
  · rw [same]
    exact after_timerServes serves n

theorem awaitOwn_timerServes {s : State} (serves : s.TimerServes) (e : OwnEvent) : (awaitOwn e s).TimerServes := by
  have waited : (s.atMoment e).TimerServes := by
    obtain same | ⟨n, same⟩ := atMoment_cases s e
    · rwa [same]
    · rw [same]
      exact after_timerServes serves n
  unfold awaitOwn
  dsimp only
  split
  · exact takeOwn_timerServes waited e
  · exact waited

/-! ### The requests about tables (R176 to R180) -/

/-- Staging may change as long as an apply is pending or not as before. -/
theorem withStaging_timerServes {s : State} (serves : s.TimerServes) {staging : Staging}
    (same : staging.isPending = s.req.staging.isPending) :
    (s.withReq { s.req with staging := staging }).TimerServes := timerServes_of_same serves rfl rfl same

theorem tableOpen_timerServes {s : State} (serves : s.TimerServes) (r : Frame) : (tableOpen r s).TimerServes := by
  unfold tableOpen
  split
  · exact serves
  · split
    · exact serves
    · rename_i closed
      split
      · exact serves
      · exact withStaging_timerServes serves (by rw [not_not.mp closed]; rfl)

theorem tableLine_timerServes {s : State} (serves : s.TimerServes) (r : Frame) : (tableLine r s).TimerServes := by
  unfold tableLine
  split
  · exact serves
  · split
    · exact serves
    · exact serves
    · rename_i T lines entries opened
      dsimp only
      split
      · exact serves
      · split
        · exact serves
        · split
          · exact serves
          · exact withStaging_timerServes serves (by rw [opened]; rfl)

theorem tableAbort_timerServes {s : State} (serves : s.TimerServes) (r : Frame) : (tableAbort r s).TimerServes := by
  unfold tableAbort
  split
  · exact serves
  · exact serves
  · rename_i opened
    exact withStaging_timerServes serves (by rw [opened]; rfl)

theorem swapTable_timerServes {s : State} (serves : s.TimerServes) (atOnce : s.req.staging.isPending = false) (T : Table)
    (entries : List (List Byte)) : (swapTable s T entries).TimerServes := by
  have frame := swapTable_changes s T entries
  have flush : (swapTable s T entries).out.flush = s.out.flush := frame .flushTimer (by decide)
  have batch : (swapTable s T entries).out.batch = s.out.batch := frame .batch (by decide)
  refine timerServes_of_same serves (congrArg _ flush) (congrArg _ batch) ?_
  rw [swapTable_staging, atOnce]
  rfl

/-- An apply that must wait starts the timer, where it is off (R157, R179). -/
theorem tableApply_timerServes {s : State} (serves : s.TimerServes) (r : Frame) : (tableApply r s).TimerServes := by
  unfold tableApply
  split
  · exact serves
  · exact serves
  · rename_i T lines entries opened
    dsimp only
    split
    · exact serves
    · split
      · exact serves
      · split
        · exact serves
        · split
          · exact serves
          · split
            · exact serves
            · split
              · exact swapTable_timerServes serves (by rw [opened]; rfl) T entries
              · rw [startFlushTimer_eq]
                simp [State.TimerServes, Staging.isPending]

/-! ### Every command -/

theorem exec_timerServes {c : Instr} {s t : State} (serves : s.TimerServes) (e : exec c s = .next t) : t.TimerServes := by
  have request : ∀ {kind : RequestKind} {handling : Frame → State → State},
      (∀ {u : State}, u.TimerServes → ∀ r, (handling r u).TimerServes) →
      handleRequest kind (ifConsistent kind handling) s = .next t → t.TimerServes := by
    intro kind handling keeps e
    obtain answered | ⟨r, rest, -, rfl⟩ := request_cases e
    · exact timerServes_of_changes serves answered (by decide)
    · exact settle_timerServes (keeps (u := s.takeRequest rest) serves r)
  cases c with
  | hardwareReset straps a b =>
    cases e
    exact timerServes_of_idle rfl rfl rfl
  | portAReceive wait bytes =>
    have waited := after_timerServes serves wait
    simp only [exec, execPortAReceive] at e
    split at e <;> cases e
    · exact settle_timerServes (receiveA_timerServes waited bytes)
    · exact settle_timerServes waited
  | deadlineExpiry station => cases e; exact awaitOwn_timerServes serves (.deadline station)
  | flushTimerExpiry => cases e; exact awaitOwn_timerServes serves .flush
  | drainComplete =>
    obtain rfl | ⟨-, rfl⟩ := exec_drainComplete_cases e
    · exact serves
    · exact settle_timerServes (completeDrain_timerServes serves)
  | tableOpen => exact request tableOpen_timerServes e
  | tableLine =>
    obtain ⟨r, rest, -, rfl⟩ | ⟨-, rfl⟩ := handleRequest_cases e
    · exact settle_timerServes (tableLine_timerServes (s := s.takeRequest rest) serves r)
    · exact serves
  | tableApply => exact request tableApply_timerServes e
  | tableAbort => exact request tableAbort_timerServes e
  | softReset =>
    obtain answered | ⟨rest, reset⟩ := exec_softReset_cases e
    · exact timerServes_of_changes serves answered (by decide)
    · exact timerServes_of_changes (timerServes_of_idle rfl rfl rfl) reset (by decide)
  | _ =>
    obtain ⟨v, changes, rfl | rfl⟩ := exec_event e (by simp)
    · exact timerServes_of_changes (before_timerServes serves _) changes (by simp [Region.event])
    · exact settle_timerServes (timerServes_of_changes (before_timerServes serves _) changes (by simp [Region.event]))

/-- With no command waiting a due event waits next, or a microsecond passes. -/
theorem idle_timerServes {s : State} (serves : s.TimerServes) : (idle s).TimerServes := by
  unfold idle
  split
  · exact elapse_timerServes serves 1
  · rename_i c rest _
    have picked := timerServes_of_changes serves (pick_changes s c rest) (by decide)
    exact picked

/-- Settles O6: the timer starts with a batch opened (`openBatch_timerServes`) or an apply that waits
(`tableApply_timerServes`), and goes off where a flush or a completed apply leaves nothing to serve
(`stopIdleTimer_timerServes`), at its expiry (`takeOwn_flush_timerServes`) and at the resets. -/
theorem stepKeepsTimerServing : Obligations.StepKeepsTimerServing := by
  intro s t serves e
  cases pending : s.pending with
  | nil =>
    rw [step, pending] at e
    cases e
    exact idle_timerServes serves
  | cons c rest =>
    rw [step, pending] at e
    exact exec_timerServes (s := s.withPending rest) serves e

end Sys2Proof.Machine
end

section
/-! # The output composer: the batch, its flush, and the geometry queue (R155 to R162, Table 11-7) -/

namespace Sys2Proof.Machine

/-! ### The GEOMETRY frame (Table 11-7) -/

theorem geometryPayload_layout (run : Half) (epoch : Byte) (first part parts : Nat) (entries : List BatchEntry) :
    let p := geometryPayload run epoch first part parts entries
    halfAt p 0 = run ∧ byteAt p 2 = epoch ∧ wordAt p 3 = BitVec.ofNat 32 first
    ∧ [7, 8, 9].map (byteAt p) = [BitVec.ofNat 8 part, BitVec.ofNat 8 parts, BitVec.ofNat 8 entries.length]
    ∧ 10 ≤ p.length ∧ p.drop 10 = (entries.map BatchEntry.bytes).flatten := by
  have length : (geometryPayload run epoch first part parts entries).length
      = 10 + (entries.flatMap BatchEntry.bytes).length := by
    simp only [geometryPayload, nat8, nat32, List.length_append]
    rfl
  refine ⟨?_, ?_, ?_, ?_, by omega, List.flatMap_def⟩ <;> simp [geometryPayload, nat8, nat32]

/-- A void run is its descriptor alone: the top bit, and the stations it covers in the seven below. -/
theorem voidRun_bytes {n : Nat} (most : n ≤ 127) : ∃ d : Byte, BatchEntry.bytes (.voidRun n) = [d] ∧ d.getLsbD 7 = true
    ∧ (d.extractLsb' 0 7).toNat = n := by
  refine ⟨BitVec.ofNat 8 (128 + n), rfl, ?_, ?_⟩
  · rw [BitVec.getLsbD_ofNat, Nat.testBit_eq_decide_div_mod_eq]
    simp only [Nat.reduceLT, decide_true, Bool.true_and, decide_eq_true_eq]
    omega
  · simp only [BitVec.extractLsb'_toNat, BitVec.toNat_ofNat, Nat.shiftRight_zero]
    omega

theorem stationFlags_bits (flags : StationFlags) : (List.range 8).map flags.byte.getLsbD = [flags.speedUnknown,
    flags.skipped, flags.doubtful, flags.startOfRun, flags.endOfRun, flags.lowSpeed, flags.clipped, false] := by
  simp [StationFlags.byte, List.range_succ, flagByte_bit]

theorem channelField_length (v : Option Int) : (channelField v).length = 2 := by cases v <;> rfl

theorem halfAt_channelField (v : Option Int) (rest : List Byte) : halfAt (channelField v ++ rest) 0 =
    (match v with | some v => BitVec.ofInt 16 v | none => 0x8000) := by
  cases v <;> exact halfAt_halfBytes _ _

section Station

variable (chainage : Word) (speed speedClass : Nat) (flags : StationFlags) (lineCode : Option Half)
  (values : PerChannel (Option Int))

/-- A station entry before its values. -/
theorem station_layout : let b := BatchEntry.bytes (.station chainage speed speedClass flags lineCode values)
    byteAt b 0 = (if lineCode.isSome then 1 else 0) ∧ wordAt b 1 = chainage ∧ halfAt b 5 = BitVec.ofNat 16 speed
    ∧ byteAt b 7 = BitVec.ofNat 8 speedClass ∧ byteAt b 8 = flags.byte ∧ halfAt b 9 = lineCode.getD 0
    ∧ b.drop 11 = values.toList.flatMap channelField := by
  refine ⟨?_, ?_, ?_, ?_, ?_, ?_, rfl⟩
  · cases lineCode <;> rfl
  all_goals simp [BatchEntry.bytes, nat8, nat16]

theorem station_bytes_length :
    (BatchEntry.bytes (.station chainage speed speedClass flags lineCode values)).length = 27 := by
  simp [BatchEntry.bytes, PerChannel.toList, nat8, nat16, channelField_length]

/-- The values follow in channel order, two bytes each. -/
theorem station_value {h : Nat} {ch : Channel} (listed : Channel.all[h]? = some ch) :
    halfAt (BatchEntry.bytes (.station chainage speed speedClass flags lineCode values)) (11 + 2 * h) =
      (match values.get ch with | some v => BitVec.ofInt 16 v | none => 0x8000) := by
  have value : values.toList[h]? = some (values.get ch) := by rw [PerChannel.toList, List.getElem?_map, listed]; rfl
  obtain ⟨rest, behind⟩ := drop_flatMap channelField_length value
  obtain ⟨-, -, -, -, -, -, channels⟩ := station_layout chainage speed speedClass flags lineCode values
  calc halfAt (BatchEntry.bytes (.station chainage speed speedClass flags lineCode values)) (11 + 2 * h + 0)
      = halfAt (channelField (values.get ch) ++ rest) 0 := by
        rw [halfAt_add, ← List.drop_drop, channels, behind]
    _ = _ := halfAt_channelField _ _

end Station

/-! ### A flushed batch (R159 to R162) -/

section Offer

variable {s : State} {b : Batch}

/-- The batch joins the geometry queue whole. -/
theorem offerBatch_of_room (room : s.out.geometry.length + b.payloads.length ≤ 8) (noGap : s.out.gap = none) :
    offerBatch s b = s.withOut { s.out with
      geometry := s.out.geometry ++ b.payloads.map (s.frame s.params.recorder kindGeometry) } :=
  if_pos ⟨by rwa [List.length_map], by rw [noGap]; rfl⟩

/-- The batch is refused whole into the gap, with GEOMETRY_GAP. -/
theorem offerBatch_of_refused (refused : 8 < s.out.geometry.length + b.payloads.length ∨ s.out.gap ≠ none) :
    offerBatch s b = setEvent (s.withOut { s.out with gap := some (gapAfter s.out.gap b) }) .geometryGap :=
  if_neg fun ⟨room, noGap⟩ => refused.elim (Nat.not_lt.mpr (by rwa [List.length_map] at room))
    fun held => held (Option.isNone_iff_eq_none.mp noGap)

theorem offerBatch_geometry_of_refused (refused : 8 < s.out.geometry.length + b.payloads.length ∨ s.out.gap ≠ none) :
    (offerBatch s b).out.geometry = s.out.geometry := by
  rw [offerBatch_of_refused refused]
  exact setEvent_changes _ _ .geometryQueue (by decide)

theorem offerBatch_gap_of_refused (refused : 8 < s.out.geometry.length + b.payloads.length ∨ s.out.gap ≠ none) :
    (offerBatch s b).out.gap = some (gapAfter s.out.gap b) := by
  rw [offerBatch_of_refused refused]
  exact setEvent_changes _ _ .gap (by decide)

/-- The gap ends at the batch's last station (R162). -/
theorem gapAfter_last (g : Option Gap) (b : Batch) :
    (gapAfter g b).lastRun = b.runId ∧ (gapAfter g b).lastStation = b.first + covered b.entries - 1 := by
  cases g <;> exact ⟨rfl, rfl⟩

theorem offerBatch_room_or_refused (s : State) (b : Batch) :
    (s.out.geometry.length + b.payloads.length ≤ 8 ∧ s.out.gap = none)
      ∨ (8 < s.out.geometry.length + b.payloads.length ∨ s.out.gap ≠ none) := by
  rw [← not_le, ← not_and_or]
  exact em _

theorem flushBatch_of_none (none' : s.out.batch = none) : flushBatch s = s := by simp [flushBatch, none']

theorem flushBatch_of_batch (isOpen : s.out.batch = some b) :
    flushBatch s = stopIdleTimer (offerBatch (s.withOut { s.out with batch := none }) b) := by simp [flushBatch, isOpen]

theorem stopIdleTimer_of_pending (pending : s.req.staging.isPending = true) : stopIdleTimer s = s := by
  simp [stopIdleTimer, pending]

theorem stopIdleTimer_of_idle (none' : s.out.batch = none) (idle : s.req.staging.isPending = false) :
    stopIdleTimer s = s.withOut { s.out with flush := none } := by
  simp [stopIdleTimer, none', idle]

/-- The timer serves a pending apply on; with none it goes off at the flush (R157, log entry 11). -/
theorem flushBatch_timer (isOpen : s.out.batch = some b) : let t := offerBatch (s.withOut { s.out with batch := none }) b
    (s.req.staging.isPending = true → flushBatch s = t)
    ∧ (s.req.staging.isPending = false → flushBatch s = t.withOut { t.out with flush := none }) := by
  have frame := offerBatch_changes (s.withOut { s.out with batch := none }) b
  have staging : (offerBatch (s.withOut { s.out with batch := none }) b).req.staging = s.req.staging :=
    frame .staging (by decide)
  have batch : (offerBatch (s.withOut { s.out with batch := none }) b).out.batch = none := frame .batch (by decide)
  rw [flushBatch_of_batch isOpen]
  exact ⟨fun pending => stopIdleTimer_of_pending (by rw [staging, pending]),
    fun idle => stopIdleTimer_of_idle batch (by rw [staging, idle])⟩

end Offer

/-! ### A station added to the entries (R156 steps 2 to 4) -/

section Entries

variable {entries before : List BatchEntry} {n : Nat} {e : EvaluatedStation}

theorem entry_of_allVoid (void : e.allVoid = true) : e.entry = .voidRun 1 := if_pos void

theorem entry_of_not_allVoid (value : ¬ e.allVoid = true) :
    e.entry = .station e.chainage e.speed e.speedClass e.flags e.lineCode e.values := if_neg value

/-- An all-void station extends a last void run below 127. -/
theorem addEntry_of_extended (void : e.allVoid = true) (below : n < 127) :
    addEntry (before ++ [.voidRun n]) e = some (before ++ [.voidRun (n + 1)]) := by
  simp [addEntry, void, below]

/-- Any other entry joins while there are fewer than 16. -/
theorem addEntry_of_joined (other : ¬ e.allVoid = true ∨ ∀ before n, entries = before ++ [.voidRun n] → 127 ≤ n) :
    addEntry entries e = if entries.length < 16 then some (entries ++ [e.entry]) else none := by
  unfold addEntry
  dsimp only
  split
  · rename_i n last
    refine if_neg fun extends' => ?_
    obtain ⟨void, below⟩ := Bool.and_eq_true_iff.mp extends'
    obtain ⟨before, ends⟩ := List.getLast?_eq_some_iff.mp last
    exact other.elim (· void) fun long => absurd (long before n ends) (Nat.not_le.mpr (of_decide_eq_true below))
  · rfl

theorem batchFull_concat (x : BatchEntry) :
    batchFull (entries ++ [x]) = (decide (entries.length + 1 = 16) && x.complete) := by
  unfold batchFull
  rw [List.length_append, List.getLast?_concat]
  rfl

theorem complete_entry (e : EvaluatedStation) : e.entry.complete = !e.allVoid := by
  cases void : e.allVoid with
  | true => rw [entry_of_allVoid void]; rfl
  | false => rw [entry_of_not_allVoid (by simp [void])]; rfl

end Entries

/-! ### A station taken by the composer (R156) -/

/-- Step 4 of R156: a batch of 16 entries whose last is complete is flushed. -/
def flushFull (s : State) : State :=
  match s.out.batch with
  | some b => if batchFull b.entries then flushBatch s else s
  | none => s

theorem flushFull_of_batch {s : State} {b : Batch} (isOpen : s.out.batch = some b) :
    flushFull s = if batchFull b.entries then flushBatch s else s := by simp [flushFull, isOpen]

/-- The state in which a station has opened a batch (R156 step 3, R157). -/
theorem openBatch_eq (s : State) (e : EvaluatedStation) : openBatch s e = s.withOut { s.out with
    batch := some { runId := s.run.id, epoch := e.epoch, first := e.number, entries := [e.entry] }
    flush := some (s.out.flush.getD (s.params.flushTime * 1000)) } := startFlushTimer_eq _

/-- A batch just opened has one entry, and is not flushed. -/
theorem flushFull_openBatch (s : State) (e : EvaluatedStation) : flushFull (openBatch s e) = openBatch s e := by
  have opened : (openBatch s e).out.batch
      = some { runId := s.run.id, epoch := e.epoch, first := e.number, entries := [e.entry] } :=
    startFlushTimer_changes _ .batch (by decide)
  rw [flushFull_of_batch opened]
  exact if_neg (by simp [batchFull])

/-- The state with other entries in its batch. -/
def State.withEntries (s : State) (b : Batch) (entries : List BatchEntry) : State :=
  s.withOut { s.out with batch := some { b with entries := entries } }

theorem flushFull_withEntries (s : State) (b : Batch) (entries : List BatchEntry) : flushFull (s.withEntries b entries) =
    if batchFull entries then flushBatch (s.withEntries b entries) else s.withEntries b entries :=
  flushFull_of_batch (s := s.withEntries b entries) rfl

section Compose

variable {s : State} {e : EvaluatedStation}

theorem composeStation_of_none (none' : s.out.batch = none) : composeStation s e = openBatch s e := by
  calc composeStation s e = flushFull (addStation s e) := by simp only [composeStation, none']; rfl
    _ = flushFull (openBatch s e) := by simp only [addStation, none']
    _ = openBatch s e := flushFull_openBatch s e

variable {b : Batch} (isOpen : s.out.batch = some b)
include isOpen

/-- A batch of another epoch is flushed, and the station opens the next. -/
theorem composeStation_of_other_epoch (other : b.epoch ≠ e.epoch) : composeStation s e = openBatch (flushBatch s) e := by
  calc composeStation s e = composeStation (flushBatch s) e := by
        simp only [composeStation, isOpen, if_pos other, flushBatch_batch]
    _ = openBatch (flushBatch s) e := composeStation_of_none (flushBatch_batch s)

variable (same : b.epoch = e.epoch)
include same

theorem composeStation_of_same_epoch : composeStation s e = flushFull (addStation s e) := by
  simp only [composeStation, isOpen, if_neg (not_not.mpr same)]
  rfl

/-- The station is added, and the batch flushed if it is full then. -/
theorem composeStation_of_added {entries : List BatchEntry} (added : addEntry b.entries e = some entries) :
    composeStation s e =
      if batchFull entries then flushBatch (s.withEntries b entries) else s.withEntries b entries := by
  rw [composeStation_of_same_epoch isOpen same, ← flushFull_withEntries]
  simp only [addStation, isOpen, added]
  rfl

/-- The batch takes no more entries: it is flushed, and the station opens the next. -/
theorem composeStation_of_full (full : addEntry b.entries e = none) : composeStation s e = openBatch (flushBatch s) e := by
  rw [composeStation_of_same_epoch isOpen same, ← flushFull_openBatch]
  simp only [addStation, isOpen, full]

/-- An all-void station extends a last void run; at 127 stations in the 16th entry the batch is flushed. -/
theorem composeStation_of_extended {before : List BatchEntry} {n : Nat} (ends : b.entries = before ++ [.voidRun n])
    (void : e.allVoid = true) (below : n < 127) : composeStation s e =
      if b.entries.length = 16 ∧ n = 126 then flushBatch (s.withEntries b (before ++ [.voidRun (n + 1)]))
      else s.withEntries b (before ++ [.voidRun (n + 1)]) := by
  have added : addEntry b.entries e = some (before ++ [.voidRun (n + 1)]) := ends ▸ addEntry_of_extended void below
  have full : batchFull (before ++ [.voidRun (n + 1)]) = true ↔ b.entries.length = 16 ∧ n = 126 := by
    rw [batchFull_concat, ends, List.length_append]
    simp only [BatchEntry.complete, Config.voidRunLimit, Bool.and_eq_true, decide_eq_true_eq, List.length_singleton]
    omega
  rw [composeStation_of_added isOpen same added]
  simp only [full]

/-- Any other entry joins; a station with a value that makes the 16th entry has the batch flushed. -/
theorem composeStation_of_joined (other : ¬ e.allVoid = true ∨ ∀ before n, b.entries = before ++ [.voidRun n] → 127 ≤ n)
    (room : b.entries.length < 16) : composeStation s e =
      if b.entries.length = 15 ∧ ¬ e.allVoid = true then flushBatch (s.withEntries b (b.entries ++ [e.entry]))
      else s.withEntries b (b.entries ++ [e.entry]) := by
  have added := (addEntry_of_joined other).trans (if_pos room)
  have full : batchFull (b.entries ++ [e.entry]) = true ↔ b.entries.length = 15 ∧ ¬ e.allVoid = true := by
    rw [batchFull_concat, complete_entry]
    simp
  rw [composeStation_of_added isOpen same added]
  simp only [full]

end Compose

/-- Settles O54: the layouts are `geometryPayload_layout`, `voidRun_bytes` and `station_layout`; a flush is `flushBatch_timer`
and an offer `offerBatch_of_room` or `offerBatch_of_refused`; a station goes by the cases of `composeStation`
(`composeStation_of_none` to `composeStation_of_joined`). -/
theorem flushedBatchJoinsOrIsRefused : Obligations.FlushedBatchJoinsOrIsRefused := by
  refine ⟨geometryPayload_layout, fun n _ most => voidRun_bytes most,
    fun chainage speed speedClass flags lineCode values => ?_, fun entries => ?_,
    fun s => ⟨flushBatch_of_none, fun b isOpen => flushBatch_timer isOpen⟩,
    fun s b _ _ => ⟨fun room noGap => ?_, fun refused => ?_⟩, fun s e => ?_⟩
  · obtain ⟨presence, place, v, c, f, line, -⟩ := station_layout chainage speed speedClass flags lineCode values
    refine ⟨station_bytes_length _ _ _ _ _ _, presence, place, v, c, ?_, line.trans ?_,
      fun h ch listed => station_value _ _ _ _ _ _ listed⟩
    · rw [f, stationFlags_bits]
    · cases lineCode <;> rfl
  · exact congrArg (fun covers => (entries.map covers).sum) (funext fun x => by cases x <;> rfl)
  · rw [List.length_map] at room
    exact offerBatch_of_room room noGap
  · rw [List.length_map] at refused
    obtain ⟨lastRun, lastStation⟩ := gapAfter_last s.out.gap b
    refine ⟨offerBatch_geometry_of_refused refused, ?_, gapAfter s.out.gap b, offerBatch_gap_of_refused refused, lastRun,
      lastStation, fun noGap => ?_, fun g held => ?_⟩
    · rw [offerBatch_of_refused refused]
      exact setEvent_has _ _
    · rw [noGap]
      exact ⟨rfl, rfl, rfl⟩
    · rw [held]
      exact ⟨rfl, rfl, rfl⟩
  · have params : (flushBatch s).params = s.params := flushBatch_changes s .params (by decide)
    have reopened := openBatch_eq (flushBatch s) e
    rw [params] at reopened
    refine ⟨e.entry, fun void => entry_of_allVoid ((allVoid_iff e).mpr void),
      fun value => entry_of_not_allVoid (mt (allVoid_iff e).mp value),
      fun none' => (composeStation_of_none none').trans (openBatch_eq s e), fun b isOpen _ =>
      ⟨fun other => (composeStation_of_other_epoch isOpen other).trans reopened,
        fun same => ⟨fun before n ends void below => ?_, fun other => ?_⟩⟩⟩
    · rw [composeStation_of_extended isOpen same ends ((allVoid_iff e).mpr void) below]
      refine ⟨fun ⟨sixteen, last⟩ => ?_, fun room => if_neg (by omega)⟩
      rw [if_pos ⟨sixteen, last⟩, last]
      rfl
    · rw [← allVoid_iff] at other ⊢
      refine ⟨fun room => ?_, fun fifteen value => ?_, fun sixteen => ?_⟩
      · rw [composeStation_of_joined isOpen same other (by omega)]
        exact if_neg fun ⟨fifteen, value⟩ => room.elim (fun fewer => absurd fifteen (Nat.ne_of_lt fewer))
          fun ⟨_, void⟩ => value void
      · rw [composeStation_of_joined isOpen same other (by omega)]
        exact if_pos ⟨fifteen, value⟩
      · have full := (addEntry_of_joined other).trans (if_neg (Nat.not_lt.mpr sixteen.ge))
        exact (composeStation_of_full isOpen same full).trans reopened

end Sys2Proof.Machine
end

section
/-! # The expiry of the flush timer (R157, R158, R179) -/

namespace Sys2Proof.Machine

/-! ### What a completed apply leaves -/

/-- The APPLIED response takes the reserved place: the request's tag and kind, the table, the entries it then holds. -/
theorem completeApply_responses {s : State} {T : Table} {entries : List (List Byte)} {requester : Byte} {tag : Half}
    (pending : s.req.staging = .pending T entries requester tag) : (completeApply s).req.responses = s.req.responses ++
      [{ dst := requester, src := s.link.ownAddr, kind := 0x11
         payload := halfBytes tag ++ [0x07, 0x0A] ++ nat8 T.code ++ nat16 ((swapTable s T entries).activeCount T) }] := by
  have frame := swapTable_changes s T entries
  have responses : (swapTable s T entries).req.responses = s.req.responses := frame .responses (by decide)
  have address : (swapTable s T entries).link.ownAddr = s.link.ownAddr := frame .address (by decide)
  have answered : ∀ r code fields, (stopIdleTimer (respond (swapTable s T entries) r code fields)).req.responses
      = (respond (swapTable s T entries) r code fields).req.responses :=
    fun r code fields => stopIdleTimer_changes _ .responses (by decide)
  unfold completeApply
  rw [pending]
  dsimp only
  rw [answered]
  simp only [respond, State.withReq_req, responses, State.frame, address]
  rfl

/-- A threshold table holds 48 entries, or none after an empty load (R125). -/
theorem thresholdTable_length (staged : List Threshold) : (thresholdTable staged).length = if staged = [] then 0 else 48 := by
  cases staged with
  | nil => rfl
  | cons => simp [thresholdTable]

/-! ### The timer goes off -/

/-- The state in which the flush timer has run out, before the transmitters choose. -/
def State.expired (w : State) : State :=
  (flushBatch (completeApply w)).withOut { (flushBatch (completeApply w)).out with flush := none }

theorem takeOwn_flush (w : State) : takeOwn w .flush = settle w.expired := rfl

theorem withFlush_changes (s : State) (x : Option Nat) :
    s.ChangesOnly [.flushTimer] (s.withOut { s.out with flush := x }) := by
  intro r hr
  cases r <;> simp_all [State.Agrees]

/-- After the completion of a pending apply only the composer acts. -/
theorem expired_changes (w : State) : (completeApply w).ChangesOnly Region.composed w.expired :=
  (flushBatch_changes _).then (withFlush_changes _ none) (by decide)

theorem settle_expired_changes (w : State) :
    (completeApply w).ChangesOnly (Region.composed ++ Region.sent) (settle w.expired) :=
  ((expired_changes w).mono (by decide)).then (settle_changes _) (by decide)

/-- An offer reads the geometry queue, the gap and the addresses. -/
theorem offerBatch_congr {s t : State} (geometry : t.out.geometry = s.out.geometry) (gap : t.out.gap = s.out.gap)
    (params : t.params = s.params) (address : t.link.ownAddr = s.link.ownAddr) (b : Batch) :
    (offerBatch t b).out.geometry = (offerBatch s b).out.geometry ∧ (offerBatch t b).out.gap = (offerBatch s b).out.gap := by
  have frame : t.frame t.params.recorder = s.frame s.params.recorder := by
    funext kind payload
    simp only [State.frame, params, address]
  obtain ⟨room, noGap⟩ | refused := offerBatch_room_or_refused s b
  · rw [offerBatch_of_room room noGap, offerBatch_of_room (s := t) (by rwa [geometry]) (by rwa [gap])]
    simp only [State.withOut_out, geometry, gap, frame, and_self]
  · have refused' : 8 < t.out.geometry.length + b.payloads.length ∨ t.out.gap ≠ none := by rwa [geometry, gap]
    rw [offerBatch_geometry_of_refused refused, offerBatch_geometry_of_refused refused', offerBatch_gap_of_refused refused,
      offerBatch_gap_of_refused refused', geometry, gap]
    exact ⟨rfl, rfl⟩

/-- The batch is offered as it would be with no apply pending. -/
theorem expired_offers {w : State} {b : Batch} (isOpen : w.out.batch = some b) :
    let v := w.withOut { w.out with batch := none }
    w.expired.out.geometry = (offerBatch v b).out.geometry ∧ w.expired.out.gap = (offerBatch v b).out.gap := by
  have applied := completeApply_changes w
  have batch : (completeApply w).out.batch = some b := Eq.trans (applied .batch (by decide)) isOpen
  have flushed : flushBatch (completeApply w) = _ := flushBatch_of_batch batch
  have offered := stopIdleTimer_changes
    (offerBatch ((completeApply w).withOut { (completeApply w).out with batch := none }) b)
  obtain ⟨geometry, gap⟩ := offerBatch_congr (s := w.withOut { w.out with batch := none })
    (t := (completeApply w).withOut { (completeApply w).out with batch := none }) (applied .geometryQueue (by decide))
    (applied .gap (by decide)) (applied .params (by decide)) (applied .address (by decide)) b
  rw [← flushed] at offered
  exact ⟨Eq.trans (offered .geometryQueue (by decide)) geometry, Eq.trans (offered .gap (by decide)) gap⟩

/-! ### The command -/

section Expiry

variable {s : State} {n : Nat} (running : s.out.flush = some n)
include running

theorem exec_flushTimerExpiry_of_stopped (stopped : (s.after n).out.flush ≠ some 0) :
    exec .flushTimerExpiry s = .next (s.after n) := by
  have moment : s.atMoment .flush = s.after n := by simp [State.atMoment, State.timeTo, running]
  have waits : awaitOwn .flush s = if (s.after n).out.flush = some 0 then takeOwn (s.after n) .flush else s.after n := by
    rw [← moment]
    rfl
  exact congrArg Host.Outcome.next (waits.trans (if_neg stopped))

theorem exec_flushTimerExpiry_of_comes (comes : (s.after n).out.flush = some 0) :
    exec .flushTimerExpiry s = .next (settle (s.after n).expired) :=
  congrArg Host.Outcome.next (awaitOwn_of_comes (e := .flush) running comes)

end Expiry

/-- Settles O24: the command after its wait is `State.expired`, with a pending apply as `completeApply` leaves it and the
batch as `expired_offers` says. -/
theorem flushTimerServesAndGoesOff : Obligations.FlushTimerServesAndGoesOff := by
  intro s n running w
  have settled := settle_expired_changes w
  have staging : (settle w.expired).req.staging = (completeApply w).req.staging := settled .staging (by decide)
  have responses : w.expired.req.responses = (completeApply w).req.responses := expired_changes w .responses (by decide)
  have address : w.link.ownAddr = s.link.ownAddr := after_changes s n .address (by decide)
  refine ⟨exec_flushTimerExpiry_of_stopped running, fun comes => ⟨settle w.expired, w.expired,
    exec_flushTimerExpiry_of_comes running comes, rfl, ?_, ?_, ?_, ?_, fun idle => ?_,
    fun entries requester tag pending => ?_, fun entries requester tag pending => ?_,
    fun b isOpen => expired_offers isOpen⟩⟩
  · rw [← takeOwn_flush, takeOwn_time]
    exact after_time s n
  · exact settle_changes w.expired .flushTimer (by decide)
  · exact Eq.trans (settle_changes w.expired .batch (by decide)) (flushBatch_batch _)
  · rw [staging]
    exact completeApply_staging w
  · rw [staging, responses, completeApply_of_not_pending idle]
    exact ⟨rfl, rfl⟩
  · have swapped := completeApply_of_pending pending
    have thresholds : (completeApply w).det.thresholds = w.det.thresholds :=
      Eq.trans (swapped .thresholds (by decide)) (swapTable_route_changes w entries .thresholds (by decide))
    refine ⟨?_, Eq.trans (settled .route (by decide)) (completeApply_route pending),
      Eq.trans (settled .thresholds (by decide)) thresholds, ?_⟩
    · rw [staging]
      exact Eq.trans (swapped .staging (by decide)) (swapTable_staging w .route entries)
    · have count : (swapTable w .route entries).activeCount .route = entries.length := List.length_map _
      rw [responses, completeApply_responses pending, count, address]
      simp only [List.append_assoc]
      rfl
  · have swapped := completeApply_of_pending pending
    have route : (completeApply w).loc.route = w.loc.route :=
      Eq.trans (swapped .route (by decide)) (swapTable_thresholds_changes w entries .route (by decide))
    refine ⟨?_, Eq.trans (settled .route (by decide)) route,
      Eq.trans (settled .thresholds (by decide)) (completeApply_thresholds pending), ?_⟩
    · rw [staging]
      exact Eq.trans (swapped .staging (by decide)) (swapTable_staging w .thresholds entries)
    · have count : (swapTable w .thresholds entries).activeCount .thresholds = if entries = [] then 0 else 48 := by
        refine (thresholdTable_length (entries.map Threshold.read)).trans ?_
        simp only [List.map_eq_nil_iff]
      rw [responses, completeApply_responses pending, count, address]
      simp only [List.append_assoc]
      rfl

end Sys2Proof.Machine
end

section
/-! # Requests: the common form of their handling and of their answers (R169, R170, R185, Tables 11-4 and 11-5) -/

namespace Sys2Proof.Machine

/-! ### The kinds of request and their lengths (Table 11-4) -/

/-- The code of a kind in byte 2 of the payload; `unknown` has none, and 0 is no kind's code. -/
def RequestKind.code : RequestKind → Nat
  | .queryStatus => 1
  | .clearStatus => 2
  | .setParam => 3
  | .getParam => 4
  | .tableOpen => 5
  | .tableLine => 6
  | .tableApply => 7
  | .tableAbort => 8
  | .readEntry => 9
  | .runStart => 10
  | .runStop => 11
  | .setChainage => 12
  | .readCounters => 13
  | .softReset => 14
  | .unknown => 0

/-- The bytes of a kind's own fields, behind tag and kind; of a TABLE_LINE those before its entries. -/
def RequestKind.fieldBytes : RequestKind → Nat
  | .queryStatus | .tableAbort | .runStop | .softReset | .unknown => 0
  | .getParam | .tableOpen => 1
  | .tableApply | .readCounters => 2
  | .tableLine | .readEntry => 3
  | .setChainage => 4
  | .setParam => 5
  | .clearStatus => 6
  | .runStart => 7

theorem RequestKind.code_range {kind : RequestKind} (known : kind ≠ .unknown) : 1 ≤ kind.code ∧ kind.code ≤ 14 := by
  revert known
  cases kind <;> decide

theorem requestKind_eq_iff {kind : RequestKind} (known : kind ≠ .unknown) (p : List Byte) :
    requestKind p = kind ↔ 3 ≤ p.length ∧ (byteAt p 2).toNat = kind.code := by
  unfold requestKind
  split
  · rename_i short
    exact ⟨fun e => (known e.symm).elim, fun long => by omega⟩
  · rename_i long
    simp only [Nat.le_of_not_lt long, true_and]
    generalize (byteAt p 2).toNat = code
    split
    case h_15 =>
      refine ⟨fun e => (known e.symm).elim, fun e => ?_⟩
      cases kind <;> simp_all [RequestKind.code]
    all_goals cases kind <;> simp [RequestKind.code]

theorem requestKind_eq_unknown {p : List Byte}
    (h : p.length < 3 ∨ (byteAt p 2).toNat = 0 ∨ 14 < (byteAt p 2).toNat) : requestKind p = .unknown := by
  by_contra known
  obtain ⟨long, code⟩ := (requestKind_eq_iff known p).mp rfl
  have := RequestKind.code_range known
  omega

theorem requestConsistent_iff {kind : RequestKind} (known : kind ≠ .unknown) (p : List Byte) :
    requestConsistent kind p = true ↔
      if kind = .tableLine then 3 + kind.fieldBytes ≤ p.length else p.length = 3 + kind.fieldBytes := by
  cases kind with
  | unknown => exact (known rfl).elim
  | _ => simp [requestConsistent, RequestKind.fieldBytes]

/-- What every row of a list of kinds with their codes and lengths says holds of each of its rows. -/
theorem kindRow_of_listed {rows : List (RequestKind × Nat × Nat)} {kind : RequestKind} {code n : Nat}
    (listed : (kind, code, n) ∈ rows)
    (agree : ∀ row ∈ rows, row.1 ≠ .unknown ∧ row.2.1 = row.1.code ∧ row.2.2 = row.1.fieldBytes) :
    kind ≠ .unknown ∧ code = kind.code ∧ n = kind.fieldBytes := agree _ listed

/-! ### The command of a kind -/

/-- But for TABLE_LINE and a request of no kind, a command handles its request where the payload fits. -/
theorem exec_command_consistent {kind : RequestKind} (known : kind ≠ .unknown) (noLine : kind ≠ .tableLine) :
    ∃ handling, ∀ s, exec kind.command s = handleRequest kind (ifConsistent kind handling) s := by
  cases kind with
  | unknown => exact (known rfl).elim
  | tableLine => exact (noLine rfl).elim
  | _ => exact ⟨_, fun _ => rfl⟩

theorem exec_command (kind : RequestKind) : ∃ handling, ∀ s, exec kind.command s = handleRequest kind handling s := by
  by_cases known : kind = .unknown
  · subst known
    exact ⟨_, fun _ => rfl⟩
  · by_cases line : kind = .tableLine
    · subst line
      exact ⟨_, fun _ => rfl⟩
    · obtain ⟨handling, same⟩ := exec_command_consistent known line
      exact ⟨_, same⟩

/-- Where no request of its kind can be handled, a command changes nothing. -/
theorem exec_command_of_waits {kind : RequestKind} {s : State} (waits : ∀ r rest, ¬s.Handles kind r rest) :
    exec kind.command s = .next s := by
  obtain ⟨handling, same⟩ := exec_command kind
  rw [same, handleRequest]
  split
  · rfl
  · rename_i r rest head
    exact if_neg fun h => waits r rest ⟨head, h⟩

theorem exec_command_of_malformed {kind : RequestKind} {s : State} {r : Frame} {rest : List Frame}
    (handles : s.Handles kind r rest) (known : kind ≠ .unknown) (noLine : kind ≠ .tableLine)
    (malformed : requestConsistent kind r.payload = false) :
    exec kind.command s = .next (settle (respond (s.takeRequest rest) r .badParam [])) := by
  obtain ⟨handling, same⟩ := exec_command_consistent known noLine
  rw [same, handleRequest_of_handles handles, ifConsistent, malformed]
  rfl

/-- Settles O55: the table of kinds is `requestKind_eq_iff` with `requestConsistent_iff`, and what makes a request wait is
that `State.Handles` fails. -/
theorem requestsAreAnswered : Obligations.RequestsAreAnswered := by
  refine ⟨fun kind code n listed p => ?_, rfl, fun s r code fields => rfl, fun s r rest head free unknown => ?_,
    fun s kind full => exec_command_of_waits fun r rest handles => ?_,
    fun s draining empty => exec_command_of_waits (kind := .setChainage) fun r rest handles => ?_,
    fun s kind r rest handles known noLine malformed => exec_command_of_malformed handles known noLine malformed⟩
  · obtain ⟨known, rfl, rfl⟩ := kindRow_of_listed listed (by decide)
    exact ⟨requestKind_eq_iff known p, requestConsistent_iff known p⟩
  · exact handleRequest_of_handles ⟨head, requestKind_eq_unknown unknown, free, nofun⟩ unknownRequest
  · obtain ⟨-, -, free, -⟩ := handles
    exact absurd free full.not_gt
  · obtain ⟨-, -, -, notReady⟩ := handles
    exact notReady rfl ⟨draining, empty⟩

end Sys2Proof.Machine
end

section
/-! # What a step does on an empty queue (log entries 3, 4 and 23) -/

namespace Sys2Proof.Machine

/-! ### What has come due -/

/-- Whatever is to come is listed: the deadlines with the pending table, each other event by itself. -/
theorem mem_ownEvents_of_timeTo {s : State} {e : OwnEvent} {t : Nat} (comes : s.timeTo e = some t) : e ∈ s.ownEvents := by
  cases e with
  | deadline station =>
    obtain ⟨p, entry, -⟩ := Option.map_eq_some_iff.mp comes
    obtain ⟨mem, rfl, isOpen⟩ := openEntry_eq_some entry
    exact List.mem_append_right _ (List.mem_map.mpr ⟨p, List.mem_filter.mpr ⟨mem, by rw [isOpen]; rfl⟩, rfl⟩)
  | pulseEnd side => cases side <;> exact List.mem_append_left _ (by decide)
  | pauseEnd | flush | stampTimeout | drain => exact List.mem_append_left _ (by decide)

theorem mem_comingIn {s : State} {e : OwnEvent} {t : Nat} : e ∈ s.comingIn t ↔ s.timeTo e = some t := by
  rw [State.comingIn, List.mem_filter, beq_iff_eq]
  exact ⟨fun h => h.2, fun comes => ⟨mem_ownEvents_of_timeTo comes, comes⟩⟩

theorem mem_dueRequest {s : State} {c : Instr} :
    c ∈ s.dueRequest ↔ ∃ kind r rest, s.Handles kind r rest ∧ kind.command = c := by
  unfold State.dueRequest
  split
  · rename_i empty
    refine ⟨nofun, ?_⟩
    rintro ⟨kind, r, rest, ⟨head, -⟩, -⟩
    cases empty.symm.trans head
  · rename_i r rest head
    dsimp only
    split
    · rename_i free
      rw [List.mem_singleton]
      constructor
      · rintro rfl
        exact ⟨_, r, rest, ⟨head, rfl, free⟩, rfl⟩
      · rintro ⟨kind, r', rest', ⟨head', rfl, -⟩, rfl⟩
        cases head.symm.trans head'
        rfl
    · rename_i waits
      refine ⟨nofun, ?_⟩
      rintro ⟨kind, r', rest', ⟨head', rfl, free⟩, -⟩
      cases head.symm.trans head'
      exact (waits free).elim

theorem mem_dueEvents {s : State} {c : Instr} : c ∈ s.dueEvents ↔
    (∃ e : OwnEvent, s.timeTo e = some 0 ∧ e.command = c) ∨ ∃ kind r rest, s.Handles kind r rest ∧ kind.command = c := by
  simp only [State.dueEvents, List.mem_append, List.mem_map, mem_comingIn, mem_dueRequest]

/-! ### The step -/

/-- A choice leaves the state but for the count of choices. -/
theorem pick_withDraws {α : Type} (s : State) (first : α) (rest : List α) : ∃ n, (s.pick first rest).2 = s.withDraws n := by
  cases rest with
  | nil => exact ⟨s.draws, rfl⟩
  | cons second rest => exact ⟨s.draws + 1, rfl⟩

theorem idle_of_nothing {s : State} (nothing : s.dueEvents = []) : idle s = elapse 1 s := by
  simp only [idle, nothing]

theorem idle_of_due {s : State} (due : s.dueEvents ≠ []) :
    ∃ c ∈ s.dueEvents, ∃ n, idle s = (s.withPending [c]).withDraws n := by
  obtain ⟨c, rest, listed⟩ := List.exists_cons_of_ne_nil due
  obtain ⟨n, drawn⟩ := pick_withDraws s c rest
  refine ⟨(s.pick c rest).1, listed ▸ pick_mem s c rest, n, ?_⟩
  simp only [idle, listed, drawn]
  rfl

theorem step_of_empty {s : State} (empty : s.pending = []) : step s = .next (idle s) := by
  simp only [step, empty]

/-- Settles O2: `mem_dueEvents` says what has come due, and `idle_of_due` and `idle_of_nothing` what the step does then. -/
theorem idleStepTakesDueEventOrTime : Obligations.IdleStepTakesDueEventOrTime := by
  refine ⟨fun n s => rfl, fun s c => ?_, fun s empty => ⟨fun nothing => ?_, fun due => ?_⟩⟩
  · rw [mem_dueEvents]
    constructor
    · rintro (⟨e, comes, rfl⟩ | ⟨kind, r, rest, handles, rfl⟩)
      · cases e with
        | pauseEnd => exact .inl ⟨rfl, comes⟩
        | flush => exact .inr (.inl ⟨rfl, comes⟩)
        | pulseEnd side => exact .inr (.inr (.inl ⟨side, rfl, comes⟩))
        | deadline n => exact .inr (.inr (.inr (.inl ⟨n, rfl, comes⟩)))
        | stampTimeout => exact .inr (.inr (.inr (.inr (.inl ⟨rfl, comes⟩))))
        | drain => exact .inr (.inr (.inr (.inr (.inr (.inl ⟨rfl, comes⟩)))))
      · refine .inr (.inr (.inr (.inr (.inr (.inr ⟨kind, r, rest, handles, ?_⟩)))))
        cases kind <;> simp [RequestKind.command]
    · rintro (⟨rfl, comes⟩ | ⟨rfl, comes⟩ | ⟨side, rfl, comes⟩ | ⟨n, rfl, comes⟩ | ⟨rfl, comes⟩ | ⟨rfl, comes⟩
        | ⟨kind, r, rest, handles, listed⟩)
      · exact .inl ⟨.pauseEnd, comes, rfl⟩
      · exact .inl ⟨.flush, comes, rfl⟩
      · exact .inl ⟨.pulseEnd side, comes, rfl⟩
      · exact .inl ⟨.deadline n, comes, rfl⟩
      · exact .inl ⟨.stampTimeout, comes, rfl⟩
      · exact .inl ⟨.drain, comes, rfl⟩
      · refine .inr ⟨kind, r, rest, handles, ?_⟩
        cases kind <;> simpa [RequestKind.command, eq_comm] using listed
  · rw [step_of_empty empty, idle_of_nothing nothing]
  · obtain ⟨c, mem, n, queued⟩ := idle_of_due due
    exact ⟨c, mem, n, by rw [step_of_empty empty, queued]⟩

end Sys2Proof.Machine
end

section
/-! # CLEAR_STATUS and SET_PARAM (R172, R174, Table 10-2) -/

namespace Sys2Proof.Machine

/-! ### CLEAR_STATUS -/

theorem clear_getLsbD (t : Status) (mask : Half) {i : Nat} (low : i < 11) :
    (t.clear mask).bits.getLsbD i = (t.bits.getLsbD i && !mask.getLsbD i) := by
  simp [Status.clear, low]

section Clear

variable {s : State} {r : Frame}

theorem clearStatus_of_current (current : wordAt r.payload 5 = s.status.generation) :
    clearStatus r s = respond (s.withStatus (s.status.clear (halfAt r.payload 3))) r .done
      ((s.status.clear (halfAt r.payload 3)).field ++ wordBytes s.status.generation) := if_pos current

theorem clearStatus_of_stale (stale : wordAt r.payload 5 ≠ s.status.generation) :
    clearStatus r s = respond s r .stale (s.status.field ++ wordBytes s.status.generation) := if_neg stale

theorem exec_clearStatus_of_handles {rest : List Frame} (h : s.Handles .clearStatus r rest) (length : r.payload.length = 9) :
    exec .clearStatus s = .next (settle (clearStatus r (s.takeRequest rest))) :=
  handleRequest_of_consistent h (by simp [requestConsistent, length]) clearStatus

end Clear

/-- Settles O57: the mask clears bit by bit (`clear_getLsbD`), under the current generation only. -/
theorem clearStatusNeedsTheGeneration : Obligations.ClearStatusNeedsTheGeneration := by
  intro s r rest handles length
  rw [exec_clearStatus_of_handles handles length]
  refine ⟨fun current => ⟨(s.status.clear (halfAt r.payload 3)).bits, fun i low => clear_getLsbD _ _ low, ?_⟩,
    fun stale => ?_⟩
  · rw [clearStatus_of_current (s := s.takeRequest rest) current]
    rfl
  · rw [clearStatus_of_stale (s := s.takeRequest rest) stale]
    rfl

/-! ### The parameters (Table 10-2) -/

theorem accepts_iff (id : ParamId) (v : Int) : id.accepts v = true ↔
    id.range.1 ≤ v ∧ v ≤ id.range.2 ∧ (id = .spacing → v = 125000 ∨ v = 250000 ∨ v = 500000) := by
  simp only [ParamId.accepts, Bool.and_eq_true, Bool.or_eq_true, decide_eq_true_eq, and_assoc, ← imp_iff_not_or]

/-- The code of a parameter's identity. -/
def ParamId.code : ParamId → Nat
  | .recorderAddr => 1
  | .prioResponse => 2
  | .prioNote => 3
  | .prioException => 4
  | .prioGeometry => 5
  | .prioForward => 6
  | .encCpr => 10
  | .wheelCirc => 11
  | .spacing => 12
  | .assemblyTimeout => 20
  | .degradeCount => 21
  | .recoverCount => 22
  | .gaugeDepth => 23
  | .gaugeWindow => 24
  | .shortChord => 30
  | .longChord => 31
  | .twistBase => 32
  | .nominalGauge => 33
  | .railSpacing => 34
  | .headHeight => 35
  | .vMin => 36
  | .tagOffset => 40
  | .captureWindow => 41
  | .defaultClass => 42
  | .voidClose => 50
  | .markSeverity => 51
  | .sprayOffset => 60
  | .markLatency => 61
  | .markSpacing => 62
  | .markPulse => 63
  | .flushTime => 70

theorem ParamId.ofCode_code (id : ParamId) : ParamId.ofCode (BitVec.ofNat 8 id.code) = some id := by cases id <;> rfl

theorem ParamId.toNat_of_ofCode {b : Byte} {id : ParamId} (h : ParamId.ofCode b = some id) : b.toNat = id.code := by
  unfold ParamId.ofCode at h
  split at h <;> cases h <;> assumption

/-- What every row of a list of parameters with their codes, ranges and locks says holds of each of its rows. -/
theorem paramRow_of_listed {rows : List (Nat × ParamId × Int × Int × Bool)} {code : Nat} {id : ParamId} {lo hi : Int}
    {locked : Bool} (listed : (code, id, lo, hi, locked) ∈ rows)
    (agree : ∀ row ∈ rows, row = (row.2.1.code, row.2.1, row.2.1.range.1, row.2.1.range.2, row.2.1.runLocked)) :
    code = id.code ∧ lo = id.range.1 ∧ hi = id.range.2 ∧ locked = id.runLocked := by
  simpa using agree _ listed

/-- A code that no row of a list of all the parameters has is no parameter's. -/
theorem ParamId.ofCode_of_unlisted {rows : List (Nat × ParamId × Int × Int × Bool)} {b : Byte}
    (unlisted : ∀ row ∈ rows, row.1 ≠ b.toNat) (all : ∀ id : ParamId, ∃ row ∈ rows, row.1 = id.code) :
    ParamId.ofCode b = none := by
  cases found : ParamId.ofCode b with
  | none => rfl
  | some id =>
    obtain ⟨row, mem, code⟩ := all id
    exact (unlisted row mem (code.trans (ParamId.toNat_of_ofCode found).symm)).elim

/-! ### The steps of SET_PARAM (R172) -/

section Set

variable {s : State} {r : Frame}

theorem setParam_of_unknown (unknown : ParamId.ofCode (byteAt r.payload 3) = none) :
    setParam r s = respond s r .badParam [] := by
  simp only [setParam, unknown]

variable {id : ParamId} (known : ParamId.ofCode (byteAt r.payload 3) = some id)
include known

theorem setParam_of_locked (locked : id.runLocked = true) (running : s.run.state ≠ .idle) :
    setParam r s = respond s r .busy (s.paramFields r id) := by
  simp only [setParam, known]
  exact if_pos (by simp [locked, running])

/-- A parameter that is not locked is judged by its range alone. -/
theorem setParam_of_unlocked (unlocked : id.runLocked = false ∨ s.run.state = .idle) : setParam r s =
    if id.accepts (wordAt r.payload 4).toInt then
      respond (s.withParams (s.params.set id (wordAt r.payload 4).toInt)) r .done
        ((s.withParams (s.params.set id (wordAt r.payload 4).toInt)).paramFields r id)
    else respond s r .badParam (s.paramFields r id) := by
  simp only [setParam, known]
  exact if_neg (by simpa [or_iff_not_imp_left] using unlocked)

theorem setParam_of_outside (unlocked : id.runLocked = false ∨ s.run.state = .idle)
    (outside : id.accepts (wordAt r.payload 4).toInt = false) :
    setParam r s = respond s r .badParam (s.paramFields r id) := by
  rw [setParam_of_unlocked known unlocked, outside]
  rfl

theorem setParam_of_accepted (unlocked : id.runLocked = false ∨ s.run.state = .idle)
    (accepted : id.accepts (wordAt r.payload 4).toInt = true) :
    setParam r s = respond (s.withParams (s.params.set id (wordAt r.payload 4).toInt)) r .done
      (byteAt r.payload 3 :: wordBytes (BitVec.ofInt 32 (wordAt r.payload 4).toInt)) := by
  have stored : (s.params.set id (wordAt r.payload 4).toInt).get id = (wordAt r.payload 4).toInt :=
    s.params.get_set_self accepted
  rw [setParam_of_unlocked known unlocked, if_pos accepted, State.paramFields, State.withParams_params, stored]
  rfl

end Set

theorem exec_setParam_of_handles {s : State} {r : Frame} {rest : List Frame} (h : s.Handles .setParam r rest)
    (length : r.payload.length = 8) : exec .setParam s = .next (settle (setParam r (s.takeRequest rest))) :=
  handleRequest_of_consistent h (by simp [requestConsistent, length]) setParam

/-- Settles O58: Table 10-2 row by row, and the four outcomes of R172 in their order. -/
theorem setParamIsJudgedInOrder : Obligations.SetParamIsJudgedInOrder := by
  refine ⟨⟨fun code id lo hi locked listed => ?_, fun b unlisted => ?_, fun p => rfl⟩, fun s r rest handles length => ?_⟩
  · obtain ⟨rfl, rfl, rfl, rfl⟩ := paramRow_of_listed listed (by decide)
    exact ⟨id.ofCode_code, rfl, accepts_iff id⟩
  · exact ParamId.ofCode_of_unlisted unlisted (by intro id; cases id <;> decide)
  · rw [exec_setParam_of_handles handles length]
    refine ⟨fun unknown => ?_, fun id known => ⟨fun locked running => ?_, fun unlocked => ⟨fun outside => ?_,
      fun accepted => ⟨s.params.set id (wordAt r.payload 4).toInt, s.params.get_set_self accepted,
        fun id' other => s.params.get_set_other _ other, ?_⟩⟩⟩⟩
    · rw [setParam_of_unknown unknown]
    · rw [setParam_of_locked (s := s.takeRequest rest) known locked running]
      rfl
    · rw [setParam_of_outside (s := s.takeRequest rest) known unlocked outside]
      rfl
    · rw [setParam_of_accepted (s := s.takeRequest rest) known unlocked accepted]
      rfl

end Sys2Proof.Machine
end

section
/-! # TABLE_OPEN, TABLE_LINE and TABLE_ABORT (R176, R177, R180) -/

namespace Sys2Proof.Machine

/-! ### The pieces of a line -/

theorem chunks_flatten (size count : Nat) (p : List Byte) : (chunks size count p).flatten = p.take (size * count) := by
  induction count generalizing p with
  | zero => rfl
  | succ n ih => rw [chunks, List.flatten_cons, ih, Nat.mul_succ, Nat.add_comm, List.take_add]

section Loads

variable {s : State} {r : Frame} {T : Table} {lines : Nat} {entries : List (List Byte)} {requester : Byte} {tag : Half}

/-! ### TABLE_OPEN -/

theorem tableOpen_of_noTable (noTable : Table.ofCode (byteAt r.payload 3) = none) :
    tableOpen r s = respond s r .badParam [] := by
  simp only [tableOpen, noTable]

theorem tableOpen_of_busy (code : byteAt r.payload 3 = BitVec.ofNat 8 T.code) (busy : s.req.staging ≠ .closed) :
    tableOpen r s = respond s r .busy [] := by
  simp only [tableOpen, code, Table.ofCode_code]
  exact if_pos busy

theorem tableOpen_of_running (code : byteAt r.payload 3 = BitVec.ofNat 8 T.code) (closed : s.req.staging = .closed)
    (roster : T = .roster) (running : s.run.state ≠ .idle) : tableOpen r s = respond s r .refusedRunning [] := by
  simp only [tableOpen, code, Table.ofCode_code]
  rw [if_neg (not_not.mpr closed), if_pos ⟨roster, running⟩]

theorem tableOpen_of_free (code : byteAt r.payload 3 = BitVec.ofNat 8 T.code) (closed : s.req.staging = .closed)
    (still : T = .roster → s.run.state = .idle) :
    tableOpen r s = respond (s.withReq { s.req with staging := .opened T 0 [] }) r .done [] := by
  simp only [tableOpen, code, Table.ofCode_code]
  rw [if_neg (not_not.mpr closed), if_neg fun h => h.2 (still h.1)]

theorem exec_tableOpen_of_handles {rest : List Frame} (h : s.Handles .tableOpen r rest) (length : r.payload.length = 4) :
    exec .tableOpen s = .next (settle (tableOpen r (s.takeRequest rest))) :=
  handleRequest_of_consistent h (by simp [requestConsistent, length]) tableOpen

/-! ### TABLE_ABORT -/

theorem tableAbort_of_closed (closed : s.req.staging = .closed) : tableAbort r s = respond s r .noLoad [] := by
  simp only [tableAbort, closed]

theorem tableAbort_of_pending (pending : s.req.staging = .pending T entries requester tag) :
    tableAbort r s = respond s r .busy [] := by
  simp only [tableAbort, pending]

theorem tableAbort_of_opened (opened : s.req.staging = .opened T lines entries) :
    tableAbort r s = respond (s.withReq { s.req with staging := .closed }) r .done [] := by
  simp only [tableAbort, opened]

theorem exec_tableAbort_of_handles {rest : List Frame} (h : s.Handles .tableAbort r rest) (length : r.payload.length = 3) :
    exec .tableAbort s = .next (settle (tableAbort r (s.takeRequest rest))) :=
  handleRequest_of_consistent h (by simp [requestConsistent, length]) tableAbort

/-! ### TABLE_LINE -/

theorem respondLine_of_closed (closed : s.req.staging = .closed) (code : ResultCode) :
    respondLine s r code = respond s r code [] := by
  simp only [respondLine, closed]

theorem respondLine_of_pending (pending : s.req.staging = .pending T entries requester tag) (code : ResultCode) :
    respondLine s r code = respond s r code [] := by
  simp only [respondLine, pending]

theorem respondLine_of_opened (opened : s.req.staging = .opened T lines entries) (code : ResultCode) :
    respondLine s r code = respond s r code (nat16 lines ++ nat16 entries.length) := by
  simp only [respondLine, opened]

theorem tableLine_of_short (short : r.payload.length < 6) : tableLine r s = respondLine s r .badParam :=
  if_pos (by simp [requestConsistent, short])

section Long

variable (long : 6 ≤ r.payload.length)
include long

theorem tableLine_of_closed (closed : s.req.staging = .closed) : tableLine r s = respond s r .noLoad [] := by
  simp [tableLine, requestConsistent, long, closed, respondLine_of_closed closed]

theorem tableLine_of_pending (pending : s.req.staging = .pending T entries requester tag) :
    tableLine r s = respond s r .busy [] := by
  simp [tableLine, requestConsistent, long, pending, respondLine_of_pending pending]

variable (opened : s.req.staging = .opened T lines entries)
include opened

/-- The steps of R177 on an open load. -/
theorem tableLine_of_opened : let count := (byteAt r.payload 5).toNat
    tableLine r s =
      if count = 0 ∨ 8 < count ∨ r.payload.length ≠ 6 + count * T.entrySize then respondLine s r .badParam
      else if (halfAt r.payload 3).toNat ≠ lines then respondLine s r .lineOrder
      else if T.capacity < entries.length + count then respondLine s r .stagingFull
      else respondLine (s.withReq { s.req with
        staging := .opened T (lines + 1) (entries ++ chunks T.entrySize count (r.payload.drop 6)) }) r .done := by
  simp only [tableLine, requestConsistent, long, opened, decide_true, Bool.not_true, Bool.false_eq_true, if_false]

end Long

/-- A line of 1 to 8 whole entries of the open table: step 2 of R177 does not refuse it. -/
def LineFits (r : Frame) (T : Table) : Prop :=
  1 ≤ (byteAt r.payload 5).toNat ∧ (byteAt r.payload 5).toNat ≤ 8
    ∧ r.payload.length = 6 + (byteAt r.payload 5).toNat * T.entrySize

section Opened

variable (opened : s.req.staging = .opened T lines entries)
include opened

theorem tableLine_of_unfit (long : 6 ≤ r.payload.length) (unfit : ¬LineFits r T) :
    tableLine r s = respond s r .badParam (nat16 lines ++ nat16 entries.length) := by
  rw [tableLine_of_opened long opened, if_pos (by unfold LineFits at unfit; omega), respondLine_of_opened opened]

theorem tableLine_of_fits (fits : LineFits r T) : let count := (byteAt r.payload 5).toNat
    tableLine r s =
      if (halfAt r.payload 3).toNat ≠ lines then respondLine s r .lineOrder
      else if T.capacity < entries.length + count then respondLine s r .stagingFull
      else respondLine (s.withReq { s.req with
        staging := .opened T (lines + 1) (entries ++ chunks T.entrySize count (r.payload.drop 6)) }) r .done := by
  obtain ⟨low, high, length⟩ := fits
  exact (tableLine_of_opened (by omega) opened).trans (if_neg (by omega))

theorem tableLine_of_order (fits : LineFits r T) (other : (halfAt r.payload 3).toNat ≠ lines) :
    tableLine r s = respond s r .lineOrder (nat16 lines ++ nat16 entries.length) := by
  rw [tableLine_of_fits opened fits, if_pos other, respondLine_of_opened opened]

theorem tableLine_of_full (fits : LineFits r T) (next : (halfAt r.payload 3).toNat = lines)
    (full : T.capacity < entries.length + (byteAt r.payload 5).toNat) :
    tableLine r s = respond s r .stagingFull (nat16 lines ++ nat16 entries.length) := by
  rw [tableLine_of_fits opened fits, if_neg (not_not.mpr next), if_pos full, respondLine_of_opened opened]

theorem tableLine_of_room (fits : LineFits r T) (next : (halfAt r.payload 3).toNat = lines)
    (room : entries.length + (byteAt r.payload 5).toNat ≤ T.capacity) :
    let staged := chunks T.entrySize (byteAt r.payload 5).toNat (r.payload.drop 6)
    tableLine r s = respond (s.withReq { s.req with staging := .opened T (lines + 1) (entries ++ staged) }) r .done
      (nat16 (lines + 1) ++ nat16 (entries.length + (byteAt r.payload 5).toNat)) := by
  dsimp only
  rw [tableLine_of_fits opened fits, if_neg (not_not.mpr next), if_neg room.not_gt, respondLine_of_opened rfl,
    List.length_append, chunks_length]

end Opened

/-- The pieces of a line that fits are whole entries, and together the line behind its header. -/
theorem chunks_of_fits (fits : LineFits r T) :
    let staged := chunks T.entrySize (byteAt r.payload 5).toNat (r.payload.drop 6)
    (∀ e ∈ staged, e.length = T.entrySize) ∧ staged.flatten = r.payload.drop 6 := by
  obtain ⟨-, -, length⟩ := fits
  have size : (r.payload.drop 6).length = T.entrySize * (byteAt r.payload 5).toNat := by
    rw [List.length_drop, length, Nat.mul_comm, Nat.add_sub_cancel_left]
  refine ⟨fun e mem => length_of_mem_chunks size.ge mem, ?_⟩
  rw [chunks_flatten, ← size, List.take_length]

theorem exec_tableLine_of_handles {rest : List Frame} (h : s.Handles .tableLine r rest) :
    exec .tableLine s = .next (settle (tableLine r (s.takeRequest rest))) := handleRequest_of_handles h tableLine

end Loads

/-- Settles O59: the steps of R176, R177 and R180 in their order; the staged entries are the pieces of the line
(`chunks_of_fits`). -/
theorem loadsAreStaged : Obligations.LoadsAreStaged := by
  refine ⟨rfl, fun s r rest => ⟨fun handles length => ?_, fun handles length => ?_, fun handles short => ?_,
    fun handles long => ?_⟩⟩
  · rw [exec_tableOpen_of_handles handles length]
    refine ⟨fun noTable => ?_, fun T code => ⟨fun busy => ?_, fun closed roster running => ?_, fun closed still => ?_⟩⟩
    · rw [tableOpen_of_noTable (Table.ofCode_eq_none noTable)]
    · rw [tableOpen_of_busy (s := s.takeRequest rest) code busy]
    · rw [tableOpen_of_running (s := s.takeRequest rest) code closed roster running]
    · rw [tableOpen_of_free (s := s.takeRequest rest) code closed still]
  · rw [exec_tableAbort_of_handles handles length]
    refine ⟨fun T lines entries opened => ?_, fun closed => ?_, fun T entries requester tag pending => ?_⟩
    · rw [tableAbort_of_opened (s := s.takeRequest rest) opened]
    · rw [tableAbort_of_closed (s := s.takeRequest rest) closed]
    · rw [tableAbort_of_pending (s := s.takeRequest rest) pending]
  · rw [exec_tableLine_of_handles handles, tableLine_of_short short]
    cases staging : s.req.staging with
    | closed => rw [respondLine_of_closed (s := s.takeRequest rest) staging]
    | opened T lines entries => rw [respondLine_of_opened (s := s.takeRequest rest) staging]
    | pending T entries requester tag => rw [respondLine_of_pending (s := s.takeRequest rest) staging]
  · rw [exec_tableLine_of_handles handles]
    refine ⟨fun closed => ?_, fun T entries requester tag pending => ?_, fun T lines entries opened =>
      ⟨fun unfit => ?_, fun fits other => ?_, fun fits next full => ?_, fun fits next room => ?_⟩⟩
    · rw [tableLine_of_closed (s := s.takeRequest rest) long closed]
    · rw [tableLine_of_pending (s := s.takeRequest rest) long pending]
    · rw [tableLine_of_unfit (s := s.takeRequest rest) opened long unfit]
    · rw [tableLine_of_order (s := s.takeRequest rest) opened fits other]
    · rw [tableLine_of_full (s := s.takeRequest rest) opened fits next full]
    · obtain ⟨whole, joined⟩ := chunks_of_fits fits
      refine ⟨_, chunks_length _ _ _, whole, joined, ?_⟩
      rw [tableLine_of_room (s := s.takeRequest rest) opened fits next room]

end Sys2Proof.Machine
end

section
/-! # Division rounds to nearest, ties away from zero (chapter 00, Arithmetic) -/

namespace Sys2Proof.Machine

theorem roundDiv_of_nonneg {a : Int} (h : 0 ≤ a) (b : Nat) : roundDiv a b = (2 * a + b) / (2 * b) := if_pos h

/-- The rounding treats both signs alike. -/
theorem roundDiv_neg_of_pos {a : Int} (h : 0 < a) (b : Nat) : roundDiv (-a) b = -roundDiv a b := by
  rw [roundDiv_of_nonneg h.le, roundDiv, if_neg (by omega), neg_neg]

/-- The multiple of the divisor lies at most half a divisor above a dividend that is not negative, and less than half a
divisor below it: a tie goes up. -/
theorem roundDiv_mul_bounds {a : Int} {b : Nat} (h : 0 ≤ a) (pos : 0 < b) :
    2 * (roundDiv a b * b) ≤ 2 * a + b ∧ 2 * a < 2 * (roundDiv a b * b) + b := by
  have positive : (0 : Int) < 2 * b := by omega
  have scaled : roundDiv a b * (2 * b) = 2 * (roundDiv a b * b) := mul_left_comm _ _ _
  have below := Int.ediv_mul_le (2 * a + b) positive.ne'
  have above := Int.lt_ediv_add_one_mul_self (2 * a + b) positive
  rw [← roundDiv_of_nonneg h, add_one_mul] at above
  rw [← roundDiv_of_nonneg h] at below
  omega

theorem roundDiv_nearest_of_nonneg {a : Int} {b : Nat} (h : 0 ≤ a) (pos : 0 < b) :
    2 * (a - roundDiv a b * b).natAbs ≤ b
      ∧ (2 * (a - roundDiv a b * b).natAbs = b → a.natAbs < (roundDiv a b * b).natAbs) := by
  obtain ⟨below, above⟩ := roundDiv_mul_bounds h pos
  omega

/-- Settles O43: of a dividend that is not negative by the bounds of the multiple (`roundDiv_mul_bounds`), of a negative one
by the symmetry of the rounding. -/
theorem divisionRoundsToNearest : Obligations.DivisionRoundsToNearest := by
  intro a b pos
  obtain nonneg | negative := le_or_gt 0 a
  · exact roundDiv_nearest_of_nonneg nonneg pos
  · have opposite : roundDiv a b * b = -(roundDiv (-a) b * b) := by
      rw [← neg_mul, ← roundDiv_neg_of_pos (neg_pos.mpr negative), neg_neg]
    obtain ⟨near, ties⟩ := roundDiv_nearest_of_nonneg (a := -a) (by omega) pos
    rw [opposite]
    omega

end Sys2Proof.Machine
end

section
/-! # A step, and the frame of every command (95_what_each_step_holds.md)

The frame of a command joins its event (`exec_event`) and the choices of the transmitters. `Region.event` takes the two ports
of PORT_DOWN together, where `changedBy` tells them apart, so that command's frame is proved port by port. -/

namespace Sys2Proof.Machine

/-- Settles O1: `step` by the queue. -/
theorem stepTakesFrontCommand : Obligations.StepTakesFrontCommand := by
  intro s c rest front
  rw [step, front]

/-! ### Every command answers a next state -/

theorem ite_next (p : Prop) [Decidable p] (x y : State) :
    ∃ t, (if p then .next x else .next y : Result) = .next t := by
  split
  · exact ⟨x, rfl⟩
  · exact ⟨y, rfl⟩

theorem handleRequest_next (kind : RequestKind) (handling : Frame → State → State) (s : State) :
    ∃ t, handleRequest kind handling s = .next t := by
  unfold handleRequest
  split
  · exact ⟨s, rfl⟩
  · exact ite_next _ _ _

theorem exec_next (c : Instr) (s : State) : ∃ t, exec c s = .next t := by
  cases c with
  | portAReceive | portBReceive | drainComplete => exact ite_next _ _ _
  | queryStatus | clearStatus | setParam | getParam | tableOpen | tableLine | tableApply | tableAbort | readEntry | runStart
  | runStop | setChainage | readCounters | softReset | unknownRequest => exact handleRequest_next _ _ s
  | _ => exact ⟨_, rfl⟩

/-! ### What is listed for a command -/

theorem sent_subset_changedBy (c : Instr) : Region.sent ⊆ changedBy c := by
  cases c with
  | portDown wait port partly => cases port <;> simp only [changedBy] <;> decide
  | _ => simp only [changedBy]; decide

theorem event_subset_changedBy {c : Instr} (notDown : ∀ wait port partly, c ≠ .portDown wait port partly) :
    Region.event c ⊆ changedBy c := by
  cases c with
  | portDown wait port partly => exact (notDown wait port partly rfl).elim
  | _ => simp only [Region.event, changedBy]; decide

/-- Neither the queue of waiting commands nor the count of free choices is listed for any command. -/
theorem queue_draws_not_in_changedBy (c : Instr) : .queue ∉ changedBy c ∧ .draws ∉ changedBy c := by
  cases c with
  | portDown wait port partly => cases port <;> simp only [changedBy] <;> decide
  | _ => simp only [changedBy]; decide

theorem eq_queue_or_draws_of_not_held {r : Region} (h : r ∉ Region.held) : r = .queue ∨ r = .draws := by
  cases r <;> simp_all

/-! ### The frame of a command -/

/-- An event and the transmitters' choices change what the two may. -/
theorem State.EventLeads.changesOnly {s t : State} {l l' : List Region} (h : s.EventLeads l t) (event : l ⊆ l')
    (sent : Region.sent ⊆ l') : s.ChangesOnly l' t := fun _ unlisted =>
  h.agrees (fun mem => unlisted (event mem)) fun mem => unlisted (sent mem)

theorem hardwareResetState_changes (s : State) (straps : BitVec 3) (encA encB : Bool) :
    s.ChangesOnly Region.held (hardwareResetState s straps encA encB) := by
  intro r unheld
  obtain rfl | rfl := eq_queue_or_draws_of_not_held unheld
  · rfl
  · rfl

theorem downA_changes (s : State) (partly : Bool) :
    s.ChangesOnly ([.ports, .fires, .countersA] ++ Region.noted) (downA s partly) := by
  have down : s.ChangesOnly ([.ports, .fires, .countersA] ++ Region.noted)
      (s.withLink { s.link with upA := false, fires := [] }) := by
    intro r hr
    cases r <;> simp_all [State.Agrees]
  exact .ite (.then (.then down (countReceivedA_changes _) (by decide)) (errorA_changes _) (by decide)) down

theorem downB_changes (s : State) (partly : Bool) :
    s.ChangesOnly ([.ports, .countersB] ++ Region.noted) (downB s partly) := by
  have down : s.ChangesOnly ([.ports, .countersB] ++ Region.noted) (s.withLink { s.link with upB := false }) := by
    intro r hr
    cases r <;> simp_all [State.Agrees]
  exact .ite (.then (.then down (countReceivedB_changes _) (by decide)) (errorB_changes _) (by decide)) down

/-- PORT_DOWN changes the counters of its own port only. -/
theorem exec_portDown_changes {wait : Nat} {port : Port} {partly : Bool} {s t : State}
    (e : exec (.portDown wait port partly) s = .next t) :
    (s.after wait).ChangesOnly (changedBy (.portDown wait port partly)) t := by
  cases e
  refine .then ?_ (settle_changes _) (sent_subset_changedBy _)
  cases port with
  | A => exact .ite ((downA_changes _ partly).mono (by simp only [changedBy]; decide)) (.refl _ _)
  | B => exact .ite ((downB_changes _ partly).mono (by simp only [changedBy]; decide)) (.refl _ _)

/-- From its moment on a command changes only what is listed for it. -/
theorem exec_changes {c : Instr} {s t : State} (e : exec c s = .next t) :
    (s.before c).ChangesOnly (changedBy c) t := by
  cases c with
  | hardwareReset straps encA encB =>
    cases e
    exact hardwareResetState_changes s straps encA encB
  | portDown wait port partly => exact exec_portDown_changes e
  | _ => exact (exec_event e nofun).changesOnly (event_subset_changedBy nofun) (sent_subset_changedBy _)

/-- Settles O3: every command answers (`exec_next`), the frame of a wait is `before_changes`, that of the command
`exec_changes`; neither names the queue, and only that of the wait names the count of free choices. -/
theorem everyCommandCompletesInItsFrame : Obligations.EveryCommandCompletesInItsFrame := by
  intro c s
  obtain ⟨t, answers⟩ := exec_next c s
  have waited := before_changes s c
  have changed := exec_changes answers
  obtain ⟨queue, draws⟩ := queue_draws_not_in_changedBy c
  exact ⟨t, answers, waited, changed, (waited .queue (by decide)).trans (changed .queue queue), changed .draws draws⟩

end Sys2Proof.Machine
end
